-- ==== Sys2Proof/Word.lean ====
section
/-! DEFINITION. Sys2Proof/Word.lean: the word types of the Turwenus 9 (R7) and the flag positions of FFLAGS (R35). -/

namespace Sys2Proof

/-- One byte of memory (R6). -/
abbrev Byte := BitVec 8
/-- A half, 16 bits (R7). -/
abbrev Half16 := BitVec 16
/-- A word, 32 bits: one lane of one vector register, or one scalar register (R7, R12). -/
abbrev Word := BitVec 32
/-- A double, 64 bits (R7). -/
abbrev Double := BitVec 64
/-- An instruction word, 64 bits, stored little-endian (R6, R74). -/
abbrev IWord := BitVec 64
/-- A lane mask: lane i occupies bit i (R6). -/
abbrev Mask := BitVec 32
/-- The seven flags of FFLAGS at their positions (R35). -/
abbrev FFlags := BitVec 7

end Sys2Proof
end

