-- ==== Sys2Proof/Machine/Bits.lean ====
section
/-! DEFINITION. Sys2Proof/Machine/Bits.lean: bit fields, sign extension, byte order and lane masks (R6, R10, R52, R116). -/

namespace Sys2Proof.Machine

open Sys2Proof

/-- Bits [lo+n−1:lo] of `x` (R6). -/
def bits (x : BitVec w) (lo n : Nat) : BitVec n := x.extractLsb' lo n

/-- Bit `i` of `x`. -/
def bit (x : BitVec w) (i : Nat) : Bool := x.getLsbD i

/-- `x` with bits [lo+n−1:lo] replaced by `y`. -/
def putBits (x : BitVec w) (lo : Nat) (y : BitVec n) : BitVec w :=
  (x &&& ~~~((BitVec.allOnes n).setWidth w <<< lo)) ||| (y.setWidth w <<< lo)

/-- A Bool as a one-bit or wider number. -/
def bOf (b : Bool) : BitVec w := if b then 1#w else 0#w

/-- The number of 1 bits of `x` (popc, R121). -/
def popcount (x : BitVec w) : Nat := ((List.range w).filter (fun i => x.getLsbD i)).length

/-- Leading zeros of a 32-bit value, 32 for zero (R121). -/
def clz32 (x : Word) : Nat := if x = 0 then 32 else 31 - Nat.log2 x.toNat

/-- The lowest 1 bit of `x`, if any. -/
def lowBit (x : BitVec w) : Option Nat := (List.range w).find? (fun i => x.getLsbD i)

/-- Trailing zeros of a 32-bit value, 32 for zero (R121). -/
def ctz32 (x : Word) : Nat := (lowBit x).getD 32

/-- Bit i moved to bit 31 − i (R121). -/
def brev32 (x : Word) : Word :=
  (List.range 32).foldl (fun acc i => if x.getLsbD i then acc ||| (1#32 <<< (31 - i)) else acc) 0#32

/-- The bytes of a value, lowest address first (R6). -/
def bytesOf (n : Nat) (x : BitVec w) : List Byte := (List.range n).map (fun i => x.extractLsb' (8 * i) 8)

/-- The value of a little-endian byte list (R6). -/
def ofBytes (w : Nat) (bs : List Byte) : BitVec w :=
  bs.foldr (fun b acc => (acc <<< 8) ||| b.setWidth w) 0#w

/-- The lanes, in increasing number. -/
def lanes : List Nat := List.range 32

/-- The lanes of a mask, in increasing number. -/
def lanesOf (m : Mask) : List Nat := lanes.filter (fun i => m.getLsbD i)

/-- The mask of the lanes satisfying `f`. -/
def maskOf (f : Nat → Bool) : Mask :=
  lanes.foldl (fun acc i => if f i then acc ||| (1#32 <<< i) else acc) 0#32

/-- The mask with bit `i` set to `b`. -/
def setBit (x : BitVec w) (i : Nat) (b : Bool) : BitVec w :=
  if b then x ||| (1#w <<< i) else x &&& ~~~(1#w <<< i)

/-- Sign-extension of the low `n` bits of a number, as an integer. -/
def signedOf (n v : Nat) : Int :=
  if n = 0 then 0 else if v % 2 ^ n < 2 ^ (n - 1) then ((v % 2 ^ n : Nat) : Int) else ((v % 2 ^ n : Nat) : Int) - (2 ^ n : Nat)

/-- An integer modulo 2^w as bits (R115). -/
def wrap (w : Nat) (x : Int) : BitVec w := BitVec.ofInt w x

/-- A 64-bit value of two registers: the even one holds bits [31:0] (R16). -/
def pairVal (lo hi : Word) : Double := (hi.setWidth 64 <<< 32) ||| lo.setWidth 64

/-- The smallest of a list of numbers, if any. -/
def listMin : List Nat → Option Nat
  | [] => none
  | x :: xs => match listMin xs with
    | none => some x
    | some y => some (min x y)

/-- Rounds up to a multiple of `m`. -/
def roundUp (x m : Nat) : Nat := if m = 0 then x else (x + m - 1) / m * m

end Sys2Proof.Machine
end

