-- ==== Sys2Proof/Syntax.lean ====
section
/-! DEFINITION. Sys2Proof/Syntax.lean: the steps of the machine, one constructor per row of spec/opcode_table.json. An instruction
word carries its fields (R75–R84, R90, R96); a device step, a host action or an outside event carries what names it. -/

namespace Sys2Proof

/-- The guard of a full word (R75). -/
structure Guard where
  neg : Bool
  idx : BitVec 6
deriving DecidableEq, Repr

/-- A full word of class FR (R77, R78); `mid` is bits [16:7]: DS, clamp, nA, aA, nB, aB, nC, aC, or a lut. -/
structure FrWord where
  g : Guard
  d : BitVec 8
  a : BitVec 8
  b : BitVec 8
  c : BitVec 8
  mid : BitVec 10
  typ : BitVec 4
  sel : BitVec 3
deriving DecidableEq, Repr

/-- A full word of class FI (R80). -/
structure FiWord where
  g : Guard
  d : BitVec 8
  a : BitVec 8
  imm : BitVec 32
  v : BitVec 1
deriving DecidableEq, Repr

/-- A full word of class FM (R81). -/
structure FmWord where
  g : Guard
  d : BitVec 8
  base : BitVec 8
  idx : BitVec 8
  off : BitVec 20
  minor : BitVec 5
deriving DecidableEq, Repr

/-- A full word of class FB (R82). -/
structure FbWord where
  g : Guard
  toff : BitVec 32
  joff : BitVec 16
  dh : BitVec 1
deriving DecidableEq, Repr

/-- A full word of class FT (R83). -/
structure FtWord where
  g : Guard
  hd : BitVec 6
  ha : BitVec 6
  hb : BitVec 6
  v8 : BitVec 8
  s6 : BitVec 6
  flag : BitVec 4
  opt : BitVec 6
  minor : BitVec 7
deriving DecidableEq, Repr

/-- A full word of class FS (R84). -/
structure FsWord where
  g : Guard
  d : BitVec 8
  a : BitVec 8
  imm : BitVec 16
  res : BitVec 10
  minor : BitVec 7
deriving DecidableEq, Repr

/-- A clause header (R96). -/
structure Header where
  n1 : BitVec 4
  wait : BitVec 12
  set1 : BitVec 4
  set2 : BitVec 4
  reg : Bool
  yld : Bool
  low : BitVec 30
deriving DecidableEq, Repr

/-- One slot of a paired word (R90). -/
structure Half where
  hop : BitVec 6
  pg : BitVec 3
  d : BitVec 8
  b : BitVec 8
  nB : Bool
  aB : Bool
  imm : BitVec 4
deriving DecidableEq, Repr

/-- What another rank of a compositing collective brings: its header, its partials, ORDER rows, gradients and ROUTE bytes
(R436–R438). -/
structure Peer where
  rank : Nat
  op : Nat
  shards : Nat
  tiles : Nat
  tile : Nat
  coll : Nat
  part : List Byte
  order : List Byte
  grad : List Byte
  route : List Byte
deriving DecidableEq, Repr

/-- What bring-up finds: cores whose self-test fails, second-tier ports with a device and its capacity in bytes, a rail that misses its
power-good window (R428, R453, R474, R479). -/
structure BringUp where
  bad : List Nat
  ports : List (Nat × Nat)
  /-- at power-on: how many rails come up before one misses its power-good window; none when none misses (R474) -/
  miss : Option Nat := none
deriving DecidableEq, Repr

/-- The stores that SECDED protects (R456): HBM4, L2 and the second tier by physical address; a unit's scratchpad and vault; a
core's operand and accumulator slots. -/
inductive Store where
  | mem | scratch | vault | operand | acc
deriving DecidableEq, Repr

/-- What a read of a protected word finds (R296, R456): nothing, a single-bit error, an uncorrectable error; an uncorrectable error of
a clean L2 line, of a dirty L2 line; a parity error of a block's compression state; a parity error of an entry of a tag store, a record
cache, a TLB or, with `yard`, a table of the Yard: the entry is rebuilt or, with `lost`, cannot be. -/
inductive Finding where
  | sound | corrected | lost | lostClean | lostDirty | parity
  | entry (yard lost : Bool)
deriving DecidableEq, Repr

/-- A step of the machine: the instruction words and the device's steps in the table's order; then the steps that only the outside takes;
then the steps without an argument. -/
inductive Instr where
  /-- R99: A split reaches a clause header: it waits on WAIT flags, traps on flag errors, commits the region when REG=1, honours the yield hint, then issues the clause. -/
  | clauseHeader (h : Header)
  /-- R22: A split held at a header wait resumes on the clock after the last named flag count reaches zero. -/
  | clauseWaitResume (gid sp : Nat)
  /-- R21: A long-latency operation completes, decrementing its completion flag count and recording any error cause. -/
  | flagCompletion (oid : Nat)
  /-- R271: Each clk a quarter chooses a ready group by due status, priority class, age and slot, then a split by rotation, and issues one word. -/
  | issueCycle (core quarter : Nat) (bad : Option Nat)
  /-- R271: A group's age count reaches 48 and the group becomes due, taking precedence in its quarter. -/
  | groupDue (gid : Nat)
  /-- R93: A paired word issues both half instructions together, both reading pre-word values, with pairing checked under R94. -/
  | pairedWord (a b : Half) (low : BitVec 1)
  /-- R120: Integer add with optional clamp. -/
  | iadd (w : FrWord)
  /-- R120: Integer subtract with optional clamp. -/
  | isub (w : FrWord)
  /-- R120: Integer multiply with optional clamp. -/
  | imul (w : FrWord)
  /-- R120: High 32 bits of the 64-bit product. -/
  | imulhi (w : FrWord)
  /-- R120: Integer multiply-add. -/
  | imad (w : FrWord)
  /-- R120: Widening multiply-add into a 64-bit pair. -/
  | imadw (w : FrWord)
  /-- R120: Integer minimum. -/
  | iminmaxMin (w : FrWord)
  /-- R120: Integer maximum. -/
  | iminmaxMax (w : FrWord)
  /-- R120: Sum of absolute differences plus addend. -/
  | isad (w : FrWord)
  /-- R121: Bitwise and. -/
  | andB (w : FrWord)
  /-- R121: Bitwise or. -/
  | orB (w : FrWord)
  /-- R121: Bitwise xor. -/
  | xorB (w : FrWord)
  /-- R121: Three-input lookup-table logic. -/
  | lop3 (w : FrWord)
  /-- R121: Shift left. -/
  | shl (w : FrWord)
  /-- R121: Logical or arithmetic shift right. -/
  | shr (w : FrWord)
  /-- R121: Funnel shift right. -/
  | shfR (w : FrWord)
  /-- R121: Funnel shift left. -/
  | shfL (w : FrWord)
  /-- R121: Bit-field extract. -/
  | bfx (w : FrWord)
  /-- R121: Bit-field insert. -/
  | bfi (w : FrWord)
  /-- R121: Population count. -/
  | popc (w : FrWord)
  /-- R121: Count leading zeros. -/
  | bitopClz (w : FrWord)
  /-- R121: Count trailing zeros. -/
  | bitopCtz (w : FrWord)
  /-- R121: Bit reverse. -/
  | bitopBrev (w : FrWord)
  /-- R121: Byte permute of two registers. -/
  | perm (w : FrWord)
  /-- R122: Integer compare into a predicate. -/
  | icmp (w : FrWord)
  /-- R122: Select by predicate. -/
  | sel (w : FrWord)
  /-- R122: Register move. -/
  | mov (w : FrWord)
  /-- R122: Move 32-bit immediate. -/
  | movi (w : FiWord)
  /-- R122: Move sign-extended immediate into a pair. -/
  | moviI64 (w : FiWord)
  /-- R122: 64-bit address computation with scaled index. -/
  | lea (w : FrWord)
  /-- R122: 64-bit add. -/
  | add64 (w : FrWord)
  /-- R122: 64-bit subtract. -/
  | add64Sub (w : FrWord)
  /-- R122: 64-bit compare into a predicate. -/
  | cmp64 (w : FrWord)
  /-- R123: Broadcast the lowest active lane's value. -/
  | lanexFirst (w : FrWord)
  /-- R123: Broadcast the value of an indexed lane. -/
  | lanexIdx (w : FrWord)
  /-- R123: Lane shuffle by idx, up, down or xor within segments. -/
  | shfl (w : FrWord)
  /-- R123: Mask of active lanes with the predicate true. -/
  | voteBallot (w : FrWord)
  /-- R123: Predicate true when all active lanes agree true. -/
  | voteAll (w : FrWord)
  /-- R123: Predicate true when any active lane is true. -/
  | voteAny (w : FrWord)
  /-- R123: Predicate true when all active lanes agree. -/
  | voteUni (w : FrWord)
  /-- R123: Count of active lanes with the predicate true. -/
  | voteCount (w : FrWord)
  /-- R124: Read a special register. -/
  | mrd (w : FiWord)
  /-- R124: Write a special register, checking access, reserved fields and FMT legality. -/
  | mwr (w : FiWord)
  /-- R467: A written CWORLD takes effect at the first moment the selected core holds no resident unit. -/
  | coreWorldApply (core : Nat)
  /-- R125: FP32 add, rounded once. -/
  | fadd (w : FrWord)
  /-- R125: FP32 multiply, rounded once. -/
  | fmul (w : FrWord)
  /-- R125: FP32 fused multiply-add. -/
  | ffma (w : FrWord)
  /-- R125: Multiply by a power of two given as an integer. -/
  | fscale (w : FrWord)
  /-- R126: FP32 minimum or maximum with NaN rules. -/
  | fminmax (w : FrWord)
  /-- R127: FP32 compare into a predicate. -/
  | fcmp (w : FrWord)
  /-- R128: Round to integral FP32 value. -/
  | frnd (w : FrWord)
  /-- R130: Approximate reciprocal. -/
  | frcp (w : FrWord)
  /-- R130: Approximate reciprocal square root. -/
  | frsq (w : FrWord)
  /-- R130: Correctly rounded square root. -/
  | fsqrt (w : FrWord)
  /-- R130: Approximate base-2 exponential. -/
  | fex2 (w : FrWord)
  /-- R130: Approximate base-2 logarithm. -/
  | flg2 (w : FrWord)
  /-- R130: Sine and cosine of pi times a into a pair. -/
  | fsincos (w : FrWord)
  /-- R131: Activation function selected by fn. -/
  | fact (w : FrWord)
  /-- R131: Activation derivative times incoming gradient. -/
  | fdact (w : FrWord)
  /-- R129: Floating-point class code. -/
  | fclass (w : FrWord)
  /-- R132: Convert one element between types. -/
  | cvt (w : FrWord)
  /-- R133: Packed 16-bit float add on both halves. -/
  | hop2Add (w : FrWord)
  /-- R133: Packed 16-bit float multiply on both halves. -/
  | hop2Mul (w : FrWord)
  /-- R133: Packed 16-bit float fused multiply-add. -/
  | hop2Fma (w : FrWord)
  /-- R134: Quantise a 32-lane FP32 block to a narrow format with a shared E8M0 scale. -/
  | qscale (w : FrWord)
  /-- R135: Set the issuing split's FMT from an immediate. -/
  | setfmt (w : FiWord)
  /-- R135: Masked update of the issuing split's FMT. -/
  | setfmtM (w : FiWord)
  /-- R136: Four-element 8-bit dot product with addend. -/
  | dp4 (w : FrWord)
  /-- R136: Eight-element 4-bit dot product with addend. -/
  | dp8 (w : FrWord)
  /-- R136: Two-element BF16 dot product with FP32 addend. -/
  | dp2 (w : FrWord)
  /-- R137: Fixed-tree reduction across lanes. -/
  | vred (w : FrWord)
  /-- R137: Fixed-step inclusive or exclusive lane scan. -/
  | vscan (w : FrWord)
  /-- R138: Three-input predicate logic. -/
  | plop (w : FrWord)
  /-- R139: Pack p0-p31 into a register. -/
  | pmovPack (w : FrWord)
  /-- R139: Pack p32-p47 into a register. -/
  | pmovPackhi (w : FrWord)
  /-- R139: Unpack a register into p0-p31. -/
  | pmovUnpack (w : FrWord)
  /-- R139: Unpack a register into p32-p46. -/
  | pmovUnpackhi (w : FrWord)
  /-- R139: Copy one predicate to another. -/
  | pmov (w : FrWord)
  /-- R140: Branch, uniform or divergent with a join, pushing reconvergence entries. -/
  | bra (w : FbWord)
  /-- R141: Register-indirect branch, uniform or multi-way with a join. -/
  | brx (w : FrWord)
  /-- R142: Save PC+8 in s60, s61 and transfer to the target. -/
  | call (w : FbWord)
  /-- R143: Transfer to the address in a scalar pair. -/
  | ret (w : FsWord)
  /-- R265: A path arrives at its JOIN entry, merging, sleeping, taking a deferred path or ending. -/
  | join (w : FsWord)
  /-- R267: A spilled JOIN entry needed at a join or exit is refilled from the spill area, checked, before the word acts. -/
  | reconvRefill (gid sp : Nat)
  /-- R264: A deferred PATH entry starts as a new split when a split identifier becomes free. -/
  | pathStart (gid : Nat)
  /-- R145: Lanes end; a path with no lanes counts as arrived; an empty group begins its exit. -/
  | exit (w : FsWord)
  /-- R145: An exiting group whose flags and flagless operations have completed reports any error or ends, releasing handles, window, slot and barrier participation. -/
  | groupEnd (gid : Nat)
  /-- R146: Transfer to role n's entry without changing role or window. -/
  | rolejmp (w : FiWord)
  /-- R146: Transfer to the current role's entry. -/
  | rolejmpCur (w : FiWord)
  /-- R147: Switch to role n: wait for flags and batches, commit, resize the window, jump to the role entry. -/
  | rswitch (w : FiWord)
  /-- R147: Switch to the Yard-hinted role, or fall through when no hint is held. -/
  | rswitchHint (w : FiWord)
  /-- R148: Grow the register window by n granules from the unit's pool, sleeping until available. -/
  | claim (w : FiWord)
  /-- R148: Grow the window only if the pool has n free granules now, reporting success in a predicate. -/
  | claimTry (w : FiWord)
  /-- R148: Shrink the window by n granules after pending writes to them land. -/
  | giveback (w : FiWord)
  /-- R149: Let the quarter issue another ready group first. -/
  | yield (w : FsWord)
  /-- R157: Global load, plain, streaming or acquire. -/
  | ld (w : FmWord)
  /-- R157: Global store, plain, streaming or release. -/
  | st (w : FmWord)
  /-- R157: Scratchpad load served in bank passes. -/
  | lds (w : FmWord)
  /-- R157: Scratchpad store served in bank passes. -/
  | sts (w : FmWord)
  /-- R157: General-vault load. -/
  | ldv (w : FmWord)
  /-- R157: General-vault store. -/
  | stv (w : FmWord)
  /-- R164: Global atomic read-modify-write per lane in lane order. -/
  | atom (w : FmWord)
  /-- R164: Scratchpad atomic read-modify-write. -/
  | atoms (w : FmWord)
  /-- R165: Global reduction combined within the instruction and applied as one update per location. -/
  | red (w : FmWord)
  /-- R167: Mask of active lanes addressing the same unit. -/
  | confEq (w : FmWord)
  /-- R167: Mask of lower active lanes addressing the same unit. -/
  | confLt (w : FmWord)
  /-- R167: Mask of lanes competing for the same scratchpad bank. -/
  | confBank (w : FmWord)
  /-- R160: Indexed global load, one element per lane. -/
  | gather (w : FmWord)
  /-- R160: Bounds-checked indexed global load. -/
  | gatherBnd (w : FmWord)
  /-- R161: Uniform load through the launch-tagged constant cache. -/
  | ldc (w : FmWord)
  /-- R162: Prefetch lines into their home slices. -/
  | cachectlPf (w : FmWord)
  /-- R162: Fold Trough partials and write dirty lines back. -/
  | cachectlWb (w : FmWord)
  /-- R162: Write back then invalidate lines. -/
  | cachectlEvict (w : FmWord)
  /-- R162: Empty the core's constant cache for every launch. -/
  | cachectlCinv (w : FmWord)
  /-- R168: Full, acquire or release fence at a scope. -/
  | fence (w : FsWord)
  /-- R170: Arrive at a group-mode barrier and sleep until the phase changes. -/
  | barSync (w : FiWord)
  /-- R170: Arrive at a group-mode barrier without sleeping. -/
  | barArrive (w : FiWord)
  /-- R170: Wait for the phase change or row-mode completion. -/
  | barWait (w : FiWord)
  /-- R170: Set a barrier's participant count and return it to group mode. -/
  | barInit (w : FiWord)
  /-- R172: Arm a barrier in row mode with a row count. -/
  | barRows (w : FiWord)
  /-- R269: An asleep split is re-inserted into the ready set once its wait condition holds. -/
  | splitWake (gid sp : Nat)
  /-- R175: Wait on completion flags, trapping on errors. -/
  | fwait (w : FiWord)
  /-- R175: Wait for copy batches up to b to complete. -/
  | bwait (w : FiWord)
  /-- R176: Hand a linear, strided or indexed copy between global memory and scratchpad to the Tile-Copy Engine. -/
  | cpy (w : FmWord)
  /-- R178: A copy row lands, adding to a row-mode barrier's landed count when RB is set. -/
  | cpyRowLanded (oid row : Nat)
  /-- R179: A store-direction copy has read every scratchpad row, completing its first flag. -/
  | cpySourceFree (oid : Nat)
  /-- R179: Every row of a copy is visible at its scope, completing its flag. -/
  | cpyVisible (oid : Nat)
  /-- R180: A copy row faults: no later row starts, the cause is recorded and the copy completes. -/
  | cpyRowFault (oid row : Nat)
  /-- R181: Close outstanding copies into a new batch and return its number. -/
  | cpybatch (w : FiWord)
  /-- R182: Fill the next channel slot from lanes 0-15, sleeping when full. -/
  | send (w : FmWord)
  /-- R182: Close a channel. -/
  | sendClose (w : FmWord)
  /-- R182: Take the next channel slot in order, acquiring the sender's accesses. -/
  | recv (w : FmWord)
  /-- R184: Multicast vault blocks to the units on the issuer's team. -/
  | mcastTeam (w : FmWord)
  /-- R184: Multicast vault blocks to the units on the issuer's cluster. -/
  | mcastCluster (w : FmWord)
  /-- R185: Multicast data reaches a target vault port and is written or discarded. -/
  | mcastDelivery (oid k : Nat)
  /-- R186: Perform prior stores then invalidate a record handle in every record cache. -/
  | rflush (w : FiWord)
  /-- R198: Bind a free handle name provisionally to a zeroed slot from the unit pool. -/
  | talloc (w : FtWord)
  /-- R199: Commit, release the slot and free the name. -/
  | tfree (w : FtWord)
  /-- R200: Commit and move a handle binding to another group of the unit. -/
  | thand (w : FtWord)
  /-- R204: Load a slot from memory unchanged or converted. -/
  | tload (w : FtWord)
  /-- R204: Load an operand slot transposed. -/
  | tloadT (w : FtWord)
  /-- R204: Load an operand slot's scale field. -/
  | tloadSc (w : FtWord)
  /-- R205: Store a slot to memory, converting accumulator elements. -/
  | tstore (w : FtWord)
  /-- R205: Store an operand slot transposed. -/
  | tstoreT (w : FtWord)
  /-- R206: Quantise accumulator rows with shared scales and store codes and scales. -/
  | tstoreQ (w : FtWord)
  /-- R209: Dense matrix multiply-accumulate on the forward array. -/
  | mma (w : FtWord)
  /-- R209: Matrix multiply-accumulate with an A sparsity bitmap. -/
  | mmaSa (w : FtWord)
  /-- R209: Matrix multiply-accumulate with a B sparsity bitmap. -/
  | mmaSb (w : FtWord)
  /-- R209: Matrix multiply-accumulate with A and B sparsity bitmaps. -/
  | mmaSab (w : FtWord)
  /-- R212: Issue one member of a joint 64x64 product across a team. -/
  | mmaTeam (w : FtWord)
  /-- R213: All four members have issued: the team computes and accumulates the joint product and completes every member's flag. -/
  | jointOperation (team tag : Nat)
  /-- R214: The watchdog interval expires before four members gather; members complete with DEADLINE. -/
  | jointOperationTimeout (team tag : Nat)
  /-- R215: Backward-array gradient of A from G and B. -/
  | mmbDa (w : FtWord)
  /-- R215: Backward-array gradient of B from A and G. -/
  | mmbDb (w : FtWord)
  /-- R218: Accumulate shared-value rows against scratchpad activations. -/
  | svr (w : FtWord)
  /-- R228: Start traversals, taking a ray slot per valid lane. -/
  | travStart (w : FrWord)
  /-- R228: Check and resume suspended rays after a procedural leaf. -/
  | travResume (w : FrWord)
  /-- R229: Release the slots of suspended rays. -/
  | travDrop (w : FrWord)
  /-- R228: A ray's traversal ends HIT, MISS, PROC or FAULT, writing its state block and completing its share of the flag. -/
  | rayEnd (key : Nat)
  /-- R230: A ray waiting in its slot on a non-resident node page continues once the page arrives. -/
  | rayPageArrival (key : Nat)
  /-- R231: Offer a procedural hit candidate to suspended rays. -/
  | tres (w : FrWord)
  /-- R234: Emit tile-depth sort keys by atomically appending to the key buffer. -/
  | skey (w : FmWord)
  /-- R234: Emit sort keys at program-given positions. -/
  | skeyAt (w : FmWord)
  /-- R235: Hand a sort record to the cluster's Radix Sort Engine. -/
  | sort (w : FmWord)
  /-- R236: The Radix Sort Engine checks, sorts the pairs in stable digit passes and writes the range table. -/
  | sortJob (oid : Nat)
  /-- R241: Front-to-back alpha blend of up to 256 splats per lane. -/
  | blend (w : FrWord)
  /-- R243: Back-to-front blend gradient replay emitting reductions. -/
  | bgrad (w : FrWord)
  /-- R246: Read a sample's depth from the visibility buffer. -/
  | vbufZ (w : FmWord)
  /-- R246: Read a sample's primitive identifier. -/
  | vbufId (w : FmWord)
  /-- R246: Read a sample's identifier and depth. -/
  | vbufAll (w : FmWord)
  /-- R246: Read the greatest depth over a pixel's samples. -/
  | vbufZmax (w : FmWord)
  /-- R248: Wait for the ticket's turn and open a rasteriser-ordered section. -/
  | rosecEnter (w : FsWord)
  /-- R248: Release accesses and advance NEXT(KEY). -/
  | rosecLeave (w : FsWord)
  /-- R249: The section watchdog expires: NEXT advances, the section closes and the group later traps. -/
  | rosecTimeout (gid : Nat)
  /-- R250: Commit the region and trap with SOFTWARE_TRAP reporting n. -/
  | softwareTrap (w : FsWord)
  /-- R251: Arm a context breakpoint on a word or slot. -/
  | brkSet (w : FsWord)
  /-- R251: Disarm a context breakpoint. -/
  | brkClr (w : FsWord)
  /-- R407: Restore state from the trap frame and resume in user mode at the checkpoint. -/
  | sret (w : FsWord)
  /-- R253: Resume as sret, suppressing the reported breakpoint or watchpoint once. -/
  | sretPass (w : FsWord)
  /-- R254: Submit a child launch packet; flag completes on acceptance. -/
  | launchAcc (w : FmWord)
  /-- R254: Submit a child launch packet; flag completes when the child completes. -/
  | launchDone (w : FmWord)
  /-- R256: Read a completion counter. -/
  | cntRd (w : FiWord)
  /-- R256: Sleep until a child's counter reaches zero, then acquire its accesses. -/
  | cntWait (w : FiWord)
  /-- R256: Cancel a level and every level it contains. -/
  | cntCancel (w : FiWord)
  /-- R257: After earlier work completes, sample CLK into a pair. -/
  | clkRd (w : FrWord)
  /-- R257: Hold the split out of the ready set until CLK reaches a value. -/
  | clkUntil (w : FrWord)
  /-- R257: CLK reaches the clk.until value and the split becomes ready. -/
  | clkUntilExpiry (gid sp : Nat)
  /-- R374: The Yard copies and validates a launch packet, map, declaration block and raster record, accepting or failing it. -/
  | packetValidation (lid : Nat)
  /-- R379: A cluster dispatcher places one unit or one gang launch per clk by PASS, budget fit, priority and age. -/
  | dispatchDecision (cluster : Nat)
  /-- R368: A level's count reaches zero: its accesses are performed and it completes, decrementing its parent. -/
  | levelCompletion (lid : Nat)
  /-- R383: Every 10 us the Yard recomputes THERM, ALLOW, PASS counts and the gating level. -/
  | budgetRefresh (dies rest : List (Option Int)) (draw : Nat)
  /-- R390: A page-table walk completes with a leaf, a fault, or a non-resident page. -/
  | translationWalk (ctx va : Nat)
  /-- R397: After the page arrives, the group is restored into a quarter with free granules and resumes at its checkpoint. -/
  | groupRestore (gid : Nat)
  /-- R398: Under store pressure, the Yard evicts parked slots of the longest-swapped group into its frame. -/
  | storePressureEvict (core : Nat)
  /-- R414: A quiescent draining unit is written to swap and unit frames and its core resources released. -/
  | unitSave (uid : Nat)
  /-- R413: With no unit of a draining context resident, the Trough is folded, TLB entries dropped and STATE set off. -/
  | contextOff (ctx : Nat)
  /-- R417: The pre-emption deadline expires and the context is reset by force. -/
  | preemptDeadlineExpiry (ctx : Nat)
  /-- R411: Every group of the context traps with STOP_REQUEST at its next boundary. -/
  | ctxctlStop (ctx : Nat)
  /-- R413: Start draining a context and its deadline timer. -/
  | ctxctlPreempt (ctx : Nat)
  /-- R416: Set the context running and restore its saved units first. -/
  | ctxctlResume (ctx : Nat)
  /-- R412: A CTXCTL write with OP 0 or 4-7 sets CTXSTAT.ERR. -/
  | ctxctlInvalid (ctx : Nat)
  /-- R392: Invalidate one page's translations, optionally folding and writing back. -/
  | tlbinvPage (ctx va : Nat) (wb : Bool)
  /-- R392: Invalidate 2^N pages' translations. -/
  | tlbinvRange (ctx va n : Nat) (wb : Bool)
  /-- R392: Invalidate a whole context's translations. -/
  | tlbinvContext (ctx : Nat) (wb : Bool)
  /-- R392: Invalidate every context's translations. -/
  | tlbinvAll (wb : Bool)
  /-- R397: Host reports a page arrived; the Yard walks again for waiting groups and jobs. -/
  | pgdone (ctx va : Nat)
  /-- R294: A merging reduction arrives at its home slice and is added into the Trough entry. -/
  | troughMerge (oid : Nat)
  /-- R322: An access reaches its home slice, is race- and scope-checked and is performed. -/
  | homeSliceAccess (oid : Nat)
  /-- R288: A mesh flit at a position takes an allowed output port toward its destination. -/
  | meshFlitHop (key : Nat)
  /-- R298: A store to a BTE aperture page enqueues a record-handle command or is refused. -/
  | bteCommand (oid : Nat)
  /-- R301: A channel starts its next job: read the record, copy the dimensions within regions, store DONE. -/
  | bteJob (ch : Nat)
  /-- R304: A job held by a footprint edge proceeds once the earlier job completes or finishes reading. -/
  | engineFootprintRelease (jid : Nat)
  /-- R346: The Rasteriser takes a triangle task from RQ and updates covered samples. -/
  | rasterTask (lid : Nat)
  /-- R346: After a region's samples are performed, the Rasteriser sends an attribute task on AQ, waiting for room. -/
  | attributeTaskSend (lid : Nat)
  /-- R348: RQ closed and empty with all work done: AQ is closed and the draw completes. -/
  | drawEnd (lid : Nat)
  /-- R421: Setting EN resets SQHEAD, the tail and CQTAIL. -/
  | sqcfgEnable (q : Nat)
  /-- R422: Clearing EN stops packet reads and closes any open job with TRUNC. -/
  | sqcfgDisable (q : Nat)
  /-- R423: A notify makes the Yard read ring entries up to the new tail. -/
  | sqtailNotify (q tail : Nat)
  /-- R422: The Yard reads and copies one ring entry, advances HEAD and validates it. -/
  | sqEntryCopy (q : Nat)
  /-- R424: A completed phase's record is written, CQTAIL advances and MSI-X is raised, waiting for ring room. -/
  | cqRecordWrite (q : Nat)
  /-- R425: Cancel or pre-mark the job with the given sequence number. -/
  | sqcancel (q n : Nat)
  /-- R8: A host or special-register write to a register without its own row stores its fields by their access codes. -/
  | registerWrite (off n : Nat) (v : Double)
  /-- R8: A read of an RC register returns its state and clears it. -/
  | rcRegisterRead (off n : Nat)
  /-- R431: A port sends a data flit while within the replay window, retransmissions first. -/
  | linkFlitSend (p : Nat)
  /-- R432: A received flit is CRC-checked, delivered in order or held, with NAKs and ACKs sent. -/
  | linkFlitReceive (p : Nat) (bs : List Byte)
  /-- R431: The oldest unacknowledged flit's 4 us timer expires and it is retransmitted. -/
  | linkReplayTimeout (p : Nat)
  /-- R433: Enabling a link command ring zeroes its head and tail. -/
  | lqcfgEnable (r : Nat)
  /-- R433: Disabling a link ring cancels the running command and discards the rest. -/
  | lqcfgDisable (r : Nat)
  /-- R433: A notify makes new link commands available in ring order. -/
  | lqtailNotify (r tail : Nat)
  /-- R435: Send local bytes to a peer's physical memory on a port. -/
  | put (r : Nat)
  /-- R435: Inbound PUT bytes are checked against the port window and regions and written. -/
  | putArrival (p : Nat)
  /-- R438: Ordered forward alpha-compositing collective across ranks. -/
  | comp (r : Nat) (peers : List Peer)
  /-- R438: Backward compositing collective writing suffix colours and transmittance prefixes. -/
  | compb (r : Nat) (peers : List Peer)
  /-- R437: A collective not complete within LTMO records DEADLINE. -/
  | collectiveTimeout (r : Nat)
  /-- R420: A host BAR2 request is performed at home slices as a non-secure host access. -/
  | bar2Access (off n : Nat) (data : Option (List Byte))
  /-- R429: A second-tier read returns poison or times out, raising MACHINE_CHECK. -/
  | secondTierError (pa : Nat)
  /-- R462: A failing lane is replaced by the spare lane at a flit boundary. -/
  | linkLaneSpare (lane : Nat)
  /-- R462: A second failing lane takes its port down and stops its commands. -/
  | linkPortDown (p : Nat)
  /-- R479: Vartur ports train once PKGID has been written. -/
  | varturPortTrain (p peer : Nat)
  /-- R453: A failed core stops, its units are re-run or fail, and a spare position is remapped in. -/
  | coreFailure (core : Nat)
  /-- R456: The patrol scrub reads, corrects or poisons every protected word within 10 minutes. -/
  | patrolScrub (st : Store) (owner w : Nat) (f : Finding)
  /-- R460: A channel is copied to the spare channel and redirected. -/
  | hbmChannelSpare (stack ch : Nat)
  /-- R461: A row is copied to a spare row and served from it. -/
  | hbmSoftRowRepair (bank row : Nat)
  /-- R471: Verify staged images and write them to the inactive bank. -/
  | fwcmdStage (flashOk : Bool)
  /-- R478: A reset source ends every context, clears reset state and runs bring-up. -/
  | deviceReset (cause : BitVec 4) (b : BringUp)
  /-- R478: Power-on starts a device reset and sets RSTSTAT.CAUSE from the shutdown record. -/
  | powerOn (b : BringUp)
  /-- R478: Deassertion of PERST# starts a device reset. -/
  | perst (b : BringUp)
  /-- R478: A function-level reset starts a device reset. -/
  | functionLevelReset (b : BringUp)
  /-- R478: A write with KEY 0x5A5A starts a device reset. -/
  | rstctl (v : Word) (b : BringUp)
  /-- R473: The board removes the 54 V supply or standby and the rails go down in reverse order, ending every state that lasts until power-off. -/
  | powerOff (standby : Bool)
  /-- R477: Both arithmetic PLLs regain lock and the device leaves the device reset it was held in. -/
  | pllRelock (b : BringUp)
  /-- R429: A second-tier CXL port goes down, and every later access to its interleave chunks fails with MACHINE_CHECK. -/
  | secondTierPortDown (port : Nat)
  /-- R89: The all-zero word changes no state. -/
  | nop
  /-- R381: Every 1,024 clk the Yard raises and withdraws role hints from stage queue figures. -/
  | roleHintEvaluation
  /-- R392: Matching entries dropped, walks ended, leases drained and write-back done: TLBSTAT.BUSY clears. -/
  | tlbinvComplete
  /-- R426: An event record is written to the event ring, or dropped and counted in EVLOST. -/
  | eventRecordPost
  /-- R470: Write a signed report of measurements and nonce. -/
  | attestationReport
  /-- R470: Write the identity public key with the vendor signature. -/
  | attestationCertificate
  /-- R471: Raise the rollback counter to the running version. -/
  | fwcmdCommit
  /-- R474: A rail misses power-good or sags: every rail but VAUX is removed. -/
  | railFault
  /-- R476: A sensor at 110 C or silent removes the rails and records THERM. -/
  | thermalShutdown
  /-- R477: An arithmetic PLL loses lock and the device holds in reset until relock. -/
  | pllLockLoss
  /-- R477: A lost SerDes reference takes its ports down. -/
  | serdesReferenceLoss
deriving DecidableEq, Repr

end Sys2Proof
end

