-- ==== Sys2Proof/Machine/Forms.lean ====
section
/-! DEFINITION. Sys2Proof/Machine/Forms.lean: the form of every encoded instruction: which selectors are assigned, which fields
must be zero, which registers and predicates a word reads and writes, and its class in a clause (R75–R101, and each
instruction's own description). From this one table come the decode checks of R76, the window check of R17 and the interlock
of R101 and R113. -/

namespace Sys2Proof

open Sys2Proof.Machine

/-! ### Fields of the words by the names of R77, R81, R124, R169, R176, R203, R208, R215 and R255 -/

def FrWord.ds (w : FrWord) : BitVec 3 := bits w.mid 7 3
def FrWord.clamp (w : FrWord) : Bool := bit w.mid 6
def FrWord.nA (w : FrWord) : Bool := bit w.mid 5
def FrWord.aA (w : FrWord) : Bool := bit w.mid 4
def FrWord.nB (w : FrWord) : Bool := bit w.mid 3
def FrWord.aB (w : FrWord) : Bool := bit w.mid 2
def FrWord.nC (w : FrWord) : Bool := bit w.mid 1
def FrWord.aC (w : FrWord) : Bool := bit w.mid 0
def FrWord.lut (w : FrWord) : BitVec 8 := bits w.mid 0 8
def FmWord.size (w : FmWord) : Nat := (bits w.minor 2 3 : BitVec 3).toNat
def FmWord.mod (w : FmWord) : Nat := (bits w.minor 0 2 : BitVec 2).toNat
def FmWord.kind (w : FmWord) : Nat := (bits w.minor 0 2 : BitVec 2).toNat
def FmWord.dir (w : FmWord) : Bool := bit w.minor 2
def FmWord.scope (w : FmWord) : Nat := (bits w.minor 3 2 : BitVec 2).toNat
def FiWord.sel (w : FiWord) : Nat := (bits w.imm 0 8 : BitVec 8).toNat
def FiWord.pairForm (w : FiWord) : Bool := bit w.imm 8
def FiWord.barK (w : FiWord) : Nat := (bits w.imm 0 4 : BitVec 4).toNat
def FiWord.barOp (w : FiWord) : Nat := (bits w.imm 4 3 : BitVec 3).toNat
def FiWord.cntOp (w : FiWord) : Nat := (bits w.imm 0 3 : BitVec 3).toNat
def FiWord.level (w : FiWord) : Nat := (bits w.imm 4 3 : BitVec 3).toNat
def FtWord.space (w : FtWord) : Nat := (bits w.opt 4 2 : BitVec 2).toNat
def FtWord.fmtc (w : FtWord) : Nat := (bits w.opt 0 4 : BitVec 4).toNat
def FtWord.sa (w : FtWord) : Bool := bit w.opt 0
def FtWord.sb (w : FtWord) : Bool := bit w.opt 1
def FtWord.q (w : FtWord) : Nat := (bits w.opt 0 2 : BitVec 2).toNat

end Sys2Proof

namespace Sys2Proof.Machine

open Sys2Proof

/-- One operand of a word: `n` registers from a field under R13 (field value 192 + k names sk), or a predicate. -/
inductive Opnd where
  | reg (f : Nat) (n : Nat) (wr : Bool)
  | pred (i : Nat) (wr : Bool)
deriving DecidableEq, Repr

/-- The form of an instruction word. -/
structure Form where
  /-- an unassigned major, minor, TYPE, SEL or half opcode: ILLEGAL_OPCODE (R76 step 1) -/
  ill : Bool := false
  /-- a reserved or unused field is nonzero, or a pair is misaligned: RESERVED_ENCODING (R76 step 2) -/
  res : Bool := false
  ops : List Opnd := []
  /-- long-latency (R87) -/
  ll : Bool := false
  /-- must be the last word of its clause (R86, R250) -/
  ctl : Bool := false
deriving DecidableEq, Repr

/-! ### Fields -/

def rd (f : BitVec 8) (n : Nat := 1) : Opnd := .reg f.toNat n false
def wr (f : BitVec 8) (n : Nat := 1) : Opnd := .reg f.toNat n true
/-- s6 names s0–s63 directly (R83). -/
def rdS (f : BitVec 6) (n : Nat := 1) : Opnd := .reg (192 + f.toNat) n false
def wrS (f : BitVec 6) (n : Nat := 1) : Opnd := .reg (192 + f.toNat) n true
def ps (f : BitVec 8) : Opnd := .pred (f.toNat % 64) false
def pd (f : BitVec 8) : Opnd := .pred (f.toNat % 64) true
/-- A field that must be zero is not (R85). -/
def nz (f : BitVec n) : Bool := f != 0
/-- Not an even register (R16). -/
def oddR (f : BitVec 8) : Bool := f.toNat % 2 == 1
/-- A block or quad base that is not a multiple of 4 (R81, R223), or one that runs past s63. -/
def blkBad (f : BitVec 8) (n : Nat := 4) : Bool := f.toNat % 4 != 0 || decide (f.toNat + n > 256)
/-- A vector register where a scalar is required. -/
def isV (f : BitVec 8) : Bool := decide (f.toNat < 192)
/-- Not a PS field (R114). -/
def psBad (f : BitVec 8) : Bool := bit f 7 || decide (f.toNat % 64 > 47)
/-- Not a PD field (R114). -/
def pdBad (f : BitVec 8) : Bool := nz (bits f 6 2 : BitVec 2) || decide (f.toNat % 64 > 47)
/-- Any of a list. -/
def orL (l : List Bool) : Bool := l.any id

/-! ### Modifier fields of FR words (R77, R79, R115) -/

def modA : BitVec 10 := 0x030#10
def modB : BitVec 10 := 0x00C#10
def modC : BitVec 10 := 0x003#10
def modClamp : BitVec 10 := 0x040#10
def modDS : BitVec 10 := 0x380#10
def modLut : BitVec 10 := 0x0FF#10


/-- Signed integer TYPE codes. -/
def signedTyp (t : BitVec 4) : Bool := t == 6 || t == 7 || t == 8 || t == 10 || t == 13
def intTyp (t : BitVec 4) : Bool := decide (6 ≤ t.toNat ∧ t.toNat ≤ 14)
def widthTyp (t : BitVec 4) : Nat :=
  if t = 1 ∨ t = 2 ∨ t = 10 ∨ t = 11 then 16
  else if t = 3 ∨ t = 4 ∨ t = 6 ∨ t = 12 then 8
  else if t = 5 ∨ t = 7 then 4
  else if t = 13 ∨ t = 14 then 64 else 32

/-- An FR word whose TYPE is among `tys` and SEL among `sels`; `mods` are the modifier bits it may set (R78, R79). -/
def frF (w : FrWord) (tys sels : List Nat) (mods : BitVec 10) (bad : List Bool) (ops : List Opnd) : Form :=
  { ill := !(tys.contains w.typ.toNat && sels.contains w.sel.toNat),
    res := (w.mid &&& ~~~mods) != 0 || orL bad, ops := ops }

/-- Source modifiers of an integer instruction: only on a signed type (R115). -/
def intMods (w : FrWord) (m : BitVec 10) : BitVec 10 := if signedTyp w.typ then m else 0

def tI6 : List Nat := [8, 9, 10, 11, 6, 12]
def t32 : List Nat := [8, 9]
def tB : List Nat := [15]
def sel0 : List Nat := [0]
def selR : List Nat := [0, 1, 2, 3, 4]
def selCC : List Nat := [0, 1, 2, 3, 4, 5]

/-- Two-source integer form (iadd, isub, imul, imulhi, iminmax). -/
def fInt2 (w : FrWord) (tys sels : List Nat) (m : BitVec 10) : Form :=
  frF w tys sels (intMods w (modA ||| modB) ||| m) [nz w.c] [wr w.d, rd w.a, rd w.b]
/-- Two-source .b32 form. -/
def fB2 (w : FrWord) (sels : List Nat) (m : BitVec 10) : Form := frF w tB sels m [nz w.c] [wr w.d, rd w.a, rd w.b]
def fB3 (w : FrWord) (tys sels : List Nat) (m : BitVec 10) : Form :=
  frF w tys sels m [] [wr w.d, rd w.a, rd w.b, rd w.c]
def fB1 (w : FrWord) (sels : List Nat) : Form := frF w tB sels 0 [nz w.b, nz w.c] [wr w.d, rd w.a]
/-- One-source .f32 form. -/
def fF1 (w : FrWord) (sels : List Nat) (m : BitVec 10) : Form :=
  frF w [0] sels (modA ||| m) [nz w.b, nz w.c] [wr w.d, rd w.a]
def fF2 (w : FrWord) (sels : List Nat) (m : BitVec 10) : Form :=
  frF w [0] sels m [nz w.c] [wr w.d, rd w.a, rd w.b]

/-- cvt's element index beyond the element count of a sub-word side (R132). -/
def cvtBadE (td ts : BitVec 4) (e : Nat) : Bool :=
  let cap (t : BitVec 4) : Nat := if widthTyp t < 32 then 32 / widthTyp t else 8
  let neither := decide (widthTyp td ≥ 32) && decide (widthTyp ts ≥ 32)
  decide (e ≥ cap td) || decide (e ≥ cap ts) || (neither && e != 0)

def fCvt (w : FrWord) : Form :=
  let ts : BitVec 4 := bits w.c 0 4
  let e := (bits w.c 4 3 : BitVec 3).toNat
  let ii := intTyp w.typ && intTyp ts
  let mA := if intTyp ts && !signedTyp ts then 0 else modA
  let mD := if ii then modClamp else if intTyp w.typ then modDS else modDS ||| modClamp
  { ill := w.typ == 15 || ts == 15 || !((if ii then sel0 else selR).contains w.sel.toNat),
    res := (w.mid &&& ~~~(mA ||| mD)) != 0 || orL [nz w.b, bit w.c 7, cvtBadE w.typ ts e,
      widthTyp w.typ == 64 && oddR w.d, widthTyp ts == 64 && oddR w.a],
    ops := [wr w.d (if widthTyp w.typ = 64 then 2 else 1)] ++
      (if widthTyp w.typ < 32 then [rd w.d] else []) ++ [rd w.a (if widthTyp ts = 64 then 2 else 1)] }

def fHop2 (w : FrWord) (op : Nat) : Form :=
  { ill := !([1, 2].contains w.typ.toNat && selR.contains w.sel.toNat) || w.ds.toNat != op,
    res := (w.mid &&& ~~~(modDS ||| modClamp ||| modA ||| modB ||| (if op = 2 then modC else 0))) != 0 ||
      (op != 2 && nz w.c),
    ops := [wr w.d, rd w.a, rd w.b] ++ (if op = 2 then [rd w.c] else []) }

def fDot (w : FrWord) (ints flts : List Nat) (pairC : Bool) : Form :=
  if ints.contains w.typ.toNat then
    { ill := w.sel != 0, res := (w.mid &&& ~~~modClamp) != 0, ops := [wr w.d, rd w.a, rd w.b, rd w.c] }
  else
    { ill := !(flts.contains w.typ.toNat && selR.contains w.sel.toNat), res := pairC && oddR w.c,
      ops := [wr w.d, rd w.a, rd w.b, rd w.c (if pairC then 2 else 1)] }

/-- vred and vscan (R137). -/
def fRed (w : FrWord) (scan : Bool) : Form :=
  let op := (bits w.b 0 3 : BitVec 3).toNat
  let t := w.typ.toNat
  let okT := if t = 0 then decide (op ≤ 2) else if t = 8 ∨ t = 9 then decide (op ≤ 5)
    else if t = 15 then decide (3 ≤ op ∧ op ≤ 5) else false
  let okS := if t = 0 ∧ op = 0 then selR.contains w.sel.toNat else w.sel == 0
  let m := (if t = 0 ∨ t = 8 then modA else 0) ||| (if (t = 8 ∨ t = 9) ∧ op = 0 then modClamp else 0)
  { ill := !(okT && okS),
    res := (w.mid &&& ~~~m) != 0 || orL [nz (bits w.b 4 4 : BitVec 4), !scan && bit w.b 3, nz w.c],
    ops := [wr w.d, rd w.a] }

def predRange (lo n : Nat) (w : Bool) : List Opnd := (List.range n).map (fun i => .pred (lo + i) w)

/-! ### FM, FI, FS, FT, FB -/

/-- Registers of an operand of SIZE `sz` (R81). -/
def szRegs (sz : Nat) : Nat := if sz = 3 then 2 else if sz = 4 then 4 else 1
/-- A misaligned register operand of SIZE `sz` (R16, R81). -/
def szBad (sz : Nat) (f : BitVec 8) : Bool := if sz = 3 then oddR f else if sz = 4 then f.toNat % 4 != 0 else false

/-- ld, st, lds, sts, ldv, stv (R157). -/
def fLdSt (w : FmWord) (load ll : Bool) : Form :=
  { ill := decide (w.size > 4) || w.mod == 3, res := orL [szBad w.size w.d, oddR w.base],
    ops := [.reg w.d.toNat (szRegs w.size) load, rd w.base 2, rd w.idx], ll := ll }

/-- Width in registers of an atomic's D and X (R163): 64-bit forms, and the compare and new value of cas. -/
def atomD (m : Nat) : Nat := if m = 1 ∨ m = 0x0B ∨ m = 0x0D then 2 else 1
def atomX (m : Nat) : Nat := if m = 0x0D then 4 else if m = 1 ∨ m = 0x0B ∨ m = 0x0C then 2 else 1
def nBad (n : Nat) (f : BitVec 8) : Bool := if n = 4 then f.toNat % 4 != 0 else if n = 2 then oddR f else false

def fAtom (w : FmWord) (ll : Bool) : Form :=
  let m := w.minor.toNat
  { ill := decide (m > 0x11),
    res := orL [oddR w.base, w.d != 0xFF && nBad (atomD m) w.d, nBad (atomX m) w.idx],
    ops := (if w.d = 0xFF then [] else [wr w.d (atomD m)]) ++ [rd w.base 2, rd w.idx (atomX m)], ll := ll }

def fRedMem (w : FmWord) : Form :=
  let m := w.minor.toNat
  { ill := !(decide (m ≤ 9) || m == 0x10 || m == 0x11), res := orL [oddR w.base, nBad (atomD m) w.d],
    ops := [rd w.d (atomD m), rd w.base 2, rd w.idx], ll := true }

def fConf (w : FmWord) (form : Nat) : Form :=
  { ill := decide (w.size > 4) || w.mod != form || (form == 2 && w.size != 2), res := oddR w.base,
    ops := [wr w.d, rd w.base 2, rd w.idx] }

def fGather (w : FmWord) (bnd : Bool) : Form :=
  { ill := decide (w.size > 4) || w.mod == 3 || ((w.mod == 2) != bnd),
    res := orL [szBad w.size w.d, isV w.base, oddR w.base, bnd && w.off == 0],
    ops := [wr w.d (szRegs w.size), rd w.base 2, rd w.idx], ll := true }

def fCache (w : FmWord) (op : Nat) : Form :=
  { ill := w.minor.toNat != op, res := orL [nz w.d, oddR w.base], ops := [rd w.base 2, rd w.idx], ll := true }


def fCpy (w : FmWord) : Form :=
  { ill := w.kind == 3,
    res := orL [w.scope == 3, !w.dir && w.scope != 0, isV w.base, oddR w.base, isV w.idx, w.idx.toNat % 4 != 0,
      if w.kind = 2 then !isV w.d else nz w.d],
    ops := [rd w.base 2, rd w.idx 4] ++ (if w.kind = 2 then [rd w.d] else []), ll := true }

def fMcast (w : FmWord) (m : Nat) : Form :=
  { ill := w.minor.toNat != m, res := orL [isV w.d, isV w.base, oddR w.base, isV w.idx],
    ops := [rd w.d, rd w.base 2, rd w.idx], ll := true }

def fSkey (w : FmWord) (at_ : Bool) : Form :=
  { ill := w.minor.toNat != (if at_ then 1 else 0),
    res := orL [!isV w.d, w.d.toNat % 4 != 0, isV w.base, oddR w.base, if at_ then !isV w.idx else w.idx != 0xFF],
    ops := [rd w.d 4, rd w.base 2] ++ (if at_ then [rd w.idx] else []), ll := true }

def fVbuf (w : FmWord) (m : Nat) : Form :=
  let n := if m = 1 then 2 else if m = 2 then 4 else 1
  { ill := w.minor.toNat != m,
    res := orL [nBad n w.d, isV w.base, w.base.toNat % 4 != 0, !isV w.idx, nz (bits w.off 3 17 : BitVec 17),
      m == 3 && w.off != 0],
    ops := [wr w.d n, rd w.base 4, rd w.idx], ll := true }

def fLaunch (w : FmWord) (m : Nat) : Form :=
  { ill := w.minor.toNat != m, res := orL [isV w.base, oddR w.base, w.idx != 0xFF],
    ops := (if w.d = 0xFF then [] else [wr w.d]) ++ [rd w.base 2], ll := true }

/-- FI words with D and A zero and V as given. -/
def fFi0 (w : FiWord) (v : BitVec 1) (bad : List Bool) (ctl : Bool := false) : Form :=
  { res := orL ([nz w.d, nz w.a, w.v != v] ++ bad), ctl := ctl }

/-- A selector of 0x14–0x7F, or the pair form of a 32-bit register below 0x80 (R27, R124). -/
def selBad (w : FiWord) : Bool :=
  decide (0x14 ≤ w.sel ∧ w.sel ≤ 0x7F) || (w.pairForm && decide (w.sel < 0x10))

def fBar (w : FiWord) (op : Nat) : Form :=
  { ill := w.barOp != op,
    res := orL [nz w.d, nz w.a, w.v != 0, bit w.imm 7, nz (bits w.imm 13 3 : BitVec 3),
      op != 3 && nz (bits w.imm 8 5 : BitVec 5),
      if op = 4 then (bits w.imm 16 16 : BitVec 16) == 0 else nz (bits w.imm 16 16 : BitVec 16)] }

def fCnt (w : FiWord) (op : Nat) : Form :=
  { ill := w.cntOp != op || decide (w.level > 5),
    res := orL [w.v != 0, nz (w.imm &&& 0xFFFFFF88#32), op == 1 && w.level != 5, op != 0 && nz w.d,
      w.level != 5 && nz w.a],
    ops := (if op = 0 then [wr w.d] else []) ++ (if w.level = 5 then [rd w.a] else []) }

/-- FS words: bits [16:7] zero, the minor as given. -/
def fFs (w : FsWord) (m : Nat) (bad : List Bool) (ops : List Opnd) (ctl : Bool := false) : Form :=
  { ill := w.minor.toNat != m, res := orL ([nz w.res, nz w.d] ++ bad), ops := ops, ctl := ctl }

def flagBad (w : FtWord) : Bool := decide (12 ≤ w.flag.toNat ∧ w.flag.toNat ≤ 14)

def fTile (w : FtWord) (m : Nat) (load q : Bool) : Form :=
  { ill := w.minor.toNat != m,
    res := orL [flagBad w, if load then nz w.ha else nz w.hd, nz w.hb, w.space == 3,
      if q then w.s6.toNat % 4 != 0 else w.s6.toNat % 2 != 0],
    ops := [rd w.v8, rdS w.s6 (if q then 4 else 2)], ll := true }

def fMma (w : FtWord) (sb sa team : Bool) : Form :=
  { ill := w.minor.toNat != (if team then 1 else 0) || w.sb != sb || w.sa != sa,
    res := orL [flagBad w, nz (bits w.opt 2 4 : BitVec 4), !(sa || sb) && nz w.v8, sa && sb && oddR w.v8,
      !team && nz w.s6],
    ops := (if sa && sb then [rd w.v8 2] else if sa || sb then [rd w.v8] else []) ++ (if team then [rdS w.s6] else []),
    ll := true }

def fMmb (w : FtWord) (m : Nat) : Form :=
  { ill := w.minor.toNat != m, res := orL [flagBad w, nz w.v8, nz w.s6, nz (bits w.opt 2 4 : BitVec 4)], ll := true }

/-! ### Half words (R90–R94) -/

/-- D is read. -/
def halfReadsD (h : Nat) : Bool :=
  decide (0x01 ≤ h ∧ h ≤ 0x10) || decide (0x13 ≤ h ∧ h ≤ 0x27)
/-- B is read. -/
def halfReadsB (h : Nat) : Bool :=
  decide (0x01 ≤ h ∧ h ≤ 0x09) || decide (0x0D ≤ h ∧ h ≤ 0x11) || decide (0x13 ≤ h ∧ h ≤ 0x17) ||
  decide (0x19 ≤ h ∧ h ≤ 0x2C)
/-- The operation is written with B′, or is hmov: nB and aB have a meaning (R92). -/
def halfMods (h : Nat) : Bool :=
  [0x01, 0x02, 0x03, 0x0D, 0x0E, 0x11, 0x13, 0x14, 0x15, 0x16, 0x17, 0x19, 0x1A, 0x1B, 0x1C, 0x1D, 0x1E, 0x1F, 0x20,
   0x23, 0x24, 0x25, 0x26, 0x27, 0x2B, 0x2C].contains h
/-- IMM4 is a number. -/
def halfImm (h : Nat) : Bool := [0x0A, 0x0B, 0x0C, 0x12, 0x18].contains h
/-- IMM4 names a predicate: written by hcmp, read by hsel. -/
def halfCmp (h : Nat) : Bool := decide (0x1D ≤ h ∧ h ≤ 0x26)
def halfPred (h : Nat) : Bool := halfCmp h || h == 0x27
/-- The slot writes a register through D. -/
def halfWritesD (h : Nat) : Bool := h != 0 && !halfCmp h

def halfIll (h : Half) : Bool := decide (h.hop.toNat ≥ 0x2D)
def halfRes (h : Half) : Bool :=
  let o := h.hop.toNat
  if o = 0 then orL [nz h.pg, nz h.d, nz h.b, h.nB, h.aB, nz h.imm]
  else orL [!halfReadsB o && nz h.b, !halfMods o && (h.nB || h.aB),
    if halfPred o then decide (h.imm.toNat > 6) else !halfImm o && nz h.imm]
def halfOps (h : Half) : List Opnd :=
  let o := h.hop.toNat
  (if halfReadsD o then [rd h.d] else []) ++ (if halfReadsB o then [rd h.b] else []) ++
  (if halfWritesD o then [wr h.d] else []) ++ (if halfCmp o then [.pred h.imm.toNat true] else []) ++
  (if o = 0x27 then [.pred h.imm.toNat false] else []) ++
  (if o ≠ 0 ∧ h.pg ≠ 7 then [.pred h.pg.toNat false] else [])

/-- The vector registers a slot reads, one per field (R94). -/
def halfReadsV (h : Half) : List Nat :=
  ((if halfReadsD h.hop.toNat then [h.d.toNat] else []) ++ (if halfReadsB h.hop.toNat then [h.b.toNat] else [])).filter
    (fun r => r < 192)

/-- A violation of the pairing rules: PAIR_RULE (R94). -/
def pairBad (a b : Half) : Bool :=
  let wA := halfWritesD a.hop.toNat
  let wB := halfWritesD b.hop.toNat
  let reads := halfReadsV a ++ halfReadsV b
  orL [wA && wB && a.d == b.d,
    wA && wB && isV a.d && isV b.d && a.d.toNat % 4 == b.d.toNat % 4,
    [0, 1, 2, 3].any (fun k => decide ((reads.filter (fun r => r % 4 == k)).length > 2)),
    halfCmp a.hop.toNat && halfCmp b.hop.toNat && a.imm == b.imm]

/-- A header whose fields trap (R97). -/
def headerRes (h : Header) : Bool :=
  orL [nz h.low, decide (12 ≤ h.set1.toNat ∧ h.set1.toNat ≤ 14), decide (12 ≤ h.set2.toNat ∧ h.set2.toNat ≤ 14),
    h.set1 == 15 && h.set2 != 15, h.set1 == h.set2 && h.set1 != 15]

/-! ### The table -/

/-- The form of an encoded instruction; `none` for a step of the device, which has no encoding. -/
def form : Instr → Option Form
  | .clauseHeader h => some { res := headerRes h }
  | .nop => some {}
  | .pairedWord a b low =>
    some { ill := halfIll a || halfIll b, res := orL [nz low, halfRes a, halfRes b], ops := halfOps a ++ halfOps b }
  -- integer arithmetic (R120)
  | .iadd w => some (fInt2 w tI6 sel0 modClamp)
  | .isub w => some (fInt2 w tI6 sel0 modClamp)
  | .imul w => some (fInt2 w [8, 9, 10, 11] sel0 modClamp)
  | .imulhi w => some (fInt2 w t32 sel0 0)
  | .imad w => some (fB3 w t32 sel0 (intMods w (modA ||| modB ||| modC) ||| modClamp))
  | .imadw w => some (frF w t32 sel0 (intMods w (modA ||| modB ||| modC) ||| modClamp) [oddR w.d, oddR w.c]
      [wr w.d 2, rd w.a, rd w.b, rd w.c 2])
  | .iminmaxMin w => some (fInt2 w tI6 sel0 0)
  | .iminmaxMax w => some (fInt2 w tI6 [1] 0)
  | .isad w => some (fB3 w [8, 9, 12] sel0 (intMods w (modA ||| modB ||| modC) ||| modClamp))
  -- logic, shifts, bit fields (R121)
  | .andB w => some (fB2 w sel0 0x028#10)
  | .orB w => some (fB2 w sel0 0x028#10)
  | .xorB w => some (fB2 w sel0 0x028#10)
  | .lop3 w => some (fB3 w tB sel0 modLut)
  | .shl w => some (fB2 w sel0 0)
  | .shr w => some (frF w t32 sel0 0 [nz w.c] [wr w.d, rd w.a, rd w.b])
  | .shfR w => some (fB3 w tB sel0 0)
  | .shfL w => some (fB3 w tB [1] 0)
  | .bfx w => some (fB3 w t32 sel0 0)
  | .bfi w => some (fB3 w tB sel0 0)
  | .popc w => some (fB1 w sel0)
  | .bitopClz w => some (fB1 w sel0)
  | .bitopCtz w => some (fB1 w [1])
  | .bitopBrev w => some (fB1 w [2])
  | .perm w => some (fB3 w tB sel0 0)
  -- compare, select, move, 64-bit (R122)
  | .icmp w => some (frF w t32 selCC (intMods w (modA ||| modB)) [pdBad w.d, psBad w.c] [pd w.d, rd w.a, rd w.b, ps w.c])
  | .sel w => some (frF w tB sel0 0 [psBad w.c] [wr w.d, rd w.a, rd w.b, ps w.c])
  | .mov w => some (frF w [15, 0] sel0 (if w.typ = 0 then modA else 0) [nz w.b, nz w.c] [wr w.d, rd w.a])
  | .movi w => some { res := orL [nz w.a, w.v != 0], ops := [wr w.d] }
  | .moviI64 w => some { res := orL [nz w.a, w.v != 1, oddR w.d], ops := [wr w.d 2] }
  | .lea w => some (frF w t32 [0, 1, 2, 3, 4, 5, 6, 7] 0 [oddR w.d, oddR w.a, nz w.c] [wr w.d 2, rd w.a 2, rd w.b])
  | .add64 w => some (frF w [13, 14] sel0 (intMods w (modA ||| modB) ||| modClamp) [oddR w.d, oddR w.a, oddR w.b, nz w.c]
      [wr w.d 2, rd w.a 2, rd w.b 2])
  | .add64Sub w => some (frF w [13, 14] [1] (intMods w (modA ||| modB) ||| modClamp) [oddR w.d, oddR w.a, oddR w.b, nz w.c]
      [wr w.d 2, rd w.a 2, rd w.b 2])
  | .cmp64 w => some (frF w [13, 14] selCC (intMods w (modA ||| modB)) [pdBad w.d, oddR w.a, oddR w.b, psBad w.c]
      [pd w.d, rd w.a 2, rd w.b 2, ps w.c])
  -- lane exchange and vote (R123)
  | .lanexFirst w => some (fB1 w sel0)
  | .lanexIdx w => some (fB2 w [1] 0)
  | .shfl w => some (frF w tB [0, 1, 2, 3] 0 [nz (bits w.c 3 5 : BitVec 5), decide ((bits w.c 0 3 : BitVec 3).toNat > 5)]
      [wr w.d, rd w.a, rd w.b])
  | .voteBallot w => some (frF w tB sel0 0 [psBad w.a, nz w.b, nz w.c] [wr w.d, ps w.a])
  | .voteAll w => some (frF w tB [1] 0 [pdBad w.d, psBad w.a, nz w.b, nz w.c] [pd w.d, ps w.a])
  | .voteAny w => some (frF w tB [2] 0 [pdBad w.d, psBad w.a, nz w.b, nz w.c] [pd w.d, ps w.a])
  | .voteUni w => some (frF w tB [3] 0 [pdBad w.d, psBad w.a, nz w.b, nz w.c] [pd w.d, ps w.a])
  | .voteCount w => some (frF w tB [4] 0 [psBad w.a, nz w.b, nz w.c] [wr w.d, ps w.a])
  -- special registers (R124)
  | .mrd w => some { res := orL [nz w.a, w.v != 0, nz (bits w.imm 9 23 : BitVec 23), selBad w, FiWord.pairForm w && oddR w.d],
                     ops := [wr w.d (if w.pairForm then 2 else 1)] }
  | .mwr w => some { res := orL [nz w.d, w.v != 1, nz (bits w.imm 9 23 : BitVec 23), selBad w, w.pairForm && oddR w.a],
                     ops := [rd w.a (if w.pairForm then 2 else 1)] }
  -- floating point (R125–R131)
  | .fadd w => some (fF2 w selR (modDS ||| modClamp ||| modA ||| modB))
  | .fmul w => some (fF2 w selR (modDS ||| modClamp ||| modA ||| modB))
  | .ffma w => some (fB3 w [0] selR (modDS ||| modClamp ||| modA ||| modB ||| modC))
  | .fscale w => some (fF2 w selR (modDS ||| modClamp ||| modA))
  | .fminmax w => some (fF2 w [0, 1, 2, 3] (modA ||| modB))
  | .fcmp w => some (frF w [0] [0, 1, 2, 3, 4, 5, 6, 7] (modA ||| modB) [pdBad w.d, psBad w.c]
      [pd w.d, rd w.a, rd w.b, ps w.c])
  | .frnd w => some (fF1 w selR 0)
  | .frcp w => some (fF1 w sel0 0)
  | .frsq w => some (fF1 w sel0 0)
  | .fsqrt w => some (fF1 w selR (modDS ||| modClamp))
  | .fex2 w => some (fF1 w sel0 0)
  | .flg2 w => some (fF1 w sel0 0)
  | .fsincos w => some (frF w [0] sel0 modA [oddR w.d, nz w.b, nz w.c] [wr w.d 2, rd w.a])
  | .fact w => some { frF w [0] sel0 modA [nz (bits w.b 3 5 : BitVec 5), nz w.c] [wr w.d, rd w.a] with
                      ill := w.typ != 0 || w.sel != 0 || (bits w.b 0 3 : BitVec 3) == 7 }
  | .fdact w => some { frF w [0] sel0 (modA ||| modB) [nz (bits w.c 3 5 : BitVec 5)] [wr w.d, rd w.a, rd w.b] with
                       ill := w.typ != 0 || w.sel != 0 || (bits w.c 0 3 : BitVec 3) == 7 }
  | .fclass w => some (frF w [0, 1, 2] sel0 0 [nz w.b, nz w.c] [wr w.d, rd w.a])
  -- conversion, packed, dots, reductions (R132–R137)
  | .cvt w => some (fCvt w)
  | .hop2Add w => some (fHop2 w 0)
  | .hop2Mul w => some (fHop2 w 1)
  | .hop2Fma w => some (fHop2 w 2)
  | .qscale w => some (frF w [3, 4, 5, 6, 7] sel0 0 [nz w.b, nz w.c] [wr w.d, rd w.a])
  | .setfmt w => some (fFi0 w 0 [])
  | .setfmtM w => some (fFi0 w 1 [nz (bits w.imm 30 2 : BitVec 2), nz (bits w.imm 14 2 : BitVec 2),
      nz ((bits w.imm 0 14 : BitVec 14) &&& ~~~(bits w.imm 16 14 : BitVec 14))])
  | .dp4 w => some (fDot w [6, 12] [3, 4] true)
  | .dp8 w => some (fDot w [7] [5] true)
  | .dp2 w => some (fDot w [] [1] false)
  | .vred w => some (fRed w false)
  | .vscan w => some (fRed w true)
  -- predicates (R138, R139)
  | .plop w => some (frF w tB sel0 modLut [pdBad w.d, psBad w.a, psBad w.b, psBad w.c] [pd w.d, ps w.a, ps w.b, ps w.c])
  | .pmovPack w => some (frF w tB sel0 0 [nz w.a, nz w.b, nz w.c] ([wr w.d] ++ predRange 0 32 false))
  | .pmovPackhi w => some (frF w tB [1] 0 [nz w.a, nz w.b, nz w.c] ([wr w.d] ++ predRange 32 15 false))
  | .pmovUnpack w => some (frF w tB [2] 0 [nz w.d, nz w.b, nz w.c] ([rd w.a] ++ predRange 0 32 true))
  | .pmovUnpackhi w => some (frF w tB [3] 0 [nz w.d, nz w.b, nz w.c] ([rd w.a] ++ predRange 32 15 true))
  | .pmov w => some (frF w tB [4] 0 [pdBad w.d, psBad w.a, nz w.b, nz w.c] [pd w.d, ps w.a])
  -- control transfer (R140–R149)
  | .bra w => some { res := orL [w.g.idx == 63 && nz w.joff, w.dh == 1 && w.joff == 0], ctl := true }
  | .brx w => some { frF w tB sel0 0 [nz w.d, nz w.b, oddR w.a, w.c != 0xFF && (isV w.c || oddR w.c)]
                     ([rd w.a 2] ++ (if w.c = 0xFF then [] else [rd w.c 2])) with ctl := true }
  | .call w => some { res := orL [nz w.joff, nz w.dh], ops := [.reg 252 2 true], ctl := true }
  | .ret w => some (fFs w 0 [isV w.a, oddR w.a, nz w.imm] [rd w.a 2] true)
  | .join w => some (fFs w 0 [nz w.a, nz w.imm, w.g.idx != 63] [])
  | .exit w => some (fFs w 0 [nz w.a, nz w.imm] [] true)
  | .rolejmp w => some (fFi0 w 0 [nz (bits w.imm 4 28 : BitVec 28)] true)
  | .rolejmpCur w => some (fFi0 w 1 [nz w.imm] true)
  | .rswitch w => some (fFi0 w 0 [nz (bits w.imm 4 28 : BitVec 28)] true)
  | .rswitchHint w => some (fFi0 w 1 [nz w.imm] true)
  | .claim w => some (fFi0 w 0 [nz (bits w.imm 5 27 : BitVec 27), w.imm == 0])
  | .claimTry w => some { res := orL [pdBad w.d, nz w.a, w.v != 1, nz (bits w.imm 5 27 : BitVec 27), w.imm == 0], ops := [pd w.d] }
  | .giveback w => some (fFi0 w 0 [nz (bits w.imm 5 27 : BitVec 27), w.imm == 0])
  | .yield w => some (fFs w 0 [nz w.a, nz w.imm] [])
  -- memory (R157–R168)
  | .ld w => some (fLdSt w true true)
  | .st w => some (fLdSt w false true)
  | .lds w => some (fLdSt w true false)
  | .sts w => some (fLdSt w false false)
  | .ldv w => some (fLdSt w true true)
  | .stv w => some (fLdSt w false true)
  | .atom w => some (fAtom w true)
  | .atoms w => some (fAtom w false)
  | .red w => some (fRedMem w)
  | .confEq w => some (fConf w 0)
  | .confLt w => some (fConf w 1)
  | .confBank w => some (fConf w 2)
  | .gather w => some (fGather w false)
  | .gatherBnd w => some (fGather w true)
  | .ldc w => some { ill := decide (w.size < 2) || decide (w.size > 4) || w.mod != 0,
                     res := orL [szBad w.size w.d, oddR w.base, w.idx != 0xFF], ops := [wr w.d (szRegs w.size), rd w.base 2], ll := true }
  | .cachectlPf w => some (fCache w 0)
  | .cachectlWb w => some (fCache w 1)
  | .cachectlEvict w => some (fCache w 2)
  | .cachectlCinv w => some { ill := w.minor != 3, res := orL [nz w.d, w.base != 0xFE, w.idx != 0xFF, nz w.off], ll := true }
  | .fence w => some (fFs w 0 [nz w.a, w.imm &&& 7 == 0 || w.imm &&& 7 == 7, (bits w.imm 3 2 : BitVec 2) == 3,
      nz (bits w.imm 5 11 : BitVec 11)] [])
  -- barriers, waits, copies, channels (R169–R186)
  | .barSync w => some (fBar w 0)
  | .barArrive w => some (fBar w 1)
  | .barWait w => some (fBar w 2)
  | .barInit w => some (fBar w 3)
  | .barRows w => some (fBar w 4)
  | .fwait w => some (fFi0 w 0 [nz (bits w.imm 12 20 : BitVec 20)])
  | .bwait w => some { res := orL [nz w.d, w.v != 1], ops := [rd w.a] }
  | .cpy w => some (fCpy w)
  | .cpybatch w => some { res := orL [w.v != 0, nz w.a, nz w.imm], ops := [wr w.d] }
  | .send w => some { res := orL [nz w.off, !isV w.d, nz w.base, w.idx != 0xFF], ops := [rd w.d] }
  | .sendClose w => some { res := orL [w.off != 1, nz w.d, nz w.base, w.idx != 0xFF] }
  | .recv w => some { res := orL [nz w.off, !isV w.d, nz w.base, w.idx != 0xFF], ops := [rd w.d, wr w.d], ll := true }
  | .mcastTeam w => some (fMcast w 0)
  | .mcastCluster w => some (fMcast w 1)
  | .rflush w => some { res := orL [w.v != 0, nz w.d], ops := [rd w.a], ll := true }
  -- tiles and matrices (R195–R217)
  | .talloc w => some { ill := w.minor != 0, res := orL [w.flag != 15, nz w.ha, nz w.hb, nz w.v8, nz w.s6, nz w.opt] }
  | .tfree w => some { ill := w.minor != 0, res := orL [w.flag != 15, nz w.ha, nz w.hb, nz w.v8, nz w.s6, nz w.opt] }
  | .thand w => some { ill := w.minor != 0, res := orL [w.flag != 15, nz w.hb, nz w.v8, nz w.opt], ops := [rdS w.s6] }
  | .tload w => some (fTile w 0 true false)
  | .tloadT w => some (fTile w 1 true false)
  | .tloadSc w => some { fTile w 2 true false with
                         res := orL [(fTile w 2 true false).res, w.fmtc != 0, nz w.v8], ops := [rdS w.s6 2] }
  | .tstore w => some (fTile w 0 false false)
  | .tstoreT w => some (fTile w 1 false false)
  | .tstoreQ w => some (fTile w 3 false true)
  | .mma w => some (fMma w false false false)
  | .mmaSa w => some (fMma w false true false)
  | .mmaSb w => some (fMma w true false false)
  | .mmaSab w => some (fMma w true true false)
  | .mmaTeam w => some (fMma w false false true)
  | .mmbDa w => some (fMmb w 0)
  | .mmbDb w => some (fMmb w 1)
  | .svr w => some { ill := w.minor != 0, res := orL [flagBad w, nz w.ha, nz w.hb, nz w.v8, nz w.opt, w.s6.toNat % 4 != 0],
                     ops := [rdS w.s6 4, wrS w.s6 2], ll := true }
  -- traversal, splats, raster, system (R222–R257)
  | .travStart w => some { frF w tB sel0 0 [blkBad w.d 16, blkBad w.a 8, oddR w.b,
                           w.a != w.d && decide (w.a.toNat < w.d.toNat + 16 ∧ w.d.toNat < w.a.toNat + 8)]
      [wr w.d 16, rd w.a 8, rd w.b 2, rd w.c] with ll := true }
  | .travResume w => some { frF w tB [1] 0 [blkBad w.d 16, blkBad w.a 16, nz w.b, nz w.c,
                            w.a != w.d && decide (w.a.toNat < w.d.toNat + 16 ∧ w.d.toNat < w.a.toNat + 16)]
      [wr w.d 16, rd w.a 16] with ll := true }
  | .travDrop w => some { frF w tB [2] 0 [nz w.d, blkBad w.a 16, nz w.b, nz w.c] [rd w.a 16] with ll := true }
  | .tres w => some (frF w [0] sel0 0 [blkBad w.d 16, oddR w.b, nz w.c] [rd w.d 16, wr w.d 16, rd w.a, rd w.b 2])
  | .skey w => some (fSkey w false)
  | .skeyAt w => some (fSkey w true)
  | .sort w => some { ill := w.minor != 0, res := orL [nz w.d, isV w.base, oddR w.base, w.idx != 0xFF],
                      ops := [rd w.base 2], ll := true }
  | .blend w => some { frF w [0] sel0 0 [blkBad w.d 8, blkBad w.a 4, isV w.b, oddR w.b, isV w.c, oddR w.c]
                       [rd w.d 8, wr w.d 8, rd w.a 4, rd w.b 2, rd w.c 2] with ll := true }
  | .bgrad w => some { frF w [0] sel0 0 [blkBad w.d 8, blkBad w.a 4, isV w.b, w.b.toNat % 4 != 0, isV w.c, oddR w.c]
                       [rd w.d 8, wr w.d 8, rd w.a 4, rd w.b 4, rd w.c 2] with ll := true }
  | .vbufZ w => some (fVbuf w 0)
  | .vbufId w => some (fVbuf w 1)
  | .vbufAll w => some (fVbuf w 2)
  | .vbufZmax w => some (fVbuf w 3)
  | .rosecEnter w => some (fFs w 0 [nz w.imm, isV w.a, oddR w.a] [rd w.a 2])
  | .rosecLeave w => some (fFs w 1 [nz w.imm, nz w.a] [])
  | .softwareTrap w => some (fFs w 0 [nz w.a] [] true)
  | .brkSet w => some (fFs w 0 [isV w.a, oddR w.a, nz (bits w.imm 4 12 : BitVec 12), (bits w.imm 2 2 : BitVec 2) == 3] [rd w.a 2])
  | .brkClr w => some (fFs w 1 [nz w.a, nz (bits w.imm 2 14 : BitVec 14)] [])
  | .sret w => some (fFs w 0 [nz w.a, nz w.imm, w.g.idx != 63] [] true)
  | .sretPass w => some (fFs w 1 [nz w.a, nz w.imm, w.g.idx != 63] [] true)
  | .launchAcc w => some (fLaunch w 0)
  | .launchDone w => some (fLaunch w 1)
  | .cntRd w => some (fCnt w 0)
  | .cntWait w => some (fCnt w 1)
  | .cntCancel w => some (fCnt w 2)
  | .clkRd w => some (frF w [14] sel0 0 [oddR w.d, nz w.a, nz w.b, nz w.c] [wr w.d 2])
  | .clkUntil w => some (frF w [14] [1] 0 [oddR w.a, nz w.d, nz w.b, nz w.c] [rd w.a 2])
  | _ => none

/-- The guard of a full word; a header, a pair and the nop have none. -/
def guardOf : Instr → Option Guard
  | .iadd w | .isub w | .imul w | .imulhi w | .imad w | .imadw w | .iminmaxMin w | .iminmaxMax w | .isad w | .andB w
  | .orB w | .xorB w | .lop3 w | .shl w | .shr w | .shfR w | .shfL w | .bfx w | .bfi w | .popc w | .bitopClz w
  | .bitopCtz w | .bitopBrev w | .perm w | .icmp w | .sel w | .mov w | .lea w | .add64 w | .add64Sub w | .cmp64 w
  | .lanexFirst w | .lanexIdx w | .shfl w | .voteBallot w | .voteAll w | .voteAny w | .voteUni w | .voteCount w
  | .fadd w | .fmul w | .ffma w | .fscale w | .fminmax w | .fcmp w | .frnd w | .frcp w | .frsq w | .fsqrt w | .fex2 w
  | .flg2 w | .fsincos w | .fact w | .fdact w | .fclass w | .cvt w | .hop2Add w | .hop2Mul w | .hop2Fma w | .qscale w
  | .dp4 w | .dp8 w | .dp2 w | .vred w | .vscan w | .plop w | .pmovPack w | .pmovPackhi w | .pmovUnpack w
  | .pmovUnpackhi w | .pmov w | .brx w | .travStart w | .travResume w | .travDrop w | .tres w | .blend w | .bgrad w
  | .clkRd w | .clkUntil w => some w.g
  | .movi w | .moviI64 w | .mrd w | .mwr w | .setfmt w | .setfmtM w | .rolejmp w | .rolejmpCur w | .rswitch w
  | .rswitchHint w | .claim w | .claimTry w | .giveback w | .barSync w | .barArrive w | .barWait w | .barInit w
  | .barRows w | .fwait w | .bwait w | .cpybatch w | .rflush w | .cntRd w | .cntWait w | .cntCancel w => some w.g
  | .ld w | .st w | .lds w | .sts w | .ldv w | .stv w | .atom w | .atoms w | .red w | .confEq w | .confLt w
  | .confBank w | .gather w | .gatherBnd w | .ldc w | .cachectlPf w | .cachectlWb w | .cachectlEvict w
  | .cachectlCinv w | .cpy w | .send w | .sendClose w | .recv w | .mcastTeam w | .mcastCluster w | .skey w | .skeyAt w
  | .sort w | .vbufZ w | .vbufId w | .vbufAll w | .vbufZmax w | .launchAcc w | .launchDone w => some w.g
  | .bra w | .call w => some w.g
  | .ret w | .join w | .exit w | .yield w | .fence w | .rosecEnter w | .rosecLeave w | .softwareTrap w | .brkSet w
  | .brkClr w | .sret w | .sretPass w => some w.g
  | .talloc w | .tfree w | .thand w | .tload w | .tloadT w | .tloadSc w | .tstore w | .tstoreT w | .tstoreQ w | .mma w
  | .mmaSa w | .mmaSb w | .mmaSab w | .mmaTeam w | .mmbDa w | .mmbDb w | .svr w => some w.g
  | _ => none

/-- A guard field that traps (R75). -/
def guardBad (g : Guard) : Bool := decide (48 ≤ g.idx.toNat ∧ g.idx.toNat ≤ 62) || (g.idx == 63 && g.neg)

/-- Steps 1 and 2 of R76, and the header count of R97: the cause with which the word traps at decode, wherever it stands. -/
def formFault (i : Instr) : Option (BitVec 6) :=
  match form i with
  | none => none
  | some f =>
    if f.ill then some 0x01#6
    else if f.res || (match guardOf i with | some g => guardBad g | none => false) then some 0x02#6
    else match i with
      | .clauseHeader h => if h.n1 = 15 then some 0x04#6 else none
      | _ => none

/-- Every operand of a word, its guard predicate included (p47 is a constant, R20). -/
def opndsOf (i : Instr) : List Opnd :=
  (match form i with | some f => f.ops | none => []) ++
  (match guardOf i with | some g => if g.idx.toNat < 47 then [.pred g.idx.toNat false] else [] | none => [])

end Sys2Proof.Machine
end

