-- ==== Sys2Proof/WellFormed.lean ====
section
/-! DEFINITION. Sys2Proof/WellFormed.lean: the instruction words that trap nowhere by their own bits (R75–R101). -/

namespace Sys2Proof

open Sys2Proof.Machine

/-- An instruction with an encoding, whose selectors are assigned, whose reserved and unused fields are zero, whose register
pairs are aligned, whose guard names a predicate (R76 steps 1 and 2, R97), and whose slots obey the pairing rules (R94). -/
def WellFormed (i : Instr) : Bool :=
  (form i).isSome && (formFault i).isNone &&
  match i with
  | .pairedWord a b _ => !pairBad a b
  | _ => true

end Sys2Proof
end

