-- ==== Sys2Proof/Decode.lean ====
section
/-! DEFINITION. Sys2Proof/Decode.lean: instruction words from bits and back (R74–R101). The decoder is total: it answers an
instruction, or the cause with which the word traps wherever it stands (R76 steps 1 and 2, and R97). -/

namespace Sys2Proof

open Sys2Proof.Machine

/-! ### Fields, highest first, as the tables of R75, R77, R80–R84, R90 and R96 -/

def guardOfWord (w : IWord) : Guard := ⟨bit w 55, bits w 49 6⟩
def frOf (w : IWord) : FrWord :=
  ⟨guardOfWord w, bits w 41 8, bits w 33 8, bits w 25 8, bits w 17 8, bits w 7 10, bits w 3 4, bits w 0 3⟩
def fiOf (w : IWord) : FiWord := ⟨guardOfWord w, bits w 41 8, bits w 33 8, bits w 1 32, bits w 0 1⟩
def fmOf (w : IWord) : FmWord := ⟨guardOfWord w, bits w 41 8, bits w 33 8, bits w 25 8, bits w 5 20, bits w 0 5⟩
def fbOf (w : IWord) : FbWord := ⟨guardOfWord w, bits w 17 32, bits w 1 16, bits w 0 1⟩
def ftOf (w : IWord) : FtWord :=
  ⟨guardOfWord w, bits w 43 6, bits w 37 6, bits w 31 6, bits w 23 8, bits w 17 6, bits w 13 4, bits w 7 6, bits w 0 7⟩
def fsOf (w : IWord) : FsWord := ⟨guardOfWord w, bits w 41 8, bits w 33 8, bits w 17 16, bits w 7 10, bits w 0 7⟩
def headerOf (w : IWord) : Header :=
  ⟨bits w 52 4, bits w 40 12, bits w 36 4, bits w 32 4, bit w 31, bit w 30, bits w 0 30⟩
def halfOf (x : BitVec 31) : Half := ⟨bits x 25 6, bits x 22 3, bits x 14 8, bits x 6 8, bit x 5, bit x 4, bits x 0 4⟩

/-- The instruction a selector names; an unlisted value is ILLEGAL_OPCODE (R78, R81, R83, R84). -/
def pick (k : Nat) (l : List (Nat × Instr)) : Except (BitVec 6) Instr :=
  match l.find? (fun p => p.1 == k) with
  | some p => .ok p.2
  | none => .error 0x01#6

/-- The instruction a full word's major and selectors name (R87, R88). -/
def decodeMajor (w : IWord) : Except (BitVec 6) Instr :=
  match (bits w 56 7 : BitVec 7).toNat with
  | 0x00 => if w = 0 then .ok .nop else .error 0x02#6
  | 0x01 => .ok (.iadd (frOf w))
  | 0x02 => .ok (.isub (frOf w))
  | 0x03 => .ok (.imul (frOf w))
  | 0x04 => .ok (.imulhi (frOf w))
  | 0x05 => .ok (.imad (frOf w))
  | 0x06 => .ok (.imadw (frOf w))
  | 0x07 => pick (frOf w).sel.toNat [(0, .iminmaxMin (frOf w)), (1, .iminmaxMax (frOf w))]
  | 0x08 => .ok (.isad (frOf w))
  | 0x09 => .ok (.andB (frOf w))
  | 0x0A => .ok (.orB (frOf w))
  | 0x0B => .ok (.xorB (frOf w))
  | 0x0C => .ok (.lop3 (frOf w))
  | 0x0D => .ok (.shl (frOf w))
  | 0x0E => .ok (.shr (frOf w))
  | 0x0F => pick (frOf w).sel.toNat [(0, .shfR (frOf w)), (1, .shfL (frOf w))]
  | 0x10 => .ok (.bfx (frOf w))
  | 0x11 => .ok (.bfi (frOf w))
  | 0x12 => .ok (.popc (frOf w))
  | 0x13 => pick (frOf w).sel.toNat [(0, .bitopClz (frOf w)), (1, .bitopCtz (frOf w)), (2, .bitopBrev (frOf w))]
  | 0x14 => .ok (.perm (frOf w))
  | 0x15 => .ok (.icmp (frOf w))
  | 0x16 => .ok (.sel (frOf w))
  | 0x17 => .ok (.mov (frOf w))
  | 0x18 => pick (fiOf w).v.toNat [(0, .movi (fiOf w)), (1, .moviI64 (fiOf w))]
  | 0x19 => .ok (.lea (frOf w))
  | 0x1A => pick (frOf w).sel.toNat [(0, .add64 (frOf w)), (1, .add64Sub (frOf w))]
  | 0x1B => .ok (.cmp64 (frOf w))
  | 0x1C => pick (frOf w).sel.toNat [(0, .lanexFirst (frOf w)), (1, .lanexIdx (frOf w))]
  | 0x1D => .ok (.shfl (frOf w))
  | 0x1E => pick (frOf w).sel.toNat [(0, .voteBallot (frOf w)), (1, .voteAll (frOf w)), (2, .voteAny (frOf w)), (3, .voteUni (frOf w)), (4, .voteCount (frOf w))]
  | 0x1F => pick (fiOf w).v.toNat [(0, .mrd (fiOf w)), (1, .mwr (fiOf w))]
  | 0x20 => .ok (.fadd (frOf w))
  | 0x21 => .ok (.fmul (frOf w))
  | 0x22 => .ok (.ffma (frOf w))
  | 0x23 => .ok (.fminmax (frOf w))
  | 0x24 => .ok (.fcmp (frOf w))
  | 0x25 => .ok (.frnd (frOf w))
  | 0x26 => .ok (.frcp (frOf w))
  | 0x27 => .ok (.frsq (frOf w))
  | 0x28 => .ok (.fsqrt (frOf w))
  | 0x29 => .ok (.fex2 (frOf w))
  | 0x2A => .ok (.flg2 (frOf w))
  | 0x2B => .ok (.fsincos (frOf w))
  | 0x2C => pick (frOf w).ds.toNat [(0, .hop2Add (frOf w)), (1, .hop2Mul (frOf w)), (2, .hop2Fma (frOf w))]
  | 0x2D => .ok (.cvt (frOf w))
  | 0x2E => .ok (.qscale (frOf w))
  | 0x2F => .ok (.dp4 (frOf w))
  | 0x30 => .ok (.dp8 (frOf w))
  | 0x31 => .ok (.dp2 (frOf w))
  | 0x32 => .ok (.fdact (frOf w))
  | 0x33 => .ok (.fact (frOf w))
  | 0x34 => .ok (.fclass (frOf w))
  | 0x35 => pick (fiOf w).v.toNat [(0, .setfmt (fiOf w)), (1, .setfmtM (fiOf w))]
  | 0x36 => .ok (.fscale (frOf w))
  | 0x37 => .ok (.vred (frOf w))
  | 0x38 => .ok (.vscan (frOf w))
  | 0x40 => .ok (.plop (frOf w))
  | 0x41 => pick (frOf w).sel.toNat [(0, .pmovPack (frOf w)), (1, .pmovPackhi (frOf w)), (2, .pmovUnpack (frOf w)), (3, .pmovUnpackhi (frOf w)), (4, .pmov (frOf w))]
  | 0x42 => .ok (.bra (fbOf w))
  | 0x43 => .ok (.brx (frOf w))
  | 0x44 => .ok (.call (fbOf w))
  | 0x45 => pick (fsOf w).minor.toNat [(0, .ret (fsOf w))]
  | 0x46 => pick (fsOf w).minor.toNat [(0, .join (fsOf w))]
  | 0x47 => pick (fsOf w).minor.toNat [(0, .exit (fsOf w))]
  | 0x48 => pick (fiOf w).v.toNat [(0, .rolejmp (fiOf w)), (1, .rolejmpCur (fiOf w))]
  | 0x49 => pick (fiOf w).v.toNat [(0, .rswitch (fiOf w)), (1, .rswitchHint (fiOf w))]
  | 0x4A => pick (fiOf w).v.toNat [(0, .claim (fiOf w)), (1, .claimTry (fiOf w))]
  | 0x4B => .ok (.giveback (fiOf w))
  | 0x4C => pick (fsOf w).minor.toNat [(0, .yield (fsOf w))]
  | 0x50 => .ok (.ld (fmOf w))
  | 0x51 => .ok (.st (fmOf w))
  | 0x52 => .ok (.lds (fmOf w))
  | 0x53 => .ok (.sts (fmOf w))
  | 0x54 => .ok (.ldv (fmOf w))
  | 0x55 => .ok (.stv (fmOf w))
  | 0x56 => .ok (.atom (fmOf w))
  | 0x57 => .ok (.atoms (fmOf w))
  | 0x58 => .ok (.red (fmOf w))
  | 0x59 => pick (fmOf w).mod [(0, .confEq (fmOf w)), (1, .confLt (fmOf w)), (2, .confBank (fmOf w))]
  | 0x5A => .ok (.ldc (fmOf w))
  | 0x5B => pick (fmOf w).minor.toNat [(0, .cachectlPf (fmOf w)), (1, .cachectlWb (fmOf w)), (2, .cachectlEvict (fmOf w)), (3, .cachectlCinv (fmOf w))]
  | 0x5C => pick (fsOf w).minor.toNat [(0, .fence (fsOf w))]
  | 0x5D => if (fmOf w).mod = 2 then .ok (.gatherBnd (fmOf w)) else .ok (.gather (fmOf w))
  | 0x60 => pick (fiOf w).barOp [(0, .barSync (fiOf w)), (1, .barArrive (fiOf w)), (2, .barWait (fiOf w)), (3, .barInit (fiOf w)), (4, .barRows (fiOf w))]
  | 0x61 => pick (fiOf w).v.toNat [(0, .fwait (fiOf w)), (1, .bwait (fiOf w))]
  | 0x62 => .ok (.cpy (fmOf w))
  | 0x63 => .ok (.cpybatch (fiOf w))
  | 0x64 => if (fmOf w).off = 1 then .ok (.sendClose (fmOf w)) else .ok (.send (fmOf w))
  | 0x65 => .ok (.recv (fmOf w))
  | 0x66 => pick (fmOf w).minor.toNat [(0, .mcastTeam (fmOf w)), (1, .mcastCluster (fmOf w))]
  | 0x67 => .ok (.rflush (fiOf w))
  | 0x68 => .ok (.talloc (ftOf w))
  | 0x69 => .ok (.tfree (ftOf w))
  | 0x6A => .ok (.thand (ftOf w))
  | 0x6B => pick (ftOf w).minor.toNat [(0, .tload (ftOf w)), (1, .tloadT (ftOf w)), (2, .tloadSc (ftOf w))]
  | 0x6C => pick (ftOf w).minor.toNat [(0, .tstore (ftOf w)), (1, .tstoreT (ftOf w)), (3, .tstoreQ (ftOf w))]
  | 0x6D => if (ftOf w).minor = 0 then
      .ok (if (ftOf w).sb then (if (ftOf w).sa then .mmaSab (ftOf w) else .mmaSb (ftOf w))
        else if (ftOf w).sa then .mmaSa (ftOf w) else .mma (ftOf w))
    else if (ftOf w).minor = 1 ∧ !(ftOf w).sa ∧ !(ftOf w).sb then .ok (.mmaTeam (ftOf w)) else .error 0x01#6
  | 0x6E => pick (ftOf w).minor.toNat [(0, .mmbDa (ftOf w)), (1, .mmbDb (ftOf w))]
  | 0x6F => .ok (.svr (ftOf w))
  | 0x70 => pick (frOf w).sel.toNat [(0, .travStart (frOf w)), (1, .travResume (frOf w)), (2, .travDrop (frOf w))]
  | 0x71 => .ok (.tres (frOf w))
  | 0x72 => pick (fmOf w).minor.toNat [(0, .skey (fmOf w)), (1, .skeyAt (fmOf w))]
  | 0x73 => .ok (.sort (fmOf w))
  | 0x74 => .ok (.blend (frOf w))
  | 0x75 => .ok (.bgrad (frOf w))
  | 0x76 => pick (fmOf w).minor.toNat [(0, .vbufZ (fmOf w)), (1, .vbufId (fmOf w)), (2, .vbufAll (fmOf w)), (3, .vbufZmax (fmOf w))]
  | 0x77 => pick (fsOf w).minor.toNat [(0, .rosecEnter (fsOf w)), (1, .rosecLeave (fsOf w))]
  | 0x78 => pick (fsOf w).minor.toNat [(0, .softwareTrap (fsOf w))]
  | 0x79 => pick (fsOf w).minor.toNat [(0, .brkSet (fsOf w)), (1, .brkClr (fsOf w))]
  | 0x7A => pick (fsOf w).minor.toNat [(0, .sret (fsOf w)), (1, .sretPass (fsOf w))]
  | 0x7B => pick (fmOf w).minor.toNat [(0, .launchAcc (fmOf w)), (1, .launchDone (fmOf w))]
  | 0x7C => pick (fiOf w).cntOp [(0, .cntRd (fiOf w)), (1, .cntWait (fiOf w)), (2, .cntCancel (fiOf w))]
  | 0x7D => pick (frOf w).sel.toNat [(0, .clkRd (frOf w)), (1, .clkUntil (frOf w))]
  | 0x7F => .ok (.clauseHeader (headerOf w))
  | _ => .error 0x01#6

/-- The instruction a word names, before the checks of its own fields (R74, R90). -/
def decodeShape (w : IWord) : Except (BitVec 6) Instr :=
  if bit w 63 then .ok (.pairedWord (halfOf (bits w 32 31)) (halfOf (bits w 1 31)) (bits w 0 1)) else decodeMajor w

/-- The decoder: the instruction, or the cause with which the word traps wherever it stands (R76 steps 1–2). -/
def decodeWord (w : IWord) : Except (BitVec 6) Instr :=
  match decodeShape w with
  | .error c => .error c
  | .ok i => match formFault i with
    | some c => .error c
    | none => .ok i

/-! ### The encoder -/

def guardBits (g : Guard) : BitVec 7 := BitVec.ofBool g.neg ++ g.idx
def frWord (m : BitVec 7) (w : FrWord) : IWord :=
  0#1 ++ (m ++ (guardBits w.g ++ (w.d ++ (w.a ++ (w.b ++ (w.c ++ (w.mid ++ (w.typ ++ w.sel))))))))
def fiWord (m : BitVec 7) (w : FiWord) : IWord := 0#1 ++ (m ++ (guardBits w.g ++ (w.d ++ (w.a ++ (w.imm ++ w.v)))))
def fmWord (m : BitVec 7) (w : FmWord) : IWord :=
  0#1 ++ (m ++ (guardBits w.g ++ (w.d ++ (w.base ++ (w.idx ++ (w.off ++ w.minor))))))
def fbWord (m : BitVec 7) (w : FbWord) : IWord := 0#1 ++ (m ++ (guardBits w.g ++ (w.toff ++ (w.joff ++ w.dh))))
def ftWord (m : BitVec 7) (w : FtWord) : IWord :=
  0#1 ++ (m ++ (guardBits w.g ++ (w.hd ++ (w.ha ++ (w.hb ++ (w.v8 ++ (w.s6 ++ (w.flag ++ (w.opt ++ w.minor)))))))))
def fsWord (m : BitVec 7) (w : FsWord) : IWord :=
  0#1 ++ (m ++ (guardBits w.g ++ (w.d ++ (w.a ++ (w.imm ++ (w.res ++ w.minor))))))
def headerWord (h : Header) : IWord :=
  0#1 ++ (0x7F#7 ++ (h.n1 ++ (h.wait ++ (h.set1 ++ (h.set2 ++ (BitVec.ofBool h.reg ++ (BitVec.ofBool h.yld ++ h.low)))))))
def halfWord (h : Half) : BitVec 31 :=
  h.hop ++ (h.pg ++ (h.d ++ (h.b ++ (BitVec.ofBool h.nB ++ (BitVec.ofBool h.aB ++ h.imm)))))

/-- The word of an instruction; a step of the device has none. -/
def encode : Instr → Option IWord
  | .clauseHeader h => some (headerWord h)
  | .pairedWord a b low => some (1#1 ++ (halfWord a ++ (halfWord b ++ low)))
  | .nop => some 0
  | .iadd w => some (frWord 0x01#7 w)
  | .isub w => some (frWord 0x02#7 w)
  | .imul w => some (frWord 0x03#7 w)
  | .imulhi w => some (frWord 0x04#7 w)
  | .imad w => some (frWord 0x05#7 w)
  | .imadw w => some (frWord 0x06#7 w)
  | .iminmaxMin w => some (frWord 0x07#7 w)
  | .iminmaxMax w => some (frWord 0x07#7 w)
  | .isad w => some (frWord 0x08#7 w)
  | .andB w => some (frWord 0x09#7 w)
  | .orB w => some (frWord 0x0A#7 w)
  | .xorB w => some (frWord 0x0B#7 w)
  | .lop3 w => some (frWord 0x0C#7 w)
  | .shl w => some (frWord 0x0D#7 w)
  | .shr w => some (frWord 0x0E#7 w)
  | .shfR w => some (frWord 0x0F#7 w)
  | .shfL w => some (frWord 0x0F#7 w)
  | .bfx w => some (frWord 0x10#7 w)
  | .bfi w => some (frWord 0x11#7 w)
  | .popc w => some (frWord 0x12#7 w)
  | .bitopClz w => some (frWord 0x13#7 w)
  | .bitopCtz w => some (frWord 0x13#7 w)
  | .bitopBrev w => some (frWord 0x13#7 w)
  | .perm w => some (frWord 0x14#7 w)
  | .icmp w => some (frWord 0x15#7 w)
  | .sel w => some (frWord 0x16#7 w)
  | .mov w => some (frWord 0x17#7 w)
  | .movi w => some (fiWord 0x18#7 w)
  | .moviI64 w => some (fiWord 0x18#7 w)
  | .lea w => some (frWord 0x19#7 w)
  | .add64 w => some (frWord 0x1A#7 w)
  | .add64Sub w => some (frWord 0x1A#7 w)
  | .cmp64 w => some (frWord 0x1B#7 w)
  | .lanexFirst w => some (frWord 0x1C#7 w)
  | .lanexIdx w => some (frWord 0x1C#7 w)
  | .shfl w => some (frWord 0x1D#7 w)
  | .voteBallot w => some (frWord 0x1E#7 w)
  | .voteAll w => some (frWord 0x1E#7 w)
  | .voteAny w => some (frWord 0x1E#7 w)
  | .voteUni w => some (frWord 0x1E#7 w)
  | .voteCount w => some (frWord 0x1E#7 w)
  | .mrd w => some (fiWord 0x1F#7 w)
  | .mwr w => some (fiWord 0x1F#7 w)
  | .fadd w => some (frWord 0x20#7 w)
  | .fmul w => some (frWord 0x21#7 w)
  | .ffma w => some (frWord 0x22#7 w)
  | .fminmax w => some (frWord 0x23#7 w)
  | .fcmp w => some (frWord 0x24#7 w)
  | .frnd w => some (frWord 0x25#7 w)
  | .frcp w => some (frWord 0x26#7 w)
  | .frsq w => some (frWord 0x27#7 w)
  | .fsqrt w => some (frWord 0x28#7 w)
  | .fex2 w => some (frWord 0x29#7 w)
  | .flg2 w => some (frWord 0x2A#7 w)
  | .fsincos w => some (frWord 0x2B#7 w)
  | .hop2Add w => some (frWord 0x2C#7 w)
  | .hop2Mul w => some (frWord 0x2C#7 w)
  | .hop2Fma w => some (frWord 0x2C#7 w)
  | .cvt w => some (frWord 0x2D#7 w)
  | .qscale w => some (frWord 0x2E#7 w)
  | .dp4 w => some (frWord 0x2F#7 w)
  | .dp8 w => some (frWord 0x30#7 w)
  | .dp2 w => some (frWord 0x31#7 w)
  | .fdact w => some (frWord 0x32#7 w)
  | .fact w => some (frWord 0x33#7 w)
  | .fclass w => some (frWord 0x34#7 w)
  | .setfmt w => some (fiWord 0x35#7 w)
  | .setfmtM w => some (fiWord 0x35#7 w)
  | .fscale w => some (frWord 0x36#7 w)
  | .vred w => some (frWord 0x37#7 w)
  | .vscan w => some (frWord 0x38#7 w)
  | .plop w => some (frWord 0x40#7 w)
  | .pmovPack w => some (frWord 0x41#7 w)
  | .pmovPackhi w => some (frWord 0x41#7 w)
  | .pmovUnpack w => some (frWord 0x41#7 w)
  | .pmovUnpackhi w => some (frWord 0x41#7 w)
  | .pmov w => some (frWord 0x41#7 w)
  | .bra w => some (fbWord 0x42#7 w)
  | .brx w => some (frWord 0x43#7 w)
  | .call w => some (fbWord 0x44#7 w)
  | .ret w => some (fsWord 0x45#7 w)
  | .join w => some (fsWord 0x46#7 w)
  | .exit w => some (fsWord 0x47#7 w)
  | .rolejmp w => some (fiWord 0x48#7 w)
  | .rolejmpCur w => some (fiWord 0x48#7 w)
  | .rswitch w => some (fiWord 0x49#7 w)
  | .rswitchHint w => some (fiWord 0x49#7 w)
  | .claim w => some (fiWord 0x4A#7 w)
  | .claimTry w => some (fiWord 0x4A#7 w)
  | .giveback w => some (fiWord 0x4B#7 w)
  | .yield w => some (fsWord 0x4C#7 w)
  | .ld w => some (fmWord 0x50#7 w)
  | .st w => some (fmWord 0x51#7 w)
  | .lds w => some (fmWord 0x52#7 w)
  | .sts w => some (fmWord 0x53#7 w)
  | .ldv w => some (fmWord 0x54#7 w)
  | .stv w => some (fmWord 0x55#7 w)
  | .atom w => some (fmWord 0x56#7 w)
  | .atoms w => some (fmWord 0x57#7 w)
  | .red w => some (fmWord 0x58#7 w)
  | .confEq w => some (fmWord 0x59#7 w)
  | .confLt w => some (fmWord 0x59#7 w)
  | .confBank w => some (fmWord 0x59#7 w)
  | .ldc w => some (fmWord 0x5A#7 w)
  | .cachectlPf w => some (fmWord 0x5B#7 w)
  | .cachectlWb w => some (fmWord 0x5B#7 w)
  | .cachectlEvict w => some (fmWord 0x5B#7 w)
  | .cachectlCinv w => some (fmWord 0x5B#7 w)
  | .fence w => some (fsWord 0x5C#7 w)
  | .gather w => some (fmWord 0x5D#7 w)
  | .gatherBnd w => some (fmWord 0x5D#7 w)
  | .barSync w => some (fiWord 0x60#7 w)
  | .barArrive w => some (fiWord 0x60#7 w)
  | .barWait w => some (fiWord 0x60#7 w)
  | .barInit w => some (fiWord 0x60#7 w)
  | .barRows w => some (fiWord 0x60#7 w)
  | .fwait w => some (fiWord 0x61#7 w)
  | .bwait w => some (fiWord 0x61#7 w)
  | .cpy w => some (fmWord 0x62#7 w)
  | .cpybatch w => some (fiWord 0x63#7 w)
  | .send w => some (fmWord 0x64#7 w)
  | .sendClose w => some (fmWord 0x64#7 w)
  | .recv w => some (fmWord 0x65#7 w)
  | .mcastTeam w => some (fmWord 0x66#7 w)
  | .mcastCluster w => some (fmWord 0x66#7 w)
  | .rflush w => some (fiWord 0x67#7 w)
  | .talloc w => some (ftWord 0x68#7 w)
  | .tfree w => some (ftWord 0x69#7 w)
  | .thand w => some (ftWord 0x6A#7 w)
  | .tload w => some (ftWord 0x6B#7 w)
  | .tloadT w => some (ftWord 0x6B#7 w)
  | .tloadSc w => some (ftWord 0x6B#7 w)
  | .tstore w => some (ftWord 0x6C#7 w)
  | .tstoreT w => some (ftWord 0x6C#7 w)
  | .tstoreQ w => some (ftWord 0x6C#7 w)
  | .mma w => some (ftWord 0x6D#7 w)
  | .mmaSa w => some (ftWord 0x6D#7 w)
  | .mmaSb w => some (ftWord 0x6D#7 w)
  | .mmaSab w => some (ftWord 0x6D#7 w)
  | .mmaTeam w => some (ftWord 0x6D#7 w)
  | .mmbDa w => some (ftWord 0x6E#7 w)
  | .mmbDb w => some (ftWord 0x6E#7 w)
  | .svr w => some (ftWord 0x6F#7 w)
  | .travStart w => some (frWord 0x70#7 w)
  | .travResume w => some (frWord 0x70#7 w)
  | .travDrop w => some (frWord 0x70#7 w)
  | .tres w => some (frWord 0x71#7 w)
  | .skey w => some (fmWord 0x72#7 w)
  | .skeyAt w => some (fmWord 0x72#7 w)
  | .sort w => some (fmWord 0x73#7 w)
  | .blend w => some (frWord 0x74#7 w)
  | .bgrad w => some (frWord 0x75#7 w)
  | .vbufZ w => some (fmWord 0x76#7 w)
  | .vbufId w => some (fmWord 0x76#7 w)
  | .vbufAll w => some (fmWord 0x76#7 w)
  | .vbufZmax w => some (fmWord 0x76#7 w)
  | .rosecEnter w => some (fsWord 0x77#7 w)
  | .rosecLeave w => some (fsWord 0x77#7 w)
  | .softwareTrap w => some (fsWord 0x78#7 w)
  | .brkSet w => some (fsWord 0x79#7 w)
  | .brkClr w => some (fsWord 0x79#7 w)
  | .sret w => some (fsWord 0x7A#7 w)
  | .sretPass w => some (fsWord 0x7A#7 w)
  | .launchAcc w => some (fmWord 0x7B#7 w)
  | .launchDone w => some (fmWord 0x7B#7 w)
  | .cntRd w => some (fiWord 0x7C#7 w)
  | .cntWait w => some (fiWord 0x7C#7 w)
  | .cntCancel w => some (fiWord 0x7C#7 w)
  | .clkRd w => some (frWord 0x7D#7 w)
  | .clkUntil w => some (frWord 0x7D#7 w)
  | _ => none

/-! ### What the host asks -/

/-- The instruction the decoder reads from the 64-bit word whose bits are `w`, laid out little-endian as the hardware stores it
(R6); `none` where it refuses. Every instruction is one 64-bit word, so any bit the table gives no row beyond `nbits` is 0. -/
def decodeTableWord (_nbits w : Nat) : Option Instr :=
  match decodeWord (ofBytes 64 (bytesOf 8 (BitVec.ofNat 64 w))) with
  | .ok i => some i
  | .error _ => none

end Sys2Proof
end

