-- ==== Sys2Proof/Config.lean ====
section
/-! DEFINITION. Sys2Proof/Config.lean: what the manual leaves open, as constants without a body: no proof can see their values.
Each is named by a row of the assumption log. -/

namespace Sys2Proof

/-- The value of an approximated function within the bound of its rule: function number, operand bits (R119, R130, R131). -/
opaque Config.approx : Nat → BitVec 32 → BitVec 32 → BitVec 32

/-- Value (bits 31:0) and flags (bits 38:32) of fact and fdact where R131's formula has no value at an infinite operand. -/
opaque Config.openAct : Nat → BitVec 32 → BitVec 32 → BitVec 39

/-- How far CLK moves between two steps of the model (timing is open, R271). -/
opaque Config.clkStep : Nat → BitVec 64
/-- The bytes of a checkpoint block in a frame (opaque, R399, R406): token, offset. -/
opaque Config.ckptByte : Nat → Nat → BitVec 8
/-- The bytes of a spilled block of the reconvergence stack (not architectural, R262, R267): token, offset. -/
opaque Config.spillByte : Nat → Nat → BitVec 8
/-- A byte of a scratchpad or vault allocation that nothing has written (undefined at start): tag, space, offset. -/
opaque Config.allocByte : Nat → Nat → Nat → BitVec 8
/-- A number the device chooses: which choice (the count of free values), what it chooses. -/
opaque Config.choice : Nat → Nat
/-- A Boolean the device chooses, for example whether a line has left L2 with its records (R325). -/
opaque Config.chance : Nat → Bool

/-- The draws that fuse the positions of a cluster's cores and its spares (R287, R452). -/
opaque Config.fusePick : Nat → Nat
/-- Slots of a mesh buffer beyond the first (R288). -/
opaque Config.flitSlots : Nat
/-- A block of 256 bytes fits losslessly into a compression mode, 1 or 2 (R296). -/
opaque Config.packs : Nat → List (BitVec 8) → Bool

/-- The bytes a PUT flit carries and what they are, the payload of a Vartur request: address and bytes to payload, and back (R435). -/
opaque Config.putChunk : Nat
opaque Config.putPayload : Nat → Nat → List (BitVec 8) → List (BitVec 8)
opaque Config.putOf : List (BitVec 8) → Nat × Nat × List (BitVec 8)
/-- The payload of a Vartur response: ring and cause to payload, and back (R435). -/
opaque Config.ackPayload : Nat → BitVec 6 → List (BitVec 8)
opaque Config.ackOf : List (BitVec 8) → Nat × BitVec 6
/-- What one rank of a collective sends to another, as payloads: the destination, the numbers of its header (RANK, OP, S, NT, tile code,
COLLID), its PART, ORDER, GRAD and ROUTE; COLLID, source and destination of a payload; and what the payloads of one source say, once
they are all there (R437). -/
opaque Config.collFlits : Nat → List Nat → List (List (BitVec 8)) → List (List (BitVec 8))
opaque Config.collOf : List (BitVec 8) → Nat × Nat × Nat
opaque Config.collPeer : List (List (BitVec 8)) → Option (List Nat × List (List (BitVec 8)))

/-- The device serial; the identity key pair that is derived from the fused seed: its public half, its signature; the vendor's
signature; the verification of a signature over a header with the vendor key (R468, R470). -/
opaque Config.serial : BitVec 64
opaque Config.identityKey : List (BitVec 8)
opaque Config.identitySign : List (BitVec 8) → List (BitVec 8)
opaque Config.vendorSign : List (BitVec 8) → List (BitVec 8)
opaque Config.vendorSigned : List (BitVec 8) → List (BitVec 8) → Bool
/-- The image set that a bank of the boot flash holds from manufacture (R468). -/
opaque Config.factory : Nat → List (BitVec 8)

end Sys2Proof
end

