-- ==== Sys2Proof/Machine/Num.lean ====
section
/-! DEFINITION. Sys2Proof/Machine/Num.lean: the number formats, exact values, rounding, overflow, underflow and flags (R43–R63). -/

namespace Sys2Proof.Machine

open Sys2Proof

/-! ### Flags of R35 and R63 -/

def flIV : FFlags := 0x01#7
def flDZ : FFlags := 0x02#7
def flOF : FFlags := 0x04#7
def flUF : FFlags := 0x08#7
def flNX : FFlags := 0x10#7
def flIRC : FFlags := 0x20#7
def flSAT : FFlags := 0x40#7

/-- A flag when a condition holds. -/
def flIf (b : Bool) (f : FFlags) : FFlags := if b then f else 0

/-- The OR of a list of flag sets (R35). -/
def flOr (l : List FFlags) : FFlags := l.foldl (· ||| ·) 0

/-! ### Exact dyadic numbers -/

/-- The exact number n × 2^e. -/
structure Dy where
  n : Int
  e : Int
deriving DecidableEq, Repr

def Dy.zero : Dy := ⟨0, 0⟩
def Dy.ofInt (n : Int) : Dy := ⟨n, 0⟩
def Dy.add (a b : Dy) : Dy :=
  let e := min a.e b.e
  ⟨a.n * 2 ^ (a.e - e).toNat + b.n * 2 ^ (b.e - e).toNat, e⟩
def Dy.neg (a : Dy) : Dy := ⟨-a.n, a.e⟩
def Dy.sub (a b : Dy) : Dy := a.add b.neg
def Dy.mul (a b : Dy) : Dy := ⟨a.n * b.n, a.e + b.e⟩
def Dy.abs (a : Dy) : Dy := ⟨a.n.natAbs, a.e⟩
def Dy.scale (a : Dy) (k : Int) : Dy := ⟨a.n, a.e + k⟩
def Dy.isZero (a : Dy) : Bool := a.n == 0
def Dy.lt (a b : Dy) : Bool := (a.sub b).n < 0
def Dy.le (a b : Dy) : Bool := (a.sub b).n ≤ 0
def Dy.eq (a b : Dy) : Bool := (a.sub b).n == 0
/-- Floor(log2 |a|), for a nonzero a. -/
def Dy.log2 (a : Dy) : Int := (Nat.log2 a.n.natAbs : Int) + a.e
/-- The greatest integer not above a. -/
def Dy.floor (a : Dy) : Int := if a.e ≥ 0 then a.n * 2 ^ a.e.toNat else a.n / 2 ^ (-a.e).toNat

/-! ### Values of a format -/

/-- What a code of a floating-point format denotes (R44–R49): a NaN (signalling or quiet), an infinity,
or the exact (−1)^neg × m × 2^e, where a zero keeps its sign. -/
inductive Num where
  | nan (sig : Bool)
  | inf (neg : Bool)
  | fin (neg : Bool) (m : Nat) (e : Int)
deriving DecidableEq, Repr

def Num.isNan : Num → Bool
  | .nan _ => true
  | _ => false
def Num.isSig : Num → Bool
  | .nan b => b
  | _ => false
def Num.isInf : Num → Bool
  | .inf _ => true
  | _ => false
def Num.isZero : Num → Bool
  | .fin _ 0 _ => true
  | _ => false
/-- The sign of a value that is no NaN. -/
def Num.sign : Num → Bool
  | .nan _ => false
  | .inf b => b
  | .fin b _ _ => b
/-- The exact value of a finite number, zero otherwise. -/
def Num.dy : Num → Dy
  | .fin b m e => ⟨if b then -(m : Int) else (m : Int), e⟩
  | _ => Dy.zero
def Num.ofDy (a : Dy) : Num := .fin (decide (a.n < 0)) a.n.natAbs a.e
def Num.ofInt (n : Int) : Num := Num.ofDy (Dy.ofInt n)
def Num.neg : Num → Num
  | .nan b => .nan b
  | .inf b => .inf !b
  | .fin b m e => .fin (!b) m e
/-- The value times 2^k, exactly. -/
def Num.scale (x : Num) (k : Int) : Num :=
  match x with
  | .fin b m e => .fin b m (e + k)
  | y => y

/-- The floating-point formats (R43). -/
inductive Fmt where
  | fp32 | bf16 | fp16 | e4m3 | e5m2 | e2m1
deriving DecidableEq, Repr

/-- Fraction bits (R44). -/
def Fmt.frac : Fmt → Nat
  | .fp32 => 23 | .bf16 => 7 | .fp16 => 10 | .e4m3 => 3 | .e5m2 => 2 | .e2m1 => 1
/-- Exponent bias (R44). -/
def Fmt.bias : Fmt → Nat
  | .fp32 => 127 | .bf16 => 127 | .fp16 => 15 | .e4m3 => 7 | .e5m2 => 15 | .e2m1 => 1
/-- Element width (R43). -/
def Fmt.width : Fmt → Nat
  | .fp32 => 32 | .bf16 => 16 | .fp16 => 16 | .e4m3 => 8 | .e5m2 => 8 | .e2m1 => 4
/-- The code of the largest finite magnitude (R51). -/
def Fmt.maxFin : Fmt → Nat
  | .fp32 => 0x7F7FFFFF | .bf16 => 0x7F7F | .fp16 => 0x7BFF | .e4m3 => 0x7E | .e5m2 => 0x7B | .e2m1 => 0x7
/-- The format has infinities (R47–R49). -/
def Fmt.hasInf : Fmt → Bool
  | .fp32 | .bf16 | .fp16 | .e5m2 => true
  | .e4m3 | .e2m1 => false
/-- The canonical NaN (R51); E2M1 has none, and a NaN becomes +0 there (R61). -/
def Fmt.nanCode : Fmt → Nat
  | .fp32 => 0x7FC00000 | .bf16 => 0x7FC0 | .fp16 => 0x7E00 | .e4m3 => 0x7F | .e5m2 => 0x7E | .e2m1 => 0
/-- The code of 1.0. -/
def Fmt.oneCode (f : Fmt) : Nat := f.bias * 2 ^ f.frac
/-- The sign bit's weight. -/
def Fmt.signW (f : Fmt) : Nat := 2 ^ (f.width - 1)

/-- The value a code of format `f` denotes (R44–R49). -/
def Fmt.decode (f : Fmt) (code : Nat) : Num :=
  let neg := code / f.signW % 2 == 1
  let c := code % f.signW
  let ef := c / 2 ^ f.frac
  let fr := c % 2 ^ f.frac
  if f.hasInf && decide (c > f.maxFin) then
    if fr = 0 then .inf neg else .nan (decide (fr < 2 ^ (f.frac - 1)))
  else if f = .e4m3 ∧ c = 0x7F then .nan false
  else if ef = 0 then .fin neg fr (1 - (f.bias : Int) - f.frac)
  else .fin neg (2 ^ f.frac + fr) ((ef : Int) - f.bias - f.frac)

/-! ### Rounding (R57–R60) -/

/-- The four rounding modes, numbered as in FMT.RND (R57). -/
inductive Rnd where
  | ne | z | u | d
deriving DecidableEq, Repr

def Rnd.ofBits (x : BitVec 2) : Rnd :=
  if x = 0 then .ne else if x = 1 then .z else if x = 2 then .u else .d

/-- The magnitude m / 2^k rounded to an integer in mode `r` for a value of sign `neg`, and whether it was inexact. -/
def roundShift (r : Rnd) (neg : Bool) (m k : Nat) : Nat × Bool :=
  let n := m / 2 ^ k
  let rem := m % 2 ^ k
  let up : Bool := match r with
    | .ne => decide (2 * rem > 2 ^ k) || (2 * rem == 2 ^ k && n % 2 == 1)
    | .z => false
    | .u => !neg && rem != 0
    | .d => neg && rem != 0
  (if up then n + 1 else n, rem != 0)

/-- m × 2^e in units of 2^q, rounded. A value far below one unit rounds as any other nonzero value below a quarter unit. -/
def roundAt (r : Rnd) (neg : Bool) (m : Nat) (e q : Int) : Nat × Bool :=
  if e ≥ q then (m * 2 ^ (e - q).toNat, false) else roundShift r neg m (min (q - e).toNat (Nat.log2 m + 3))

/-- An overflowing result (R59): the magnitude code delivered. -/
def overflowCode (f : Fmt) (r : Rnd) (neg : Bool) : Nat :=
  if !f.hasInf then f.maxFin
  else match r with
    | .ne => f.maxFin + 1
    | .z => f.maxFin
    | .u => if neg then f.maxFin else f.maxFin + 1
    | .d => if neg then f.maxFin + 1 else f.maxFin

/-- The exact finite (−1)^neg × m × 2^e rounded once to format `f` in mode `r` (R57–R60): its code and flags. -/
def roundFin (f : Fmt) (r : Rnd) (neg : Bool) (m : Nat) (e : Int) : Nat × FFlags :=
  let sg := if neg then f.signW else 0
  if m = 0 then (sg, 0)
  else
    let p : Int := f.frac
    let emin : Int := 1 - (f.bias : Int)
    let ex : Int := (Nat.log2 m : Int) + e
    let q := max ex emin - p
    let (n, inex) := roundAt r neg m e q
    let code := (q - (emin - p)).toNat * 2 ^ f.frac + n
    if code > f.maxFin then (sg + overflowCode f r neg, flOF ||| flNX)
    else
      let (n1, _) := roundAt r neg m e (ex - p)
      -- tiny: nonzero and, rounded with no lower exponent bound, below the smallest normal value (R60)
      let tiny : Bool := decide ((if n1 = 2 ^ (f.frac + 1) then ex + 1 else ex) < emin)
      (sg + code, flIf inex flNX ||| flIf (tiny && inex) flUF)

/-- The delivery of a value to format `f` (R46, R58–R61): code and flags. A signalling NaN raises IV. -/
def Num.deliver (x : Num) (f : Fmt) (r : Rnd) : Nat × FFlags :=
  match x with
  | .nan s => (f.nanCode, flIf (s || f == .e2m1) flIV)
  | .inf neg =>
    let sg := if neg then f.signW else 0
    if f.hasInf then (sg + (f.maxFin + 1), 0) else (sg + f.maxFin, flOF ||| flNX)
  | .fin neg m e => roundFin f r neg m e

/-- The clamp of R58 on a delivered code. -/
def clampCode (f : Fmt) (code : Nat) : Nat × FFlags :=
  match f.decode code with
  | .nan _ => (0, flSAT)
  | .inf neg => (if neg then 0 else f.oneCode, flSAT)
  | .fin neg m _ =>
    if neg then (0, flIf (m != 0) flSAT)
    else if code > f.oneCode then (f.oneCode, flSAT) else (code, 0)

/-- Finish(x, f, m) of chapter 4: DS, the single rounding, then the clamp (R58). -/
def finish (x : Num) (ds : BitVec 3) (clamp : Bool) (f : Fmt) (r : Rnd) : Nat × FFlags :=
  let (c, fl) := (x.scale ds.toInt).deliver f r
  if clamp then
    let (c', fl') := clampCode f c
    (c', fl ||| fl')
  else (c, fl)

/-! ### Exact operations -/

/-- IV for the signalling NaNs among the operands (R46, R63). -/
def sigIV (xs : List Num) : FFlags := flIf (xs.any Num.isSig) flIV

/-- The exact product, with IV for ∞ × 0 (R63). -/
def Num.mul (a b : Num) : Num × FFlags :=
  match a, b with
  | .nan _, _ => (.nan false, 0)
  | _, .nan _ => (.nan false, 0)
  | .inf s, .inf t => (.inf (s != t), 0)
  | .inf s, .fin t m _ => if m = 0 then (.nan false, flIV) else (.inf (s != t), 0)
  | .fin s m _, .inf t => if m = 0 then (.nan false, flIV) else (.inf (s != t), 0)
  | .fin s m e, .fin t n k => (.fin (s != t) (m * n) (e + k), 0)

/-- The exact sum of several terms, with the zero sign of R69 and IV where +∞ meets −∞. -/
def sumNum (r : Rnd) (ts : List Num) : Num × FFlags :=
  let pInf := ts.any (fun t => t == .inf false)
  let nInf := ts.any (fun t => t == .inf true)
  if pInf && nInf then (.nan false, flIV)
  else if ts.any Num.isNan then (.nan false, 0)
  else if pInf then (.inf false, 0)
  else if nInf then (.inf true, 0)
  else
    let t := ts.foldl (fun acc x => acc.add x.dy) Dy.zero
    if t.isZero then
      let allNeg := ts.all (fun x => x.isZero && x.sign)
      let allPos := ts.all (fun x => x.isZero && !x.sign)
      (.fin (if allNeg then true else if allPos then false else r == .d) 0 0, 0)
    else (Num.ofDy t, 0)

/-- Bitwise integer square root: the largest x with x × x ≤ n, by `k` result bits. -/
def isqrtBits : Nat → Nat → Nat → Nat
  | 0, _, acc => acc
  | k + 1, n, acc =>
    let t := acc + 2 ^ k
    isqrtBits k n (if t * t ≤ n then t else acc)

/-- Floor(√n). -/
def isqrt (n : Nat) : Nat := if n = 0 then 0 else isqrtBits (Nat.log2 n / 2 + 1) n 0

/-- √(m × 2^e), m nonzero, to 64 and more bits with a sticky lowest bit: rounding it to FP32 rounds the exact root. -/
def sqrtSticky (m : Nat) (e : Int) : Nat × Int :=
  -- an even exponent, and at least 128 bits of radicand
  let m1 := if e % 2 = 0 then m * 2 ^ 128 else m * 2 ^ 129
  let e1 := if e % 2 = 0 then e - 128 else e - 129
  let s := isqrt m1
  if s * s = m1 then (s, e1 / 2) else (2 * s + 1, e1 / 2 - 1)

/-- m / n × 2^0, n nonzero, to 128 and more bits with a sticky lowest bit. -/
def divSticky (m n : Nat) : Nat × Int :=
  let k := 128 + Nat.log2 n
  let q := m * 2 ^ k / n
  if q * n = m * 2 ^ k then (q, -(k : Int)) else (2 * q + 1, -(k : Int) - 1)

/-! ### Comparison -/

/-- Order of the non-NaN codes of a format, −0 below +0 (R92, R126). -/
def Fmt.key (f : Fmt) (code : Nat) : Int :=
  if code / f.signW % 2 == 1 then -((code % f.signW : Nat) : Int) - 1 else (code % f.signW : Nat)

/-- Exact order of two values that are no NaN, −0 equal to +0: the sign of a − b. -/
def Num.cmp (a b : Num) : Ordering :=
  match a, b with
  | .inf s, .inf t => if s = t then .eq else if s then .lt else .gt
  | .inf s, _ => if s then .lt else .gt
  | _, .inf t => if t then .gt else .lt
  | x, y => if x.dy.lt y.dy then .lt else if x.dy.eq y.dy then .eq else .gt

/-- The lesser or the greater code of two, by the rules of R126: `nanForm` gives the .nan forms. -/
def minMaxCode (f : Fmt) (isMax nanForm : Bool) (a b : Nat) : Nat × FFlags :=
  let x := f.decode a
  let y := f.decode b
  let fl := sigIV [x, y]
  if x.isNan && y.isNan then (f.nanCode, fl)
  else if x.isNan then (if nanForm then f.nanCode else b, fl)
  else if y.isNan then (if nanForm then f.nanCode else a, fl)
  else if isMax then (if f.key a ≥ f.key b then a else b, fl)
  else (if f.key a ≤ f.key b then a else b, fl)

/-! ### Integers -/

/-- A value rounded to an integer in mode `r`, and whether that was inexact; a NaN counts as zero here. -/
def Num.toInt (x : Num) (r : Rnd) : Int × Bool :=
  match x with
  | .fin neg m e =>
    let (n, inex) := roundAt r neg m e 0
    (if neg then -(n : Int) else n, inex)
  | _ => (0, false)

/-- The range of an integer type of width `w`; INT4 is symmetric (R50). -/
def intMin (signed : Bool) (w : Nat) : Int :=
  if signed then (if w = 4 then -7 else -((2 : Int) ^ (w - 1))) else 0
def intMax (signed : Bool) (w : Nat) : Int :=
  if signed then (2 : Int) ^ (w - 1) - 1 else (2 : Int) ^ w - 1

/-- Sat(x, t) and whether it changed x (R11, R115). -/
def satInt (signed : Bool) (w : Nat) (x : Int) : Int × Bool :=
  if x < intMin signed w then (intMin signed w, true)
  else if x > intMax signed w then (intMax signed w, true) else (x, false)

/-- A floating-point value converted to an integer type (R61, R62). A finite integral value beyond the range sets SAT and no NX: R62
gives NX to a value that rounding changes, R61 adds it for an infinity (DEDUCED, log entry 87). -/
def numToIntType (x : Num) (r : Rnd) (signed : Bool) (w : Nat) : Int × FFlags :=
  match x with
  | .nan _ => (0, flIV)
  | .inf neg => (if neg then intMin signed w else intMax signed w, flSAT ||| flNX)
  | .fin .. =>
    let (n, inex) := x.toInt r
    let (y, s) := satInt signed w n
    (y, flIf inex flNX ||| flIf s flSAT)

/-! ### E8M0 block scales (R55) -/

/-- 2^(E − 127), or NaN for 0xFF. -/
def e8m0 (x : Nat) : Num := if x % 256 = 255 then .nan false else .fin false 1 ((x % 256 : Nat) - 127)

/-- INT4 read (R50): the value, and whether the reserved code was read. -/
def readI4 (c : Nat) : Int × Bool := if c % 16 = 8 then (0, true) else (signedOf 4 c, false)

end Sys2Proof.Machine
end

