-- ==== Sys2Proof/Machine/LaneInt.lean ====
section
/-! DEFINITION. Sys2Proof/Machine/LaneInt.lean: what the integer, logic, shift and permute instructions compute in one lane
(R115, R116, R120–R122, R137). No state here. -/

namespace Sys2Proof.Machine

open Sys2Proof

/-- What one lane computes: a value of up to 64 bits and the flags raised. -/
structure LaneRes where
  v : Double
  fl : FFlags
deriving DecidableEq, Repr

/-- A 32-bit result. -/
def res32 (v : Word) (fl : FFlags := 0) : LaneRes := ⟨v.setWidth 64, fl⟩
def res64 (v : Double) (fl : FFlags := 0) : LaneRes := ⟨v, fl⟩
def resBool (b : Bool) (fl : FFlags := 0) : LaneRes := ⟨bOf b, fl⟩
def resNat (n : Nat) (fl : FFlags := 0) : LaneRes := ⟨BitVec.ofNat 64 n, fl⟩

/-- The TYPE codes that are signed integers (R78). -/
def tySigned (t : BitVec 4) : Bool := t == 6 || t == 7 || t == 8 || t == 10 || t == 13
/-- The element width of a TYPE code (R78). -/
def tyWidth (t : BitVec 4) : Nat :=
  if t = 1 ∨ t = 2 ∨ t = 10 ∨ t = 11 then 16
  else if t = 3 ∨ t = 4 ∨ t = 6 ∨ t = 12 then 8
  else if t = 5 ∨ t = 7 then 4
  else if t = 13 ∨ t = 14 then 64 else 32
/-- The TYPE code is an integer type. -/
def tyInt (t : BitVec 4) : Bool := decide (6 ≤ t.toNat ∧ t.toNat ≤ 14)
/-- The floating-point format of a TYPE code, FP32 for those that are none. -/
def tyFmt (t : BitVec 4) : Fmt :=
  if t = 1 then .bf16 else if t = 2 then .fp16 else if t = 3 then .e4m3 else if t = 4 then .e5m2
  else if t = 5 then .e2m1 else .fp32

/-- Elem(x, i, w) (R116) as a number. -/
def elem (x : Double) (i w : Nat) : Nat := x.toNat / 2 ^ (i * w) % 2 ^ w
/-- Ext(y, t) (R116). -/
def extTy (signed : Bool) (w v : Nat) : Int := if signed then signedOf w v else ((v % 2 ^ w : Nat) : Int)
/-- An integer read modulo 2^w as a value of the type. -/
def wrapTy (signed : Bool) (w : Nat) (x : Int) : Int := extTy signed w (x % (2 ^ w : Nat)).toNat
/-- IMod(x, n, a, w) (R115): absolute value first, then negation, each modulo 2^w. -/
def iMod (signed : Bool) (w : Nat) (neg abs : Bool) (x : Int) : Int :=
  let y := if abs then wrapTy signed w x.natAbs else x
  if neg then wrapTy signed w (-y) else y
/-- A source element of an integer instruction: read, extended and modified (R115, R116). -/
def srcInt (t : BitVec 4) (x : Double) (i : Nat) (neg abs : Bool) : Int :=
  iMod (tySigned t) (tyWidth t) neg abs (extTy (tySigned t) (tyWidth t) (elem x i (tyWidth t)))

/-- The delivery of an exact integer result: Sat and SAT under clamp, otherwise modulo 2^w (R115). -/
def deliverInt (signed : Bool) (w : Nat) (clamp : Bool) (x : Int) : Nat × FFlags :=
  if clamp then
    let (y, s) := satInt signed w x
    ((y % (2 ^ w : Nat)).toNat, flIf s flSAT)
  else ((x % (2 ^ w : Nat)).toNat, 0)

/-- Packs the elements computed by `f` into one register, ORing their flags (R116). -/
def packElems (w n : Nat) (f : Nat → Nat × FFlags) : Nat × FFlags :=
  (List.range n).foldl (fun (acc : Nat × FFlags) i =>
    (acc.1 + (f i).1 % 2 ^ w * 2 ^ (i * w), acc.2 ||| (f i).2)) (0, 0)

/-- Elementwise integer operation over the elements of a 32-bit register (R116, R120). -/
def packedInt (t : BitVec 4) (clamp : Bool) (op : Int → Int → Int) (a b : Double) (nA aA nB aB : Bool) : LaneRes :=
  let w := tyWidth t
  let (v, fl) := packElems w (32 / w) (fun i =>
    deliverInt (tySigned t) w clamp (op (srcInt t a i nA aA) (srcInt t b i nB aB)))
  resNat v fl

/-- imulhi (R120): Floor(a × b / 2³²). -/
def laneMulhi (t : BitVec 4) (a b : Double) (nA aA nB aB : Bool) : LaneRes :=
  res32 (wrap 32 ((srcInt t a 0 nA aA * srcInt t b 0 nB aB) / (2 ^ 32 : Nat)))

/-- imad (R120). -/
def laneMad (t : BitVec 4) (clamp : Bool) (a b c : Double) (nA aA nB aB nC aC : Bool) : LaneRes :=
  let (v, fl) := deliverInt (tySigned t) 32 clamp (srcInt t a 0 nA aA * srcInt t b 0 nB aB + srcInt t c 0 nC aC)
  resNat v fl

/-- imadw (R120): the addend and the result are i64 or n64. -/
def laneMadw (t : BitVec 4) (clamp : Bool) (a b c : Double) (nA aA nB aB nC aC : Bool) : LaneRes :=
  let sg := tySigned t
  let c64 := iMod sg 64 nC aC (extTy sg 64 c.toNat)
  let (v, fl) := deliverInt sg 64 clamp (srcInt t a 0 nA aA * srcInt t b 0 nB aB + c64)
  resNat v fl

/-- isad (R120): the single result is an n32 in every form. -/
def laneSad (t : BitVec 4) (clamp : Bool) (a b c : Double) (nA aA nB aB nC aC : Bool) : LaneRes :=
  let x : Int :=
    if t = 12 then
      (List.range 4).foldl (fun acc i => acc + ((srcInt t a i nA aA - srcInt t b i nB aB).natAbs : Int)) 0
        + ((c.toNat % 2 ^ 32 : Nat) : Int)
    else ((srcInt t a 0 nA aA - srcInt t b 0 nB aB).natAbs : Int) + srcInt t c 0 nC aC
  let (v, fl) := deliverInt false 32 clamp x
  resNat v fl

/-- The index function of lop3 and plop (R121, R138): bit (a + 2b + 4c) of the table. -/
def lutBit (lut : BitVec 8) (a b c : Bool) : Bool :=
  lut.getLsbD (a.toNat + 2 * b.toNat + 4 * c.toNat)

/-- lop3 (R121). -/
def laneLop3 (a b c : Word) (lut : BitVec 8) : Word := maskOf (fun k => lutBit lut (bit a k) (bit b k) (bit c k))

/-- shl (R121). -/
def laneShl (a b : Word) : Word := let s := (bits b 0 8).toNat; if s ≥ 32 then 0 else a <<< s

/-- shr (R121): logical for .n32, arithmetic for .i32. -/
def laneShr (arith : Bool) (a b : Word) : Word :=
  let s := (bits b 0 8).toNat
  if arith then a.sshiftRight (min s 31) else if s ≥ 32 then 0 else a >>> s

/-- shf (R121). -/
def laneShf (left : Bool) (a b c : Word) : Word :=
  let s := (bits c 0 5).toNat
  let x := pairVal a b
  if left then bits (x <<< s) 32 32 else bits (x >>> s) 0 32

/-- bfx (R121). -/
def laneBfx (sgn : Bool) (a b c : Word) : Word :=
  let p := (bits b 0 8).toNat
  if p ≥ 32 then 0 else
  let n := min (bits c 0 8).toNat (32 - p)
  if n = 0 then 0 else
  let v := a.toNat / 2 ^ p % 2 ^ n
  if sgn then wrap 32 (signedOf n v) else BitVec.ofNat 32 v

/-- bfi (R121). -/
def laneBfi (a b c : Word) : Word :=
  let p := (bits c 0 8).toNat
  if p ≥ 32 then a else
  let n := min (bits c 8 8).toNat (32 - p)
  let m : Word := BitVec.ofNat 32 ((2 ^ n - 1) * 2 ^ p)
  (a &&& ~~~m) ||| ((b <<< p) &&& m)

/-- perm (R121). -/
def lanePerm (a b c : Word) : Word :=
  let x := pairVal a b
  BitVec.ofNat 32 ((List.range 4).foldl (fun acc i =>
    let g := bits c (4 * i) 4
    let y : Byte := bits x (8 * (bits g 0 3).toNat) 8
    let z : Byte := if bit g 3 then (if bit y 7 then 0xFF#8 else 0#8) else y
    acc + z.toNat * 2 ^ (8 * i)) 0)

/-- Compare by the cc of icmp, cmp64 and fcmp 0–5 (R122, R127). -/
def compareInt (cc : BitVec 3) (a b : Int) : Bool :=
  if cc = 0 then a == b else if cc = 1 then a != b else if cc = 2 then decide (a < b)
  else if cc = 3 then decide (a ≤ b) else if cc = 4 then decide (a > b) else decide (a ≥ b)

/-- add64 and add64.sub (R122). -/
def laneAdd64 (t : BitVec 4) (sub clamp : Bool) (a b : Double) (nA aA nB aB : Bool) : LaneRes :=
  let x := srcInt t a 0 nA aA
  let y := srcInt t b 0 nB aB
  let (v, fl) := deliverInt (tySigned t) 64 clamp (if sub then x - y else x + y)
  resNat v fl

/-- lea (R122): A pair + Ext(B) × 2^s modulo 2⁶⁴. -/
def laneLea (t : BitVec 4) (s : BitVec 3) (a b : Double) (nB aB : Bool) : LaneRes :=
  res64 (wrap 64 ((a.toNat : Int) + srcInt t b 0 nB aB * (2 ^ s.toNat : Nat)))

/-- One combination of vred and vscan on an integer or untyped type (R137), with the SAT of a clamped addition. -/
def combineInt (t : BitVec 4) (op : Nat) (clamp : Bool) (y z : Word) : Word × FFlags :=
  let sg := tySigned t
  let yi := extTy sg 32 y.toNat
  let zi := extTy sg 32 z.toNat
  if op = 0 then
    let (v, fl) := deliverInt sg 32 clamp (yi + zi)
    (BitVec.ofNat 32 v, fl)
  else if op = 1 then (if yi ≤ zi then y else z, 0)
  else if op = 2 then (if yi ≥ zi then y else z, 0)
  else if op = 3 then (y &&& z, 0)
  else if op = 4 then (y ||| z, 0) else (y ^^^ z, 0)

/-- IDENT(op) of R137, every type. -/
def identOf (t : BitVec 4) (op : Nat) : Word :=
  if t = 0 then (if op = 0 then 0x80000000#32 else if op = 1 then 0x7F800000#32 else 0xFF800000#32)
  else if op = 0 then 0
  else if op = 1 then (if tySigned t then 0x7FFFFFFF#32 else 0xFFFFFFFF#32)
  else if op = 2 then (if tySigned t then 0x80000000#32 else 0)
  else if op = 3 then 0xFFFFFFFF#32 else 0

end Sys2Proof.Machine
end

