-- ==== Sys2Proof/Machine/LaneFloat.lean ====
section
/-! DEFINITION. Sys2Proof/Machine/LaneFloat.lean: what the floating-point, packed, conversion, dot-product, quantising and
reducing instructions compute (R64, R69–R71, R125–R129, R132–R137). No state here. -/

namespace Sys2Proof.Machine

open Sys2Proof

/-- The sign modifiers of R77 on a code: absolute value first. -/
def fMod (f : Fmt) (neg abs : Bool) (c : Nat) : Nat :=
  let m := c % (2 * f.signW)
  let x := if abs then m % f.signW else m
  if neg then (x + f.signW) % (2 * f.signW) else x

def f32 (c : Nat) : Num := Fmt.fp32.decode c
def resFin (x : Nat × FFlags) (fl : FFlags) : LaneRes := resNat x.1 (x.2 ||| fl)

/-- fadd (R125). -/
def laneFadd (f : Fmt) (ds : BitVec 3) (cl : Bool) (r : Rnd) (a b : Nat) : Nat × FFlags :=
  let x := f.decode a
  let y := f.decode b
  let (s, fl) := sumNum r [x, y]
  let (c, fl') := finish s ds cl f r
  (c, sigIV [x, y] ||| fl ||| fl')

/-- fmul (R125). -/
def laneFmul (f : Fmt) (ds : BitVec 3) (cl : Bool) (r : Rnd) (a b : Nat) : Nat × FFlags :=
  let x := f.decode a
  let y := f.decode b
  let (s, fl) := x.mul y
  let (c, fl') := finish s ds cl f r
  (c, sigIV [x, y] ||| fl ||| fl')

/-- ffma (R125): one rounding, in Finish. -/
def laneFfma (f : Fmt) (ds : BitVec 3) (cl : Bool) (r : Rnd) (a b c : Nat) : Nat × FFlags :=
  let x := f.decode a
  let y := f.decode b
  let z := f.decode c
  let (p, fl) := x.mul y
  let (s, fl1) := sumNum r [p, z]
  let (v, fl2) := finish s ds cl f r
  (v, sigIV [x, y, z] ||| fl ||| fl1 ||| fl2)

/-- fscale (R125): a × 2^k. -/
def laneFscale (ds : BitVec 3) (cl : Bool) (r : Rnd) (a : Nat) (k : Int) : Nat × FFlags :=
  let x := f32 a
  let y := if x.isSig then Num.nan false else x.scale k
  let (v, fl) := finish y ds cl .fp32 r
  (v, sigIV [x] ||| fl)

/-- fcmp (R127). -/
def laneFcmp (cc : BitVec 3) (a b : Nat) : Bool × FFlags :=
  let x := f32 a
  let y := f32 b
  let un := x.isNan || y.isNan
  let o := x.cmp y
  let v : Bool :=
    if cc = 6 then !un else if cc = 7 then un
    else if cc = 1 then un || o != .eq
    else if un then false
    else if cc = 0 then o == .eq else if cc = 2 then o == .lt else if cc = 3 then o != .gt
    else if cc = 4 then o == .gt else o != .lt
  (v, sigIV [x, y])

/-- frnd (R128). -/
def laneFrnd (r : Rnd) (a : Nat) : Nat × FFlags :=
  match f32 a with
  | .nan s => (Fmt.fp32.nanCode, flIf s flIV)
  | .inf _ => (a, 0)
  | .fin neg m e =>
    if e ≥ 0 then (a, 0) else
    let (n, _) := roundAt r neg m e 0
    ((roundFin .fp32 .ne neg n 0).1, 0)

/-- fclass (R129), one element. -/
def classOf (f : Fmt) (c : Nat) : Nat :=
  match f.decode c with
  | .nan s => if s then 2 ^ 8 else 2 ^ 9
  | .inf neg => if neg then 1 else 2 ^ 7
  | .fin neg m _ =>
    if m = 0 then (if neg then 2 ^ 3 else 2 ^ 4)
    else if c % f.signW < 2 ^ f.frac then (if neg then 2 ^ 2 else 2 ^ 5)
    else (if neg then 2 ^ 1 else 2 ^ 6)

/-- fclass (R129). -/
def laneFclass (t : BitVec 4) (a : Double) : LaneRes :=
  let f := tyFmt t
  if t = 0 then resNat (classOf f (elem a 0 32))
  else resNat (classOf f (elem a 0 16) + classOf f (elem a 1 16) * 2 ^ 16)

/-- fsqrt (R130): correctly rounded, with DS and clamp. -/
def laneFsqrt (ds : BitVec 3) (cl : Bool) (r : Rnd) (a : Nat) : Nat × FFlags :=
  let x := f32 a
  let (y, fl) : Num × FFlags := match x with
    | .nan s => (.nan false, flIf s flIV)
    | .inf neg => if neg then (.nan false, flIV) else (.inf false, 0)
    | .fin neg m e =>
      if m = 0 then (x, 0)
      else if neg then (.nan false, flIV)
      else let (s, k) := sqrtSticky m e; (.fin false s k, 0)
  let (v, fl') := finish y ds cl .fp32 r
  (v, fl ||| fl')

/-- The source of cvt (R132): an integer exactly, or a floating-point value, with its modifiers; IRC for INT4 0b1000. -/
def cvtSource (ts : BitVec 4) (x : Double) (e : Nat) (neg abs : Bool) : Num × Int × FFlags :=
  let w := tyWidth ts
  let c := elem x e w
  if tyInt ts then
    let (v, irc) := if ts = 7 then readI4 c else (extTy (tySigned ts) w c, false)
    let y := iMod (tySigned ts) w neg abs v
    (Num.ofInt y, y, flIf irc flIRC)
  else ((tyFmt ts).decode (fMod (tyFmt ts) neg abs c), 0, 0)

/-- cvt (R132): the converted element and its flags. -/
def laneCvt (td ts : BitVec 4) (ds : BitVec 3) (cl : Bool) (r : Rnd) (x : Double) (e : Nat) (neg abs : Bool) : Nat × FFlags :=
  let (a, i, fl) := cvtSource ts x e neg abs
  let wd := tyWidth td
  if tyInt td then
    if tyInt ts then
      if cl ∨ td = 7 then
        let (y, s) := satInt (tySigned td) wd i
        ((y % (2 ^ wd : Nat)).toNat, fl ||| flIf s flSAT)
      else ((i % (2 ^ wd : Nat)).toNat, fl)
    else
      let (y, fl') := numToIntType (a.scale ds.toInt) r (tySigned td) wd
      ((y % (2 ^ wd : Nat)).toNat, fl ||| fl')
  else
    let (c, fl') := finish a ds cl (tyFmt td) r
    (c, fl ||| fl')

/-- hop2 (R133): one half. -/
def laneHop2 (t : BitVec 4) (op : Nat) (cl : Bool) (r : Rnd) (a b c : Nat) : Nat × FFlags :=
  let f := tyFmt t
  if op = 0 then laneFadd f 0 cl r a b else if op = 1 then laneFmul f 0 cl r a b else laneFfma f 0 cl r a b c

/-! ### Dot products (R69, R136) -/

/-- dp4 and dp8 on integers. -/
def laneDotInt (t : BitVec 4) (clamp : Bool) (a b c : Double) : LaneRes :=
  let w := tyWidth t
  let rd (x : Double) (i : Nat) : Int × Bool :=
    if t = 7 then readI4 (elem x i 4) else (extTy (tySigned t) w (elem x i w), false)
  let idx := List.range (32 / w)
  let s := idx.foldl (fun acc i => acc + (rd a i).1 * (rd b i).1) (0 : Int)
  let irc := idx.any (fun i => (rd a i).2 || (rd b i).2)
  let (v, fl) := deliverInt (t != 12) 32 clamp (s + extTy (t != 12) 32 c.toNat)
  resNat v (fl ||| flIf irc flIRC)

/-- dp4.e4m3, dp4.e5m2, dp8.e2m1 and dp2.bf16: the exact sum of the scaled products and the addend, rounded once. -/
def laneDotFloat (t : BitVec 4) (ds : BitVec 3) (cl : Bool) (r : Rnd) (a b c : Double)
    (nA aA nB aB nC aC : Bool) : LaneRes :=
  let f := tyFmt t
  let w := tyWidth t
  let idx := List.range (32 / w)
  let ea (i : Nat) := f.decode (fMod f nA aA (elem a i w))
  let eb (i : Nat) := f.decode (fMod f nB aB (elem b i w))
  let ad := f32 (fMod .fp32 nC aC (elem c 0 32))
  let sa := if t = 1 then Num.fin false 1 0 else e8m0 (elem c 4 8)
  let sb := if t = 1 then Num.fin false 1 0 else e8m0 (elem c 5 8)
  let prods := idx.map (fun i => (ea i).mul (eb i))
  let scaled := prods.map (fun p => ((p.1.mul sa).1.mul sb).1)
  let nanScale := sa.isNan || sb.isNan
  let fl0 := flOr (prods.map (·.2)) ||| sigIV ((idx.map ea) ++ (idx.map eb) ++ [ad]) ||| flIf nanScale flIV
  let (s, fl1) := sumNum r (scaled ++ [ad])
  let (v, fl2) := finish (if nanScale then .nan false else s) ds cl .fp32 r
  resNat v (fl0 ||| fl1 ||| fl2)

/-! ### The quantiser (R64) -/

/-- The element formats of the quantiser, with QMAX. -/
inductive QFmt where
  | flt (f : Fmt)
  | i8
  | i4
deriving DecidableEq, Repr

def QFmt.qmax : QFmt → Int
  | .flt .e4m3 => 448 | .flt .e5m2 => 57344 | .flt _ => 6 | .i8 => 127 | .i4 => 7

/-- q = Encode(SatF(RoundNE(y, f), f), f): the code and the exact value it denotes. -/
def QFmt.encode (f : QFmt) (neg : Bool) (y : Dy) : Nat × Dy :=
  match f with
  | .flt g =>
    let c := (roundFin g .ne neg y.n.natAbs y.e).1
    let m := c % g.signW
    let c' := if m > g.maxFin then c - m + g.maxFin else c
    (c', (g.decode c').dy)
  | .i8 | .i4 =>
    let n := (Num.toInt (Num.ofDy y) .ne).1
    let q := max (-(f.qmax)) (min f.qmax n)
    ((q % (if f = .i8 then 256 else 16)).toNat, Dy.ofInt q)

/-- Ceil(Log2(amax / QMAX)), amax positive. -/
def ceilLog2Ratio (amax : Dy) (q : Int) : Int :=
  let k := amax.log2 - (Nat.log2 q.natAbs : Int)
  if amax.le ⟨q, k⟩ then k else k + 1

structure QCand where
  k : Int
  codes : List Nat
  sat : List Bool
  nx : List Bool
  err : Dy
deriving DecidableEq, Repr

def quantCandidate (f : QFmt) (ns : List Num) (c : Int) : QCand :=
  let k := max (-127) (min 127 c)
  let xs := ns.map Num.dy
  let es := ns.map (fun x => f.encode x.sign (x.dy.scale (-k)))
  let back := es.map (fun p => p.2.scale k)
  { k := k, codes := es.map (·.1),
    sat := xs.map (fun x => (Dy.mk f.qmax k).lt x.abs),
    nx := (xs.zip back).map (fun p => !(p.1.eq p.2)),
    err := (xs.zip back).foldl (fun acc p => let d := p.1.sub p.2; acc.add (d.mul d)) Dy.zero }

structure QResult where
  scale : Nat
  codes : List Nat
  sat : List Bool
  nx : List Bool
  iv : Bool
deriving DecidableEq, Repr

/-- Quantise(x[0..31], f) (R64). -/
def quantise (f : QFmt) (xs : List Num) : QResult :=
  let none32 := xs.map (fun _ => false)
  let zeros := xs.map (fun _ => 0)
  if xs.any (fun x => x.isNan || x.isInf) then ⟨255, zeros, none32, none32, true⟩
  else
    let ds := xs.map Num.dy
    let amax := ds.foldl (fun m d => if m.lt d.abs then d.abs else m) Dy.zero
    if amax.isZero then ⟨127, zeros, none32, none32, false⟩
    else
      let e := ceilLog2Ratio amax f.qmax
      let c0 := quantCandidate f xs (e + 1)
      let c1 := quantCandidate f xs e
      let c2 := quantCandidate f xs (e - 1)
      let b1 := if c1.err.lt c0.err then c1 else c0
      let b := if c2.err.lt b1.err then c2 else b1
      ⟨(b.k + 127).toNat, b.codes, b.sat, b.nx, false⟩

/-! ### Reductions and scans (R70, R71, R137) -/

/-- One combination of vred or vscan: .f32 under the mode, every other type exactly or modulo 2³². -/
def combine (t : BitVec 4) (op : Nat) (clamp : Bool) (r : Rnd) (y z : Word) : Word × FFlags :=
  if t = 0 then
    let (c, fl) :=
      if op = 0 then laneFadd .fp32 0 false r y.toNat z.toNat
      else minMaxCode .fp32 (op == 2) false y.toNat z.toNat
    (BitVec.ofNat 32 c, fl)
  else combineInt t op clamp y z

/-- One level of the pairwise tree. -/
def redLevel (f : Word → Word → Word × FFlags) : List Word → List Word × FFlags
  | x :: y :: rest =>
    let (v, fl) := f x y
    let (vs, fl') := redLevel f rest
    (v :: vs, fl ||| fl')
  | l => (l, 0)

/-- The tree of R70 over 2^k values. -/
def redTree (f : Word → Word → Word × FFlags) : Nat → List Word → Word × FFlags
  | 0, l => (l.headD 0, 0)
  | k + 1, l =>
    let (l', fl) := redLevel f l
    let (v, fl') := redTree f k l'
    (v, fl ||| fl')

/-- One step of the scan: lane L takes y[L−d] OP y[L], every lane reading the values before the step. -/
def scanStep (f : Word → Word → Word × FFlags) (d : Nat) (l : List Word) : List Word × FFlags :=
  let rs := (l.zip (l.drop d)).map (fun p => f p.1 p.2)
  (l.take d ++ rs.map (·.1), flOr (rs.map (·.2)))

/-- The inclusive scan of R71. -/
def scanSteps (f : Word → Word → Word × FFlags) (ds : List Nat) (l : List Word) : List Word × FFlags :=
  ds.foldl (fun acc d => let (l', fl) := scanStep f d acc.1; (l', acc.2 ||| fl)) (l, 0)

/-! ### Half words (R91, R92) -/

/-- B′ of an integer half operation. -/
def halfIMod (neg abs : Bool) (b : Word) : Word := wrap 32 (iMod true 32 neg abs b.toInt)
/-- B′ of a floating-point half operation, and of hsel and hmov: bit 31 (aB first, then nB). -/
def halfFMod (neg abs : Bool) (b : Word) : Word :=
  let x := if abs then b &&& 0x7FFFFFFF#32 else b
  if neg then x ^^^ 0x80000000#32 else x

/-- A packed half operation on both 16-bit halves of a register. -/
def halfPacked (f : Fmt) (op : Nat → Nat → Nat × FFlags) (neg abs : Bool) (d b : Word) : LaneRes :=
  let (v, fl) := packElems 16 2 (fun i =>
    op (elem (d.setWidth 64) i 16) (fMod f neg abs (elem (b.setWidth 64) i 16)))
  resNat v fl

def toRes (x : Nat × FFlags) : LaneRes := resNat x.1 x.2

/-- The 64 half opcodes (R91): the value written to D, or the predicate in bit 0, with the flags. `p` is the predicate
hsel reads; unassigned opcodes never reach here (R76). hcvt.f32.i32 sets NX where its result is not exact (DEDUCED, log entry 104). -/
def halfOp (hop : BitVec 6) (nB aB : Bool) (imm : BitVec 4) (d b : Word) (p : Bool) : LaneRes :=
  let bi := halfIMod nB aB b
  let bf := (halfFMod nB aB b).toNat
  let dn := d.toNat
  let s4 : Int := imm.toInt
  let sh := (bits b 0 5).toNat
  match hop.toNat with
  | 0x01 => res32 (d + bi)
  | 0x02 => res32 (d - bi)
  | 0x03 => res32 (d * bi)
  | 0x04 => res32 (d &&& b)
  | 0x05 => res32 (d ||| b)
  | 0x06 => res32 (d ^^^ b)
  | 0x07 => res32 (d <<< sh)
  | 0x08 => res32 (d >>> sh)
  | 0x09 => res32 (d.sshiftRight sh)
  | 0x0A => res32 (d + wrap 32 s4)
  | 0x0B => res32 (d <<< imm.toNat)
  | 0x0C => res32 (d >>> imm.toNat)
  | 0x0D => res32 (if d.toInt ≤ bi.toInt then d else bi)
  | 0x0E => res32 (if d.toInt ≥ bi.toInt then d else bi)
  | 0x0F => res32 (if d.toNat ≤ b.toNat then d else b)
  | 0x10 => res32 (if d.toNat ≥ b.toNat then d else b)
  | 0x11 => res32 (halfFMod nB aB b)
  | 0x12 => res32 (wrap 32 s4)
  | 0x13 => toRes (laneFadd .fp32 0 false .ne dn bf)
  | 0x14 => toRes (laneFadd .fp32 0 false .ne dn (fMod .fp32 true false bf))
  | 0x15 => toRes (laneFmul .fp32 0 false .ne dn bf)
  | 0x16 => toRes (minMaxCode .fp32 false false dn bf)
  | 0x17 => toRes (minMaxCode .fp32 true false dn bf)
  | 0x18 => toRes (laneFscale 0 false .ne dn s4)
  | 0x19 => halfPacked .fp16 (laneFadd .fp16 0 false .ne) nB aB d b
  | 0x1A => halfPacked .fp16 (laneFmul .fp16 0 false .ne) nB aB d b
  | 0x1B => halfPacked .bf16 (laneFadd .bf16 0 false .ne) nB aB d b
  | 0x1C => halfPacked .bf16 (laneFmul .bf16 0 false .ne) nB aB d b
  | 0x1D => resBool (decide (d.toInt < bi.toInt))
  | 0x1E => resBool (decide (d.toInt ≤ bi.toInt))
  | 0x1F => resBool (d == bi)
  | 0x20 => resBool (d != bi)
  | 0x21 => resBool (decide (d.toNat < b.toNat))
  | 0x22 => resBool (decide (d.toNat ≤ b.toNat))
  | 0x23 => let (v, fl) := laneFcmp 2 dn bf; resBool v fl
  | 0x24 => let (v, fl) := laneFcmp 3 dn bf; resBool v fl
  | 0x25 => let (v, fl) := laneFcmp 0 dn bf; resBool v fl
  | 0x26 => let (v, fl) := laneFcmp 1 dn bf; resBool v fl
  | 0x27 => res32 (if p then d else halfFMod nB aB b)
  | 0x28 => resNat (popcount b)
  | 0x29 => resNat (clz32 b)
  | 0x2A => res32 (brev32 b)
  | 0x2B => toRes ((Num.ofInt bi.toInt).deliver .fp32 .ne)
  | 0x2C => let (v, fl) := numToIntType (f32 bf) .ne true 32; res32 (wrap 32 v) fl
  | _ => res32 d

end Sys2Proof.Machine
end

