-- ==== Sys2Proof/Machine/Tab.lean ====
section
/-! DEFINITION. Sys2Proof/Machine/Tab.lean: the one sparse table of the model: a list of (key, value) pairs in a canonical form,
keys strictly rising and no entry equal to what an unlisted key reads as. Registers and memory are such tables. -/

namespace Sys2Proof.Machine

/-- A table from Nat keys. -/
abbrev Tab (α : Type) := List (Nat × α)

/-- The value under a key, when the key is listed. -/
def tabFind (m : Tab α) (k : Nat) : Option α :=
  match m with
  | [] => none
  | (j, v) :: r => if j = k then some v else tabFind r k

/-- The value under a key; an unlisted key reads as `d`. -/
def tabGet (d : α) (m : Tab α) (k : Nat) : α := (tabFind m k).getD d

def tabBelow (m : Tab α) (k : Nat) : Tab α := m.filter (fun e => decide (e.1 < k))
def tabAbove (m : Tab α) (k : Nat) : Tab α := m.filter (fun e => decide (k < e.1))

/-- Put a value under a key. -/
def tabPut (m : Tab α) (k : Nat) (v : α) : Tab α := tabBelow m k ++ (k, v) :: tabAbove m k
/-- Remove a key. -/
def tabDel (m : Tab α) (k : Nat) : Tab α := tabBelow m k ++ tabAbove m k
/-- Write a value under a key, keeping the canonical form: the default is not listed. -/
def tabSet [DecidableEq α] (d : α) (m : Tab α) (k : Nat) (v : α) : Tab α :=
  if v = d then tabDel m k else tabPut m k v

/-- Change the value under a key, when the key is listed. -/
def tabMap (m : Tab α) (k : Nat) (f : α → α) : Tab α :=
  match tabFind m k with
  | none => m
  | some v => tabPut m k (f v)

/-- Keys strictly rising from `lo`. -/
def tabRising (lo : Nat) (m : Tab α) : Bool :=
  match m with
  | [] => true
  | (k, _) :: r => decide (lo ≤ k) && tabRising (k + 1) r

/-- The canonical form of a table whose unlisted keys read as `d`. -/
def tabWf [DecidableEq α] (d : α) (m : Tab α) : Bool := tabRising 0 m && m.all (fun e => decide (e.2 ≠ d))

/-- A key not listed yet, above every listed one. -/
def tabFresh (m : Tab α) : Nat := m.foldl (fun n e => max n (e.1 + 1)) 0

/-- The first listed entry that satisfies `p`. -/
def tabFirst (m : Tab α) (p : Nat → α → Bool) : Option (Nat × α) := m.find? (fun e => p e.1 e.2)

/-- The entries that a run of values from key `a` lists. -/
def tabRun [DecidableEq α] (d : α) (a : Nat) (xs : List α) : Tab α :=
  match xs with
  | [] => []
  | x :: r => if x = d then tabRun d (a + 1) r else (a, x) :: tabRun d (a + 1) r

/-- Write consecutive values from key `a`. -/
def tabWrite [DecidableEq α] (d : α) (m : Tab α) (a : Nat) (xs : List α) : Tab α :=
  tabBelow m a ++ tabRun d a xs ++ m.filter (fun e => decide (a + xs.length ≤ e.1))

/-! ### Memory: bytes by physical address -/

/-- Memory: the listed bytes; an unlisted address reads as 0 (the assumption log says so). -/
abbrev Memory := List Host.Cell

/-- What an unlisted address of memory reads as. -/
def memUnlisted : Byte := 0

/-- One byte of memory. -/
def memByte (m : Memory) (a : Nat) : Byte := tabGet memUnlisted m a

/-- `n` consecutive bytes from `a`, lowest address first. -/
def memBytes (m : Memory) (a n : Nat) : List Byte := (List.range n).map (fun i => memByte m (a + i))

/-- Write consecutive bytes from `a`. -/
def memWrite (m : Memory) (a : Nat) (bs : List Byte) : Memory := tabWrite memUnlisted m a bs

/-- The canonical form of memory. -/
def memWf (m : Memory) : Bool := tabWf memUnlisted m

end Sys2Proof.Machine
end

