-- ==== Sys2Proof/Machine/State.lean ====
section
/-! DEFINITION. Sys2Proof/Machine/State.lean: everything the spec gives the machine to hold, as plain data, and its value after
reset. -/

namespace Sys2Proof.Machine

open Sys2Proof

/-! ### Splits, the reconvergence stack and checkpoints (R261–R270, R399) -/

/-- Why a split is asleep (R269). -/
inductive Sleep where
  /-- recv on an empty open channel, accepted as this operation (R183, R352) -/
  | recv (ch oid : Nat)
  /-- bar.sync or bar.wait, waiting for a change from this phase count (R170, R172) -/
  | phase (k seq : Nat)
  /-- the owner of a JOIN entry waits at it (R265) -/
  | join (e : Nat)
  /-- clk.until (R257) -/
  | clk (v : Double)
  /-- rosec.enter for a ticket (R248) -/
  | rosec (base : Nat) (key ticket : Nat)
  /-- cnt.wait for a level (R256) -/
  | count (level : Nat)
  /-- send on a full channel (R182) -/
  | room (ch : Nat)
  /-- claim or rswitch, waiting for a pool that holds this window (R147, R148, R273) -/
  | granules (w : Nat)
  /-- launch waiting for room at the Yard (R254) -/
  | queue
deriving DecidableEq, Repr

/-- The states of a split that has not ended (R269). -/
inductive SplitSt where
  | ready
  | held
  | asleep (w : Sleep)
deriving DecidableEq, Repr

/-- A split (R12, R34, R261) with its place in its clause (R96–R100). -/
structure Split where
  pc : Double := 0
  mask : Mask := 0
  fmt : Word := 0
  /-- innermost JOIN entry (R262) -/
  inner : Option Nat := none
  st : SplitSt := .ready
  /-- words left in the clause; 0 when a header is required next (R98) -/
  left : Nat := 0
  /-- the header of the clause -/
  hdr : Double := 0
  /-- the header's SET1, SET2 (R96) -/
  set1 : BitVec 4 := 15
  set2 : BitVec 4 := 15
  /-- long-latency instructions of the clause that took a header flag (R100) -/
  taken : Nat := 0
  /-- a long-latency instruction of the clause has issued, with whatever flag (R179) -/
  long : Bool := false
  /-- the next word is the first of its clause (R86) -/
  first : Bool := false
  /-- the next word is executed as the wait half of a bar.sync (R174) -/
  waitHalf : Bool := false
  /-- the word at the PC that issued and sleeps, and the lanes it acts in (R269, R276) -/
  sleeps : Option (Instr × Mask) := none
  /-- the role that an rswitch.hint held at its wait has taken from HINT (R147) -/
  role : Option Nat := none
  /-- the header of the clause could not be read when the split merged: it is read before the next word (R265) -/
  unread : Bool := false
  /-- the count of completions when the split was held -/
  heldAt : Nat := 0
  /-- the scope of a release or full fence that the next store or atom of the clause pairs with, 0 for none (R317) -/
  relScope : Nat := 0
deriving DecidableEq, Repr

/-- An entry of the reconvergence stack (R262). -/
structure StackEntry where
  /-- JOIN, or PATH linked to a JOIN entry -/
  join : Bool := true
  mask : Mask := 0
  pc : Double := 0
  fmt : Word := 0
  owner : Nat := 0
  arrived : Mask := 0
  /-- the enclosing JOIN entry of a JOIN entry; the JOIN entry of a PATH entry -/
  link : Option Nat := none
  /-- in the spill area (R267), in this block -/
  spilled : Option Nat := none
deriving DecidableEq, Repr

/-- A checkpoint (R399). -/
structure Ckpt where
  splits : Tab Split := []
  stack : Tab StackEntry := []
  /-- REPC and RCLAUSE -/
  repc : Double := 0
  rclause : Double := 0
  /-- the committing split -/
  split : Nat := 0
  live : Mask := 0
  spills : Tab Nat := []
deriving DecidableEq, Repr

/-! ### Flags, batches, handle names (R21, R25, R26, R181, R189) -/

/-- A completion flag (R21). -/
structure Flag where
  cnt : Nat := 0
  err : Bool := false
  cause : BitVec 6 := 0
deriving DecidableEq, Repr

/-- A copy batch (R181, R406). -/
structure Batch where
  num : Word := 0
  pend : Nat := 0
  err : Bool := false
  cause : BitVec 6 := 0
deriving DecidableEq, Repr

/-- The states of a handle name (R26). -/
inductive HState where
  | free | bound | parked | evicted | given
deriving DecidableEq, Repr

/-- A rename entry (R189): physical slot and generation, committed and provisional. -/
structure HName where
  st : HState := .free
  cslot : Option (Nat × BitVec 16) := none
  pslot : Option (Nat × BitVec 16) := none
  isNew : Bool := false
deriving DecidableEq, Repr

/-! ### Groups (R12, R259) -/

/-- What a trap frame reports beyond the cause (R404). -/
structure TrapInfo where
  cause : BitVec 6
  info : BitVec 16 := 0
  slot : BitVec 2 := 0
  pc : Double := 0
  active : Mask := 0
  flanes : Mask := 0
  /-- the lanes of the split that trapped (R253) -/
  split : Mask := 0
  faddr : Option Double := none
  /-- OTHER and the other party's launch and unit, for a race or a scope mismatch -/
  other : Double := 0
  otherLid : Word := 0
  otherUnit : Word := 0
deriving DecidableEq, Repr

/-- What a stopped group goes on to once its committed work has completed (R401): its trap, or its swap, which waits for a page or
moves the group to a quarter that holds a window (R147, R396). -/
inductive StopWhy where
  | trap (t : TrapInfo)
  | swap (t : TrapInfo)
deriving DecidableEq, Repr

/-- Where a group is in its life (R145, R396, R405). -/
inductive GroupSt where
  | running
  /-- stopped by a trap or a swap, while work issued before its last commit completes (R270, R401) -/
  | stopping (w : StopWhy)
  /-- resident and HELD until its page arrives, for want of a swap frame (R396) -/
  | waiting
  /-- at exit, waiting for its flags and flagless operations; the exit's PC and its lanes -/
  | exiting (pc : Double) (lanes : Mask)
  /-- swapped out for a page; the frame's number (R396) -/
  | swapped (frame : Nat)
  /-- in the frames of a saved unit (R414) -/
  | saved (frame : Nat)
  /-- halted by a nested trap (R405) -/
  | halted
deriving DecidableEq, Repr

/-- An open rasteriser-ordered section (R248). -/
structure Section where
  base : Nat
  key : Nat
  ticket : Nat
  /-- the watchdog's expiry on CLK -/
  expires : Double
deriving DecidableEq, Repr

/-- A group (R12). -/
structure Group where
  uid : Nat := 0
  lid : Nat := 0
  ctx : Nat := 0
  /-- GROUPID, UNITID, CORELOC (R30): index in the unit, unit in the launch, logical core, quarter, slot -/
  index : Nat := 0
  unit : Word := 0
  core : Nat := 0
  quarter : Nat := 0
  slot : Nat := 0
  secure : Bool := false
  st : GroupSt := .running
  /-- system mode (R28) -/
  sys : Bool := false
  /-- lanes not exited -/
  live : Mask := 0xFFFFFFFF
  /-- window in granules (R17) -/
  w : Nat := 1
  /-- vector registers: key 32·register + lane -/
  v : Tab Word := []
  /-- s0–s62 -/
  s : Tab Word := []
  /-- p0–p46, a lane mask each -/
  p : Tab Mask := []
  /-- FFLAGS by lane -/
  ff : Tab FFlags := []
  role : BitVec 4 := 0
  hint : BitVec 4 := 0
  hintV : Bool := false
  /-- the stage that a held hint is for, and the role held when it was raised (R381) -/
  hintFor : Nat := 0
  hintRole : BitVec 4 := 0
  fpen : BitVec 5 := 0
  /-- MXCOUNT, committed, and the staged counters in the order IV, OF, UF, IRC (R37, R38) -/
  mxcount : Word := 0
  staged : List Nat := [0, 0, 0, 0]
  spstep : BitVec 16 := 0
  /-- the flags of the steps below SPSTEP, whose counters the cut mma has staged already (R38, R197) -/
  cut : FFlags := 0
  regentry : Word := 0
  /-- DBGCTL.SSTEP (R409) -/
  sstep : Bool := false
  /-- a single-step trap is due before the next word (R408) -/
  stepDue : Bool := false
  /-- REPC of the resumption, whose first commit point raises no SINGLE_STEP (R408) -/
  stepSkip : Option Double := none
  /-- CLK at which the data of the latest lds are written; a split between a clk.rd and the next that brackets one lds, with the CLK at
  which its next word issues or ends its wait where nothing contends (R353) -/
  dataAt : Double := 0
  bracket : Option (Nat × Double) := none
  /-- f0–f11 -/
  flags : Tab Flag := []
  bseq : Word := 0
  /-- batches BSEQ − 15 … BSEQ, by number, and the open one -/
  batches : Tab Batch := []
  openBatch : Batch := {}
  /-- h0–h31 at 0–31, a0–a31 at 32–63 -/
  names : Tab HName := []
  stack : Tab StackEntry := []
  nextEid : Nat := 0
  /-- blocks in the spill area, with the token of their bytes (R267) -/
  spills : Tab Nat := []
  splits : Tab Split := []
  /-- identifiers that became free while a PATH entry waited on chip, in order, not used yet (R264) -/
  pathDue : List Nat := []
  /-- the split that issued last (R272) -/
  lastSplit : Nat := 3
  age : Nat := 0
  due : Bool := false
  /-- the checkpoint, and the one the trap frame holds with its token (R399, R406) -/
  ckpt : Ckpt := {}
  frameCkpt : Option (Nat × Ckpt) := none
  swapCkpt : Option (Nat × Ckpt) := none
  /-- the open region while the frame holds a suspended sparse mma (R211): its checkpoint, the names whose provisional slots stay as
  they are, its staged counts -/
  kept : Option (Ckpt × List Nat × List Nat) := none
  /-- commits made: the number of the open region -/
  epoch : Nat := 0
  /-- the epoch at which the trap handler was entered -/
  trapEpoch : Nat := 0
  /-- registers written in the open region (predicate i as 256 + i), and repairs since the last commit (R457) -/
  written : List Nat := []
  repairs : Nat := 0
  /-- TFRAME, TCAUSE (R409) -/
  tframe : Double := 0
  tcause : Word := 0
  /-- errors of flagless operations not yet reported, by operation number: the cause, the lanes of the instruction, and whether it
  was issued in system mode (R101) -/
  late : Tab (BitVec 6 × Mask × Bool) := []
  sect : Option Section := none
  /-- a section watchdog expired: ROSEC_TIMEOUT is due at the next boundary (R249) -/
  rosecDue : Bool := false
  /-- STOP_REQUEST is due (R411) -/
  stopDue : Bool := false
  /-- PC and slot at which a breakpoint, and PC at which a watchpoint, is suppressed once, for the split of these lanes (R253, R410) -/
  suppress : Option (Double × BitVec 2 × Mask) := none
  /-- the report of the last trap taken (R403, R404) -/
  trap : Option TrapInfo := none
  /-- the window that a group moving to another quarter waits for (R147) -/
  moveW : Option Nat := none
  /-- the page a swapped group waits for, and the CLK of its swap (R396, R398) -/
  waitPage : Option Nat := none
  /-- the kind bits of its request (R395) -/
  waitKind : Nat := 0
  swapAt : Double := 0
  /-- the flags and batches as the swap frame was given them (R396) -/
  swapFlags : Tab Flag := []
  swapBatches : Tab Batch := []
deriving DecidableEq, Repr

/-! ### Units, cores (R23, R187, R258) -/

/-- A barrier (R23, R170, R172, R415). -/
structure Barrier where
  part : Nat := 0
  arrived : Mask := 0
  count : Nat := 0
  /-- phase changes so far; the phase bit is its lowest bit -/
  seq : Nat := 0
  rowMode : Bool := false
  armed : Bool := false
  complete : Bool := false
  rows : Nat := 0
  landed : Nat := 0
  /-- what happens before the arrivals of the present phase, and before the phase changes so far (R173, R310) -/
  acc : Tab Nat := []
  out : Tab Nat := []
deriving DecidableEq, Repr

/-- A unit, resident or saved. -/
structure UnitS where
  lid : Nat := 0
  ctx : Nat := 0
  /-- UNITID -/
  unit : Word := 0
  core : Nat := 0
  resident : Bool := true
  /-- not resident, and to be run again from its start (R453) -/
  rerun : Bool := false
  /-- index of its unit frame while saved -/
  frame : Nat := 0
  nGroups : Nat := 1
  q0 : Nat := 0
  /-- groups not ended -/
  left : Nat := 1
  barriers : Tab Barrier := []
  /-- allocations: bytes written; an unwritten byte is a free value (tag, offset) -/
  tag : Nat := 0
  scratchSize : Nat := 0
  vaultSize : Nat := 0
  scratch : Tab Byte := []
  vault : Tab Byte := []
  /-- slots of the pools reserved at placement (R187): operand, accumulator -/
  opool : List Nat := []
  apool : List Nat := []
  olimit : Nat := 0
  alimit : Nat := 0
  /-- slots of the core reserved for the unit: resident slots, operand slots, accumulator slots (R187, R258) -/
  rslots : List Nat := []
  oslots : List Nat := []
  aslots : List Nat := []
  /-- granules of each quarter's pool (R273) -/
  granules : List Nat := [0, 0, 0, 0]
  eclass : Nat := 0
  asleep : Bool := false
  cancelled : Bool := false
deriving DecidableEq, Repr

/-- The slot stores of a core (R1, R25, R201, R202), and what the core's health and world are. -/
structure CoreS where
  ogen : Tab (BitVec 16) := []
  agen : Tab (BitVec 16) := []
  /-- operand slot bytes at 2,048·slot + offset -/
  odata : Tab Byte := []
  /-- scale bytes at 128·slot + offset; unlisted is 0x7F -/
  oscale : Tab Byte := []
  /-- accumulator elements at 1,024·slot + 32·i + j (R202) -/
  adata : Tab Word := []
  /-- the constant cache: bytes by (launch, physical address) (R161) -/
  cc : List (Nat × Nat × List Byte) := []
  secure : Bool := false
  /-- the issue cycles of each quarter's last choice need no state beyond the groups' ages (R271) -/
  failed : Bool := false
  /-- the physical position behind the logical core after a remap; none is the fused one (R287, R452) -/
  phys : Option Nat := none
deriving DecidableEq, Repr

/-! ### Work levels (R368–R380) -/

/-- A channel of a launch (R24, R183): slots of 16 words, each with what happens before its send. -/
structure Channel where
  slots : Nat := 0
  rd : Nat := 0
  wr : Nat := 0
  closed : Bool := true
  queue : List (List Word × Tab Nat) := []
  /-- recvs accepted and waiting, in order: operation numbers -/
  waiting : List Nat := []
deriving DecidableEq, Repr

/-- A stage entry (R372). -/
structure Stage where
  chan : Nat := 0
  kind : Nat := 0
  roles : BitVec 16 := 0
  used : Bool := false
  rrec : Nat := 0
deriving DecidableEq, Repr

/-- The packet fields the Yard holds (R371, R372, R373). -/
structure Packet where
  code : Double := 0
  args : Double := 0
  pmap : Double := 0
  decl : Double := 0
  spillBase : Double := 0
  nUnits : Nat := 1
  lastMask : Mask := 0
  fmt : Word := 0
  scratch : Nat := 0
  vault : Nat := 0
  groups : Nat := 1
  regs : Nat := 1
  hcount : Nat := 0
  acount : Nat := 0
  spillDepth : Nat := 0
  claimRes : Nat := 0
  prio : Nat := 0
  eclass : Nat := 0
  gang : Bool := false
  teamop : Bool := false
  restart : Bool := false
  tile : Nat := 0
  thr : Word := 0x38D1B717
  wdog : Nat := 100
  node : Nat := 0
  gend : Bool := true
  pend : Bool := true
  jend : Bool := true
  depMask : Double := 0
  /-- role entries: address and window -/
  roles : List (Double × Nat) := []
  stages : List Stage := []
  chans : List Nat := []
  /-- placement entries; empty when PMAP = 0 -/
  map : List (BitVec 16) := []
deriving DecidableEq, Repr

/-- The five levels (R368) but the unit, which is a `UnitS`. -/
inductive LevelKind where
  | launch | graph | phase | job
deriving DecidableEq, Repr

/-- A level's completion counter and state (R368, R376). -/
structure Level where
  kind : LevelKind := .launch
  ctx : Nat := 0
  /-- the level that contains it -/
  parent : Option Nat := none
  /-- members accepted and not complete -/
  count : Nat := 0
  cancelled : Bool := false
  /-- the last member (GEND, PEND, JEND) has been accepted -/
  closed : Bool := false
  /-- order among its siblings -/
  seq : Nat := 0
  /-- completed, with its first cause -/
  done : Bool := false
  cause : BitVec 6 := 0
  -- of a launch
  pkt : Packet := {}
  /-- launch identifier (R321) -/
  ident : Word := 0
  /-- a child launch (R254): its parent launch is `parent`; nesting depth -/
  child : Bool := false
  depth : Nat := 0
  /-- units placed so far -/
  placed : Nat := 0
  /-- when it became ready, in acceptance order (R379) -/
  readyAt : Option Nat := none
  pass : Nat := 0
  chans : Tab Channel := []
  /-- the launch.done operation to complete (R254) -/
  waiter : Option Nat := none
  /-- a draw's error, reported at completion (R375) -/
  drawErr : BitVec 6 := 0
  /-- validated; the packet as the Yard copied it, or its address for a child -/
  valid : Bool := false
  raw : List Byte := []
  /-- the copy of the packet met a fault (R374) -/
  copyErr : BitVec 6 := 0
  va : Double := 0
  /-- reads and placement of the packet are the issuing group's: user mode, secure ring (R465) -/
  user : Bool := false
  ring : Bool := false
  /-- the launch.acc operation (R254) -/
  accOp : Option Nat := none
  /-- of a graph: its nodes that failed or were cancelled; of a phase or job: later members are cancelled (R375) -/
  failed : Double := 0
  stop : Bool := false
  /-- of a phase: its index in the job, last of the job, closed by a queue disable (R424) -/
  index : Nat := 0
  last : Bool := false
  trunc : Bool := false
  queue : Option Nat := none
  /-- of a job: its sequence number (R422) -/
  jobSeq : Word := 0
  /-- what happens before the accesses of its groups, and what happens before its completion (R310) -/
  before : Tab Nat := []
  after : Tab Nat := []
deriving DecidableEq, Repr

/-! ### Operations in flight (R87, R100, R155–R159) -/

/-- One access of an operation at its home slice: an address, the lanes that make it, and the data of each. -/
structure Access where
  va : Double := 0
  pa : Nat := 0
  n : Nat := 4
  lanes : List Nat := []
  data : List (BitVec 128) := []
  write : Bool := false
  priv : Bool := false
deriving DecidableEq, Repr

/-- The spaces an access may reach (R150). -/
inductive Space where
  | global | scratch (uid : Nat) | vault (uid : Nat)
deriving DecidableEq, Repr

/-- A register value to be written when the operation completes: register field, lane, value. -/
structure RegWr where
  f : Nat
  lane : Nat
  v : Word
deriving DecidableEq, Repr

/-- A long-latency operation from issue to completion. -/
structure Op where
  gid : Nat := 0
  uid : Nat := 0
  lid : Nat := 0
  ctx : Nat := 0
  split : Nat := 0
  instr : Instr := .nop
  pc : Double := 0
  hdr : Double := 0
  act : Mask := 0
  /-- the completion flag, and for a store-direction copy the second one (R100, R179) -/
  flag : Option Nat := none
  flag2 : Option Nat := none
  /-- the region it was issued in (R401) -/
  epoch : Nat := 0
  space : Space := .global
  /-- accesses still to be performed -/
  accs : List Access := []
  /-- an acquire load holds later accesses back; a release store waits for earlier ones (R157) -/
  acq : Bool := false
  rel : Bool := false
  /-- the scopes at which it acquires and releases, R317's included; 0 for none (R318) -/
  acqS : Nat := 0
  relS : Nat := 0
  /-- fences that follow it in its clause and may yet make it an acquire: address and scope (R317) -/
  ahead : List (Double × Nat) := []
  /-- releases that its group had issued before it; what its group had acquired before a later event that acquired more; the widest
  scope of the acquire fences issued since (R310) -/
  no : Nat := 0
  clock : Option (Tab Nat) := none
  later : Nat := 0
  /-- registers written at completion -/
  wrs : List RegWr := []
  /-- register fields that are interlocked until completion (R101) -/
  dst : List Nat := []
  /-- handle names read and written (R193) -/
  hrd : List Nat := []
  hwr : List Nat := []
  /-- the recorded error; 0 for none -/
  err : BitVec 6 := 0
  /-- closes the region when its checks are done: the checkpoint to install (R154, R156) -/
  closer : Option Ckpt := none
  /-- performed: only its completion remains -/
  done : Bool := false
  /-- waits for an outside event: an engine, a ray, a child launch, a recv, a joint operation -/
  engine : Bool := false
  /-- the copy batch it belongs to (R181) -/
  batch : Option Word := none
  /-- a flag it held has completed already (R179) -/
  quiet : Bool := false
  /-- of an mma.team: its tag, FMT at issue, CLK at issue (R212, R214) -/
  tag : Nat := 0
  fmt : Word := 0
  at_ : Double := 0
deriving DecidableEq, Repr

/-- A copy in its Tile-Copy Engine (R176–R180), by the number of its operation. -/
structure Copy where
  job : Nat
  core : Nat
  uid : Nat
  user : Bool
  secure : Bool
  dir : Bool
  kind : Nat
  scope : Nat
  /-- G + OFF20, O, R, the stride or pitch, the row barrier when RB is set -/
  g : Double
  o : Nat
  r : Nat
  step : Word
  bar : Option Nat := none
  /-- the index of each row of KIND 2 -/
  idx : Tab Word := []
  /-- rows not landed -/
  left : List Nat := []
  /-- rows read and not written, by row; rows of a gather by index -/
  buf : Tab (List Byte) := []
  /-- a row faulted -/
  dead : Bool := false
  /-- one of the engine's running copies (R297) -/
  running : Bool := false
deriving DecidableEq, Repr

/-- A multicast, by the number of its operation (R184, R185). -/
structure Cast where
  bytes : List Byte
  landing : Nat
  lid : Nat
  /-- unit indexes still to be served -/
  left : List Nat
  released : Bool := false
deriving DecidableEq, Repr

/-! ### Contexts and translation (R386–R417) -/

/-- What CTXSTAT.STATE shows (R412). -/
inductive CtxSt where
  | running | draining | off | reset
deriving DecidableEq, Repr

/-- A breakpoint of a context (R251). -/
structure Brk where
  addr : Double := 0
  slot : BitVec 2 := 0
deriving DecidableEq, Repr

/-- A context: its descriptor as last read (R386) and what the device holds for it. -/
structure Context where
  valid : Bool := false
  secure : Bool := false
  root : Nat := 0
  tbase : Double := 0
  tlimit : Double := 0
  toffset : Double := 0
  recbase : Double := 0
  tvec : Double := 0
  tfbase : Double := 0
  sfbase : Double := 0
  sfcount : Nat := 0
  ufcount : Nat := 0
  ufbase : Double := 0
  prqbase : Double := 0
  prqsize : Nat := 16
  deadline : Nat := 0
  evictage : Nat := 0
  st : CtxSt := .running
  /-- expiry of the deadline timer on CLK (R413) -/
  expires : Option Double := none
  brks : Tab Brk := []
  waddr : Tab Double := []
  wctl : Tab Word := []
  /-- placements made (R321) and launches accepted -/
  placements : Nat := 0
  launches : Nat := 0
  /-- pages with an outstanding request (R395), and requests waiting for ring room: page address with its kind bits -/
  asked : List Nat := []
  waitingAsk : List Nat := []
  prod : Word := 0
  sframes : List Nat := []
  uframes : List Nat := []
deriving DecidableEq, Repr

/-- A cached translation (R391): context, virtual base, log₂ size, physical base, attributes R W X SYS PRIV TENSOR RT, RLX. -/
structure TlbEntry where
  ctx : Nat
  va : Nat
  bits : Nat
  pa : Nat
  r : Bool
  w : Bool
  x : Bool
  sys : Bool
  priv : Bool
  tensor : Bool := false
  rt : Bool := false
  rlx : Nat := 0
deriving DecidableEq, Repr

/-! ### Home slices: the Trough, race records and scope records (R294, R318, R320) -/

/-- The type of a Trough word (R294). -/
inductive TroughTy where
  | f32 | i32 | i64
deriving DecidableEq, Repr

/-- A Trough entry: a line and its valid words, by byte offset; merges order entries. -/
structure TroughEntry where
  ctx : Nat
  words : Tab (TroughTy × Double)
  stamp : Nat
  /-- the home slice of the line (R291, R292) -/
  home : Nat := 0
  /-- the virtual pages, each with its context, through which its updates came (R392) -/
  pages : List (Nat × Nat) := []
deriving DecidableEq, Repr

/-- A party of a race or scope record (R318, R320): a unit in one region, or an engine job. -/
structure Party where
  engine : Bool := false
  /-- the unit tag, or for an engine the tag of the unit whose group started it (R321) -/
  tag : Word := 0
  region : Nat := 0
  /-- the engine job's operation -/
  job : Nat := 0
  lid : Word := 0
  unit : Word := 0
  gid : Nat := 0
  core : Nat := 0
  /-- a cluster's engine, and which; the BTE and link commands have none -/
  cluster : Option Nat := none
  /-- releases that the group had issued before the access (R310) -/
  no : Nat := 0
deriving DecidableEq, Repr

/-- WKIND (R320): plain, synchronisation with its scope, reduction with operation, engine. -/
inductive WKind where
  | plain | sync (scope : Nat) | red (op : Nat) | engine
deriving DecidableEq, Repr

/-- Bytes of a line that a party touched: by one kind of access, by one group, after so many of its releases (R320, R325). -/
structure Seg where
  mask : BitVec 128
  kind : WKind
  gid : Nat
  no : Nat
deriving DecidableEq, Repr

/-- A writer or reader entry of a race record (R320): the party, and the bytes it touched. -/
structure RaceEnt where
  who : Party
  segs : List Seg
deriving DecidableEq, Repr

/-- A race record (R320). -/
structure RaceRec where
  wr : Option RaceEnt := none
  rd0 : Option RaceEnt := none
  rd1 : Option RaceEnt := none
  ovf : Bool := false
deriving DecidableEq, Repr

/-- What a release access, or a write after a release fence, left at a location: who released, at which scope, and what happens before
(R310): of each group, how many of its releases. -/
structure Release where
  store : Store
  owner : Nat := 0
  addr : Nat
  n : Nat
  who : Party
  scope : Nat
  clock : Tab Nat
  /-- a fence released (the second row of R310), not the access itself (the first) -/
  fence : Bool := false
deriving DecidableEq, Repr

/-- What the synchronisation of a group has ordered so far (R310–R313): the releases it has issued; what it has acquired; of each scope,
what happens before its last release fence; the fences whose writes it has read and no acquire fence has joined yet. -/
structure Sync where
  no : Nat := 0
  known : Tab Nat := []
  fences : Tab (Tab Nat) := []
  seen : List Release := []
deriving DecidableEq, Repr

/-- A scope record (R318). -/
structure ScopeRec where
  scope : Nat
  who : Party
deriving DecidableEq, Repr

/-- A poisoned 64-bit word: its store, the unit or core that owns it, its index (R456). -/
structure Poison where
  store : Store
  owner : Nat := 0
  word : Nat
deriving DecidableEq, Repr

/-- A byte range of a footprint: virtual, or in a core's scratchpad (R303). -/
structure Range where
  va : Nat
  len : Nat
  core : Option Nat := none
deriving DecidableEq, Repr

/-- The kinds of engine job that carry a footprint (R303). -/
inductive JobKind where
  | cpy | sort | ray | skey
  | bte (ch : Nat) (handle : Nat)
  | draw (lid : Nat)
  | link (ring : Nat)
deriving DecidableEq, Repr

/-- An engine job from its acceptance by the Yard to its completion (R303, R304). -/
structure Job where
  kind : JobKind
  ctx : Nat := 0
  lid : Nat := 0
  uid : Nat := 0
  gid : Nat := 0
  /-- the party that its accesses are recorded under, as a report names it (R321) -/
  tag : Word := 0
  lident : Word := 0
  unit : Word := 0
  core : Nat := 0
  /-- its ranges are known: false until the Yard has read the record that gives them (R303) -/
  known : Bool := true
  reads : List Range := []
  writes : List Range := []
  /-- it has read every byte it reads -/
  readDone : Bool := false
  /-- held by an edge from reading, from writing (R304) -/
  heldR : Bool := false
  heldW : Bool := false
  /-- leased translations (R393) -/
  leases : List TlbEntry := []
  /-- stopped with a cause -/
  err : BitVec 6 := 0
  /-- of a BTE job: issued in user mode; its record, once read -/
  user : Bool := true
  layout : Option (List Byte) := none
deriving DecidableEq, Repr

/-- A ray's space: origin, direction and the innermost instance identifier (R339). -/
structure RaySpace where
  org : List Word := []
  dir : List Word := []
  inst : Word := 0xFFFFFFFF
deriving DecidableEq, Repr

/-- What a traversal has still to visit: a node, a leaf record of a KIND, the return to the enclosing space. -/
inductive RayTodo where
  | node (a : Nat)
  | leaf (kind a : Nat)
  | pop
deriving DecidableEq, Repr

/-- A ray in its slot (R226, R228, R229). -/
structure Ray where
  gid : Nat := 0
  lane : Nat := 0
  /-- the trav that walks it now; none while it is suspended -/
  op : Option Nat := none
  /-- its job: its party and its leases (R305, R393) -/
  job : Nat := 0
  user : Bool := true
  secure : Bool := false
  tmin : Word := 0
  tmax : Word := 0
  flags : Word := 0
  space : RaySpace := {}
  stack : List RaySpace := []
  todo : List RayTodo := []
  hitv : Bool := false
  kind : Nat := 0
  face : Bool := false
  hprim : Word := 0
  hinst : Word := 0
  b1 : Word := 0
  b2 : Word := 0
  /-- the primitive index of the procedural leaf that suspended it -/
  leaf : Word := 0
  /-- the page it waits for (R230) -/
  page : Option Nat := none
deriving DecidableEq, Repr

/-- A lane of an skey: its two tile corners, depth, index and position (R233). -/
structure KeyLane where
  c0 : Word
  c1 : Word
  depth : Word
  idx : Word
  pos : Nat := 0
deriving DecidableEq, Repr

/-- An skey in flight, by the number of its operation (R234). -/
structure KeyJob where
  /-- holds its leases -/
  job : Nat
  desc : Double
  append : Bool
  lanes : List KeyLane
  /-- the descriptor has been read and checked -/
  ready : Bool := false
  /-- COUNT has been advanced -/
  added : Bool := false
  keys : Double := 0
  vals : Double := 0
  cap : Nat := 0
  w : Nat := 0
  h : Nat := 0
  /-- pairs not written yet: position, key, value -/
  todo : List (Nat × Double × Word) := []
  ovf : Bool := false
deriving DecidableEq, Repr

/-- A sort command at its cluster's engine, by the number of its operation (R235). -/
structure SortCmd where
  job : Nat
  cluster : Nat
  va : Double
  user : Bool
  secure : Bool
deriving DecidableEq, Repr

/-- A BTE channel (R298, R299): its queue holds jobs by number, oldest first. -/
structure BteCh where
  queue : List Nat := []
  accepted : BitVec 16 := 0
  donecnt : BitVec 16 := 0
  err : Bool := false
  /-- the job that runs -/
  running : Option Nat := none
deriving DecidableEq, Repr

/-- A Rasteriser draw, by its launch (R342–R348). -/
structure Draw where
  job : Nat
  cluster : Nat
  secure : Bool := false
  base : Double
  wv : Nat
  hv : Nat
  ls : Nat
  rq : Nat
  aq : Nat
  x0 : Nat
  y0 : Nat
  x1 : Nat
  y1 : Nat
  drawid : Word
  /-- attribute tasks not sent yet; SEQ of each KEY -/
  tasks : List (List Word) := []
  seqs : Tab Word := []
deriving DecidableEq, Repr

/-- A submission queue (R421, R422): the tail written, the number of the next job, its open levels. -/
structure Queue where
  tail : BitVec 16 := 0
  next : Word := 1
  job : Option Nat := none
  phase : Option Nat := none
  graph : Option Nat := none
  /-- the job being copied was cancelled before it began (R425) -/
  skip : Bool := false
  /-- jobs marked cancelled before they began -/
  marks : List Word := []
  /-- records waiting to be written, bytes 0–15 with PH clear, oldest first (R424) -/
  recs : List (List Byte) := []
deriving DecidableEq, Repr

/-- An event record waiting to be posted (R426). -/
structure EventRec where
  typ : Nat
  ctx : Nat := 0
  cause : BitVec 6 := 0
  core : Nat := 0
  slot : Nat := 0
  addr : Double := 0
deriving DecidableEq, Repr

/-- A flit on the mesh (R288): its class, source column, place and destination, and the input port it stands behind (0 at its source). -/
structure Flit where
  resp : Bool := false
  port : Nat := 0
  ys : Nat := 0
  xs : Nat
  x : Nat
  y : Nat
  xd : Nat
  yd : Nat
deriving DecidableEq, Repr

/-- A Vartur port (R430–R432). -/
structure Port where
  /-- the number of the next data flit; the flits not acknowledged: number, time of the last sending, bytes 4–251 -/
  next : BitVec 16 := 0
  unacked : List (BitVec 16 × Double × List Byte) := []
  /-- numbers to be sent again -/
  again : List (BitVec 16) := []
  /-- payloads waiting to be sent: class and bytes -/
  txq : List (Nat × List Byte) := []
  /-- the number expected next, the flits held ahead of it, the numbers named in a NAK -/
  expect : BitVec 16 := 0
  held : List (BitVec 16 × Nat × List Byte) := []
  named : List (BitVec 16) := []
  /-- payloads delivered and not yet acted on: class and bytes -/
  inbox : List (Nat × List Byte) := []
  /-- the flit on the lanes -/
  line : List Byte := []
deriving DecidableEq, Repr

/-- A link command that runs (R433–R437). -/
structure LinkCmd where
  bytes : List Byte
  job : Nat
  /-- the context of its job: LQCFG.CTX as it was taken -/
  ctx : Nat := 0
  /-- CLK at its start -/
  at_ : Double
  /-- of a PUT: payloads not acknowledged yet, the first cause -/
  left : Nat := 0
  err : BitVec 6 := 0
  /-- of a collective: its header and data have been sent to the other ranks (R437) -/
  sent : Bool := false
  /-- it has ended with this cause: only its DONE store is left (R301, R433) -/
  ended : Option (BitVec 6) := none
deriving DecidableEq, Repr

/-- A ring of link commands (R433): the tail written, the command that runs. -/
structure LinkRing where
  tail : BitVec 16 := 0
  cmd : Option LinkCmd := none
  /-- COLLID, RANK and the bytes of ROUTE of its latest collective, by which the package forwards; the flits that have come for its
  own rank (R437) -/
  route : Option (Nat × Nat × List Byte) := none
  coll : List (List Byte) := []
deriving DecidableEq, Repr

/-- A TLBINV in progress (R392, R412). -/
structure Inval where
  scope : Nat
  ctx : Nat
  va : Nat
  n : Nat
  wb : Bool
deriving DecidableEq, Repr

/-- The rails (R473); the last stands for VCORE0 and VCORE1. -/
inductive Rail where
  | vaux | vserdes | vhbm | vloft | vcore
deriving DecidableEq, Repr
/-- The order in which they come up (R473). -/
def railOrder : List Rail := [.vaux, .vserdes, .vhbm, .vloft, .vcore]

/-- The management firmware (R468, R471): the bank that booted, the bank that boots next, the fused rollback counter, the images of
the two banks (none: the image of manufacture), the running version; the command in progress (1 stage, 2 commit); the banks that fail
verification because a stage was interrupted (R480). -/
structure Firmware where
  booted : Nat := 0
  active : Nat := 0
  rollback : Nat := 0
  banks : List (Option (List Byte)) := [none, none]
  version : Nat := 0
  recovery : Bool := false
  busy : Nat := 0
  broken : List Nat := []
deriving DecidableEq, Repr

/-- A physical region descriptor (R466): base, exclusive limit, EN, LOCK. -/
structure Rgn where
  base : Nat := 0
  limit : Nat := 0
  en : Bool := false
  lock : Bool := false
deriving DecidableEq, Repr

/-! ### The machine -/

/-- Everything the machine holds. -/
structure State where
  /-- CLK (R42) -/
  clk : Double := 0
  /-- the model's own: the count of free values taken, of completions made, and the steps the outside has asked for -/
  free : Nat := 0
  changes : Nat := 0
  agenda : List Instr := []
  /-- the word being issued: group and split -/
  cur : Option (Nat × Nat) := none
  /-- the model's own: where the next choice of a quarter to issue begins, as 4·core + quarter -/
  turn : Nat := 0
  /-- the earliest CLK at which each quarter may issue its next word, by 4·core + quarter (R271) -/
  nextIssue : Tab Double := []
  /-- numbers for groups, units, levels and operations -/
  nextId : Nat := 1
  /-- HBM4, second tier: bytes by physical address -/
  mem : Memory := []
  /-- poisoned words (R456) -/
  poison : List Poison := []
  groups : Tab Group := []
  units : Tab UnitS := []
  levels : Tab Level := []
  ops : Tab Op := []
  jobs : Tab Job := []
  copies : Tab Copy := []
  casts : Tab Cast := []
  /-- the record caches: the copy of record h of context c on die d, at (c·4096 + h)·2 + d (R302) -/
  recs : Tab (List Byte) := []
  bte : Tab BteCh := []
  keys : Tab KeyJob := []
  sorts : Tab SortCmd := []
  draws : Tab Draw := []
  queues : Tab Queue := []
  /-- NEXT of the rasteriser-ordered sections, at 65,536·launch + KEY (R247) -/
  rosec : Tab Word := []
  /-- a gating level, thermal limit and allowance of the last refresh (R382–R385) -/
  level : Nat := 0
  therm : Nat := 3000
  allow : Nat := 2100
  /-- ray slots, slot k of core c at 64·c + k, and their generations (R229) -/
  rays : Tab Ray := []
  raygen : Tab (BitVec 16) := []
  cores : Tab CoreS := []
  ctxs : Tab Context := []
  /-- the core TLBs under 0–191, the cluster TLBs under 192–195 (R391) -/
  tlb : Tab (List TlbEntry) := []
  trough : Tab TroughEntry := []
  races : Tab RaceRec := []
  scopes : Tab ScopeRec := []
  /-- the region number of each resident unit (R319) -/
  regnum : Tab Nat := []
  /-- the unit tag of each resident unit (R321) -/
  tags : Tab Word := []
  /-- what the synchronisation of each group has ordered; what releases left at locations; what happens before the last leave of each
  section key, at 65,536·launch + KEY (R248, R310, R325) -/
  sync : Tab Sync := []
  rels : List Release := []
  rosecClk : Tab (Tab Nat) := []
  /-- the states of HBM4's 256-byte blocks, as last written back (R296) -/
  blocks : Tab (BitVec 4) := []
  /-- values that 64-bit words of record tables have held since the last rflush (R302) -/
  past : Tab (List Double) := []
  events : List EventRec := []
  /-- RGNSEL, the descriptors; CWSEL, worlds written and not yet applied (R466, R467) -/
  rgnsel : BitVec 6 := 0
  rgns : Tab Rgn := []
  cwsel : BitVec 8 := 0
  cworld : Tab Bool := []
  /-- MEAS0–MEAS7, 64 bytes each; an unlisted one is zero (R469) -/
  meas : Tab (List Byte) := []
  /-- flits on the mesh (R288) -/
  flits : Tab Flit := []
  /-- how often each MSI-X vector has been raised (R419) -/
  msi : Tab Nat := []
  /-- Vartur ports and link command rings -/
  ports : Tab Port := []
  lrings : Tab LinkRing := []
  /-- collective flits that no posted collective takes or forwards yet (R437) -/
  collHeld : List (List Byte) := []
  /-- the TLBINV and the attestation request in progress -/
  inval : Option Inval := none
  att : Option (List Byte) := none
  firm : Firmware := {}
  /-- HBM4 channels spared, by stack (R460); rows repaired in this reset and fused: bank and row (R461) -/
  spared : Tab Nat := []
  /-- requests to spare a second channel of a stack, refused and counted (R460) -/
  refused : Nat := 0
  softRows : List (Nat × Nat) := []
  hardRows : List (Nat × Nat) := []
  /-- spare positions used, by cluster (R453) -/
  spares : Tab Nat := []
  /-- second-tier ports that are down (R429) -/
  t2down : List Nat := []
  /-- requests of secure software that the secure monitor extend a slot of MEAS5–MEAS7 with a digest, oldest first (R469) -/
  monitor : List (Nat × List Byte) := []
  /-- the rails that are up, in the order in which they came up; both arithmetic PLLs hold lock; bring-up is complete; the VAUX-held record
  of the last shutdown (R473–R479) -/
  rails : List Rail := railOrder
  locked : Bool := true
  ready : Bool := false
  shutdown : BitVec 4 := 0
  /-- host memory, by host bus address, as the device reaches it -/
  host : Memory := []
  /-- host registers, by offset in BAR0; an unlisted one holds its reset value -/
  hreg : Tab Double := []
deriving DecidableEq, Repr

/-- Why the machine stops with a fault. -/
inductive Fault where
  /-- An instruction word is executed while no split is issuing one: the model's own, raised by the prelude of every word;
  no step of the machine does it. Safe. -/
  | noIssuingSplit
deriving DecidableEq, Repr

/-- Why an instruction has no meaning. -/
inductive Refusal where
  /-- an instruction that has no meaning yet. Safe. -/
  | notModelled (mnemonic : String)
deriving DecidableEq, Repr

/-- The machine right after device reset, before bring-up: no context, no group, memory empty, every register at its reset value;
POWER_ON and the other reset sources run bring-up (R478, R479). -/
def State.reset : State := {}

end Sys2Proof.Machine
end

