-- ==== Sys2Proof/Machine/Memory.lean ====
section
/-! DEFINITION. Sys2Proof/Machine/Memory.lean: physical memory and what the Trough holds over it, the region descriptors, the TLBs, the
page-table walk and translation (R151, R155, R283, R291–R295, R388–R391, R428, R464), and the error counters. -/

namespace Sys2Proof.Machine

open Sys2Proof

/-! ### Host registers (R8, R9): one table by offset, an unlisted register holds its reset value -/

/-- The reset value of the host register at an offset of BAR0; 0 where no register has another. -/
def hregReset (off : Nat) : Double :=
  if 0x10000 ≤ off ∧ off < 0x11000 then        -- the submission queues (R421)
    (if off % 0x40 = 0x08 then 0x400 else if off % 0x40 = 0x20 then 4 else 0)
  else if off = 0x42000 then 3000        -- PLIMIT (R382)
  else if off = 0x11008 then 4      -- EVCFG.LSIZE (R426)
  else if 0x20000 ≤ off ∧ off < 0x20410 ∧ off % 16 = 12 then 1   -- the mask bit of an MSI-X vector (log entry 26)
  else if 0x50000 ≤ off ∧ off < 0x50100 ∧ off % 0x20 = 0x08 then 0x400   -- LQCFG.LSIZE (R433)
  else if off = 0x50F04 then 1000000      -- LTMO (R433)
  else 0

/-- The value of the host register at an offset. -/
def hregGet (s : State) (off : Nat) : Double := (tabFind s.hreg off).getD (hregReset off)
/-- Write the host register at an offset. -/
def hregSet (s : State) (off : Nat) (v : Double) : State :=
  { s with hreg := if v = hregReset off then tabDel s.hreg off else tabPut s.hreg off v }

/-! ### Error counters (R459) -/

/-- A counter advances; it saturates. -/
def countUp (s : State) (off : Nat) : State :=
  if hregGet s off = 0xFFFFFFFF then s else hregSet s off (hregGet s off + 1)
def cSramce : Nat := 0x60008
def cSramue : Nat := 0x6000C
def cHbmce : Nat := 0x60010
def cHbmue : Nat := 0x60014
def cT2err : Nat := 0x60018
def cUnback : Nat := 0x6001C
def cSecdrop : Nat := 0x60020
def cCorefail : Nat := 0x60028
def cRepair : Nat := 0x6002C

/-! ### Physical memory (R283) -/

def hbmEnd : Nat := 0x8000000000
def t2Base : Nat := 0x10000000000
def bteBase : Nat := 0xF000000000000
/-- The populated extent of the second tier in bytes: T2EXT.GIB (R428). -/
def t2Extent (s : State) : Nat := (hregGet s 0x45004).toNat % 8192 * 2 ^ 30
/-- A physical address that HBM4 or the populated second tier backs. -/
def backed (s : State) (pa : Nat) : Bool :=
  decide (pa < hbmEnd) || (decide (t2Base ≤ pa) && decide (pa < t2Base + t2Extent s))
/-- The BTE aperture (R298). -/
def inAperture (pa : Nat) : Bool := decide (bteBase ≤ pa) && decide (pa < bteBase + 0x200000)

/-- A byte as a translated access reads it: an unbacked address reads as zero. -/
def physByte (s : State) (pa : Nat) : Byte := if backed s pa then memByte s.mem pa else 0
def physRead (s : State) (pa n : Nat) : List Byte := (List.range n).map (fun i => physByte s (pa + i))
/-- A write to an unbacked address is ignored. -/
def physWrite (s : State) (pa : Nat) (bs : List Byte) : State :=
  if backed s pa then { s with mem := memWrite s.mem pa bs } else s
/-- An n-byte little-endian number at a physical address (R6). -/
def physNat (s : State) (pa n : Nat) : Nat := (ofBytes 128 (physRead s pa n)).toNat

/-! ### Memory as the Trough leaves it (R294, R295) -/

def lineOf (pa : Nat) : Nat := pa / 128

/-- FP32 addition rounded to nearest even, subnormals kept, canonical NaN (R164, R295). -/
def addF32 (a b : Nat) : Nat := (laneFadd .fp32 0 false .ne (a % 2 ^ 32) (b % 2 ^ 32)).1

/-- Bytes of a Trough word. -/
def troughSize : TroughTy → Nat
  | .i64 => 8
  | _ => 4

def troughAdd (t : TroughTy) (a b : Double) : Double :=
  match t with
  | .f32 => BitVec.ofNat 64 (addF32 a.toNat b.toNat)
  | .i32 => ((bits a 0 32 : Word) + bits b 0 32).setWidth 64
  | .i64 => a + b

/-- The bytes of a word of memory with a partial folded into it. -/
def foldedBytes (s : State) (line : Nat) (w : Nat × TroughTy × Double) : List Byte :=
  let n := troughSize w.2.1
  bytesOf n (troughAdd w.2.1 (BitVec.ofNat 64 (physNat s (128 * line + w.1) n)) w.2.2)

/-- A byte as an access reads it once its line's partials are folded. -/
def viewByte (s : State) (pa : Nat) : Byte :=
  match tabFind s.trough (lineOf pa) with
  | none => physByte s pa
  | some e => match e.words.find? (fun w => decide (w.1 ≤ pa % 128) && decide (pa % 128 < w.1 + troughSize w.2.1)) with
    | none => physByte s pa
    | some w => (foldedBytes s (lineOf pa) w).getD (pa % 128 - w.1) 0

/-- Bytes of memory with the partials of the Trough folded in. -/
def viewRead (s : State) (pa n : Nat) : List Byte :=
  if s.trough.isEmpty then physRead s pa n else (List.range n).map (fun i => viewByte s (pa + i))

/-! ### Region descriptors (R464) -/

/-- The physical address is secure: an enabled descriptor covers it. -/
def secureAddr (s : State) (pa : Nat) : Bool :=
  s.rgns.any (fun e => e.2.en && decide (e.2.base ≤ pa) && decide (pa < e.2.limit))

/-! ### Poison (R429, R456) -/

/-- The second-tier port that an address interleaves to: the j-th of USED (R428). -/
def t2Port (s : State) (pa : Nat) : Nat :=
  let used := (List.range 6).filter (fun k => bit (hregGet s 0x45000) (8 + k))
  used.getD ((pa - t2Base) / 4096 % max used.length 1) 6
/-- The address at that port (R428). -/
def t2Addr (s : State) (pa : Nat) : Nat :=
  let ways := ((List.range 6).filter (fun k => bit (hregGet s 0x45000) (8 + k))).length
  (pa - t2Base) / 4096 / max ways 1 * 4096 + (pa - t2Base) % 4096
/-- The address lies behind a port that is down (R429). -/
def portFails (s : State) (pa : Nat) : Bool :=
  decide (t2Base ≤ pa) && decide (pa < t2Base + t2Extent s) && s.t2down.contains (t2Port s pa)

/-- Some 64-bit word of a byte range is poisoned, or does not answer. -/
def isPoison (s : State) (st : Store) (owner a n : Nat) : Bool :=
  (st == .mem && (portFails s a || portFails s (a + n - 1))) ||
  s.poison.any (fun p => p.store == st && p.owner == owner && decide (a < 8 * p.word + 8) && decide (8 * p.word < a + n))

/-! ### Page tables (R388–R390) -/

/-- How a walk ends (R390). -/
inductive Walk where
  | leaf (e : TlbEntry)
  | bad (c : BitVec 6)
  | absent
deriving DecidableEq, Repr

/-- The four levels: lowest index bit, index bits, log₂ of the table's size, whether a leaf is permitted. -/
def walkLevels : List (Nat × Nat × Nat × Bool) :=
  [(39, 17, 20, false), (30, 9, 12, true), (21, 9, 12, true), (16, 5, 8, true)]

/-- A leaf entry: its format checks, then its RES bit. -/
def walkLeaf (ctx va sh : Nat) (ok : Bool) (e : Double) : Walk :=
  let rlx := (bits e 12 4 : BitVec 4).toNat
  let pa := (bits e 16 36 : BitVec 36).toNat * 65536
  if !ok || (bits e 52 12 : BitVec 12) != 0 || (bits e 10 2 : BitVec 2) != 0 || decide (rlx ≥ 10) ||
      (!bit e 7 && rlx != 0) || pa % 2 ^ sh != 0 then .bad 0x17#6
  else if !bit e 9 then .absent
  else .leaf { ctx := ctx, va := va / 2 ^ sh * 2 ^ sh, bits := sh, pa := pa, r := bit e 2, w := bit e 3, x := bit e 4,
               sys := bit e 5, priv := bit e 6, tensor := bit e 7, rt := bit e 8, rlx := rlx }

/-- Walk the levels from a table; an entry that is poisoned is a machine check at the access (R456). -/
def walkFrom (s : State) (secure : Bool) (ctx va : Nat) : List (Nat × Nat × Nat × Bool) → Nat → Walk
  | [], _ => .bad 0x17#6
  | (sh, ib, _, lf) :: rest, t =>
    let a := t + 8 * (va / 2 ^ sh % 2 ^ ib)
    let e : Double := ofBytes 64 (viewRead s a 8)
    if secureAddr s a && !secure then .bad 0x13#6
    else if isPoison s .mem 0 a 8 then .bad 0x3E#6
    else if !bit e 0 then .bad 0x11#6
    else if bit e 1 then walkLeaf ctx va sh lf e
    else
      let n := (bits e 8 44 : BitVec 44).toNat * 256
      match rest with
      | [] => .bad 0x17#6
      | (_, _, sz, _) :: _ =>
        if (bits e 52 12 : BitVec 12) != 0 || (bits e 2 6 : BitVec 6) != 0 || n % 2 ^ sz != 0 || decide (n ≥ hbmEnd) then
          .bad 0x17#6
        else walkFrom s secure ctx va rest n

/-- The addresses of the table entries that a walk from a table reads, in order (R388). -/
def walkReads (s : State) (secure : Bool) (va : Nat) : List (Nat × Nat × Nat × Bool) → Nat → List Nat
  | [], _ => []
  | (sh, ib, _, _) :: rest, t =>
    let a := t + 8 * (va / 2 ^ sh % 2 ^ ib)
    let e : Double := ofBytes 64 (viewRead s a 8)
    let n := (bits e 8 44 : BitVec 44).toNat * 256
    if secureAddr s a && !secure then []
    else if isPoison s .mem 0 a 8 || !bit e 0 || bit e 1 || decide (n ≥ hbmEnd) then [a]
    else a :: walkReads s secure va rest n

/-- The table entries that a walk of an address of a context reads. -/
def walkEntries (s : State) (ctx va : Nat) : List Nat :=
  match tabFind s.ctxs ctx with
  | none => []
  | some c => walkReads s c.secure va walkLevels c.root

/-- A whole walk in a context (R388). -/
def walk (s : State) (ctx va : Nat) : Walk :=
  match tabFind s.ctxs ctx with
  | none => .bad 0x11#6
  | some c => walkFrom s c.secure ctx va walkLevels c.root

/-- What an access does (R390): the permission it needs. -/
inductive Need where
  | read | write | both | fetch
deriving DecidableEq, Repr

/-- Who accesses: the context, whether in user mode, its world, and the TLBs that its translations go through, nearest first (R391). -/
structure Who where
  ctx : Nat
  user : Bool
  secure : Bool
  tlbs : List Nat := []
deriving DecidableEq, Repr

/-- An access by the device itself, or by an engine of no cluster: it walks the table (R391; log entry 52). -/
def device (ctx : Nat) (user secure : Bool) : Who := { ctx := ctx, user := user, secure := secure }

/-- The TLBs: core c's under c, cluster k's under 192 + k (R391). -/
def clusterTlb (core : Nat) : Nat := 192 + core / 48
def coreTlbs (core : Nat) : List Nat := [core, clusterTlb core]
/-- Entries that a TLB holds. -/
def tlbSize (k : Nat) : Nat := if k < 192 then 64 else 4096

/-- How an address translates: a physical address (group-private or not), a fault, or a page that is not resident. -/
inductive Xlate where
  | ok (pa : Nat) (priv : Bool)
  | bad (c : BitVec 6)
  | absent
deriving DecidableEq, Repr

/-- The permission rules of R390. -/
def leafDenied (e : TlbEntry) (n : Need) (user : Bool) : Bool :=
  (e.sys && user) ||
  match n with
  | .read => !e.r
  | .write => !e.w
  | .both => !(e.r && e.w)
  | .fetch => !e.x

/-- Permission, then the region descriptors (R155 steps 4 and 5). -/
def xlateLeaf (s : State) (w : Who) (n : Need) (va : Nat) (e : TlbEntry) : Xlate :=
  let pa := e.pa + va % 2 ^ e.bits
  if leafDenied e n w.user then .bad 0x12#6
  else if secureAddr s pa && !w.secure then .bad 0x13#6
  else .ok pa e.priv

/-- An entry maps an address of a context. -/
def tlbMaps (ctx va : Nat) (e : TlbEntry) : Bool := e.ctx == ctx && va / 2 ^ e.bits == e.va / 2 ^ e.bits
/-- A translation that one TLB holds (R391). -/
def tlbHas (s : State) (k ctx va : Nat) : Option TlbEntry := (tabGet [] s.tlb k).find? (tlbMaps ctx va)
/-- The cached translation that an access meets first. -/
def tlbFind (s : State) (w : Who) (va : Nat) : Option TlbEntry := w.tlbs.findSome? (fun k => tlbHas s k w.ctx va)

/-- The address lies in the context's tensor window (R41). -/
def inWindow (s : State) (ctx a : Nat) : Bool :=
  match tabFind s.ctxs ctx with
  | none => false
  | some c => decide (c.tbase.toNat ≤ a) && decide (a < c.tbase.toNat + c.tlimit.toNat)

/-- Translation of a virtual address (R41, R151, R388). -/
def translate (s : State) (w : Who) (n : Need) (va : Double) : Xlate :=
  let a := va.toNat
  if a ≥ 2 ^ 56 then .bad 0x11#6
  else match tabFind s.ctxs w.ctx with
  | none => .bad 0x11#6
  | some c =>
    if c.tbase.toNat ≤ a ∧ a < c.tbase.toNat + c.tlimit.toNat then
      -- the window: R and W, not X (R388), then the region descriptors (R41)
      let pa := c.toffset.toNat + (a - c.tbase.toNat)
      if n = .fetch then .bad 0x12#6 else if secureAddr s pa && !w.secure then .bad 0x13#6 else .ok pa false
    else match tlbFind s w a with
      | some e => xlateLeaf s w n a e
      | none => match walk s w.ctx a with
        | .leaf e => xlateLeaf s w n a e
        | .bad e => .bad e
        | .absent => .absent

/-- The translation of an address walks the tables: no lease is looked at here (R391). -/
def walksFor (s : State) (w : Who) (va : Double) : Bool :=
  decide (va.toNat < 2 ^ 56) && !inWindow s w.ctx va.toNat && (tlbFind s w va.toNat).isNone

/-- The physical address that a machine check of an access names: the place of the access, or the table entry that its walk could not
read (R458). -/
def checkAddr (s : State) (w : Who) (n : Need) (va : Double) : Nat :=
  match translate s w n va with
  | .ok pa _ => pa
  | _ => (walkEntries s w.ctx va.toNat).getLastD 0

/-- The first poisoned byte of a run of memory, its first byte where none is (R458). -/
def poisonAddr (s : State) (pa n : Nat) : Nat :=
  if portFails s pa then pa
  else ((s.poison.filter (fun p => p.store == .mem && decide (pa < 8 * p.word + 8) && decide (8 * p.word < pa + n))).map
    (fun p => max pa (8 * p.word))).foldl min (pa + n - 1)

end Sys2Proof.Machine
end

