-- ==== Sys2Proof/Machine/Trough.lean ====
section
/-! DEFINITION. Sys2Proof/Machine/Trough.lean: reads and writes of physical memory with what goes with each: the count of an unbacked
access, the fold of the lines' partials, the poison of words, the BTE aperture, the values a record held; and the Trough's merges
(R282, R283, R291–R295, R298, R302, R456). -/

namespace Sys2Proof.Machine

open Sys2Proof

/-! ### Poison (R456) -/

/-- A write clears the poison of every word it covers whole. -/
def clearPoison (s : State) (st : Store) (owner a n : Nat) : State :=
  if s.poison.isEmpty then s
  else { s with poison := s.poison.filter (fun p =>
    !(p.store == st && p.owner == owner && decide (a ≤ 8 * p.word) && decide (8 * p.word + 8 ≤ a + n))) }

/-- What a release left at bytes that an access of `n` bytes at `a` touches. -/
def relMeets (st : Store) (owner a n : Nat) (r : Release) : Bool :=
  r.store == st && r.owner == owner && decide (a < r.addr + r.n) && decide (r.addr < a + n)
/-- The parts of a release's bytes that lie outside a write's. -/
def relOutside (a n : Nat) (r : Release) : List Release :=
  (if r.addr < a then [{ r with n := a - r.addr }] else []) ++
  (if a + n < r.addr + r.n then [{ r with addr := a + n, n := r.addr + r.n - (a + n) }] else [])
/-- A write to a location ends what a release access left there, but for an atomic step; what a write after a fence left stays (R310). -/
def dropRels (s : State) (st : Store) (owner a n : Nat) : State :=
  if s.rels.isEmpty then s
  else { s with rels := s.rels.flatMap (fun r => if !r.fence && relMeets st owner a n r then relOutside a n r else [r]) }

/-! ### The BTE aperture (R298, R299) -/

def bteOf (s : State) (c : Nat) : BteCh := tabGet {} s.bte c
def bteChan (pa : Nat) : Nat := (pa - bteBase) / 0x10000 % 32
def bteOff (pa : Nat) : Nat := (pa - bteBase) % 0x10000
def bteErr (s : State) (ch : Nat) : State := { s with bte := tabPut s.bte ch { bteOf s ch with err := true } }

/-- A store to the aperture that is no command: at offset 0 it sets STAT.ERR, at 0x8 it writes the W1C bit (R298). A run of bytes acts
as a store at each of the two offsets that it covers (DEDUCED, log entry 94). -/
def apertureRun (s : State) (pa : Nat) (bs : List Byte) : State :=
  let ch := bteChan pa
  let off := bteOff pa
  let s := if off = 0 ∧ bs.length ≠ 0 then bteErr s ch else s
  if off ≤ 8 ∧ 16 ≤ off + bs.length ∧ bit (bs.getD (13 - off) 0) 0 then { s with bte := tabPut s.bte ch { bteOf s ch with err := false } }
  else s

/-! ### What a record held (R302) -/

/-- The physical page holds a part of some context's record table: 4,096 records of 192 bytes from RECBASE (R300). -/
def recordPage (s : State) (pa : Nat) : Bool :=
  s.ctxs.any (fun e => (List.range 13).any (fun k =>
    match translate s (device e.1 false e.2.secure) .read (e.2.recbase + BitVec.ofNat 64 (65536 * k)) with
    | .ok p _ => p / 65536 == pa / 65536
    | _ => false))

/-- The value of a 64-bit word joins those it has held. -/
def keepWord (s : State) (w : Nat) : State :=
  let vs := tabGet [] s.past w
  let x : Double := BitVec.ofNat 64 (physNat s (8 * w) 8)
  if vs.contains x then s else { s with past := tabPut s.past w (x :: vs) }
/-- A write is about to change words: in a record table their values are kept, for a record cache may hold them (R302). -/
def keepPast (s : State) (pa n : Nat) : State :=
  if recordPage s pa then (List.range (if n = 0 then 0 else (pa + n - 1) / 8 - pa / 8 + 1)).foldl (fun s i => keepWord s (pa / 8 + i)) s
  else s

/-! ### Writes and folds (R282, R283, R295) -/

/-- Write bytes at a physical address: of memory, or of the aperture. -/
def memPut (s : State) (pa : Nat) (bs : List Byte) : State :=
  if inAperture pa then apertureRun s pa bs
  else
    let n := bs.length
    clearPoison (dropRels (physWrite (keepPast s pa n) pa bs) .mem 0 pa n) .mem 0 pa n

/-- An access of `n` bytes that nothing backs is counted (R283). -/
def countUnbacked (s : State) (pa n : Nat) : State :=
  if inAperture pa || (backed s pa && backed s (pa + (n - 1))) then s else countUp s cUnback

/-- Fold one valid word into memory. -/
def foldWord (s : State) (line : Nat) (w : Nat × TroughTy × Double) : State := memPut s (128 * line + w.1) (foldedBytes s line w)

/-- Fold every valid word of a line. -/
def foldLine (s : State) (line : Nat) : State :=
  match tabFind s.trough line with
  | none => s
  | some e => e.words.foldl (fun s w => foldWord s line w) { s with trough := tabDel s.trough line }

/-- A walk reads its table entries: the lines' partials fold (R295). -/
def walkFold (s : State) (w : Who) (va : Double) : State :=
  if s.trough.isEmpty || !walksFor s w va then s
  else (walkEntries s w.ctx va.toNat).foldl (fun s a => foldLine s (lineOf a)) s

/-- The 4-bit state of an HBM4 block, from its contents: parity, zero, and the smallest mode that they fit into (R296). -/
def blockState (s : State) (b : Nat) : BitVec 4 :=
  let bs := physRead s (256 * b) 256
  let mode : BitVec 4 :=
    if (List.range 32).all (fun i => (bs.drop (8 * i)).take 8 == bs.take 8) then 3
    else if Config.packs 2 bs then 2 else if Config.packs 1 bs then 1 else 0
  let x := if bs.all (· == 0) then mode ||| 4 else mode
  if (bit x 0 ^^ bit x 1 ^^ bit x 2) then x ||| 8 else x

/-- A line's partials fold and it is written back: the controller chooses its block's state (R162, R296). -/
def writeBackLine (s : State) (line : Nat) : State :=
  let s := foldLine s line
  if 128 * line < hbmEnd then { s with blocks := tabPut s.blocks (line / 2) (blockState s (line / 2)) } else s

/-- Fold every line of an address range. -/
def foldRange (s : State) (pa n : Nat) : State :=
  (s.trough.filter (fun e => decide (128 * e.1 < pa + n) && decide (pa < 128 * e.1 + 128))).foldl (fun s e => foldLine s e.1) s

/-- An access of a run of bytes is about to be made: it is counted where nothing backs it, and the lines' partials fold. -/
def memTouch (s : State) (pa n : Nat) : State := foldRange (countUnbacked s pa n) pa n
def memLoad (s : State) (pa n : Nat) : List Byte × State := let s := memTouch s pa n; (physRead s pa n, s)
def memStore (s : State) (pa : Nat) (bs : List Byte) : State := memPut (memTouch s pa bs.length) pa bs

/-! ### Home slices (R291, R292) -/

/-- The home of a line on an ordinary page. -/
def homePlain (pa : Nat) : Nat :=
  let g := pa / 256 % 2 ^ 44
  [7, 14, 21, 28, 35, 42].foldl (fun h k => h ^^^ (g / 2 ^ k % 128)) (g % 128)

/-- The home of a line on a tensor page with base PB and row pitch 2^RL. -/
def homeTensor (pb rl pa : Nat) : Nat :=
  let o := pa - pb
  let ty := o / 2 ^ rl / 32
  let tx := o % 2 ^ rl / 128
  let h := homePlain pb
  8 * ((h / 8 + ty) % 16) + (h % 8 + tx) % 8

/-- The home slice of the line at `pa`, reached by a virtual address: the leaf that maps the address in the page table says whether its
page is a tensor page. -/
def homeSlice (s : State) (ctx : Nat) (va : Double) (pa : Nat) : Nat :=
  match walk s ctx va.toNat with
  | .leaf e => if e.tensor ∧ e.pa ≤ pa ∧ pa < e.pa + 2 ^ e.bits then homeTensor e.pa (e.rlx + 7) pa else homePlain pa
  | _ => homePlain pa

/-! ### The Trough (R294, R295) -/

/-- Fold the least recently merged line of a full slice (R295). -/
def foldOldest (s : State) (home : Nat) : State :=
  let es := s.trough.filter (fun e => e.2.home == home)
  if es.length < 1024 then s
  else match listMin (es.map (·.2.stamp)) with
    | none => s
    | some m => match es.find? (fun e => e.2.stamp == m) with
      | some e => foldLine s e.1
      | none => s

/-- Merge one update into its line's entry (R294). -/
def troughMerge (s : State) (ctx : Nat) (va : Double) (pa : Nat) (ty : TroughTy) (x : Double) : State :=
  let line := lineOf pa
  let off := pa % 128
  let home := homeSlice s ctx va pa
  let s := if (tabFind s.trough line).isSome then s else foldOldest s home
  let e := (tabFind s.trough line).getD { ctx := ctx, words := [], stamp := 0, home := home }
  let page := (ctx, va.toNat / 65536)
  let e := { e with pages := if e.pages.contains page then e.pages else page :: e.pages }
  -- a valid word of another type that shares bytes is folded first
  let clash := e.words.filter (fun w => !(w.1 == off && w.2.1 == ty) && decide (w.1 < off + troughSize ty) &&
    decide (off < w.1 + troughSize w.2.1))
  let s := clash.foldl (fun s w => foldWord s line w) s
  let ws := e.words.filter (fun w => !clash.contains w)
  let p := match tabFind ws off with
    | some (_, p) => troughAdd ty p x
    | none => x
  { s with trough := tabPut s.trough line { e with words := tabPut ws off (ty, p), stamp := s.nextId }, nextId := s.nextId + 1 }

end Sys2Proof.Machine
end

