-- ==== Sys2Proof/Machine/Ops.lean ====
section
/-! DEFINITION. Sys2Proof/Machine/Ops.lean: the named operations over groups, registers, handle names, flags and operations in
flight; committing and discarding a region; writing and reading a save frame; taking a trap and returning from one
(R12–R42, R187–R192, R399–R408). -/

namespace Sys2Proof.Machine

open Sys2Proof

/-- The outcome of a step. -/
abbrev Out := Host.Outcome State Fault Refusal

/-! ### Groups and splits -/

def grp (s : State) (gid : Nat) : Option Group := tabFind s.groups gid
def setGrp (s : State) (gid : Nat) (g : Group) : State := { s with groups := tabPut s.groups gid g }
def mapGrp (s : State) (gid : Nat) (f : Group → Group) : State := { s with groups := tabMap s.groups gid f }
def unitOf (s : State) (uid : Nat) : UnitS := (tabFind s.units uid).getD {}
def mapUnit (s : State) (uid : Nat) (f : UnitS → UnitS) : State := { s with units := tabMap s.units uid f }
def levelOf (s : State) (lid : Nat) : Level := (tabFind s.levels lid).getD {}
def mapLevel (s : State) (lid : Nat) (f : Level → Level) : State := { s with levels := tabMap s.levels lid f }
def ctxOf (s : State) (n : Nat) : Context := (tabFind s.ctxs n).getD {}
def mapCtx (s : State) (n : Nat) (f : Context → Context) : State := { s with ctxs := tabPut s.ctxs n (f (ctxOf s n)) }
def coreOf (s : State) (c : Nat) : CoreS := (tabFind s.cores c).getD {}
def mapCore (s : State) (c : Nat) (f : CoreS → CoreS) : State := { s with cores := tabPut s.cores c (f (coreOf s c)) }
def pktOf (s : State) (g : Group) : Packet := (levelOf s g.lid).pkt

/-- Change one split of a group. -/
def mapSplit (g : Group) (sp : Nat) (f : Split → Split) : Group := { g with splits := tabMap g.splits sp f }

/-- A completion the held splits wait for has happened. -/
def bump (s : State) : State := { s with changes := s.changes + 1 }
/-- A fresh number. -/
def fresh (s : State) : Nat × State := (s.nextId, { s with nextId := s.nextId + 1 })
/-- Take one free value: its number. -/
def takeFree (s : State) : Nat × State := (s.free, { s with free := s.free + 1 })

def whoOf (g : Group) : Who := { ctx := g.ctx, user := !g.sys, secure := g.secure, tlbs := coreTlbs g.core }
/-- The device writing or reading a group's frame. -/
def frameWho (g : Group) : Who := device g.ctx false g.secure

/-! ### CLK (R42, R271, R353) -/

/-- CLK `d` clk later: it does not wrap (R42). -/
def clkAdd (t d : Double) : Double := if t.toNat + d.toNat < 2 ^ 64 then t + d else BitVec.allOnes 64
def clkMax (a b : Double) : Double := if a.toNat < b.toNat then b else a

/-- The CLK that a bracketed split's next word may not miss: until then nothing contends with it (R353). -/
def bracketDue (g : Group) : Option Double :=
  match g.bracket with
  | some (sp, v) => if g.st == .running && (tabFind g.splits sp).any (fun t => t.st == .ready) then some v else none
  | none => none

/-- The earliest of these over the groups but one. -/
def clockCap (s : State) (but : Option Nat) : Double :=
  s.groups.foldl (fun m e => if some e.1 = but then m else match bracketDue e.2 with
    | some v => if v.toNat < m.toNat then v else m
    | none => m) (BitVec.allOnes 64)

/-- The brackets of some groups end: a word of theirs was not the next of the bracket, or something contends with it (R353). A split
held at a clk.rd is examined again. -/
def endBrackets (t : State) (f : Nat → Group → Bool) : State :=
  if t.groups.any (fun e => e.2.bracket.isSome && f e.1 e.2) then
    bump { t with groups := t.groups.map (fun e => if f e.1 e.2 then (e.1, { e.2 with bracket := none }) else e) }
  else t

/-- A group accesses a core's scratchpad: the brackets of that core's other groups end (R353). -/
def touchScratch (s : State) (gid core : Nat) : State := endBrackets s (fun k h => k != gid && h.core == core)

/-- The CLK at which a word of a group would issue now: one word a clk in each quarter (R271). -/
def issueClk (s : State) (g : Group) : Double := clkMax s.clk (tabGet 0 s.nextIssue (4 * g.core + g.quarter))

/-! ### Registers and predicates (R13–R16, R20) -/

/-- The value of a register field in a lane: 0–191 name v0–v191, 192 + k names sk, s63 reads as zero. -/
def regGet (g : Group) (f lane : Nat) : Word :=
  if f ≥ 192 then (if f = 255 then 0 else tabGet 0 g.s (f - 192)) else tabGet 0 g.v (32 * f + lane)

/-- Write a register field in a lane; a write to s63 is discarded. -/
def regSet (g : Group) (f lane : Nat) (x : Word) : Group :=
  if f ≥ 192 then (if f = 255 then g else { g with s := tabSet 0 g.s (f - 192) x })
  else { g with v := tabSet 0 g.v (32 * f + lane) x }

/-- A 64-bit pair in a lane (R16). -/
def pairGet (g : Group) (f lane : Nat) : Double := pairVal (regGet g f lane) (regGet g (f + 1) lane)

/-- Write a destination of the lanes `ls`: each lane of a vector register, the first listed lane's value to a scalar one (R14). -/
def lanesSet (g : Group) (f : Nat) (ls : List Nat) (val : Nat → Word) : Group :=
  if f ≥ 192 then (match ls with | [] => g | l :: _ => regSet g f l (val l))
  else ls.foldl (fun g l => regSet g f l (val l)) g

/-- The predicates of a lane mask: p47 is constant true, 63 means "always". -/
def predMask (g : Group) (i : Nat) : Mask := if i ≥ 47 then 0xFFFFFFFF else tabGet 0 g.p i
def predGet (g : Group) (i lane : Nat) : Bool := (predMask g i).getLsbD lane
/-- Write a predicate in the lanes of a mask; a write to p47 is discarded. -/
def predSet (g : Group) (i : Nat) (act val : Mask) : Group :=
  if i ≥ 47 then g else { g with p := tabSet 0 g.p i ((tabGet 0 g.p i &&& ~~~act) ||| (val &&& act)) }

/-- OR flags into FFLAGS of a lane (R35). -/
def ffOr (g : Group) (lane : Nat) (fl : FFlags) : Group := { g with ff := tabSet 0 g.ff lane (tabGet 0 g.ff lane ||| fl) }

/-! ### Special-register words (R30–R41) -/

def groupIdWord (g : Group) : Word := BitVec.ofNat 32 (g.slot * 65536 + g.quarter * 256 + g.index)
def coreLocWord (g : Group) : Word := BitVec.ofNat 32 (g.core / 48 * 65536 + g.core / 4 * 256 + g.core)
def roleWord (g : Group) : Word :=
  (if g.hintV then 0x10000#32 else 0) ||| (g.hint.setWidth 32 <<< 8) ||| g.role.setWidth 32
def modeWord (g : Group) : Word := (if g.secure then 2#32 else 0) ||| (if g.sys then 1#32 else 0)
def flagOf (g : Group) (i : Nat) : Flag := tabGet {} g.flags i
def flagPut (g : Group) (i : Nat) (f : Flag) : Group := { g with flags := tabSet {} g.flags i f }
def flagstWord (g : Group) : Word :=
  (List.range 12).foldl (fun w i =>
    let f := flagOf g i
    w ||| (if f.err then 1#32 <<< (16 + i) else 0) ||| (if f.cnt ≠ 0 then 1#32 <<< i else 0)) 0#32

/-- One more operation is pending on a flag (R21). -/
def flagInc (g : Group) (i : Nat) : Group := flagPut g i { flagOf g i with cnt := (flagOf g i).cnt + 1 }
/-- One operation pending on a flag has completed, with a cause or 0; the first recorded cause is kept (R21). -/
def flagDone (g : Group) (i : Nat) (c : BitVec 6) : Group :=
  let f := flagOf g i
  flagPut g i (if c = 0 ∨ f.err then { f with cnt := f.cnt - 1 } else { cnt := f.cnt - 1, err := true, cause := c })

/-! ### Handle names and slots (R25, R26, R187–R192) -/

def nameOf (g : Group) (i : Nat) : HName := tabGet {} g.names i
def namePut (g : Group) (i : Nat) (n : HName) : Group := { g with names := tabSet {} g.names i n }
/-- A name is an accumulator's: 32–63 (R25). -/
def isAccName (i : Nat) : Bool := decide (i ≥ 32)
def slotGen (s : State) (core : Nat) (acc : Bool) (k : Nat) : BitVec 16 :=
  if acc then tabGet 0 (coreOf s core).agen k else tabGet 0 (coreOf s core).ogen k

/-- Insert a slot number into a pool, lowest first. -/
def poolAdd (k : Nat) : List Nat → List Nat
  | [] => [k]
  | x :: r => if k < x then k :: x :: r else if k = x then x :: r else x :: poolAdd k r

/-- Release a slot to its unit's pool: its generation advances (R25, R192). -/
def releaseSlot (s : State) (core uid : Nat) (acc : Bool) (k : Nat) : State :=
  let s := mapCore s core (fun c =>
    if acc then { c with agen := tabSet 0 c.agen k (tabGet 0 c.agen k + 1) }
    else { c with ogen := tabSet 0 c.ogen k (tabGet 0 c.ogen k + 1) })
  mapUnit s uid (fun u => if acc then { u with apool := poolAdd k u.apool } else { u with opool := poolAdd k u.opool })

/-- Take a slot from the unit's pool (R188, R189). -/
def takeSlot (s : State) (core uid : Nat) (acc : Bool) : Option ((Nat × BitVec 16) × State) :=
  let u := unitOf s uid
  match if acc then u.apool else u.opool with
  | [] => none
  | k :: r => some ((k, slotGen s core acc k), mapUnit s uid (fun u => if acc then { u with apool := r } else { u with opool := r }))

def operandByte (s : State) (core slot off : Nat) : Byte := tabGet 0 (coreOf s core).odata (2048 * slot + off)
def scaleByte (s : State) (core slot off : Nat) : Byte := tabGet 0x7F (coreOf s core).oscale (128 * slot + off)
def accElem (s : State) (core slot i j : Nat) : Word := tabGet 0 (coreOf s core).adata (1024 * slot + 32 * i + j)
/-- Where the protected words of a slot's scale bytes lie in the operand store: behind the 256 slots (log entry 101). -/
def scaleAt (slot : Nat) : Nat := 0x80000 + 128 * slot
def operandPut (s : State) (core slot off : Nat) (bs : List Byte) : State :=
  clearPoison (mapCore s core (fun c => { c with odata := tabWrite 0 c.odata (2048 * slot + off) bs })) .operand core (2048 * slot + off)
    bs.length
def scalePut (s : State) (core slot off : Nat) (bs : List Byte) : State :=
  clearPoison (mapCore s core (fun c => { c with oscale := tabWrite 0x7F c.oscale (128 * slot + off) bs })) .operand core
    (scaleAt slot + off) bs.length
def accPut (s : State) (core slot off : Nat) (ws : List Word) : State :=
  clearPoison (mapCore s core (fun c => { c with adata := tabWrite 0 c.adata (1024 * slot + off) ws })) .acc core (4096 * slot + 4 * off)
    (4 * ws.length)
def operandBytes (s : State) (core slot : Nat) : List Byte := (List.range 2048).map (operandByte s core slot)
def scaleBytes (s : State) (core slot : Nat) : List Byte := (List.range 128).map (scaleByte s core slot)
def accWords (s : State) (core slot : Nat) : List Word :=
  (List.range 1024).map (fun i => tabGet 0 (coreOf s core).adata (1024 * slot + i))

/-- Fill a slot as talloc leaves it (R198). -/
def clearSlot (s : State) (core : Nat) (acc : Bool) (k : Nat) : State :=
  if acc then accPut s core k 0 (List.replicate 1024 0)
  else scalePut (operandPut s core k 0 (List.replicate 2048 0)) core k 0 (List.replicate 128 0x7F)

/-- The poison of a run of words of a store goes with a copy of them (R456). -/
def copyPoison (s : State) (st : Store) (owner src dst n : Nat) : State :=
  { s with poison := (s.poison.filter (fun p => p.store == st && p.owner == owner && decide (src ≤ 8 * p.word) &&
      decide (8 * p.word < src + n))).map (fun p => { p with word := p.word - src / 8 + dst / 8 }) ++ s.poison }

/-- Copy a slot's contents, scale field included (R189). -/
def copySlot (s : State) (core : Nat) (acc : Bool) (src dst : Nat) : State :=
  if acc then copyPoison (accPut s core dst 0 (accWords s core src)) .acc core (4096 * src) (4096 * dst) 4096
  else copyPoison (copyPoison (scalePut (operandPut s core dst 0 (operandBytes s core src)) core dst 0 (scaleBytes s core src))
    .operand core (2048 * src) (2048 * dst) 2048) .operand core (scaleAt src) (scaleAt dst) 128

/-! ### Committing and discarding a region (R38, R190, R191, R399) -/

/-- Add the staged counts to MXCOUNT, each field saturating at 255 (R38). -/
def addStaged (m : Word) (st : List Nat) : Word :=
  (List.range 4).foldl (fun w i =>
    w ||| (BitVec.ofNat 32 (min 255 ((bits m (8 * i) 8 : BitVec 8).toNat + st.getD i 0)) <<< (8 * i))) 0#32

/-- The name's provisional slot belongs to the region that a suspended sparse mma keeps: it is neither committed nor discarded in the
handler (R211). -/
def keptName (g : Group) (i : Nat) : Bool := match g.kept with | some k => k.2.1.contains i | none => false

/-- Commit one name: its old committed slot is released, the provisional one becomes committed. -/
def commitName (s : State) (gid i : Nat) : State :=
  match grp s gid with
  | none => s
  | some g =>
    if keptName g i then s else
    let n := nameOf g i
    match n.pslot with
    | none => setGrp s gid (namePut g i { n with isNew := false })
    | some p =>
      let s := setGrp s gid (namePut g i { n with cslot := some p, pslot := none, isNew := false })
      match n.cslot with
      | some c => releaseSlot s g.core g.uid (isAccName i) c.1
      | none => s

/-- Discard one name's provisional change (R191). -/
def discardName (s : State) (gid i : Nat) : State :=
  match grp s gid with
  | none => s
  | some g =>
    if keptName g i then s else
    let n := nameOf g i
    let s := setGrp s gid (namePut g i (if n.isNew then {} else { n with pslot := none }))
    match n.pslot with
    | some p => releaseSlot s g.core g.uid (isAccName i) p.1
    | none => s

def allNames : List Nat := List.range 64

/-- The names, the staged counts and the number of the open region after a commit. -/
def commitRegion (s : State) (gid : Nat) : State :=
  mapGrp (allNames.foldl (fun s i => commitName s gid i) s) gid
    (fun g =>
      let m := addStaged g.mxcount g.staged
      { g with mxcount := m, staged := [0, 0, 0, 0], epoch := g.epoch + 1, written := [], repairs := 0 })

/-- Discard the open region; SPSTEP stands while a suspended expansion is kept (R191). -/
def discardRegion (s : State) (gid : Nat) : State :=
  mapGrp (allNames.foldl (fun s i => discardName s gid i) s) gid
    (fun g => { g with staged := [0, 0, 0, 0], spstep := if g.kept.isSome then g.spstep else 0, cut := if g.kept.isSome then g.cut else 0 })

/-- The checkpoint of a group's present state, for a split (R399). -/
def ckptOf (g : Group) (sp : Nat) : Ckpt :=
  let t := (tabFind g.splits sp).getD {}
  { splits := g.splits, stack := g.stack, repc := t.pc, rclause := if t.left = 0 then t.pc else t.hdr, split := sp, live := g.live, spills := g.spills }

/-- Single-stepping at a commit point (R408). -/
def stepAt (g : Group) (repc : Double) : Group :=
  if g.sstep && !g.sys then
    if g.stepSkip = some repc then { g with stepSkip := none } else { g with stepDue := true, stepSkip := none }
  else g

/-- A commit point: the region commits and its checkpoint is `k` (R399). -/
def commitWith (s : State) (gid : Nat) (k : Ckpt) : State :=
  mapGrp (commitRegion s gid) gid (fun g => stepAt { g with ckpt := k } k.repc)

/-- A commit point of a split at its present PC. -/
def commitPoint (s : State) (gid sp : Nat) : State :=
  match grp s gid with
  | none => s
  | some g => commitWith s gid (ckptOf g sp)

/-! ### Happens-before (R310–R313) -/

def syncOf (s : State) (gid : Nat) : Sync := tabGet {} s.sync gid
/-- The greater count of each group. -/
def joinClock (a b : Tab Nat) : Tab Nat := b.foldl (fun m e => tabSet 0 m e.1 (max (tabGet 0 m e.1) e.2)) a
/-- What happens before a release that the group makes now: what it has acquired, and its own accesses so far. -/
def clockOf (s : State) (gid : Nat) : Tab Nat := tabSet 0 (syncOf s gid).known gid ((syncOf s gid).no + 1)
/-- The group issues a release: what it does from now on is not released by it. -/
def newRelease (s : State) (gid : Nat) : State :=
  { s with sync := tabPut s.sync gid { syncOf s gid with no := (syncOf s gid).no + 1 } }

/-- A clock joins what a pending release of the group releases, where the acquire is no later than the release; a later acquire leaves
the release what was acquired before it. -/
def learnOp (s : State) (gid oid : Nat) (k : Tab Nat) (e : Nat × Op) : Nat × Op :=
  if e.2.gid = gid ∧ e.2.rel ∧ ¬ e.2.done then
    (e.1, { e.2 with clock := if e.1 < oid then some (e.2.clock.getD (syncOf s gid).known) else e.2.clock.map (fun x => joinClock x k) })
  else e
/-- What happens before an edge's end at a group: what it does next comes after `k`. `oid` places the event among its operations. -/
def learn (s : State) (gid oid : Nat) (k : Tab Nat) : State :=
  if k.isEmpty then s
  else { s with ops := s.ops.map (learnOp s gid oid k),
                sync := tabPut s.sync gid { syncOf s gid with known := joinClock (syncOf s gid).known k } }
/-- The same for an event of a word that acts now. -/
def learnNow (s : State) (gid : Nat) (k : Tab Nat) : State := learn s gid s.nextId k

/-! ### Operations in flight -/

def opsOf (s : State) (gid : Nat) : List (Nat × Op) := s.ops.filter (fun e => e.2.gid == gid)
def mapOp (s : State) (oid : Nat) (f : Op → Op) : State := { s with ops := tabMap s.ops oid f }

/-- A copy leaves its batch (R181). -/
def batchDone (g : Group) (num : Word) (c : BitVec 6) : Group :=
  let upd (b : Batch) : Batch :=
    if c = 0 ∨ b.err then { b with pend := b.pend - 1 } else { b with pend := b.pend - 1, err := true, cause := c }
  if g.openBatch.num = num then { g with openBatch := upd g.openBatch } else { g with batches := tabMap g.batches num.toNat upd }

/-- Post an event record (R426). -/
def pushEvent (s : State) (e : EventRec) : State := { s with events := s.events ++ [e] }

/-! ### Machine checks (R458) -/

/-- A machine check: MCLOG and an event of type 3 with the context, core, slot and address where they apply (R426, R458); of the second
tier when a memory address lies there (R429). -/
def mcheck (s : State) (src : Nat) (pa ctx core slot : Nat) : State :=
  let far := src = 3 ∧ t2Base ≤ pa
  let s := if far then countUp s cT2err else s
  let src := if far then 4 else src
  pushEvent (hregSet s 0x60040 (BitVec.ofNat 64 (src * 2 ^ 56 + pa % 2 ^ 52)))
    { typ := 3, ctx := ctx, cause := 0x3E, core := core, slot := slot, addr := BitVec.ofNat 64 pa }
/-- A machine check that a group meets. -/
def mcheckG (s : State) (src pa : Nat) (g : Group) : State := mcheck s src pa g.ctx g.core g.slot
/-- A translation that a group needs has ended with a cause: a table entry that cannot be read is a machine check (R456, R458). -/
def walkCheck (s : State) (w : Who) (n : Need) (va : Double) (g : Group) (c : BitVec 6) : State :=
  if c = 0x3E then mcheckG s 3 (checkAddr s w n va) g else s

/-- A traversal writes its states whatever its flag records (R226, R230). -/
def writesAnyway : Instr → Bool
  | .travStart _ | .travResume _ => true
  | _ => false

/-- A register write of an operation lands: in its lane of a vector register, only the lowest active lane's in a scalar one (R14). -/
def wrLands (o : Op) (x : RegWr) : Bool := decide (x.f < 192) || lowBit o.act == some x.lane

/-- Write a completed operation's registers, release its flags and forget it (R21, R101, R155). An operation that records a cause
writes no register but a traversal's; that holds for a bgrad's D too (DESIGN CHOICE, log entry 92). -/
def finishOp (s : State) (oid : Nat) (write : Bool) : State :=
  match tabFind s.ops oid with
  | none => s
  | some o =>
    let done (g : Group) : Group :=
      let g := if write && (o.err == 0 || writesAnyway o.instr) then
          (o.wrs.filter (wrLands o)).foldl (fun g x => regSet g x.f x.lane x.v) g else g
      let g := match o.flag with
        | some f => flagDone g f o.err
        | none => if o.err = 0 ∨ o.flag2.isSome ∨ o.quiet then g
            else { g with late := tabPut g.late oid (o.err, o.act, g.sys && decide (g.trapEpoch ≤ o.epoch)) }
      let g := match o.flag2 with
        | some f => flagDone g f o.err
        | none => g
      match o.batch with
      | some b => batchDone g b o.err
      | none => g
    bump { mapGrp s o.gid done with ops := tabDel s.ops oid }

/-- An operation that continues past a trap: it reaches memory through an engine or a cache (R401). -/
def continues (o : Op) : Bool :=
  match o.instr with
  | .cpy _ | .mcastTeam _ | .mcastCluster _ | .rflush _ | .cachectlPf _ | .cachectlWb _ | .cachectlEvict _ | .cachectlCinv _ | .sort _ => true
  | _ => false

/-- An accepted recv that is abandoned takes no slot (R182, R183). -/
def dropWaiting (s : State) (lid oid : Nat) : State :=
  mapLevel s lid (fun v => { v with chans := v.chans.map (fun e =>
    (e.1, { e.2 with waiting := e.2.waiting.filter (fun k => k != oid) })) })

/-- An accepted recv whose split sleeps has taken no slot: a stop of its group abandons it, and the word is executed anew (R182, R352). -/
def waitsSlot (o : Op) : Bool := o.engine && o.instr matches .recv _

/-- What an operation holds at its engine of keys ends with it: its lease with its job (R393). -/
def dropKeys (s : State) (oid : Nat) : State :=
  match tabFind s.keys oid with
  | some k => { s with keys := tabDel s.keys oid, jobs := tabDel s.jobs k.job }
  | none => s

/-- The results so far of committed work that goes on without its group, a trav's, are written before the frame is (R401, R448). -/
def landWrs (s : State) (oid : Nat) (o : Op) : State :=
  mapOp (mapGrp s o.gid (fun g => (o.wrs.filter (wrLands o)).foldl (fun g x => regSet g x.f x.lane x.v) g)) oid (fun o => { o with wrs := [] })

/-- Settle one operation when its group stops (R401): committed work completes, open register-only work is abandoned. -/
def settleOp (s : State) (g : Group) (oid : Nat) (o : Op) : State :=
  if o.epoch < g.epoch ∧ ¬ waitsSlot o then (if o.engine then landWrs s oid o else if o.done then finishOp s oid true else s)
  else if continues o then s
  else finishOp (dropKeys (dropWaiting (mapOp s oid (fun o => { o with err := 0 })) o.lid oid) oid) oid false

def settle (s : State) (gid : Nat) : State :=
  match grp s gid with
  | none => s
  | some g => (opsOf s gid).foldl (fun s e => settleOp s g e.1 e.2) s

/-- A ray of the operation waits for a page: R230 swaps its group out meanwhile, and R448 says where its results go. -/
def waitsPage (s : State) (oid : Nat) : Bool := s.rays.any (fun r => r.2.op == some oid && r.2.page.isSome)

/-- Work that the group issued before its last commit is still in flight: a stop waits for it, a swap for all but a trav whose ray waits for a
page (R401, R448). -/
def committedBusy (s : State) (gid : Nat) (g : Group) (swap : Bool) : Bool :=
  s.ops.any (fun e => e.2.gid == gid && decide (e.2.epoch < g.epoch) && (!e.2.done || e.2.engine) && !waitsSlot e.2 &&
    !(swap && waitsPage s e.1))

/-! ### Virtual accesses of the device itself (frames, rings, descriptors) -/

/-- How an access of the device itself ends: with a value, or with a cause and the state after the machine check, if it was one. -/
abbrev Dev (α : Type) : Type := Except (BitVec 6 × State) α

/-- The device's access to a virtual address fails (R456, R458). -/
def devBad {α : Type} (s : State) (w : Who) (n : Need) (va : Double) (c : BitVec 6) : Dev α :=
  .error (c, if c = 0x3E then mcheck s 3 (checkAddr s w n va) w.ctx 0 0 else s)

/-- Write bytes at a virtual address; a run of at most 64 KiB meets at most two pages. -/
def vaWrite (s : State) (w : Who) (va : Double) (bs : List Byte) : Dev State :=
  let room := 65536 - va.toNat % 65536
  let put (s : State) (va : Double) (bs : List Byte) : Dev State :=
    if bs.isEmpty then .ok s else
    match translate s w .write va with
    | .ok pa _ => if portFails s pa then devBad s w .write va 0x3E#6 else .ok (memStore (walkFold s w va) pa bs)
    | .bad c => devBad s w .write va c
    | .absent => .error (0x10#6, s)
  match put s va (bs.take room) with
  | .ok s => put s (va + BitVec.ofNat 64 room) (bs.drop room)
  | .error c => .error c

/-- Read bytes at a virtual address. -/
def vaRead (s : State) (w : Who) (va : Double) (n : Nat) : Dev (List Byte × State) :=
  let room := 65536 - va.toNat % 65536
  let get (s : State) (va : Double) (n : Nat) : Dev (List Byte × State) :=
    if n = 0 then .ok ([], s) else
    match translate s w .read va with
    | .ok pa _ =>
      if isPoison s .mem 0 pa n then .error (0x3E#6, mcheck s 3 (poisonAddr s pa n) w.ctx 0 0) else .ok (memLoad (walkFold s w va) pa n)
    | .bad c => devBad s w .read va c
    | .absent => .error (0x10#6, s)
  match get s va (min n room) with
  | .error c => .error c
  | .ok a => match get a.2 (va + BitVec.ofNat 64 room) (n - room) with
    | .error c => .error c
    | .ok b => .ok (a.1 ++ b.1, b.2)

/-! ### The save frame (R406) -/

def w32 (x : Word) : List Byte := bytesOf 4 x
def w64 (x : Double) : List Byte := bytesOf 8 x

def causeWord (t : TrapInfo) (sys : Bool) : Word :=
  (t.info.setWidth 32 <<< 16) ||| (if t.faddr.isSome then 0x200#32 else 0) ||| (if sys then 0x100#32 else 0) |||
  (t.slot.setWidth 32 <<< 6) ||| t.cause.setWidth 32

def hstateCode : HState → Nat
  | .free => 0 | .bound => 1 | .parked => 2 | .evicted => 3 | .given => 4

def slotBytes : Option (Nat × BitVec 16) → List Byte
  | none => [0xFF, 0xFF, 0, 0]
  | some (k, g) => bytesOf 2 (BitVec.ofNat 16 k) ++ bytesOf 2 g

/-- The 16 bytes of a handle name. -/
def nameBytes (n : HName) : List Byte :=
  [BitVec.ofNat 8 (hstateCode n.st), bOf n.isNew] ++
  (match n.cslot with | none => [0, 0, 0, 0] | some c => slotBytes (some c)) ++ slotBytes n.pslot ++ List.replicate 6 0

def flagBytes (f : Flag) : List Byte :=
  [BitVec.ofNat 8 f.cnt ||| (if f.err then 0x40#8 else 0), f.cause.setWidth 8]

def batchBytes (b : Batch) : List Byte :=
  bytesOf 2 (BitVec.ofNat 16 b.pend) ++ [b.cause.setWidth 8 ||| (if b.err then 0x40#8 else 0), 0]

/-- Batch BSEQ − 15 + i. -/
def batchAt (g : Group) (i : Nat) : Batch := (tabFind g.batches (g.bseq - 15 + BitVec.ofNat 32 i).toNat).getD {}

def splitAt (g : Group) (i : Nat) : Split := (tabFind g.splits i).getD { fmt := 0, mask := 0 }
def liveIds (g : Group) : BitVec 4 := [0, 1, 2, 3].foldl (fun m i => if (tabFind g.splits i).isSome then setBit m i true else m) 0

/-- The frame up to the checkpoint block, 0x0700 bytes. -/
def frameHead (g : Group) (t : TrapInfo) : List Byte :=
  w32 (causeWord t g.sys) ++ w32 t.active ++ w32 t.flanes ++ w32 g.regentry ++ w64 t.pc ++ w64 g.ckpt.repc ++
  w64 (t.faddr.getD 0) ++ w64 t.other ++ w32 (groupIdWord g) ++ w32 g.unit ++ w32 (coreLocWord g) ++ w32 (roleWord g) ++
  ([0, 1, 2, 3].flatMap (fun i => w32 (splitAt g i).fmt)) ++ ([0, 1, 2, 3].flatMap (fun i => w32 (splitAt g i).mask)) ++
  ([0, 1, 2, 3].flatMap (fun i => w64 (splitAt g i).pc)) ++
  w32 ((liveIds g).setWidth 32) ++ w32 (g.fpen.setWidth 32) ++ w32 g.mxcount ++ w32 (g.spstep.setWidth 32) ++
  w32 (BitVec.ofNat 32 g.w) ++ w32 (flagstWord g) ++ w32 g.bseq ++ w32 (bOf g.sstep) ++
  ((List.range 12).flatMap (fun i => flagBytes (flagOf g i))) ++ ((List.range 16).flatMap (fun i => batchBytes (batchAt g i))) ++
  List.replicate 8 0 ++ (allNames.flatMap (fun i => nameBytes (nameOf g i))) ++
  ((List.range 64).flatMap (fun i => w32 (regGet g (192 + i) 0))) ++ ((List.range 48).flatMap (fun i => w32 (predMask g i))) ++
  (lanes.map (fun l => (tabGet 0 g.ff l).setWidth 8)) ++ w32 t.otherLid ++ w32 t.otherUnit ++ List.replicate 24 0

/-- The checkpoint block, 0x0900 bytes. -/
def ckptBytes (tok : Nat) : List Byte := (List.range 2304).map (Config.ckptByte tok)

/-- The vector registers, 0x6000 bytes: zero beyond the window. -/
def vectorBytes (g : Group) : List Byte :=
  (List.range 192).flatMap (fun i => lanes.flatMap (fun l => w32 (if i < 8 * g.w then regGet g i l else 0)))

/-- The spilled stack blocks of the checkpoint, in spill order, 0x4000 bytes. -/
def spillBytes (g : Group) : List Byte :=
  let bs := g.ckpt.spills.flatMap (fun e => (List.range 128).map (Config.spillByte e.2))
  (bs ++ List.replicate 16384 0).take 16384

/-- Write the part that trap frames and swap frames share, with the token of the checkpoint block. -/
def writeFrame (s : State) (g : Group) (t : TrapInfo) (va : Double) (tok : Nat) : Dev State :=
  vaWrite s (frameWho g) va (frameHead g t ++ ckptBytes tok ++ vectorBytes g ++ spillBytes g)

/-- Virtual address of the group's trap frame (R403). -/
def trapFrameAddr (s : State) (g : Group) : Double :=
  (ctxOf s g.ctx).tfbase + 0x10000#64 * BitVec.ofNat 64 (64 * g.core + g.slot)

/-- A halted group: the nested cause goes to the frame when it can be written, and to the host (R405). -/
def haltGroup (s : State) (gid : Nat) (c : BitVec 6) : State :=
  match grp s gid with
  | none => s
  | some g =>
    let s := setGrp s gid { g with st := .halted }
    let fa := if g.sys then g.tframe else trapFrameAddr s g
    let s := match vaWrite s (frameWho g) (fa + 0xF8#64) (w32 (c.setWidth 32)) with
      | .ok s => s
      | .error (_, s) => s
    pushEvent s { typ := 2, ctx := g.ctx, cause := c, core := g.core, slot := g.slot }

/-- The split at which a handler starts, and its checkpoint: a swap or a repair in the handler before its first commit point resumes
there (R399, R403; log entry 83). -/
def handlerSplit (g : Group) (tvec : Double) : Split := { pc := tvec, mask := g.live }
def handlerCkpt (g : Group) (tvec : Double) : Ckpt :=
  { splits := [(0, handlerSplit g tvec)], repc := tvec, rclause := tvec, live := g.live }

/-- The group in its trap handler (R403). -/
def enterHandler (g : Group) (t : TrapInfo) (fa tvec : Double) (tok : Nat) : Group :=
  { g with
      st := .running, frameCkpt := some (tok, g.ckpt), ckpt := handlerCkpt g tvec, trap := some t, tframe := fa,
      tcause := causeWord t false, sys := true, splits := [(0, handlerSplit g tvec)], stack := [], spills := [], fpen := 0,
      pathDue := [], written := [], repairs := 0, lastSplit := 3, stepDue := false, epoch := g.epoch + 1, trapEpoch := g.epoch + 1,
      s := tabSet 0 (tabSet 0 (tabSet 0 g.s 0 (bits fa 0 32)) 1 (bits fa 32 32)) 2 (causeWord t false) }

/-- The trap of a stopped group: settle, discard, write the frame, enter the handler (R403). -/
def trapNow (s : State) (gid : Nat) (t : TrapInfo) : State :=
  let s := discardRegion (settle s gid) gid
  let tok := s.free
  let s := { s with free := s.free + 1 }
  match grp s gid with
  | none => s
  | some g =>
    let fa := trapFrameAddr s g
    match writeFrame s g t fa tok with
    | .error (c, s) => haltGroup s gid c
    | .ok s => bump (setGrp s gid (enterHandler g t fa (ctxOf s g.ctx).tvec tok))

/-- A trap stops a group: it is taken once the work issued before the last commit has completed; in system mode the group halts
(R401, R403, R405). -/
def takeTrap (s : State) (gid : Nat) (t : TrapInfo) : State :=
  let s := { s with cur := none }
  match grp s gid with
  | none => s
  | some g =>
    if g.sys then haltGroup s gid t.cause
    else if committedBusy s gid g false then bump (setGrp s gid { g with st := .stopping (.trap t) })
    else trapNow s gid t

/-- The split is HELD: the word is examined again after a completion (R269). -/
def holdSplit (s : State) (gid sp : Nat) : State :=
  { mapGrp s gid (fun g => mapSplit g sp (fun t => { t with st := .held, heldAt := s.changes })) with cur := none }

/-- A region-closing instruction of the group has issued and its checks are not complete (R156). -/
def closing (s : State) (gid : Nat) : Bool := s.ops.any (fun e => e.2.gid == gid && e.2.closer.isSome && !e.2.done)

/-- A word of a split traps, in the state `s'`: held while an earlier closing instruction is unchecked, so that a precise trap finds every earlier
store performed or trapped itself (R155, R156; DEDUCED). -/
def trapWait (s s' : State) (gid sp : Nat) (t : TrapInfo) : State :=
  if closing s gid then holdSplit s gid sp else takeTrap s' gid t

/-! ### Return and restore (R407) -/

def nat32 (bs : List Byte) (off : Nat) : Word := ofBytes 32 ((bs.drop off).take 4)

/-- The registers a frame restores. -/
def frameRegs (g : Group) (bs : List Byte) : Group :=
  let g := { g with s := [], v := [], p := [], ff := [] }
  let g := (List.range 63).foldl (fun g i => regSet g (192 + i) 0 (nat32 bs (0x500 + 4 * i))) g
  let g := (List.range (8 * g.w)).foldl (fun g i =>
    lanes.foldl (fun g l => regSet g i l (nat32 bs (0x1000 + 128 * i + 4 * l))) g) g
  let g := (List.range 47).foldl (fun g i => predSet g i 0xFFFFFFFF (nat32 bs (0x600 + 4 * i))) g
  let g := lanes.foldl (fun g l => ffOr g l ((bs.getD (0x6C0 + l) 0).setWidth 7)) g
  { g with fpen := (nat32 bs 0x84).setWidth 5, mxcount := nat32 bs 0x88, staged := [0, 0, 0, 0],
           spstep := (nat32 bs 0x8C).setWidth 16, sstep := bit (nat32 bs 0x9C) 0 }

/-- A split as a resumption starts it: ready, unless it waits at a join; an accepted recv has been abandoned, and takes its header flag when
it is executed again. -/
def resumeSplit (t : Split) : Split :=
  match t.st with
  | .asleep (.join e) => { t with st := .asleep (.join e) }
  | .asleep (.recv _ _) => { t with st := .ready, sleeps := none, role := none, taken := t.taken - 1 }
  | _ => { t with st := .ready, sleeps := none, role := none }

/-- The identifiers of a checkpoint that are free while a PATH entry waits on chip (R264). -/
def freeForPath (k : Ckpt) : List Nat :=
  if k.stack.any (fun e => !e.2.join && e.2.spilled.isNone) then [0, 1, 2, 3].filter (fun i => (tabFind k.splits i).isNone) else []

/-- Resume a group at a checkpoint (R399). -/
def resumeAt (g : Group) (k : Ckpt) : Group :=
  { g with splits := k.splits.map (fun e => (e.1, resumeSplit e.2)), stack := k.stack, live := k.live, spills := k.spills, ckpt := k,
           pathDue := freeForPath k, lastSplit := 3, stepDue := false, stepSkip := if g.sstep then some k.repc else none }

/-- The region that a sparse mma's suspension kept is open again (R211). -/
def reopen (g : Group) : Group :=
  match g.kept with
  | none => g
  | some (k, _, st) => { g with ckpt := k, staged := st, kept := none }

/-- The checkpoint block a frame must hold. -/
def ckptOk (bs : List Byte) (tok : Nat) : Bool := decide ((bs.drop 0x700).take 2304 = ckptBytes tok)

/-- Return from the handler: registers and checkpoint from the trap frame, user mode (R407); a failure halts the group (R405). -/
def returnFromTrap (s : State) (gid : Nat) (pass : Bool) : State :=
  let s := { s with cur := none }
  match grp s gid with
  | none => s
  | some g =>
    match vaRead s (frameWho g) g.tframe 0xB000 with
    | .error (c, s) => haltGroup s gid c
    | .ok (bs, s) =>
      match g.frameCkpt with
      | none => haltGroup s gid 0x3F#6
      | some (tok, k) =>
        if ckptOk bs tok then
          let g := reopen (resumeAt (frameRegs { g with sys := false } bs) k)
          bump (setGrp s gid { g with suppress := if pass then g.trap.map (fun t => (t.pc, t.slot, t.split)) else none })
        else haltGroup s gid 0x3F#6

end Sys2Proof.Machine
end

