-- ==== Sys2Proof/Machine/Mesh.lean ====
section
/-! DEFINITION. Sys2Proof/Machine/Mesh.lean: the physical positions of the logical cores, and the flits of the vault mesh (R287, R288). -/

namespace Sys2Proof.Machine

open Sys2Proof

/-! ### Positions (R287, R452) -/

/-- Draw `n` members from a list, each by its place among those left. -/
def drawFrom (pick : Nat → Nat) : Nat → List Nat → List Nat
  | 0, _ => []
  | n + 1, l => l.getD (pick n % l.length) 0 :: drawFrom pick n (l.eraseIdx (pick n % l.length))

/-- The positions of a cluster as they are fused: those of its 48 logical cores, then the two spares (log entry 11). -/
def fuseOrder (cluster : Nat) : List Nat := drawFrom (fun n => Config.fusePick (50 * cluster + n)) 50 (List.range 50)
/-- The j-th spare position of a cluster. -/
def sparePos (cluster j : Nat) : Nat := (fuseOrder cluster).getD (48 + j) 0

/-- The physical position of a logical core in its cluster. -/
def posOf (s : State) (core : Nat) : Nat := (coreOf s core).phys.getD ((fuseOrder (core / 48)).getD (core % 48) 0)

/-- Global mesh coordinates of a logical core. -/
def meshXY (s : State) (core : Nat) : Nat × Nat :=
  let k := core / 48
  (posOf s core % 10 + 10 * (k / 2), 5 * (k % 2) + posOf s core / 10)

/-! ### Flits (R288) -/

/-- Put flits on the mesh. -/
def addFlit (s : State) (f : Flit) : State := { s with flits := tabPut s.flits s.nextId f, nextId := s.nextId + 1 }

/-- The request flits of an access to the vaults of other cores: to each, one for every 64 bytes that it exchanges (log entry 70). -/
def sendFlits (s : State) (src : Nat) (dst : List (Nat × Nat)) : State :=
  dst.foldl (fun s d =>
    let a := meshXY s src
    let b := meshXY s d.1
    (List.range ((d.2 + 63) / 64)).foldl (fun s _ =>
      addFlit s { xs := a.1, ys := a.2, x := a.1, y := a.2, xd := b.1, yd := b.2 }) s) s

/-- The bytes that each core exchanges, of pieces with their cores. -/
def bytesByCore (xs : List (Nat × Nat)) : List (Nat × Nat) :=
  (xs.map (·.1)).eraseDups.map (fun k => (k, ((xs.filter (fun x => x.1 == k)).map (·.2)).sum))

inductive Dir where
  | north | south | east | west
deriving DecidableEq, Repr

/-- The output ports a flit may take; none at its destination. -/
def allowedDirs (f : Flit) : List Dir :=
  let e : Int := f.xd - f.x
  let n : Int := f.yd - f.y
  let ns : Dir := if n > 0 then .north else .south
  if e = 0 ∧ n = 0 then []
  else if e = 0 then [ns]
  else if e > 0 then
    (if n = 0 then [.east]
     else (if f.x % 2 = 1 ∨ f.x = f.xs then [ns] else []) ++ (if f.xd % 2 = 1 ∨ e ≠ 1 then [.east] else []))
  else [.west] ++ (if f.x % 2 = 0 ∧ n ≠ 0 then [ns] else [])

/-- The flit one hop on, behind the input port that faces where it came from: 1 south, 2 north, 3 west, 4 east. -/
def moveFlit (f : Flit) : Dir → Flit
  | .north => { f with y := f.y + 1, port := 1 }
  | .south => { f with y := f.y - 1, port := 2 }
  | .east => { f with x := f.x + 1, port := 3 }
  | .west => { f with x := f.x - 1, port := 4 }

/-- Free slots of the buffer that a flit would enter, its class's own at that input port. -/
def roomAhead (s : State) (f : Flit) (d : Dir) : Nat :=
  let t := moveFlit f d
  Config.flitSlots + 1 - s.flits.countP (fun e => e.2.resp == t.resp && e.2.x == t.x && e.2.y == t.y && e.2.port == t.port)

/-- The port of those allowed with the most free slots downstream; on a tie, east or west over north or south. -/
def bestDir (s : State) (f : Flit) : List Dir → Option Dir
  | [] => none
  | d :: r => match bestDir s f r with
    | none => some d
    | some e =>
      if roomAhead s f e < roomAhead s f d ∨ (roomAhead s f e = roomAhead s f d ∧ (d = .east ∨ d = .west)) then some d else some e

/-- MESH_FLIT_HOP: a flit takes its port once the buffer behind it has a free slot; at its destination it takes the local port, and a
request is answered by a response to its source. -/
def execMeshFlitHop (key : Nat) (s : State) : Out :=
  match tabFind s.flits key with
  | none => .next s
  | some f => match bestDir s f (allowedDirs f) with
    | none =>
      let s := { s with flits := tabDel s.flits key }
      .next (if f.resp then s else addFlit s { resp := true, xs := f.x, ys := f.y, x := f.x, y := f.y, xd := f.xs, yd := f.ys })
    | some d => .next (if roomAhead s f d = 0 then s else { s with flits := tabPut s.flits key (moveFlit f d) })

end Sys2Proof.Machine
end

