-- ==== Sys2Proof/Machine/Issue.lean ====
section
/-! DEFINITION. Sys2Proof/Machine/Issue.lean: what every instruction word does before its own effect: the decode checks in the order
of R76, the window check of R17, the interlocks of R101 and R113, the lanes it acts in; and what every word does after it:
the PC, the clause's count, the issue of a long-latency operation. -/

namespace Sys2Proof.Machine

open Sys2Proof

/-- A word about to act: its group and split, and the lanes in which its guard is true (R10). -/
structure Go where
  gid : Nat
  sp : Nat
  g : Group
  t : Split
  act : Mask
  /-- the registers and predicates the word writes (R457) -/
  wrs : List Nat := []
  /-- the word makes a global access in the sense of R317 -/
  global : Bool := false
deriving DecidableEq, Repr

/-- How the checks before an instruction's own effect end. -/
inductive Pre where
  | go (c : Go)
  | out (o : Out)

/-- The lanes of the split in which the guard is true (R10, R75). -/
def guardMask (i : Instr) (g : Group) (t : Split) : Mask :=
  match guardOf i with
  | none => t.mask
  | some q => t.mask &&& (if q.neg then ~~~ predMask g q.idx.toNat else predMask g q.idx.toNat)

def isLong (i : Instr) : Bool := match form i with | some f => f.ll | none => false
/-- The word takes a header flag: a long-latency word that names no flag of its own (R100). -/
def takesHeaderFlag (i : Instr) : Bool :=
  isLong i &&
  match i with
  | .tload w | .tloadT w | .tloadSc w | .tstore w | .tstoreT w | .tstoreQ w | .mma w | .mmaSa w | .mmaSb w | .mmaSab w
  | .mmaTeam w | .mmbDa w | .mmbDb w | .svr w => w.flag == 15
  | _ => true

/-- A word that must be the last of its clause (R86, R250). -/
def isCtl (i : Instr) : Bool := match form i with | some f => f.ctl | none => false
def isHeader : Instr → Bool
  | .clauseHeader _ => true
  | _ => false
def isJoin : Instr → Bool
  | .join _ => true
  | _ => false
/-- A store-direction copy takes both header flags and must come first (R179). -/
def isStoreCopy : Instr → Bool
  | .cpy w => w.dir
  | _ => false

/-- The word stands where the clause rules forbid it (R86, R98, R100, R179). -/
def clauseBad (i : Instr) (t : Split) : Bool :=
  if t.left = 0 then !isHeader i
  else isHeader i || (isCtl i && decide (t.left ≠ 1)) || (isJoin i && !t.first) ||
    (takesHeaderFlag i && decide (t.taken ≥ 2)) || (isStoreCopy i && t.long)

/-- The pairing rules (R94). -/
def pairRuleBad : Instr → Bool
  | .pairedWord a b _ => pairBad a b
  | _ => false

/-- A vector register outside the window (R17). -/
def windowBad (i : Instr) (g : Group) : Bool :=
  (opndsOf i).any (fun o => match o with
    | .reg f n _ => decide (f < 192) && decide (f + n > 8 * g.w)
    | .pred _ _ => false)

/-- The cause of steps 1 to 5 of R76, if any. -/
def decodeCause (i : Instr) (g : Group) (t : Split) : Option (BitVec 6) :=
  match formFault i with
  | some c => some c
  | none =>
    if clauseBad i t then some 0x04#6
    else if pairRuleBad i then some 0x03#6
    else if windowBad i g then some 0x06#6
    else none

/-- The half of a paired word that a decode fault reports, 1 or 2; 0 for another word (R95, R404). Slot A is reported where both
halves hold the fault, and for a fault of the pair or of its bit 0 (DESIGN CHOICE, log entry 82). -/
def faultSlot (i : Instr) (g : Group) (c : BitVec 6) : BitVec 2 :=
  match i with
  | .pairedWord a _ low =>
    let outA := (halfOps a).any (fun o => match o with
      | .reg f n _ => decide (f < 192) && decide (f + n > 8 * g.w)
      | .pred _ _ => false)
    if c = 0x01 then (if halfIll a then 1 else 2)
    else if c = 0x02 then (if halfRes a || low ≠ 0 then 1 else 2)
    else if c = 0x06 then (if outA then 1 else 2)
    else 1
  | _ => 0

/-- The register fields a word reads or writes. -/
def regFields (i : Instr) : List Nat :=
  (opndsOf i).flatMap (fun o => match o with
    | .reg f n _ => (List.range n).map (fun k => f + k)
    | .pred _ _ => [])

/-- A register the word names awaits an operation's result (R101). -/
def interlocked (s : State) (i : Instr) (gid : Nat) : Bool :=
  let fs := regFields i
  s.ops.any (fun e => e.2.gid == gid && e.2.dst.any (fun f => fs.contains f))

/-- The registers a word writes, and predicate i as 256 + i: their written bits (R457). -/
def writtenBy (i : Instr) : List Nat :=
  (opndsOf i).flatMap (fun o => match o with
    | .reg f n true => (List.range n).map (fun k => f + k)
    | .pred p true => [256 + p]
    | _ => [])

/-- The words that make a global access of the group, whatever their guard and active mask (R317). -/
def globalWord : Instr → Bool
  | .ld _ | .st _ | .gather _ | .gatherBnd _ | .ldc _ | .atom _ | .red _ | .svr _ | .skey _ | .skeyAt _ | .blend _ | .bgrad _
  | .vbufZ _ | .vbufId _ | .vbufAll _ | .vbufZmax _ => true
  | .tload w | .tloadT w | .tloadSc w | .tstore w | .tstoreT w | .tstoreQ w => w.space == 0
  | _ => false

/-- The trap report of a cause at a split's word, with its active lanes. -/
def infoAt (c : BitVec 6) (t : Split) (act : Mask) : TrapInfo :=
  { cause := c, pc := t.pc, active := act, flanes := act, split := t.mask }

/-- A trap at the issuing word (R403, R404). -/
def trapAt (s : State) (c : Go) (cause : BitVec 6) : Out := .next (trapWait s s c.gid c.sp (infoAt cause c.t c.act))
def trapInfoAt (s : State) (c : Go) (cause : BitVec 6) (info : BitVec 16) : Out :=
  .next (trapWait s s c.gid c.sp { infoAt cause c.t c.act with info := info })

/-- The word is held (R269). -/
def hold (s : State) (c : Go) : Out := .next (holdSplit s c.gid c.sp)

/-- The split sleeps at its word, which has issued, until the condition holds (R269, R276). -/
def sleepSplit (s : State) (i : Instr) (c : Go) (w : Sleep) : State :=
  { mapGrp s c.gid (fun g => mapSplit g c.sp (fun t => { t with st := .asleep w, sleeps := some (i, c.act) })) with cur := none }
def sleepOn (s : State) (i : Instr) (c : Go) (w : Sleep) : Out := .next (sleepSplit s i c w)

/-- The word that a split sleeps in, as it goes on when the split wakes. -/
def sleepingWord (s : State) (gid sp : Nat) : Option (Instr × Go) :=
  (grp s gid).bind (fun g => (tabFind g.splits sp).bind (fun t => t.sleeps.map (fun x =>
    (x.1, { gid := gid, sp := sp, g := g, t := t, act := x.2, wrs := writtenBy x.1, global := globalWord x.1 }))))

/-- Everything before an instruction's own effect. -/
def pre (i : Instr) (s : State) : Pre :=
  match s.cur with
  | none => .out (.fault .noIssuingSplit)
  | some (gid, sp) =>
    match grp s gid with
    | none => .out (.fault .noIssuingSplit)
    | some g =>
      match tabFind g.splits sp with
      | none => .out (.fault .noIssuingSplit)
      | some t =>
        let act := guardMask i g t
        match decodeCause i g t with
        | some c => .out (.next (trapWait s s gid sp { infoAt c t act with slot := faultSlot i g c }))
        | none => if interlocked s i gid then .out (.next (holdSplit s gid sp)) else .go ⟨gid, sp, g, t, act, writtenBy i, globalWord i⟩

/-! ### After the effect -/

/-- The split moves to the next word of its clause. -/
def stepSplit (t : Split) : Split :=
  { t with pc := t.pc + 8, left := t.left - 1, first := false, waitHalf := false, sleeps := none, role := none, st := .ready }

/-- A match at a PC is suppressed for a split of these lanes (R253, R410). -/
def suppressed (g : Group) (pc : Double) (m : Mask) : Bool :=
  match g.suppress with
  | some (p, _, l) => p == pc && (l &&& m) != 0
  | none => false

/-- The word at a PC has acted for a split: a match suppressed there for the split is used up (R253). -/
def passed (g : Group) (pc : Double) (m : Mask) : Group := if suppressed g pc m then { g with suppress := none } else g

/-- The written bits of some registers are set (R457). -/
def markWritten (g : Group) (rs : List Nat) : Group :=
  { g with written := rs.foldl (fun l r => if l.contains r then l else r :: l) g.written }

/-- Retire a word: its split moves on, the group has issued (R271, R272). -/
def retireGrp (g : Group) (c : Go) : Group :=
  markWritten (passed (mapSplit g c.sp (fun t => if c.global then { stepSplit t with relScope := 0 } else stepSplit t))
    (splitAt g c.sp).pc c.t.mask) c.wrs
def retire (s : State) (c : Go) (g : Group) : State := { setGrp s c.gid (retireGrp g c) with cur := none }
/-- Retire with no other change. -/
def retireSame (s : State) (c : Go) : State := { mapGrp s c.gid (fun g => retireGrp g c) with cur := none }
/-- Retire a word that closes the region (R118, R154, R222, R399). -/
def retireClose (s : State) (c : Go) : State := commitPoint (retireSame s c) c.gid c.sp

/-- Some check of an earlier memory instruction of the group is outstanding (R156). -/
def unchecked (s : State) (gid : Nat) : Bool :=
  s.ops.any (fun e => e.2.gid == gid && !e.2.done && !e.2.engine)

/-- A splat's key word: its engine writes the group's own plain accesses (R234, R305). -/
def isSkey : Instr → Bool
  | .skey _ | .skeyAt _ => true
  | _ => false

/-- An access that the group has issued is not performed: a release, a launch or the end of a section waits for it (R248, R254, R311). -/
def accessPending (s : State) (gid : Nat) : Bool :=
  s.ops.any (fun e => e.2.gid == gid && !e.2.done && (!e.2.engine || isSkey e.2.instr))

/-! ### Long-latency issue (R21, R100) -/

/-- The k-th header flag of the clause, `none` for 15 (R100). -/
def headerFlag (t : Split) (k : Nat) : Option Nat :=
  let f := if k = 0 then t.set1 else if k = 1 then t.set2 else 15
  if f = 15 then none else some f.toNat

/-- The FLAG field of an FT word (R83). -/
def ftFlag : Instr → Option Nat
  | .tload w | .tloadT w | .tloadSc w | .tstore w | .tstoreT w | .tstoreQ w | .mma w | .mmaSa w | .mmaSb w | .mmaSab w
  | .mmaTeam w | .mmbDa w | .mmbDb w | .svr w => if w.flag = 15 then none else some w.flag.toNat
  | _ => none

/-- The flag a long-latency word is assigned. -/
def flagFor (i : Instr) (t : Split) : Option Nat :=
  match ftFlag i with
  | some f => some f
  | none => headerFlag t t.taken

/-- The second flag, of a store-direction copy (R179). -/
def flag2For (i : Instr) (t : Split) : Option Nat := if isStoreCopy i then headerFlag t 1 else none

/-- The count of a flag the word is assigned would pass 63 (R21). -/
def flagFull (i : Instr) (c : Go) : Bool :=
  (match flagFor i c.t with | some f => decide ((flagOf c.g f).cnt ≥ 63) | none => false) ||
  (match flag2For i c.t with | some f => decide ((flagOf c.g f).cnt ≥ 63) | none => false)

/-- The flags taken by a long-latency word of a split. -/
def takeFlags (i : Instr) (g : Group) (sp : Nat) (t : Split) : Group :=
  let g := match flagFor i t with | some f => flagInc g f | none => g
  let g := match flag2For i t with | some f => flagInc g f | none => g
  mapSplit g sp (fun t =>
    { t with taken := t.taken + (if isStoreCopy i then 2 else if takesHeaderFlag i then 1 else 0), long := t.long || isLong i })

/-- The registers a word's form says it writes. -/
def dstFields (i : Instr) : List Nat :=
  (opndsOf i).flatMap (fun o => match o with
    | .reg f n true => ((List.range n).map (fun k => f + k)).filter (fun f => f ≠ 255)
    | _ => [])

/-- The operation a long-latency word starts, before its accesses are filled in. -/
def newOp (i : Instr) (c : Go) : Op :=
  { gid := c.gid, uid := c.g.uid, lid := c.g.lid, ctx := c.g.ctx, split := c.sp, instr := i, pc := c.t.pc, hdr := c.t.hdr,
    act := c.act, flag := flagFor i c.t, flag2 := flag2For i c.t, epoch := c.g.epoch, dst := dstFields i }

/-- The region that a word issued now belongs to: past every closing instruction that has issued and is not yet checked (R156, R401). -/
def issueEpoch (s : State) (g : Group) (gid : Nat) : Nat := g.epoch + (if closing s gid then 1 else 0)

/-- A long-latency word's flags count it and its operation is in flight (R21, R100); one that releases is a release of its group from its
issue on (R311). -/
def startOp (s : State) (i : Instr) (c : Go) (o : Op) : State :=
  let o := { o with epoch := issueEpoch s c.g c.gid, no := (syncOf s c.gid).no }
  let s := mapGrp s c.gid (fun g => takeFlags i g c.sp c.t)
  let s := if o.rel then newRelease s c.gid else s
  { s with ops := tabPut s.ops s.nextId o, nextId := s.nextId + 1 }

/-- Issue a long-latency word. -/
def issueOp (s : State) (i : Instr) (c : Go) (o : Op) : State := retireSame (startOp s i c o) c

/-- With no active lane a long-latency word does nothing and completes (R100, R223). -/
def issueNone (s : State) (i : Instr) (c : Go) : Out :=
  .next (issueOp s i c { newOp i c with done := true, dst := [] })

end Sys2Proof.Machine
end

