-- ==== Sys2Proof/Machine/Operands.lean ====
section
/-! DEFINITION. Sys2Proof/Machine/Operands.lean: the operand forms of the vector and scalar words: sources of one register or a
pair, predicate sources, register, pair and predicate destinations, and the rounding mode of a word (R13, R16, R78, R114). -/

namespace Sys2Proof.Machine

open Sys2Proof

/-- One source register of a lane, zero-extended. -/
def src (g : Group) (f : BitVec 8) (l : Nat) : Double := (regGet g f.toNat l).setWidth 64
/-- The 32-bit value of a source register. -/
def srcW (g : Group) (f : BitVec 8) (l : Nat) : Word := regGet g f.toNat l
/-- A pair source of a lane (R16). -/
def src2 (g : Group) (f : BitVec 8) (l : Nat) : Double := pairGet g f.toNat l
/-- A source after the floating-point sign modifiers (R77). -/
def srcF (g : Group) (f : BitVec 8) (l : Nat) (neg abs : Bool) : Nat := fMod .fp32 neg abs (srcW g f l).toNat
/-- A PS field's predicate in the lanes, after its negate bit (R114). -/
def psMask (g : Group) (f : BitVec 8) : Mask := if bit f 6 then ~~~ predMask g (f.toNat % 64) else predMask g (f.toNat % 64)
def psGet (g : Group) (f : BitVec 8) (l : Nat) : Bool := (psMask g f).getLsbD l

/-- The mode of a rounding modifier: 0 RNE, 1 RZ, 2 RU, 3 RD, 4 FMT.RND (R32, R78). -/
def rndOf (sel : BitVec 3) (fmt : Word) : Rnd :=
  if sel = 4 then Rnd.ofBits (bits fmt 12 2) else Rnd.ofBits (bits sel 0 2)

/-- A destination. -/
inductive Dst where
  | reg (f : BitVec 8)
  | pair (f : BitVec 8)
  | pred (f : BitVec 8)
deriving DecidableEq, Repr

/-- Write a destination in the lanes of `act` (R13, R14, R20). -/
def dstSet (g : Group) (d : Dst) (act : Mask) (val : Nat → Double) : Group :=
  match d with
  | .reg f => lanesSet g f.toNat (lanesOf act) (fun l => bits (val l) 0 32)
  | .pair f =>
    lanesSet (lanesSet g f.toNat (lanesOf act) (fun l => bits (val l) 0 32)) (f.toNat + 1) (lanesOf act)
      (fun l => bits (val l) 32 32)
  | .pred f => predSet g (f.toNat % 64) act (maskOf (fun l => bit (val l) 0))

/-- The value of the lowest active lane, 0 with none. -/
def firstLane (act : Mask) (val : Nat → Double) : Double := match lowBit act with | some l => val l | none => 0

end Sys2Proof.Machine
end

