-- ==== Sys2Proof/Machine/Flags.lean ====
section
/-! DEFINITION. Sys2Proof/Machine/Flags.lean: FFLAGS and FPEN: what a word that computes in lanes does with the flags it raises
(R35, R36), and the counters of the matrix words (R38, R197). -/

namespace Sys2Proof.Machine

open Sys2Proof

/-- OR each lane's flags into its own FFLAGS (R35). -/
def flagLanes (g : Group) (ls : List Nat) (fl : Nat → FFlags) : Group := ls.foldl (fun g l => ffOr g l (fl l)) g

/-- Some active lane raised a flag that FPEN enables (R36). -/
def fpTraps (g : Group) (ls : List Nat) (fl : Nat → FFlags) : Bool :=
  ls.any (fun l => ((fl l).setWidth 5 &&& g.fpen) != 0)

/-- A word that computes in lanes: its flags, then the trap of R36 or the destination (R35, R36). -/
def finishLanes (s : State) (c : Go) (d : Dst) (r : Nat → LaneRes) : Out :=
  let ls := lanesOf c.act
  let g := flagLanes c.g ls (fun l => (r l).fl)
  if fpTraps c.g ls (fun l => (r l).fl) then
    .next (trapWait s (setGrp s c.gid g) c.gid c.sp (infoAt 0x34#6 c.t c.act))
  else .next (retire s c (dstSet g d c.act (fun l => (r l).v)))

/-- A word of the vector and scalar pipes: the checks, then its lanes. -/
def runLanes (i : Instr) (s : State) (d : Dst) (f : Go → Nat → LaneRes) : Out :=
  match pre i s with
  | .out o => o
  | .go c => finishLanes s c d (f c)

/-- A word whose own effect is a change of its group only. -/
def runGroup (i : Instr) (s : State) (f : Go → Group) : Out :=
  match pre i s with
  | .out o => o
  | .go c => .next (retire s c (f c))

/-- Advance staged MXCOUNT counters, in the order IV, OF, UF, IRC (R38). -/
def stageCounts (g : Group) (iv of uf irc : Bool) : Group :=
  let add (i : Nat) (b : Bool) : Nat := g.staged.getD i 0 + b.toNat
  { g with staged := [add 0 iv, add 1 of, add 2 uf, add 3 irc] }

end Sys2Proof.Machine
end

