-- ==== Sys2Proof/Machine/Slice.lean ====
section
/-! DEFINITION. Sys2Proof/Machine/Slice.lean: the home slices: race records and scope records, the bookkeeping of
synchronisation regions and of releases narrower than device scope (R310, R315, R318–R325, R458). -/

namespace Sys2Proof.Machine

open Sys2Proof

/-! ### Parties and regions (R319, R321) -/

def regionOf (s : State) (uid : Nat) : Nat := tabGet 1 s.regnum uid

/-- A device-scope synchronisation operation of a unit closes its region (R319). -/
def advanceRegion (s : State) (uid : Nat) : State := { s with regnum := tabSet 1 s.regnum uid (regionOf s uid + 1) }

/-- A unit leaves its core: its region closes, its tag is free (R319, R321). -/
def dropTag (s : State) (uid : Nat) : State := { s with tags := tabDel s.tags uid, regnum := tabDel s.regnum uid }

/-- A group as a party, for an access that it makes now. -/
def partyOf (s : State) (gid : Nat) (g : Group) : Party :=
  { tag := tabGet 0 s.tags g.uid, region := regionOf s g.uid, lid := (levelOf s g.lid).ident, unit := g.unit, gid := gid, core := g.core,
    no := (syncOf s gid).no }
/-- A group as a party, for an access of an operation that it issued before. -/
def partyOfOp (s : State) (o : Op) (g : Group) : Party := { partyOf s o.gid g with no := o.no }

/-- An engine job as a party: its cluster when the engine belongs to one (R315, R321). -/
def partyOfJob (jid : Nat) (j : Job) (cluster : Option Nat) : Party :=
  { engine := true, tag := j.tag, job := jid, lid := j.lident, unit := j.unit, gid := j.gid, core := j.core, cluster := cluster }
/-- A job with the names of the unit whose group started it, as reports give them. -/
def namedJob (s : State) (j : Job) : Job :=
  { j with tag := tabGet 0 s.tags j.uid, lident := (levelOf s j.lid).ident, unit := (unitOf s j.uid).unit }

/-- The region or job of a recorded party is still open (R319, R324). -/
def partyOpen (s : State) (p : Party) : Bool :=
  if p.engine then (tabFind s.jobs p.job).isSome
  else match tabFirst s.tags (fun _ t => t == p.tag) with
    | some (uid, _) => regionOf s uid == p.region && (match tabFind s.units uid with | some u => u.resident | none => false)
    | none => false

/-! ### Race records (R320, R322, R323) -/

/-- One access at a home slice: a lane's bytes, read, written or both, its kind. -/
structure Touch where
  lane : Nat := 0
  va : Double := 0
  pa : Nat
  n : Nat
  rd : Bool
  wr : Bool
  kind : WKind
deriving DecidableEq, Repr

/-- The bytes of a line that an access touches. -/
def lineMask (pa n : Nat) : BitVec 128 := ((BitVec.allOnes n).setWidth 128) <<< (pa % 128)

/-- Two kinds never conflict: both synchronisation, or reductions of one operation and type (R313). -/
def kindsAgree : WKind → WKind → Bool
  | .sync _, .sync _ => true
  | .red a, .red b => a == b
  | _, _ => false

/-- Bytes that a group touched after so many of its releases, before the present access of `me` (R310, R325; log entry 95). -/
def ordered (s : State) (me p : Party) (g : Seg) : Bool :=
  !p.engine && decide (g.no < tabGet 0 (syncOf s me.gid).known g.gid)

/-- The bytes of an entry that race with an access: their party is another's and open, they meet, conflict, and nothing orders them
(R322, R325). -/
def racesWith (s : State) (me : Party) (t : Touch) (r : Option RaceEnt) : Option (Party × WKind) :=
  match r with
  | none => none
  | some e =>
    if (!e.who.engine && !me.engine && e.who.tag == me.tag) || !partyOpen s e.who then none
    else (e.segs.find? (fun g => (g.mask &&& lineMask t.pa t.n) != 0 && !kindsAgree g.kind t.kind && !ordered s me e.who g)).map
      (fun g => (e.who, g.kind))

/-- The party an access by a group races with, if any, and its kind (R322). -/
def raceParty (s : State) (me : Party) (t : Touch) : Option (Party × WKind) :=
  match tabFind s.races (lineOf t.pa) with
  | none => none
  | some r =>
    match racesWith s me t r.wr with
    | some p => some p
    | none => if t.wr then (match racesWith s me t r.rd0 with | some p => some p | none => racesWith s me t r.rd1) else none

/-- The same party in the same region or job. -/
def sameParty (a b : Party) : Bool :=
  a.engine == b.engine && (if a.engine then a.job == b.job else a.tag == b.tag && a.region == b.region)

/-- Add bytes to those of one kind, group and count of releases. -/
def addSeg (x : Seg) : List Seg → List Seg
  | [] => [x]
  | g :: r => if g.kind = x.kind ∧ g.gid = x.gid ∧ g.no = x.no then { g with mask := g.mask ||| x.mask } :: r else g :: addSeg x r

/-- Add an access to an entry of the same party, or replace the entry. -/
def addEntry (me : Party) (t : Touch) (e : Option RaceEnt) : Option RaceEnt :=
  let add (gs : List Seg) : Option RaceEnt := some ⟨me, addSeg ⟨lineMask t.pa t.n, t.kind, me.gid, me.no⟩ gs⟩
  match e with
  | some e => if sameParty e.who me then add e.segs else add []
  | none => add []

/-- WMASK of an entry, or a reader's mask (R320). -/
def RaceEnt.mask (e : RaceEnt) : BitVec 128 := e.segs.foldl (fun m g => m ||| g.mask) 0

/-- A reader entry that a read may take: its own, a free one, or one whose region is closed (R320). -/
def readerFree (s : State) (me : Party) (e : Option RaceEnt) : Bool :=
  match e with
  | none => true
  | some e => sameParty e.who me || !partyOpen s e.who
def readerMine (me : Party) (e : Option RaceEnt) : Bool :=
  match e with
  | none => false
  | some e => sameParty e.who me

/-- Record a read. -/
def recordRead (s : State) (me : Party) (t : Touch) (r : RaceRec) : RaceRec :=
  if readerMine me r.rd0 then { r with rd0 := addEntry me t r.rd0 }
  else if readerMine me r.rd1 then { r with rd1 := addEntry me t r.rd1 }
  else if readerFree s me r.rd0 then { r with rd0 := addEntry me t none }
  else if readerFree s me r.rd1 then { r with rd1 := addEntry me t none }
  else { r with ovf := true }

/-- Record an access in its line's race record (R320). -/
def recordTouch (s : State) (me : Party) (t : Touch) : State :=
  let r := tabGet {} s.races (lineOf t.pa)
  let r := if t.wr then { r with wr := addEntry me t r.wr } else r
  let r := if t.rd then recordRead s me t r else r
  { s with races := tabPut s.races (lineOf t.pa) r }

/-! ### Scope records (R315, R318) -/

def clusterOf (core : Nat) : Nat := core / 48

/-- Two parties of one unit: of one context, launch and UNITID, under whichever placement (R315, R321). -/
def sameUnit (a b : Party) : Bool := a.lid == b.lid && a.unit == b.unit && a.tag >>> 24 == b.tag >>> 24

/-- A party lies in the domain of a scope taken around another (R315). -/
def inDomain (scope : Nat) (center p : Party) : Bool :=
  if scope ≥ 5 then true
  else if scope = 4 then
    let cl (q : Party) : Option Nat := if q.engine then q.cluster else some (clusterOf q.core)
    (cl center).isSome && cl center == cl p
  else if center.engine || p.engine then false
  else if scope = 3 then center.core / 4 == p.core / 4
  else if scope = 2 then sameUnit center p
  else sameUnit center p && center.gid == p.gid

/-- The record a synchronisation access of scope S′ mismatches, if any (R318). -/
def scopeBad (s : State) (me : Party) (scope pa : Nat) : Option ScopeRec :=
  match tabFind s.scopes (lineOf pa) with
  | none => none
  | some r => if inDomain r.scope r.who me && inDomain scope me r.who then none else some r

def recordScope (s : State) (me : Party) (scope pa : Nat) : State :=
  { s with scopes := tabPut s.scopes (lineOf pa) { scope := scope, who := me } }

/-! ### The edges that accesses make (R310, R315) -/

/-- A write releases a clock at a location. A release of device scope that passes nothing on but its group's own accesses leaves nothing:
its region is closed (R319). -/
def leaveAt (s : State) (r : Release) : State :=
  if r.scope ≥ 5 ∧ r.clock.all (fun e => e.1 == r.who.gid) then s
  else { s with rels := r :: s.rels.filter (fun x =>
    !(x.fence == r.fence && x.store == r.store && x.owner == r.owner && x.addr == r.addr && x.n == r.n && x.who.gid == r.who.gid && x.scope == r.scope)) }

/-- A release access of a group releases what happens before it: `known` is what the group had acquired (R310, first row). -/
def releaseAt (s : State) (me : Party) (known : Tab Nat) (scope : Nat) (st : Store) (owner a n : Nat) : State :=
  leaveAt s { store := st, owner := owner, addr := a, n := n, who := me, scope := scope, clock := tabSet 0 known me.gid (me.no + 1) }

/-- Each lies in the domain of the other's scope (R315). -/
def relReaches (me : Party) (scope : Nat) (r : Release) : Bool := inDomain r.scope r.who me && inDomain scope me r.who
def clocksOf (rs : List Release) : Tab Nat := rs.foldl (fun m r => joinClock m r.clock) []

/-- An acquire access takes over what was released at the location (R310, first row). -/
def acquireAt (s : State) (me : Party) (oid scope : Nat) (st : Store) (owner a n : Nat) : State :=
  learn s me.gid oid (clocksOf (s.rels.filter (fun r => !r.fence && relMeets st owner a n r && relReaches me scope r)))

/-- A read remembers the fences whose writes it has read; an acquire fence issued since, of scope `later`, joins them (R310, second row). -/
def seeAt (s : State) (me : Party) (oid later : Nat) (st : Store) (owner a n : Nat) : State :=
  let rs := s.rels.filter (fun r => r.fence && r.who.gid != me.gid && relMeets st owner a n r)
  if rs.isEmpty then s
  else
    let seen := rs.foldl (fun l r => let r := { r with owner := 0, addr := 0, n := 0 }; if l.contains r then l else r :: l) (syncOf s me.gid).seen
    learn { s with sync := tabPut s.sync me.gid { syncOf s me.gid with seen := seen } } me.gid oid
      (if later = 0 then [] else clocksOf (rs.filter (relReaches me later)))

/-- A write after a release fence carries what the fence released (R310, second row). -/
def carryAt (s : State) (me : Party) (st : Store) (owner a n : Nat) : State :=
  (syncOf s me.gid).fences.foldl (fun s f =>
    leaveAt s { store := st, owner := owner, addr := a, n := n, who := me, scope := f.1, clock := f.2, fence := true }) s

/-- What an access of a group does for the fences around it and around others' (R310, second row). -/
def fenceTouch (s : State) (me : Party) (oid later : Nat) (rd wr : Bool) (st : Store) (owner a n : Nat) : State :=
  if me.engine then s
  else
    let s := if rd then seeAt s me oid later st owner a n else s
    if wr then carryAt s me st owner a n else s

/-- A release fence of a scope: what happens before it is carried by every later write. -/
def fenceRelease (s : State) (gid scope : Nat) : State :=
  let k := clockOf s gid
  newRelease { s with sync := tabPut s.sync gid { syncOf s gid with fences := tabPut (syncOf s gid).fences scope k } } gid

/-- An acquire fence of a scope joins the fences whose writes the group has read, where each lies in the other's domain. -/
def fenceAcquire (s : State) (me : Party) (scope : Nat) : State :=
  let y := syncOf s me.gid
  if y.seen.isEmpty then s
  else learnNow { s with sync := tabPut s.sync me.gid { y with seen := y.seen.filter (fun r => !relReaches me scope r) } } me.gid
    (clocksOf (y.seen.filter (relReaches me scope)))

/-! ### Lines leaving L2 (R295, R318, R325) -/

/-- A line leaves L2: its partials fold, its records go. -/
def evictLine (s : State) (line : Nat) : State :=
  let s := writeBackLine s line
  { s with races := tabDel s.races line, scopes := tabDel s.scopes line }

/-- The device may have evicted a line that carries a record since it was touched. -/
def mayEvict (s : State) (line : Nat) : State :=
  if (tabFind s.races line).isSome || (tabFind s.scopes line).isSome then
    let (k, s) := takeFree s
    if Config.chance k then evictLine s line else s
  else s

/-! ### The check of a group's accesses at their home slices (R155 step 6) -/

/-- The OTHER word of a report (R406). -/
def otherWord (p : Party) (k : WKind) (scope : Nat) : Double :=
  let kind : Nat := if p.engine then 3 else match k with | .plain => 0 | .sync _ => 1 | .red _ => 2 | .engine => 3
  BitVec.ofNat 64 (p.tag.toNat + kind * 2 ^ 32 + scope * 2 ^ 40)

/-- A failed check of one access: the cause, and the other party's words. -/
structure SliceBad where
  cause : BitVec 6
  other : Double := 0
  lid : Word := 0
  unit : Word := 0
deriving DecidableEq, Repr

/-- The scope a recorded kind carries. -/
def kindScope : WKind → Nat
  | .sync n => n
  | _ => 0

/-- RACE_DETECTED, then SCOPE_MISMATCH, then the poison of a read (R155, R456). -/
def sliceCheck (s : State) (me : Party) (scopes : List Nat) (t : Touch) : Option SliceBad :=
  if inAperture t.pa then none
  else match raceParty s me t with
  | some (p, k) => some ⟨0x18, otherWord p k (kindScope k), p.lid, p.unit⟩
  | none =>
    match scopes.findSome? (fun sc => scopeBad s me sc t.pa) with
    | some r => some ⟨0x19, otherWord r.who (.sync r.scope) r.scope, r.who.lid, r.who.unit⟩
    | none => if (t.rd && isPoison s .mem 0 t.pa t.n) || portFails s t.pa then some ⟨0x3E, 0, 0, 0⟩ else none

/-- The first failing access, with the lanes that fail with its cause. -/
def sliceBadOf (s : State) (me : Party) (scopes : List Nat) (ts : List Touch) : Option (SliceBad × Touch × Mask) :=
  match ts.findSome? (fun t => (sliceCheck s me scopes t).map (fun b => (b, t))) with
  | none => none
  | some (b, t) =>
    let m := ts.foldl (fun m t => match sliceCheck s me scopes t with
      | some x => if x.cause = b.cause then setBit m t.lane true else m
      | none => m) (0 : Mask)
    some (b, t, m)

/-- What the reads and writes of a run of a unit's scratchpad or vault do for the fences (R310), and those of a scratchpad for the
brackets of its core (R353). -/
def spaceFence (s : State) (me : Party) (rd wr : Bool) (vault : Bool) (uid off n : Nat) : State :=
  let s := if vault then s else touchScratch s me.gid (unitOf s uid).core
  fenceTouch s me s.nextId 0 rd wr (if vault then .vault else .scratch) uid off n

/-- Record accesses of a party that have been performed, those of the operation `oid` with an acquire fence of scope `later` issued since
(0 for none). -/
def recordAll (s : State) (me : Party) (oid later : Nat) (scopes : List Nat) (ts : List Touch) : State :=
  ts.foldl (fun s t =>
    if inAperture t.pa then s else
    let s := fenceTouch (recordTouch s me t) me oid later t.rd t.wr .mem 0 t.pa t.n
    match scopes with
    | sc :: _ => recordScope s me sc t.pa
    | [] => s) s

/-- The distinct lines of a list of accesses. -/
def linesOf (ts : List Touch) : List Nat :=
  ts.foldl (fun l t => if l.contains (lineOf t.pa) then l else l ++ [lineOf t.pa]) []

/-- The accesses of a run of global bytes: one per line. -/
def chunksFrom (kind : WKind) (rd wr : Bool) : Nat → Nat → Nat → List Touch
  | 0, _, _ => []
  | f + 1, pa, n =>
    if n = 0 then []
    else
      let k := min n (128 - pa % 128)
      { pa := pa, n := k, rd := rd, wr := wr, kind := kind } :: chunksFrom kind rd wr f (pa + k) (n - k)
def chunks (kind : WKind) (rd wr : Bool) (pa n : Nat) : List Touch := chunksFrom kind rd wr (n / 128 + 2) pa n

end Sys2Proof.Machine
end

