-- ==== Sys2Proof/Machine/Swap.lean ====
section
/-! DEFINITION. Sys2Proof/Machine/Swap.lean: page requests and the page-fault swap of a group (R395, R396), the fetch of a word and
the check of a transfer's target (R98), the accounting of granules and slots (R258, R273). -/

namespace Sys2Proof.Machine

open Sys2Proof

/-! ### Page requests (R395) -/

/-- The page address of a request with its kind bits: [0] write, [1] fetch, [2] engine. -/
def askWord (va : Double) (n : Need) (engine : Bool) : Nat :=
  va.toNat / 65536 * 65536 + (if n = .write ∨ n = .both then 1 else 0) + (if n = .fetch then 2 else 0) + (if engine then 4 else 0)

/-- Append one request to the context's ring and notify the host; a ring that faults is not retried. -/
def postAsk (s : State) (ctx ask : Nat) : State :=
  let c := ctxOf s ctx
  let w := device ctx false c.secure
  let slot := c.prqbase + BitVec.ofNat 64 (64 + 16 * (c.prod.toNat % (max c.prqsize 1)))
  let rec_ : List Byte := bytesOf 8 (BitVec.ofNat 64 ask) ++ bytesOf 2 (BitVec.ofNat 16 ctx) ++ List.replicate 6 0
  let ev (c : BitVec 6) : EventRec := { typ := 1, ctx := ctx, cause := c, addr := BitVec.ofNat 64 (ask / 65536 * 65536) }
  match vaWrite s w slot rec_ with
  | .error (e, s) => pushEvent s (ev e)
  | .ok s1 =>
    match vaWrite s1 w c.prqbase (w32 (c.prod + 1)) with
    | .error (e, s) => pushEvent s (ev e)
    | .ok s2 => pushEvent (mapCtx s2 ctx (fun c => { c with prod := c.prod + 1 })) (ev 0x10#6)

/-- The ring has no room: PROD − CONS is PRQSIZE. -/
def askFull (s : State) (ctx : Nat) : Bool :=
  let c := ctxOf s ctx
  match vaRead s (device ctx false c.secure) (c.prqbase + 8) 4 with
  | .ok (bs, _) => decide ((c.prod - ofBytes 32 bs).toNat = c.prqsize)
  | .error _ => false

/-- Make a request, unless one for its page is outstanding. -/
def requestAsk (s : State) (ctx ask : Nat) : State :=
  if (ctxOf s ctx).asked.contains (ask / 65536) then s
  else
    let s := mapCtx s ctx (fun c => { c with asked := ask / 65536 :: c.asked })
    if askFull s ctx then mapCtx s ctx (fun c => { c with waitingAsk := c.waitingAsk ++ [ask] }) else postAsk s ctx ask
/-- Request a page. -/
def requestPage (s : State) (ctx : Nat) (va : Double) (n : Need) (engine : Bool) : State := requestAsk s ctx (askWord va n engine)

/-! ### The swap (R396) -/

/-- The lowest number below a bound that is not in use. -/
def lowestFree (used : List Nat) (bound : Nat) : Option Nat := (List.range bound).find? (fun k => !used.contains k)

/-- The lowest of at most n + 1 candidate numbers that is not in use. -/
def freeFrame (used : List Nat) (bound : Nat) : Option Nat := lowestFree used (min bound (used.length + 1))

def parkName (n : HName) : HName := if n.st = .bound then { n with st := .parked } else n

/-- The lowest free swap frame of a context. -/
def swapFrame (s : State) (ctx : Nat) : Option Nat := freeFrame (ctxOf s ctx).sframes (ctxOf s ctx).sfcount

/-- The swap of a stopped group into frame `k`: settle, discard, write the frame, park the names, leave the slot (R396). -/
def swapTo (s : State) (gid : Nat) (t : TrapInfo) (k : Nat) : State :=
  let s := discardRegion (settle s gid) gid
  let tok := s.free
  let s := { s with free := s.free + 1 }
  match grp s gid with
  | none => s
  | some g =>
    match writeFrame s g t ((ctxOf s g.ctx).sfbase + 0x40000#64 * BitVec.ofNat 64 k) tok with
    | .error (e, s) => haltGroup s gid e
    | .ok s =>
      let s := mapCtx s g.ctx (fun c => { c with sframes := k :: c.sframes })
      bump (setGrp s gid { g with st := .swapped k, names := g.names.map (fun e => (e.1, parkName e.2)),
                                  swapCkpt := some (tok, g.ckpt), swapAt := s.clk, swapFlags := g.flags, swapBatches := g.batches })

/-- A group stopped for a page, or to move, leaves once its committed work has completed; with no free swap frame a group that waits
for a page stays resident and HELD, and one that would move, or whose page has come meanwhile, runs on (R396, R401). -/
def swapNow (s : State) (gid : Nat) (t : TrapInfo) : State :=
  match grp s gid with
  | none => s
  | some g => match swapFrame s g.ctx with
    | none => setGrp s gid (if g.moveW.isSome ∨ g.waitPage.isNone then { g with st := .running, moveW := none } else { g with st := .waiting })
    | some k => swapTo s gid t k

def swapStop (s : State) (gid : Nat) (g : Group) (t : TrapInfo) : State :=
  let s := { s with cur := none }
  if committedBusy s gid g true then bump (setGrp s gid { g with st := .stopping (.swap t) }) else swapNow (setGrp s gid g) gid t

/-- A stopped group whose committed work has completed takes its trap, or its swap (R401). -/
def goOn (s : State) (gid : Nat) : State :=
  match grp s gid with
  | none => s
  | some g => match g.st with
    | .stopping (.trap t) => if committedBusy s gid g false then s else trapNow s gid t
    | .stopping (.swap t) => if committedBusy s gid g true then s else swapNow s gid t
    | _ => s

/-- Swap a group out on a page that is not resident: `act` is the active set of the word that met it, `fl` its lanes that failed. -/
def swapLanes (s : State) (gid sp : Nat) (va : Double) (n : Need) (act fl : Mask) : State :=
  match grp s gid with
  | none => s
  | some g =>
    if closing s gid then holdSplit s gid sp
    else
      swapStop (requestPage s g.ctx va n false) gid
        { g with waitPage := some (va.toNat / 65536), waitKind := askWord va n false % 65536 }
        { cause := 0x10, pc := (splitAt g sp).pc, active := act, flanes := fl, faddr := some va }

/-- The same for a word whose accesses are not per lane, or a header: both masks are the split's. -/
def swapOut (s : State) (gid sp : Nat) (va : Double) (n : Need) : State :=
  let m := match grp s gid with | some g => (splitAt g sp).mask | none => 0
  swapLanes s gid sp va n m m

/-- The same for a word with an active set whose accesses are not per lane. -/
def swapAct (s : State) (c : Go) (va : Double) (n : Need) : State := swapLanes s c.gid c.sp va n c.act c.act

/-- A group whose quarter lacks the granules of window `w` is saved as for a page fault, to be restored in a quarter whose pool holds
them (R147, R148, R273). -/
def moveOut (s : State) (gid sp w : Nat) : State :=
  match grp s gid with
  | none => s
  | some g =>
    let m := (splitAt g sp).mask
    swapStop s gid { g with moveW := some w } { cause := 0x10, pc := (splitAt g sp).pc, active := m, flanes := m }

/-! ### Fetch (R74, R98, R390) -/

/-- A word fetched, a fault, or a page that is not resident. -/
inductive Fetch where
  | word (x : IWord)
  | bad (c : BitVec 6)
  | absent
deriving DecidableEq, Repr

/-- Fetch the word at a PC for a group; a poisoned word faults (R456). -/
def fetch (s : State) (g : Group) (pc : Double) : Fetch :=
  match translate s (whoOf g) .fetch pc with
  | .ok pa _ => if isPoison s .mem 0 pa 8 then .bad 0x3E else .word (ofBytes 64 (viewRead s pa 8))
  | .bad c => .bad c
  | .absent => .absent

/-- A fetch that faulted with this cause: poison is a machine check (R458). -/
def fetchCheck (s : State) (g : Group) (pc : Double) (c : BitVec 6) : State :=
  walkCheck s (whoOf g) .fetch pc g c

/-- What the fetch of a word does to memory: the partials of its walk's lines and of its own fold, an unbacked address is counted
(R283, R295). -/
def fetchTouch (s : State) (g : Group) (pc : Double) : State :=
  match translate s (whoOf g) .fetch pc with
  | .ok pa _ => memTouch (walkFold s (whoOf g) pc) pa 8
  | _ => walkFold s (whoOf g) pc

/-- A word is a clause header: bit 63 clear, major 0x7F (R96). -/
def wordIsHeader (x : IWord) : Bool := (bits x 56 8 : BitVec 8) == 0x7F
/-- A word is a join: bit 63 clear, major 0x46 (R144). -/
def wordIsJoin (x : IWord) : Bool := (bits x 56 8 : BitVec 8) == 0x46

/-- The check of a transfer's target: `none` when it may be taken, else the outcome (R74, R98). -/
def targetBad (s : State) (c : Go) (tgt : Double) : Option Out :=
  if (bits tgt 0 3 : BitVec 3) != 0 then some (trapAt s c 0x05#6)
  else match fetch s c.g tgt with
    | .word x => if wordIsHeader x then none else some (trapAt (fetchTouch s c.g tgt) c 0x05#6)
    | .bad e => some (.next (trapWait s (fetchCheck s c.g tgt e) c.gid c.sp
        { infoAt 0x07#6 c.t c.act with info := e.setWidth 16, faddr := some tgt }))
    | .absent => some (.next (swapAct s c tgt .fetch))

/-! ### Granules and slots (R258, R273) -/

/-- The group holds its slot and its window's granules. -/
def holdsSlot (g : Group) : Bool :=
  match g.st with
  | .swapped _ | .saved _ => false
  | _ => true

/-- Granules of a unit's pool in a quarter that no group's window holds. -/
def freeGranules (s : State) (uid q : Nat) : Nat :=
  (unitOf s uid).granules.getD q 0 -
    s.groups.foldl (fun n e => if e.2.uid = uid ∧ e.2.quarter = q ∧ holdsSlot e.2 then n + e.2.w else n) 0

/-- The slot is held by a group, or reserved for another unit resident on the core. -/
def slotTaken (s : State) (uid core k : Nat) : Bool :=
  s.groups.any (fun e => e.2.core == core && holdsSlot e.2 && e.2.slot == k) ||
  s.units.any (fun e => e.1 != uid && e.2.core == core && e.2.resident && e.2.rslots.contains k)

/-- The lowest resident slot of a core in a quarter that a group of the unit may take (R258, R396). -/
def freeSlot (s : State) (uid core q : Nat) : Option Nat :=
  ((List.range 16).map (fun k => 16 * q + k)).find? (fun k => !slotTaken s uid core k)

/-- The slots `rs` of a unit less one, when a group leaves slot `old`: that slot or, where another group of the unit, `gid` not counted,
holds it by now, one that none of them holds (R258). -/
def slotsLess (s : State) (uid : Nat) (gid : Option Nat) (old : Nat) (rs : List Nat) : List Nat :=
  let mine (k : Nat) : Bool := s.groups.any (fun e => some e.1 != gid && e.2.uid == uid && holdsSlot e.2 && e.2.slot == k)
  if mine old then (match rs.find? (fun k => !mine k) with | some k => rs.filter (fun x => x != k) | none => rs)
  else rs.filter (fun x => x != old)

/-- A group of the unit has moved from a slot to another: the unit's slots stay as many. -/
def reslot (s : State) (uid old new : Nat) : State :=
  mapUnit s uid (fun u => if u.rslots.contains new then u else { u with rslots := new :: slotsLess s uid none old u.rslots })

/-- Another quarter's pool for the unit holds w granules, and a swap frame is free for the move (R147, R273). -/
def mayMove (s : State) (g : Group) (w : Nat) : Bool :=
  [1, 2, 3].any (fun d => decide (freeGranules s g.uid ((g.quarter + d) % 4) ≥ w)) && (swapFrame s g.ctx).isSome

/-- Change a group's window: removed granules are the highest, new ones are zero (R19). -/
def setWindow (g : Group) (w : Nat) : Group := { g with w := w, v := tabBelow g.v (256 * w) }

end Sys2Proof.Machine
end

