-- ==== Sys2Proof/Machine/Access.lean ====
section
/-! DEFINITION. Sys2Proof/Machine/Access.lean: the addresses of the memory instructions and their checks at issue (R151–R155, R410), the
scratchpad and vault of a unit, and the pairing of a fence with an access of its clause (R317). -/

namespace Sys2Proof.Machine

open Sys2Proof

/-! ### Address forms -/

/-- R151: base pair, index as i32, signed offset. -/
def addrOf (g : Group) (base idx : BitVec 8) (off : BitVec 20) (l : Nat) : Double :=
  pairGet g base.toNat l + (regGet g idx.toNat l).signExtend 64 + off.signExtend 64

/-- A lane's access after its checks. -/
structure LaneAcc where
  lane : Nat
  va : Double
  pa : Nat
  priv : Bool := false
deriving DecidableEq, Repr

/-- How the checks of a lane, or of all lanes, end: passed, a cause, a watchpoint's match, a page that is not resident. -/
inductive Checked (α : Type) where
  | ok (a : α)
  | bad (c : BitVec 6) (lanes : Mask) (va : Double)
  | watch (n : Nat) (lanes : Mask)
  | absent (va : Double) (lanes : Mask)
deriving DecidableEq, Repr

/-- Steps 1 to 5 of R155 for one access of `n` bytes; `step2` is the cause of step 2, if any. -/
def laneCheck (s : State) (w : Who) (need : Need) (n lane : Nat) (va : Double) (step2 : Option (BitVec 6)) : Checked LaneAcc :=
  if va.toNat % n ≠ 0 then .bad 0x14#6 0 va
  else match step2 with
  | some c => .bad c 0 va
  | none => match translate s w need va with
    | .ok pa priv => .ok ⟨lane, va, pa, priv⟩
    | .bad c => .bad c 0 va
    | .absent => .absent va 0

/-- What a failed check is, whatever its address. -/
inductive Failure where
  | cause (c : BitVec 6)
  | watch (n : Nat)
  | absent
deriving DecidableEq, Repr

def failureOf : Checked LaneAcc → Option Failure
  | .ok _ => none
  | .bad c _ _ => some (.cause c)
  | .watch n _ => some (.watch n)
  | .absent _ _ => some .absent

/-- The lanes whose checks fail in one way. -/
def failMask (cs : List (Nat × Checked LaneAcc)) (f : Failure) : Mask :=
  cs.foldl (fun m x => if failureOf x.2 = some f then setBit m x.1 true else m) 0

/-- The accesses of lanes that all pass. -/
def passedAccs : List (Nat × Checked LaneAcc) → List LaneAcc
  | [] => []
  | (_, .ok a) :: r => a :: passedAccs r
  | _ :: r => passedAccs r

/-- The lowest-numbered lane that fails decides (R155). -/
def allLanes (all : List (Nat × Checked LaneAcc)) : List (Nat × Checked LaneAcc) → Checked (List LaneAcc)
  | [] => .ok (passedAccs all)
  | (_, .ok _) :: r => allLanes all r
  | (_, .bad c _ va) :: _ => .bad c (failMask all (.cause c)) va
  | (_, .watch n _) :: _ => .watch n (failMask all (.watch n))
  | (_, .absent va _) :: _ => .absent va (failMask all .absent)

/-! ### Watchpoints (R409, R410) -/

/-- A watchpoint of the context matches an access of `n` bytes. -/
def watchMatch (c : Context) (k : Nat) (need : Need) (n : Nat) (va : Double) : Bool :=
  let ctl := tabGet 0x300 c.wctl k
  let len := (bits ctl 8 5 : BitVec 5).toNat
  let base := (tabGet 0 c.waddr k).toNat / 2 ^ len * 2 ^ len
  let kinds := match need with | .read => bit ctl 0 | .write => bit ctl 1 | .both => bit ctl 0 || bit ctl 1 | .fetch => false
  kinds && decide (va.toNat < base + 2 ^ len) && decide (base < va.toNat + n)

/-- The lowest watchpoint that an access of `n` bytes matches, for a split in user mode for which the match is not suppressed. -/
def watchHit (s : State) (c : Go) (need : Need) (n : Nat) (va : Double) : Option Nat :=
  if c.g.sys ∨ suppressed c.g c.t.pc c.t.mask then none
  else [0, 1].find? (fun k => watchMatch (ctxOf s c.g.ctx) k need n va)

/-- The watchpoint check of a lane that has passed step 5 of R155 (R410). -/
def watched (s : State) (c : Go) (wk : Need) (n : Nat) (x : Checked LaneAcc) : Checked LaneAcc :=
  match x with
  | .ok a => (match watchHit s c wk n a.va with | some k => .watch k 0 | none => .ok a)
  | x => x

/-- Check every lane of a list with its address and step-2 cause; `wk` is the kind a watchpoint sees. -/
def checkLanes (s : State) (c : Go) (need wk : Need) (n : Nat) (ls : List (Nat × Double × Option (BitVec 6))) :
    Checked (List LaneAcc) :=
  let cs := ls.map (fun x => (x.1, watched s c wk n (laneCheck s (whoOf c.g) need n x.1 x.2.1 x.2.2)))
  allLanes cs cs

/-- The trap of a watchpoint's match (R410). -/
def watchTrap (s : State) (c : Go) (k : Nat) (fl : Mask) : State :=
  trapWait s s c.gid c.sp { infoAt 0x32#6 c.t c.act with flanes := fl, info := BitVec.ofNat 16 k }

/-- The issue checks of a global access, then its own effect. -/
def withGlobal (s : State) (c : Go) (need wk : Need) (n : Nat) (ls : List (Nat × Double × Option (BitVec 6)))
    (k : List LaneAcc → Out) : Out :=
  match checkLanes s c need wk n ls with
  | .bad e fl va => .next (trapWait s (walkCheck s (whoOf c.g) need va c.g e) c.gid c.sp
      { infoAt e c.t c.act with flanes := fl, faddr := some va })
  | .watch m fl => .next (watchTrap s c m fl)
  | .absent va fl => .next (swapLanes s c.gid c.sp va need c.act fl)
  | .ok accs => k accs

/-! ### Scratchpad and vault (R152, R153) -/

/-- A place in a unit's allocation: the unit's index when remote, and the offset. -/
structure Place where
  remote : Option Nat
  off : Nat
deriving DecidableEq, Repr

/-- The form of S, and its range check against the allocation's size. -/
def placeOf (obits limit n : Nat) (x : Double) : Option Place :=
  let off := x.toNat % 2 ^ obits
  if off + n > limit then none
  else if bit x 63 then
    if x.toNat % 2 ^ 32 / 2 ^ obits ≠ 0 then none else some ⟨some (bits x 32 31 : BitVec 31).toNat, off⟩
  else if x.toNat / 2 ^ obits ≠ 0 then none else some ⟨none, off⟩

/-- The unit that holds a place, when it is present: in the cluster for the scratchpad, anywhere for the vault. -/
def placeUnit (s : State) (g : Group) (vault : Bool) (p : Place) : Option Nat :=
  match p.remote with
  | none => some g.uid
  | some k =>
    (tabFirst s.units (fun _ u => u.lid == g.lid && u.unit.toNat == k && u.resident &&
      (vault || clusterOf u.core == clusterOf g.core))).map (·.1)

def spaceStore (vault : Bool) : Store := if vault then .vault else .scratch

/-- One byte of a unit's scratchpad or vault; one that nothing has written is a free value. -/
def spaceByte (s : State) (vault : Bool) (uid off : Nat) : Byte :=
  let u := unitOf s uid
  (tabFind (if vault then u.vault else u.scratch) off).getD (Config.allocByte u.tag (if vault then 1 else 0) off)
def spaceBytes (s : State) (vault : Bool) (uid off n : Nat) : List Byte := (List.range n).map (fun i => spaceByte s vault uid (off + i))

/-- List the bytes of an allocation from an offset, each under its own key. -/
def putAll (m : Tab Byte) (off : Nat) : List Byte → Tab Byte
  | [] => m
  | b :: r => putAll (tabPut m off b) (off + 1) r

/-- Write bytes of a unit's scratchpad or vault. -/
def spacePut (s : State) (vault : Bool) (uid off : Nat) (bs : List Byte) : State :=
  let s := mapUnit s uid (fun u => if vault then { u with vault := putAll u.vault off bs } else { u with scratch := putAll u.scratch off bs })
  clearPoison (dropRels s (spaceStore vault) uid off bs.length) (spaceStore vault) uid off bs.length

/-- A lane's place in a scratchpad or vault, in the unit that holds it. -/
structure SpaceAcc where
  lane : Nat
  uid : Nat
  off : Nat
deriving DecidableEq, Repr

/-- The checks of a scratchpad or vault access: at issue, then the residence test (R152, R155, R156), then poison of a read. -/
def withSpace (s : State) (c : Go) (vault rd : Bool) (n : Nat) (ls : List (Nat × Double)) (k : List SpaceAcc → Out) : Out :=
  let u := unitOf s c.g.uid
  let limit := if vault then u.vaultSize else u.scratchSize
  let ob := if vault then 22 else 18
  let trap (e : BitVec 6) (bad : List (Nat × Double)) (va : Double) : Out :=
    .next (trapWait s s c.gid c.sp { infoAt e c.t c.act with flanes := bad.foldl (fun m x => setBit m x.1 true) 0, faddr := some va })
  let mis := ls.filter (fun x => x.2.toNat % n != 0)
  let oor := ls.filter (fun x => x.2.toNat % n == 0 && (placeOf ob limit n x.2).isNone)
  -- the lowest failing lane decides between the two causes
  match ls.find? (fun x => mis.contains x || oor.contains x) with
  | some x => if mis.contains x then trap 0x14#6 mis x.2 else trap 0x15#6 oor x.2
  | none =>
    let at_ (x : Nat × Double) : Option SpaceAcc :=
      (placeOf ob limit n x.2).bind (fun p => (placeUnit s c.g vault p).map (fun uid => ⟨x.1, uid, p.off⟩))
    let away := ls.filter (fun x => (at_ x).isNone)
    match away with
    | x :: _ => trap 0x15#6 away x.2
    | [] =>
      let accs := ls.filterMap at_
      let bad := ls.filter (fun x => match at_ x with
        | some a => rd && isPoison s (spaceStore vault) a.uid a.off n
        | none => false)
      match bad with
      | x :: _ =>
        .next (trapWait s (mcheckG s 2 0 c.g) c.gid c.sp
          { infoAt 0x3E#6 c.t c.act with flanes := bad.foldl (fun m x => setBit m x.1 true) 0, faddr := some x.2 })
      | [] => k accs

/-! ### Order within a group (R157, R311) -/

/-- An earlier acquire of the group has not been performed. -/
def pendingAcq (s : State) (gid : Nat) : Bool := s.ops.any (fun e => e.2.gid == gid && !e.2.done && e.2.acq)

/-- The access of an instruction performed at issue must wait: behind an acquire; a release, behind every earlier access; an acquire,
behind a release (R311). -/
def mustWait (s : State) (gid : Nat) (rel acq : Bool) : Bool :=
  pendingAcq s gid || (rel && accessPending s gid) || (acq && s.ops.any (fun e => e.2.gid == gid && !e.2.done && e.2.rel))

/-- Two runs of bytes meet. -/
def runsMeet (a m b n : Nat) : Bool := decide (a < b + n) && decide (b < a + m)
/-- A run that the group would write, at a virtual address, may meet bytes of memory. -/
def xlateMeets (s : State) (w : Who) (va : Double) (m pa n : Nat) : Bool :=
  match translate s w .write va with
  | .ok q _ => runsMeet q m pa n
  | .bad _ => false
  | .absent => true
/-- An skey has still to write bytes of memory; while its positions are not known, it may write any (R234). -/
def keyMeets (s : State) (oid : Nat) (o : Op) (pa n : Nat) : Bool :=
  match tabFind s.keys oid, grp s o.gid with
  | some k, some g =>
    let w := { whoOf g with ctx := o.ctx }
    !k.ready || (k.append && !k.added) || k.todo.any (fun x => decide (x.1 < k.cap) &&
      (xlateMeets s w (k.keys + BitVec.ofNat 64 (8 * x.1)) 8 pa n || xlateMeets s w (k.vals + BitVec.ofNat 64 (4 * x.1)) 4 pa n))
  | _, _ => false
/-- An operation of the group that is not performed may touch bytes of memory. -/
def opMeets (s : State) (oid : Nat) (o : Op) (pa n : Nat) : Bool :=
  !o.done && (!o.engine && o.accs.any (fun a => runsMeet a.pa a.n pa n) || keyMeets s oid o pa n)
/-- An access that the group issued before the operation `oid` may touch these bytes and is not performed (R159, R306). -/
def earlierMeets (s : State) (gid oid pa n : Nat) : Bool :=
  s.ops.any (fun e => decide (e.1 < oid) && e.2.gid == gid && opMeets s e.1 e.2 pa n)

/-- An earlier mcast of the group has not delivered to bytes of a unit's vault (R289). -/
def pendingCast (s : State) (gid uid off n : Nat) : Bool :=
  s.casts.any (fun e => (match tabFind s.ops e.1 with | some o => o.gid == gid | none => false) &&
    decide (off < e.2.landing + e.2.bytes.length) && decide (e.2.landing < off + n) &&
    e.2.left.any (fun k => (unitOf s uid).lid == e.2.lid && (unitOf s uid).unit.toNat == k))

/-! ### Fences paired with an access (R317) -/

/-- The scope and kind of a fence word. -/
def fenceScope (w : FsWord) : Nat := (bits w.imm 0 3 : BitVec 3).toNat
def fenceKind (w : FsWord) : Nat := (bits w.imm 3 2 : BitVec 2).toNat

/-- An acquire or full fence that follows a word in its clause: where, the word, and whether no word between writes its guard. -/
structure Ahead where
  pc : Double
  w : FsWord
  fixed : Bool
deriving DecidableEq, Repr

/-- The acquire fences that follow in the clause as fetched, before another global access; `wr` lists what the words passed write. -/
def fencesAhead (s : State) (g : Group) : Nat → Double → List Nat → List Ahead
  | 0, _, _ => []
  | n + 1, pc, wr =>
    match fetch s g pc with
    | .word x =>
      match decodeWord x with
      | .ok i =>
        if globalWord i then []
        else match i with
        | .fence w => (if fenceKind w = 2 then [] else [⟨pc, w, !wr.contains (256 + w.g.idx.toNat)⟩]) ++ fencesAhead s g n (pc + 8) wr
        | _ => fencesAhead s g n (pc + 8) (writtenBy i ++ wr)
      | .error _ => []
    | _ => []

/-- The role that a plain load or an atom takes from its clause (R317): the acquire scope of the fences known to have an active lane, 0 for
none; and the fences whose own issue will show it, each with its scope (log entry 47). -/
def pairedAcq (s : State) (c : Go) : Nat × List (Double × Nat) :=
  let fs := fencesAhead s c.g (c.t.left - 1) (c.t.pc + 8) []
  (((fs.filter (fun f => f.fixed && guardMask (.fence f.w) c.g c.t != 0)).map (fun f => fenceScope f.w)).foldl max 0,
   (fs.filter (fun f => !f.fixed)).map (fun f => (f.pc, fenceScope f.w)))
/-- An operation with the acquire role of its clause. -/
def withAcq (o : Op) (r : Nat × List (Double × Nat)) : Op := { o with acq := decide (r.1 ≠ 0) || !r.2.isEmpty, acqS := r.1, ahead := r.2 }
/-- A fence issues: an operation that it follows in the clause learns whether it acquires. -/
def fenceDecides (pc hdr : Double) (gid sp : Nat) (active : Bool) (o : Op) : Op :=
  if o.gid = gid ∧ o.split = sp ∧ o.hdr = hdr ∧ o.ahead.any (fun x => x.1 == pc) then
    let sc := ((o.ahead.filter (fun x => active && x.1 == pc)).map (·.2)).foldl max o.acqS
    withAcq o (sc, o.ahead.filter (fun x => x.1 != pc))
  else o
/-- A fence that would decide the role of an operation is still to issue, and its split is ready to come to it. -/
def undecided (s : State) (o : Op) : Bool :=
  !o.ahead.isEmpty && match (grp s o.gid).bind (fun g => if g.st = .running then tabFind g.splits o.split else none) with
    | some t => t.st == .ready && t.hdr == o.hdr && o.ahead.any (fun x => decide (t.pc.toNat ≤ x.1.toNat))
    | none => false

end Sys2Proof.Machine
end

