-- ==== Sys2Proof/Machine/LoadStore.lean ====
section
/-! DEFINITION. Sys2Proof/Machine/LoadStore.lean: loads, stores, gather, constant loads, cache control, conflict detection and fences
(R150–R162, R167, R168). -/

namespace Sys2Proof.Machine

open Sys2Proof

/-! ### Data -/

/-- Registers of an access size (R157). -/
def regsOf (n : Nat) : Nat := if n = 8 then 2 else if n = 16 then 4 else 1

/-- The `n` bytes that a lane supplies from consecutive registers. -/
def dataOf (g : Group) (f n l : Nat) : List Byte :=
  ((List.range (regsOf n)).flatMap (fun k => w32 (regGet g (f + k) l))).take n

/-- The register writes of a loaded value: each lane of a vector destination, the lowest lane's value of a scalar one (R14). -/
def loadWrs (f n : Nat) (vals : List (Nat × List Byte)) : List RegWr :=
  let one (x : Nat × List Byte) : List RegWr :=
    (List.range (regsOf n)).map (fun k => ⟨f + k, x.1, nat32 x.2 (4 * k)⟩)
  if f ≥ 192 then (match vals with | [] => [] | x :: _ => one x) else vals.flatMap one

def putWrs (g : Group) (ws : List RegWr) : Group := ws.foldl (fun g x => regSet g x.f x.lane x.v) g

/-- An access of an operation, from its checks. -/
def accessOf (a : LaneAcc) (n : Nat) (bs : List Byte) (wr : Bool) : Access :=
  { va := a.va, pa := a.pa, n := n, lanes := [a.lane], data := [ofBytes 128 bs], write := wr, priv := a.priv }

/-! ### Global loads -/

/-- Issue a global load with an acquire role: its accesses wait for their home slices. -/
def loadGlobal (i : Instr) (s : State) (c : Go) (n : Nat) (role : Nat × List (Double × Nat))
    (ls : List (Nat × Double × Option (BitVec 6))) : Out :=
  if flagFull i c then hold s c
  else match ls with
  | [] => issueNone s i c
  | _ => withGlobal s c .read .read n ls (fun accs =>
      .next (issueOp s i c (withAcq { newOp i c with accs := accs.map (fun a => accessOf a n [] false) } role)))

/-- ld (R157). -/
def execLd (w : FmWord) (s : State) : Out :=
  match pre (.ld w) s with
  | .out o => o
  | .go c =>
    loadGlobal (.ld w) s c (2 ^ w.size) (if w.mod = 2 then (5, []) else pairedAcq s c)
      ((lanesOf c.act).map (fun l => (l, addrOf c.g w.base w.idx w.off l, none)))

/-- The address of one lane of a gather (R160). -/
def gatherVa (g : Group) (w : FmWord) (bnd : Bool) (l : Nat) : Double :=
  pairGet g w.base.toNat l + BitVec.ofNat 64 ((regGet g w.idx.toNat l).toNat * 2 ^ w.size) +
    (if bnd then 0 else w.off.signExtend 64)

/-- gather (R160). -/
def execGather (w : FmWord) (s : State) : Out :=
  match pre (.gather w) s with
  | .out o => o
  | .go c => loadGlobal (.gather w) s c (2 ^ w.size) (0, []) ((lanesOf c.act).map (fun l => (l, gatherVa c.g w false l, none)))

/-- gather.bnd: an index at or beyond the bound is INDEX_RANGE (R160). -/
def execGatherBnd (w : FmWord) (s : State) : Out :=
  match pre (.gatherBnd w) s with
  | .out o => o
  | .go c =>
    loadGlobal (.gatherBnd w) s c (2 ^ w.size) (0, []) ((lanesOf c.act).map (fun l =>
      (l, gatherVa c.g w true l, if (regGet c.g w.idx.toNat l).toNat ≥ w.off.toNat then some 0x16#6 else none)))

/-! ### Global stores -/

/-- The checkpoint that a closing instruction installs: the state just after it has issued (R399). -/
def closerCkpt (s : State) (c : Go) : Option Ckpt := (grp s c.gid).map (fun g => ckptOf g c.sp)

/-- Issue an operation that closes the region when its checks are done (R154, R156). -/
def issueCloser (s : State) (i : Instr) (c : Go) (o : Op) : State :=
  let k := s.nextId
  let s := issueOp s i c o
  mapOp s k (fun o => { o with closer := closerCkpt s c })

/-- st (R157): it closes the region unless every lane's page is group-private (R154). -/
def execSt (w : FmWord) (s : State) : Out :=
  match pre (.st w) s with
  | .out o => o
  | .go c =>
    let n := 2 ^ w.size
    if flagFull (.st w) c then hold s c
    else match lanesOf c.act with
    | [] => issueNone s (.st w) c
    | ls =>
      withGlobal s c .write .write n (ls.map (fun l => (l, addrOf c.g w.base w.idx w.off l, none))) (fun accs =>
        let sc := if w.mod = 2 then 5 else c.t.relScope
        let o := { newOp (.st w) c with accs := accs.map (fun a => accessOf a n (dataOf c.g w.d.toNat n a.lane) true),
                                        rel := decide (sc ≠ 0), relS := sc }
        if accs.all (·.priv) then .next (issueOp s (.st w) c o)
        else if unchecked s c.gid then hold s c
        else .next (issueCloser s (.st w) c o))

/-! ### Scratchpad and vault -/

def spaceLanes (c : Go) (w : FmWord) : List (Nat × Double) := (lanesOf c.act).map (fun l => (l, addrOf c.g w.base w.idx w.off l))

/-- What each lane reads from a scratchpad or vault. -/
def spaceVals (s : State) (vault : Bool) (n : Nat) (accs : List SpaceAcc) : List (Nat × List Byte) :=
  accs.map (fun a => (a.lane, spaceBytes s vault a.uid a.off n))

/-- What a store leaves: of each byte, the value of the highest lane that writes it. -/
def spaceStores (s : State) (vault : Bool) (g : Group) (f n : Nat) (accs : List SpaceAcc) : State :=
  accs.foldl (fun s a => spacePut s vault a.uid a.off (dataOf g f n a.lane)) s

/-- What accesses of a scratchpad or vault do for the fences around them (R310, second row). -/
def spaceFences (s : State) (c : Go) (vault rd wr : Bool) (n : Nat) (accs : List SpaceAcc) : State :=
  accs.foldl (fun s a => spaceFence s (partyOf s c.gid c.g) rd wr vault a.uid a.off n) s
/-- A load of a scratchpad or vault; with .acq an acquire, of cluster or device scope (R157): what it joins. -/
def spaceAcquire (s : State) (c : Go) (vault acq : Bool) (n : Nat) (accs : List SpaceAcc) : State :=
  let s := spaceFences s c vault true false n accs
  if acq then
    accs.foldl (fun s a => acquireAt s (partyOf s c.gid c.g) s.nextId (if vault then 5 else 4) (spaceStore vault) a.uid a.off n) s
  else s
/-- A store; with .rel a release: what it leaves at the lanes' locations, and what its group does next is not released by it. -/
def spaceRelease (s : State) (c : Go) (vault rel : Bool) (n : Nat) (accs : List SpaceAcc) : State :=
  let s := spaceFences s c vault false true n accs
  if rel then
    newRelease (accs.foldl (fun s a => releaseAt s (partyOf s c.gid c.g) (syncOf s c.gid).known (if vault then 5 else 4) (spaceStore vault)
      a.uid a.off n) s) c.gid
  else s

/-- The passes that serve an lds of `n` bytes a lane: of each subgroup of lanes, the most distinct words in one bank (R284). -/
def passesOf (s : State) (n : Nat) (accs : List SpaceAcc) : Nat :=
  let size := if n ≤ 4 then 32 else 128 / n
  let words (a : SpaceAcc) : List (Nat × Nat) :=
    (List.range ((a.off + n - 1) / 4 + 1 - a.off / 4)).map (fun k => (a.uid, a.off / 4 + k))
  let bank (x : Nat × Nat) : Nat × Nat := ((unitOf s x.1).core, x.2 % 32)
  ((List.range (32 / size)).map (fun q =>
    let ws := ((accs.filter (fun a => a.lane / size == q)).flatMap words).eraseDups
    (ws.map (fun x => ws.countP (fun y => bank y == bank x))).foldl max 0)).sum

/-- The data of an lds are written 23 + P clk after it issues (R353); later, by how much is open, where a lane reads another unit's. -/
def ldsData (s : State) (c : Go) (n : Nat) (accs : List SpaceAcc) (g : Group) : Group :=
  let at_ := clkMax g.dataAt (clkAdd s.clk (BitVec.ofNat 64 (23 + passesOf s n accs)))
  { g with dataAt := at_,
           bracket := if g.bracket.any (fun b => b.1 == c.sp) && accs.all (fun a => a.uid == c.g.uid) then some (c.sp, at_) else none }

/-- lds (R157). -/
def execLds (w : FmWord) (s : State) : Out :=
  match pre (.lds w) s with
  | .out o => o
  | .go c =>
    if mustWait s c.gid false (w.mod == 2) then hold s c
    else withSpace s c false true (2 ^ w.size) (spaceLanes c w) (fun accs =>
      .next (retire (spaceAcquire s c false (w.mod == 2) (2 ^ w.size) accs) c
        (ldsData s c (2 ^ w.size) accs (putWrs c.g (loadWrs w.d.toNat (2 ^ w.size) (spaceVals s false (2 ^ w.size) accs))))))

/-- sts: it closes the region (R154, R157). -/
def execSts (w : FmWord) (s : State) : Out :=
  match pre (.sts w) s with
  | .out o => o
  | .go c =>
    if c.act = 0 then .next (retireSame s c)
    else if mustWait s c.gid (w.mod == 2) false || unchecked s c.gid then hold s c
    else withSpace s c false false (2 ^ w.size) (spaceLanes c w) (fun accs =>
      .next (retireClose (spaceRelease (spaceStores s false c.g w.d.toNat (2 ^ w.size) accs) c false (w.mod == 2) (2 ^ w.size) accs) c))

/-- A device-scope acquire or release of a vault advances the region number (R319). -/
def vaultSync (s : State) (c : Go) (w : FmWord) : State := if w.mod = 2 then advanceRegion s c.g.uid else s

/-- The flits of an access to other units' vaults: of pieces with the unit and the bytes of each (R288). -/
def awayFlits (s : State) (c : Go) (xs : List (Nat × Nat)) : State :=
  sendFlits s c.g.core (bytesByCore ((xs.filter (fun x => x.1 != c.g.uid)).map (fun x => ((unitOf s x.1).core, x.2))))

/-- ldv (R157): the registers are written when it completes. -/
def execLdv (w : FmWord) (s : State) : Out :=
  match pre (.ldv w) s with
  | .out o => o
  | .go c =>
    if flagFull (.ldv w) c || mustWait s c.gid false (w.mod == 2) then hold s c
    else match lanesOf c.act with
    | [] => issueNone s (.ldv w) c
    | _ => withSpace s c true true (2 ^ w.size) (spaceLanes c w) (fun accs =>
        if accs.any (fun a => pendingCast s c.gid a.uid a.off (2 ^ w.size)) then hold s c
        else .next (awayFlits (issueOp (spaceAcquire (vaultSync s c w) c true (w.mod == 2) (2 ^ w.size) accs) (.ldv w) c
          { newOp (.ldv w) c with done := true, wrs := loadWrs w.d.toNat (2 ^ w.size) (spaceVals s true (2 ^ w.size) accs) }) c
          (accs.map (fun a => (a.uid, 2 ^ w.size)))))

/-- stv (R157): it closes the region (R154). -/
def execStv (w : FmWord) (s : State) : Out :=
  match pre (.stv w) s with
  | .out o => o
  | .go c =>
    if flagFull (.stv w) c || mustWait s c.gid (w.mod == 2) false || unchecked s c.gid then hold s c
    else match lanesOf c.act with
    | [] => issueNone s (.stv w) c
    | _ => withSpace s c true false (2 ^ w.size) (spaceLanes c w) (fun accs =>
        if accs.any (fun a => pendingCast s c.gid a.uid a.off (2 ^ w.size)) then hold s c
        else .next (awayFlits (commitPoint (issueOp (spaceRelease (spaceStores (vaultSync s c w) true c.g w.d.toNat (2 ^ w.size) accs) c true
            (w.mod == 2) (2 ^ w.size) accs) (.stv w) c { newOp (.stv w) c with done := true }) c.gid c.sp) c
          (accs.map (fun a => (a.uid, 2 ^ w.size)))))

/-! ### Constant loads (R161) -/

/-- The constant cache's copy of a line for a launch. -/
def ccFind (s : State) (core lid line : Nat) : Option (List Byte) :=
  ((coreOf s core).cc.find? (fun e => e.1 == lid && e.2.1 == line)).map (·.2.2)

/-- The bytes an ldc reads, through the constant cache: a line of its own launch, else the line as memory holds it. -/
def ccRead (s : State) (core lid pa n : Nat) : List Byte × State :=
  let line := lineOf pa
  let fill (s : State) : List Byte × State :=
    let s := foldLine s line
    let bs := physRead s (128 * line) 128
    ((bs.drop (pa % 128)).take n,
     mapCore s core (fun c => { c with cc := (lid, line, bs) :: c.cc.filter (fun e => !(e.1 == lid && e.2.1 == line)) }))
  match ccFind s core lid line with
  | none => fill s
  | some bs =>
    let (k, s) := takeFree s
    -- the device may have refilled the line since
    if Config.chance k then fill s else ((bs.drop (pa % 128)).take n, s)

/-- ldc (R161): one address, of the lowest active lane, for every active lane. -/
def execLdc (w : FmWord) (s : State) : Out :=
  match pre (.ldc w) s with
  | .out o => o
  | .go c =>
    let n := 2 ^ w.size
    if flagFull (.ldc w) c || mustWait s c.gid false false then hold s c
    else match lanesOf c.act with
    | [] => issueNone s (.ldc w) c
    | l :: _ =>
      withGlobal s c .read .read n [(l, addrOf c.g w.base 0xFF w.off l, none)] (fun accs =>
        match accs with
        | [] => issueNone s (.ldc w) c
        | a :: _ =>
          if isPoison s .mem 0 a.pa n then
            .next (trapWait s (mcheckG s 3 (poisonAddr s a.pa n) c.g) c.gid c.sp
              { infoAt 0x3E#6 c.t c.act with flanes := setBit 0 l true, faddr := some a.va })
          else
            let r := ccRead (countUnbacked (walkFold s (whoOf c.g) a.va) a.pa n) c.g.core c.g.lid a.pa n
            .next (issueOp r.2 (.ldc w) c
              { newOp (.ldc w) c with done := true, wrs := loadWrs w.d.toNat n ((lanesOf c.act).map (fun l => (l, r.1))) }))

/-! ### Cache control (R162) -/

def cacheLanes (c : Go) (w : FmWord) : List (Nat × Double × Option (BitVec 6)) :=
  (lanesOf c.act).map (fun l => (l, addrOf c.g w.base w.idx w.off l, none))

/-- cachectl.pf changes no value; a lane that would fault is dropped. -/
def execCachectlPf (w : FmWord) (s : State) : Out :=
  match pre (.cachectlPf w) s with
  | .out o => o
  | .go c => if flagFull (.cachectlPf w) c then hold s c else issueNone s (.cachectlPf w) c

/-- .wb and .evict: checked as a load, then each line is handled. -/
def cacheLines (i : Instr) (w : FmWord) (s : State) (f : State → Nat → State) : Out :=
  match pre i s with
  | .out o => o
  | .go c =>
    if flagFull i c then hold s c
    else match lanesOf c.act with
    | [] => issueNone s i c
    | _ => withGlobal s c .read .fetch 1 (cacheLanes c w) (fun accs =>
        .next (issueOp (accs.foldl (fun s a => f s (lineOf a.pa)) s) i c { newOp i c with done := true }))

/-- cachectl.wb: the line's partials fold, and the line is written back. -/
def execCachectlWb (w : FmWord) (s : State) : Out := cacheLines (.cachectlWb w) w s writeBackLine
/-- cachectl.evict: as .wb, then the line is invalidated, its records with it. -/
def execCachectlEvict (w : FmWord) (s : State) : Out := cacheLines (.cachectlEvict w) w s evictLine

/-- cachectl.cinv: the core's constant cache is emptied for every launch. -/
def execCachectlCinv (w : FmWord) (s : State) : Out :=
  match pre (.cachectlCinv w) s with
  | .out o => o
  | .go c =>
    if flagFull (.cachectlCinv w) c then hold s c
    else if c.act = 0 then issueNone s (.cachectlCinv w) c
    else issueNone (mapCore s c.g.core (fun k => { k with cc := [] })) (.cachectlCinv w) c

/-! ### Conflict detection (R167) -/

def confUnit (c : Go) (w : FmWord) (l : Nat) : Nat := (addrOf c.g w.base w.idx w.off l).toNat / 2 ^ w.size

def confWord (i : Instr) (w : FmWord) (s : State) (rel : Go → Nat → Nat → Bool) : Out :=
  runLanes i s (.reg w.d) (fun c l => res32 (maskOf (fun m => c.act.getLsbD m && rel c l m)))

/-- conf.eq. -/
def execConfEq (w : FmWord) (s : State) : Out := confWord (.confEq w) w s (fun c l m => confUnit c w m == confUnit c w l)
/-- conf.lt. -/
def execConfLt (w : FmWord) (s : State) : Out :=
  confWord (.confLt w) w s (fun c l m => decide (m < l) && confUnit c w m == confUnit c w l)
/-- conf.bank. -/
def execConfBank (w : FmWord) (s : State) : Out :=
  confWord (.confBank w) w s (fun c l m => confUnit c w m % 32 == confUnit c w l % 32 && confUnit c w m != confUnit c w l)

/-! ### Fences (R168) -/

/-- The words whose pending accesses an acquire or full fence holds the later ones behind. -/
def fenced : Instr → Bool
  | .ld _ | .st _ | .lds _ | .sts _ | .ldv _ | .stv _ | .atom _ | .atoms _ | .red _ | .gather _ | .gatherBnd _
  | .vbufZ _ | .vbufId _ | .vbufAll _ | .vbufZmax _ => true
  | _ => false

/-- An acquire or full fence of a scope holds the later accesses of its group back behind the pending ones (R168), and orders what those
read (R310). -/
def fenceHolds (gid sc : Nat) (e : Nat × Op) : Nat × Op :=
  if e.2.gid = gid ∧ fenced e.2.instr then (e.1, { e.2 with acq := true, later := max e.2.later sc }) else e

/-- fence: a release or full fence waits for the group's earlier accesses, those of skey and vbuf with the ones that R168 lists (R311,
R312; DEDUCED, log entry 96); an acquire or full one holds back the later ones. -/
def execFence (w : FsWord) (s : State) : Out :=
  match pre (.fence w) s with
  | .out o => o
  | .go c =>
    -- the loads and atoms before it in the clause learn whether it makes them acquires (R317)
    let s := { s with ops := s.ops.map (fun e => (e.1, fenceDecides c.t.pc c.t.hdr c.gid c.sp (c.act != 0) e.2)) }
    if c.act = 0 then .next (retireSame s c)
    else if fenceKind w ≠ 1 && accessPending s c.gid then hold s c
    else
      let s := if fenceKind w = 2 then s
        else fenceAcquire { s with ops := s.ops.map (fenceHolds c.gid (fenceScope w)) } (partyOf s c.gid c.g) (fenceScope w)
      let s := if fenceScope w ≥ 5 then advanceRegion s c.g.uid else s
      let s := if fenceKind w = 1 then s else fenceRelease s c.gid (fenceScope w)
      let sc := if fenceKind w = 1 then c.t.relScope else max c.t.relScope (fenceScope w)
      .next (mapGrp (retireSame s c) c.gid (fun g => mapSplit g c.sp (fun t => { t with relScope := sc })))

end Sys2Proof.Machine
end

