-- ==== Sys2Proof/Machine/Atomic.lean ====
section
/-! DEFINITION. Sys2Proof/Machine/Atomic.lean: atomics and reductions (R163–R166): what one step computes, their issue, and the
scratchpad forms. -/

namespace Sys2Proof.Machine

open Sys2Proof

/-- Bytes of an atomic's location (R163). -/
def atomSize (m : Nat) : Nat := if m = 1 ∨ m = 0x0B ∨ m = 0x0D then 8 else 4

/-- NEW(old, x); for cas, x is the compare value and y the new one (R163). -/
def atomNew (m : Nat) (old x y : Double) : Double :=
  let a : Word := bits old 0 32
  let b : Word := bits x 0 32
  let w (v : Word) : Double := v.setWidth 64
  let pick (p : Bool) : Double := w (if p then a else b)
  match m with
  | 0x00 => w (a + b)
  | 0x01 => old + x
  | 0x02 => BitVec.ofNat 64 (addF32 a.toNat b.toNat)
  | 0x03 => pick (decide (a.toInt ≤ b.toInt))
  | 0x04 => pick (decide (a.toInt ≥ b.toInt))
  | 0x05 => pick (decide (a.toNat ≤ b.toNat))
  | 0x06 => pick (decide (a.toNat ≥ b.toNat))
  | 0x07 => w (a &&& b)
  | 0x08 => w (a ||| b)
  | 0x09 => w (a ^^^ b)
  | 0x0A => w b
  | 0x0B => x
  | 0x0C => if a = b then w (bits y 0 32) else w a
  | 0x0D => if old = x then y else old
  | 0x0E => if a.toNat < b.toNat then w (a + 1) else w a
  | 0x0F => if a.toNat > b.toNat then w (a - 1) else w a
  | 0x10 => BitVec.ofNat 64 (minMaxCode .fp32 false false a.toNat b.toNat).1
  | 0x11 => BitVec.ofNat 64 (minMaxCode .fp32 true false a.toNat b.toNat).1
  | _ => old

/-- A merging form: an addition whose old value nobody reads (R294). -/
def merging : Instr → Bool
  | .red w => decide (w.minor.toNat ≤ 2)
  | .atom w => decide (w.minor.toNat ≤ 2) && w.d == 0xFF
  | _ => false

/-- The type a merging form adds in. -/
def troughTyOf (m : Nat) : TroughTy := if m = 1 then .i64 else if m = 2 then .f32 else .i32

/-- X of one lane: the data in the low half, or compare and new (R163). -/
def atomData (g : Group) (m f l : Nat) : BitVec 128 :=
  let r (k : Nat) : BitVec 128 := (regGet g (f + k) l).setWidth 128
  if m = 0x0D then r 0 ||| (r 1 <<< 32) ||| (r 2 <<< 64) ||| (r 3 <<< 96)
  else if m = 0x0C then r 0 ||| (r 1 <<< 64)
  else if m = 1 ∨ m = 0x0B then r 0 ||| (r 1 <<< 32)
  else r 0

/-- One lane's indivisible step on an old value. -/
def atomStep (m : Nat) (old : Double) (d : BitVec 128) : Double := atomNew m old (bits d 0 64) (bits d 64 64)

/-- atom (R163, R164): the access waits for its home slice and closes the region (R154). -/
def execAtom (w : FmWord) (s : State) : Out :=
  match pre (.atom w) s with
  | .out o => o
  | .go c =>
    let m := w.minor.toNat
    let n := atomSize m
    if flagFull (.atom w) c then hold s c
    else match lanesOf c.act with
    | [] => issueNone s (.atom w) c
    | ls =>
      withGlobal s c .both .both n (ls.map (fun l => (l, addrOf c.g w.base 0xFF w.off l, none))) (fun accs =>
        if unchecked s c.gid then hold s c
        else
          .next (issueCloser s (.atom w) c (withAcq
            { newOp (.atom w) c with
                rel := decide (c.t.relScope ≠ 0), relS := c.t.relScope,
                accs := accs.map (fun a => { accessOf a n [] true with data := [atomData c.g m w.idx.toNat a.lane] }) } (pairedAcq s c))))

/-- Combine the lanes of a red that name one location, in increasing lane order (R165). -/
def combineRed (m : Nat) (accs : List Access) : List LaneAcc → (LaneAcc → BitVec 128) → List Access
  | [], _ => accs
  | a :: r, data =>
    let x := data a
    let accs' :=
      if accs.any (fun e => e.pa == a.pa) then
        accs.map (fun e => if e.pa = a.pa then
            { e with lanes := e.lanes ++ [a.lane], data := e.data.map (fun d => (atomNew m (bits d 0 64) (bits x 0 64) 0).setWidth 128) }
          else e)
      else accs ++ [{ accessOf a (atomSize m) [] true with data := [x] }]
    combineRed m accs' r data

/-- red (R165). -/
def execRed (w : FmWord) (s : State) : Out :=
  match pre (.red w) s with
  | .out o => o
  | .go c =>
    let m := w.minor.toNat
    if flagFull (.red w) c then hold s c
    else match lanesOf c.act with
    | [] => issueNone s (.red w) c
    | ls =>
      withGlobal s c .both .write (atomSize m) (ls.map (fun l => (l, addrOf c.g w.base w.idx w.off l, none))) (fun accs =>
        if unchecked s c.gid then hold s c
        else .next (issueCloser s (.red w) c
          { newOp (.red w) c with accs := combineRed m [] accs (fun a => atomData c.g m w.d.toNat a.lane) }))

/-- The lanes of an atoms, in increasing order, one step each: the state, and the old value of each lane. -/
def atomsSteps (m n : Nat) (g : Group) (f : Nat) : List SpaceAcc → State → List (Nat × List Byte) → State × List (Nat × List Byte)
  | [], s, vs => (s, vs)
  | a :: r, s, vs =>
    let old := spaceBytes s false a.uid a.off n
    atomsSteps m n g f r (spacePut s false a.uid a.off (bytesOf n (atomStep m (ofBytes 64 old) (atomData g m f a.lane))))
      (vs ++ [(a.lane, old)])

/-- atoms (R163, R164): at the scratchpad, closing the region (R154). -/
def execAtoms (w : FmWord) (s : State) : Out :=
  match pre (.atoms w) s with
  | .out o => o
  | .go c =>
    let m := w.minor.toNat
    let n := atomSize m
    if c.act = 0 then .next (retireSame s c)
    else if mustWait s c.gid false false || unchecked s c.gid then hold s c
    else withSpace s c false true n ((lanesOf c.act).map (fun l => (l, addrOf c.g w.base 0xFF w.off l))) (fun accs =>
      let r := atomsSteps m n c.g w.idx.toNat accs s []
      -- an atomic step leaves what a release left at its location, and no role of its own (R310, R311)
      let t := spaceFences { r.1 with rels := s.rels } c false true true n accs
      .next (retireClose (mapGrp t c.gid (fun g => if w.d = 0xFF then g else putWrs g (loadWrs w.d.toNat n r.2))) c))

end Sys2Proof.Machine
end

