-- ==== Sys2Proof/Machine/Approx.lean ====
section
/-! DEFINITION. Sys2Proof/Machine/Approx.lean: the approximated functions frcp, frsq, fex2, flg2, fsincos, fact and fdact and
the fixed function Exp of blend and bgrad (R119, R130, R131). The manual gives a bound, exact cases and special operands; the
value within the bound is the free function `Config.approx` of the operand bits, so no proof can see it. -/

namespace Sys2Proof.Machine

open Sys2Proof

/-! ### Real functions to about 150 bits, to hold a free value to the bound of its rule -/

/-- `a` cut to its highest 160 bits. -/
def dyTrunc (a : Dy) : Dy :=
  let k := Nat.log2 a.n.natAbs
  if k > 160 then ⟨a.n / (2 ^ (k - 160) : Nat), a.e + ((k - 160 : Nat) : Int)⟩ else a
def dyMul (a b : Dy) : Dy := dyTrunc (a.mul b)
def dyAdd (a b : Dy) : Dy := dyTrunc (a.add b)
def dySub (a b : Dy) : Dy := dyTrunc (a.sub b)
/-- a / b to 160 bits, b nonzero; zero for b = 0. -/
def dyDiv (a b : Dy) : Dy :=
  if b.n = 0 then Dy.zero else
  let k := 192 + Nat.log2 b.n.natAbs
  dyTrunc ⟨a.n * (2 ^ k : Nat) / b.n, a.e - b.e - (k : Int)⟩
def dyOne : Dy := ⟨1, 0⟩
/-- ln 2 and π, cut to 192 fraction bits. -/
def dyLn2 : Dy := ⟨4350955369971217654477563090224794165364344896676135745069, -192⟩
def dyPi : Dy := ⟨19720096697726538562396133364228268891463450865190089732560, -192⟩

/-- Σ t × r^i / (n+1)…(n+i): the Taylor series of the exponential, and with r = −x² of sine and cosine. -/
def expSeries (r : Dy) : Nat → Nat → Dy → Dy → Dy
  | 0, _, _, acc => acc
  | k + 1, n, t, acc =>
    let t' := dyDiv (dyMul t r) (Dy.ofInt (n + 1))
    expSeries r k (n + 1) t' (dyAdd acc t')
/-- The series with two factors of the factorial a term: terms n, n + 2, … -/
def trigSeries (r : Dy) : Nat → Nat → Dy → Dy → Dy
  | 0, _, _, acc => acc
  | k + 1, n, t, acc =>
    let t' := dyDiv (dyMul t r) (Dy.ofInt ((n + 1) * (n + 2)))
    trigSeries r k (n + 2) t' (dyAdd acc t')
/-- Σ z^(2i+1) / (2i+1). -/
def atanhSeries (z2 : Dy) : Nat → Nat → Dy → Dy → Dy
  | 0, _, _, acc => acc
  | k + 1, n, t, acc =>
    let t' := dyMul t z2
    atanhSeries z2 k (n + 2) t' (dyAdd acc (dyDiv t' (Dy.ofInt (n + 2))))

/-- 2^x. -/
def dyExp2 (x : Dy) : Dy :=
  let k := x.floor
  let f := x.sub (Dy.ofInt k)
  (expSeries (dyMul f dyLn2) 45 0 dyOne dyOne).scale k
/-- e^x, |x| held to 4096. -/
def dyExp (x : Dy) : Dy :=
  let y := if (Dy.ofInt 4096).lt x then Dy.ofInt 4096 else if x.lt (Dy.ofInt (-4096)) then Dy.ofInt (-4096) else x
  let k := (dyDiv y dyLn2).floor
  let r := y.sub ((Dy.ofInt k).mul dyLn2)
  (expSeries r 45 0 dyOne dyOne).scale k
/-- ln x, x positive. -/
def dyLn (x : Dy) : Dy :=
  let k := x.log2
  let f := x.scale (-k)
  let (f, k) := if (Dy.mk 4 0).lt (f.mul ⟨3, 0⟩) then (f.scale (-1), k + 1) else (f, k)
  let z := dyDiv (f.sub dyOne) (f.add dyOne)
  dyAdd ((Dy.ofInt k).mul dyLn2) ((atanhSeries (dyMul z z) 45 1 z z).scale 1)
/-- sin(π t) and cos(π t) for |t| at most 2. -/
def dySinPi (t : Dy) : Dy := let x := dyMul t dyPi; trigSeries (dyMul x x).neg 40 1 x x
def dyCosPi (t : Dy) : Dy := let x := dyMul t dyPi; trigSeries (dyMul x x).neg 40 0 dyOne dyOne
def dyTanh (x : Dy) : Dy :=
  let e := dyExp (x.abs.scale 1).neg
  let t := dyDiv (dyOne.sub e) (dyOne.add e)
  if x.n < 0 then t.neg else t
/-- 1 − tanh² x = 4e / (1 + e)² with e = e^(−2|x|), which keeps its precision where tanh x is close to 1. -/
def dySech2 (x : Dy) : Dy :=
  let e := dyExp (x.abs.scale 1).neg
  let d := dyOne.add e
  (dyDiv e (dyMul d d)).scale 2
def dySigmoid (x : Dy) : Dy :=
  let e := dyExp x.abs.neg
  if x.n < 0 then dyDiv e (dyOne.add e) else dyDiv dyOne (dyOne.add e)

/-! ### Delivery within a bound -/

/-- One ulp of FP32 at the exact value `y` (R130). -/
def ulp32 (y : Dy) : Dy := if y.n = 0 then ⟨1, -149⟩ else ⟨1, max y.log2 (-126) - 23⟩

def dyMax (a b : Dy) : Dy := if a.lt b then b else a

/-- An exact result is tiny: nonzero and, rounded to 24 bits with no lower exponent bound, below 2⁻¹²⁶ (R60). -/
def tiny32 (y : Dy) : Bool :=
  let n := (roundAt .ne false y.n.natAbs y.e (y.log2 - 23)).1
  decide (y.n ≠ 0) && decide ((if n = 2 ^ 24 then y.log2 + 1 else y.log2) < -126)

/-- The value delivered for the exact result `y` with the bound `bd`: the free code where it denotes a finite value within the
bound, otherwise the nearest code; overflow by R59. NX is set where the delivered value is not the exact one (`ex` says that
`y` itself is exact), and UF where it is then also tiny (R60). -/
def approxDeliver (free : Word) (y bd : Dy) (ex : Bool) : Nat × FFlags :=
  let (c, fl) := roundFin .fp32 .ne (decide (y.n < 0)) y.n.natAbs y.e
  if fl &&& flOF ≠ 0 then (c, fl)
  else
    let fr := f32 free.toNat
    let ok : Bool := match fr with
      | .fin .. => (fr.dy.sub y).abs.le bd
      | _ => false
    let v := if ok then free.toNat else c
    let differs := !(ex && (f32 v).dy.eq y)
    (v, flIf differs flNX ||| flIf (differs && tiny32 y) flUF)

/-- An exact case: the value itself, no flag (R130). -/
def exactDeliver (y : Dy) : Nat × FFlags := ((roundFin .fp32 .ne (decide (y.n < 0)) y.n.natAbs y.e).1, 0)

def nanRes (s : Bool) : Nat × FFlags := (Fmt.fp32.nanCode, flIf s flIV)
def ivRes : Nat × FFlags := (Fmt.fp32.nanCode, flIV)
def infRes (neg : Bool) (fl : FFlags := 0) : Nat × FFlags := (0x7F800000 + (if neg then 0x80000000 else 0), fl)
def zeroRes (neg : Bool) : Nat × FFlags := (if neg then 0x80000000 else 0, 0)
def oneRes (neg : Bool := false) : Nat × FFlags := (0x3F800000 + (if neg then 0x80000000 else 0), 0)

/-- The nonzero magnitude m is a power of two. -/
def isPow2 (m : Nat) : Bool := m != 0 && 2 ^ Nat.log2 m == m

/-- frcp (R130). -/
def laneFrcp (a : Nat) : Nat × FFlags :=
  match f32 a with
  | .nan s => nanRes s
  | .inf neg => zeroRes neg
  | .fin neg m e =>
    if m = 0 then infRes neg flDZ else
    let y := dyDiv dyOne (Num.fin neg m e).dy
    if isPow2 m then
      let y' : Dy := ⟨if neg then -1 else 1, -(e + (Nat.log2 m : Int))⟩
      if y'.e ≥ -126 then
        if y'.e > 127 then infRes neg (flOF ||| flNX) else exactDeliver y'
      else approxDeliver (Config.approx 0 (BitVec.ofNat 32 a) 0) y' (ulp32 y') true
    else approxDeliver (Config.approx 0 (BitVec.ofNat 32 a) 0) y (ulp32 y) false

/-- frsq (R130). -/
def laneFrsq (a : Nat) : Nat × FFlags :=
  match f32 a with
  | .nan s => nanRes s
  | .inf neg => if neg then ivRes else zeroRes false
  | .fin neg m e =>
    if m = 0 then infRes neg flDZ else if neg then ivRes else
    let k := e + (Nat.log2 m : Int)
    if isPow2 m && k % 2 == 0 then exactDeliver ⟨1, -(k / 2)⟩
    else
      let (s, q) := sqrtSticky (m * 2 ^ 128) (e - 128)
      let y := dyDiv dyOne ⟨s, q⟩
      approxDeliver (Config.approx 1 (BitVec.ofNat 32 a) 0) y ((ulp32 y).scale 1) false

/-- fex2 (R130). -/
def laneFex2 (a : Nat) : Nat × FFlags :=
  match f32 a with
  | .nan s => nanRes s
  | .inf neg => if neg then zeroRes false else infRes false
  | .fin neg m e =>
    let x := (Num.fin neg m e).dy
    if m = 0 then oneRes
    else if x.eq (Dy.ofInt x.floor) then
      let y : Dy := ⟨1, x.floor⟩
      if x.floor ≥ -149 ∧ x.floor ≤ 127 then exactDeliver y
      else approxDeliver (Config.approx 2 (BitVec.ofNat 32 a) 0) y ((ulp32 y).scale 1) true
    else
      let y := dyExp2 x
      approxDeliver (Config.approx 2 (BitVec.ofNat 32 a) 0) y ((ulp32 y).scale 1) false

/-- flg2 (R130). -/
def laneFlg2 (a : Nat) : Nat × FFlags :=
  match f32 a with
  | .nan s => nanRes s
  | .inf neg => if neg then ivRes else infRes false
  | .fin neg m e =>
    if m = 0 then infRes true flDZ else if neg then ivRes else
    if isPow2 m then exactDeliver (Dy.ofInt (e + (Nat.log2 m : Int)))
    else
      let x := (Num.fin neg m e).dy
      let y := dyDiv (dyLn x) dyLn2
      let near := (Dy.mk 1 (-1)).le x && x.le ⟨2, 0⟩
      approxDeliver (Config.approx 3 (BitVec.ofNat 32 a) 0) y (if near then ⟨1, -22⟩ else (ulp32 y).scale 1) false

/-- fsincos (R130): sin(π·a) and cos(π·a). -/
def laneFsincos (a : Nat) : (Nat × FFlags) × (Nat × FFlags) :=
  match f32 a with
  | .nan s => (nanRes s, nanRes s)
  | .inf _ => (ivRes, ivRes)
  | .fin neg m e =>
    if m = 0 then (zeroRes neg, oneRes) else
    let x := (Num.fin neg m e).dy
    let k := x.floor
    let t := x.sub (Dy.ofInt k)
    let odd := k % 2 != 0
    if t.isZero then (zeroRes neg, oneRes odd)
    else if t.eq ⟨1, -1⟩ then (oneRes odd, zeroRes false)
    else
      let s0 := dySinPi t
      let c0 := dyCosPi t
      let s := if odd then s0.neg else s0
      let c := if odd then c0.neg else c0
      (approxDeliver (Config.approx 4 (BitVec.ofNat 32 a) 0) s ⟨1, -22⟩ false,
       approxDeliver (Config.approx 5 (BitVec.ofNat 32 a) 0) c ⟨1, -22⟩ false)

/-- 0.797_884_6 and its argument of tanh (R131). -/
def geluU (x : Dy) : Dy :=
  let x3 := dyMul (dyMul x x) x
  dyMul (dyDiv ⟨7978846, 0⟩ ⟨10000000, 0⟩) (dyAdd x (dyMul (dyDiv ⟨44715, 0⟩ ⟨1000000, 0⟩) x3))

/-- f(x) of fact for a finite x, and whether the value is the exact one (R131). -/
def factFn (fn : Nat) (x : Dy) : Dy × Bool :=
  let z := x.isZero
  if fn = 1 then (dySigmoid x, z)
  else if fn = 2 then (if z then Dy.zero else dyTanh x, z)
  else if fn = 3 then (if x.n > 0 then (x, true) else if z then (Dy.zero, true) else (dySub (dyExp x) dyOne, false))
  else if fn = 4 then
    (if x.n > 0 then dyAdd x (dyLn (dyOne.add (dyExp x.neg))) else dyLn (dyOne.add (dyExp x)), false)
  else if fn = 5 then
    (if z then Dy.zero else (dyMul x (dyOne.add (dyTanh (geluU x)))).scale (-1), z)
  else (if z then Dy.zero else dyMul x (dySigmoid x), z)

/-- The bound of R131: 4 ulp, or 2⁻²² × Max(1, |b|), whichever is larger. -/
def actBound (y b : Dy) : Dy := dyMax ((ulp32 y).scale 2) ((dyMax dyOne b.abs).scale (-22))

/-- A result the manual does not state (an operand at infinity where the formula has no value): value and flags are free. -/
def openAct (fn : Nat) (a b : Nat) : Nat × FFlags :=
  let x := Config.openAct fn (BitVec.ofNat 32 a) (BitVec.ofNat 32 b)
  ((bits x 0 32).toNat, bits x 32 7)

/-- fact (R131). At an infinite operand, where the rule only bounds the error, the result is the limit of the formula, with no flag; where
it has none, the result is open (DESIGN CHOICE, log entry 5). -/
def laneFact (fn : Nat) (a : Nat) : Nat × FFlags :=
  match f32 a with
  | .nan s => nanRes s
  | .inf neg =>
    if neg then
      if fn = 0 ∨ fn = 1 ∨ fn = 4 then zeroRes false
      else if fn = 2 ∨ fn = 3 then oneRes true else openAct fn a 0
    else if fn = 1 ∨ fn = 2 then oneRes else infRes false
  | .fin neg m e =>
    if fn = 0 then (if neg || m == 0 then zeroRes false else (a, 0)) else
    let (y, ex) := factFn fn (Num.fin neg m e).dy
    approxDeliver (Config.approx (8 + fn) (BitVec.ofNat 32 a) 0) y (actBound y dyOne) ex

/-- g of fdact for a finite saved value, and whether it is exact (R131). -/
def fdactG (fn : Nat) (y : Dy) : Dy × Bool :=
  let z := y.isZero
  if fn = 1 then (y.mul (dyOne.sub y), true)
  else if fn = 2 then (dyOne.sub (y.mul y), true)
  else if fn = 3 then (y.add dyOne, true)
  else if fn = 4 then (if z then Dy.zero else dySub dyOne (dyExp y.neg), z)
  else if fn = 5 then
    if z then (⟨1, -1⟩, true) else
    let u := geluU y
    let d := dyMul (dyDiv ⟨7978846, 0⟩ ⟨10000000, 0⟩)
      (dyAdd dyOne (dyMul (dyDiv ⟨134145, 0⟩ ⟨1000000, 0⟩) (dyMul y y)))
    (dyAdd (dySigmoid (u.scale 1)) (dyMul ((dyMul y (dySech2 u)).scale (-1)) d), false)
  else
    if z then (⟨1, -1⟩, true) else
    let s := dySigmoid y
    (dyMul s (dyAdd dyOne (dyMul y (dySigmoid y.neg))), false)

/-- b × g for an exact g of 0 or 1, under RNE (R131). -/
def exactG (one : Bool) (b : Nat) : Nat × FFlags := laneFmul .fp32 0 false .ne b (if one then 0x3F800000 else 0)

/-- b × g for a saved infinity, where the formula of g has a value there: −∞, or 1 (R131); otherwise result and flags are free. -/
def infG (fn : Nat) (neg : Bool) (a b : Nat) : Nat × FFlags :=
  if fn = 4 ∧ !neg then exactG true b
  else if fn ≤ 4 then laneFmul .fp32 0 false .ne b 0xFF800000
  else openAct (8 + fn) a b

/-- fdact (R131). -/
def laneFdact (fn : Nat) (a b : Nat) : Nat × FFlags :=
  let x := f32 a
  let g := f32 b
  if x.isNan || g.isNan then nanRes (x.isSig || g.isSig)
  else
    let pos : Bool := match x with
      | .inf neg => !neg
      | .fin neg m _ => !neg && m != 0
      | .nan _ => false
    if fn = 0 then exactG pos b
    else if fn = 3 ∧ pos then exactG true b
    else match x with
      | .fin .. =>
        let (y, ex) := fdactG fn x.dy
        match g with
        | .fin .. =>
          let r := g.dy.mul y
          if r.isZero && (ex || g.isZero) then zeroRes (g.sign != decide (y.n < 0))
          else approxDeliver (Config.approx (16 + fn) (BitVec.ofNat 32 a) (BitVec.ofNat 32 b)) r (actBound r g.dy) ex
        | .inf neg => if y.isZero then ivRes else infRes (neg != decide (y.n < 0))
        | .nan _ => nanRes false
      | .inf neg => infG fn neg a b
      | .nan _ => nanRes false

/-- Exp(x) of blend and bgrad: FP32, within 2 ulp of e^x, with the special operands of fex2 (R130, chapter 7). -/
def laneExp (a : Nat) : Nat :=
  match f32 a with
  | .nan _ => Fmt.fp32.nanCode
  | .inf neg => (if neg then zeroRes false else infRes false).1
  | .fin neg m e =>
    if m = 0 then oneRes.1 else
    let y := dyExp (Num.fin neg m e).dy
    (approxDeliver (Config.approx 6 (BitVec.ofNat 32 a) 0) y ((ulp32 y).scale 1) false).1

end Sys2Proof.Machine
end

