-- ==== Sys2Proof/Machine/HomeSlice.lean ====
section
/-! DEFINITION. Sys2Proof/Machine/HomeSlice.lean: an operation's accesses reach their home slices: the order within the group, the race
and scope checks, the access itself, the Trough, the commit of a closing instruction (R155–R159, R294, R298, R311, R317–R323). -/

namespace Sys2Proof.Machine

open Sys2Proof

/-! ### What an operation's accesses are -/

def opReads : Instr → Bool
  | .ld _ | .gather _ | .gatherBnd _ | .atom _ | .vbufZ _ | .vbufId _ | .vbufAll _ | .vbufZmax _ => true
  | _ => false
def opWrites : Instr → Bool
  | .st _ | .atom _ | .red _ => true
  | _ => false

/-- The scopes of a synchronisation access, its release's first; none for another access (R317). -/
def opScopes (o : Op) : List Nat :=
  if merging o.instr then []
  else
    let roles := [o.relS, o.acqS].filter (fun x => x != 0)
    if roles.isEmpty ∧ o.instr matches .atom _ then [5] else roles

/-- The kind of an operation's accesses (R305). -/
def opKind (o : Op) : WKind :=
  match o.instr with
  | .red w => .red w.minor.toNat
  | .bgrad _ => .red 2
  | .atom w => if merging (.atom w) then .red w.minor.toNat else .sync ((opScopes o).headD 5)
  | _ => match opScopes o with
    | sc :: _ => .sync sc
    | [] => .plain

def touchesOf (o : Op) : List Touch :=
  o.accs.flatMap (fun a => a.lanes.map (fun l =>
    { lane := l, va := a.va, pa := a.pa, n := a.n, kind := opKind o,
      rd := opReads o.instr && !merging o.instr, wr := opWrites o.instr }))

/-! ### Order (R159, R306, R311) -/

/-- An operation of the same group that must be performed first; a release waits for the key writes of a splat too (R311). -/
def goesFirst (s : State) (eid : Nat) (e o : Op) : Bool :=
  !e.done && ((o.rel && isSkey e.instr) || !e.engine && (e.acq || o.rel || o.closer.isSome || (e.rel && o.acq)) ||
    o.accs.any (fun b => opMeets s eid e b.pa b.n))

/-- The operation's accesses may be performed now. -/
def mayPerform (s : State) (oid : Nat) (o : Op) : Bool :=
  !o.done && !o.engine && !undecided s o && !(s.ops.any (fun e => decide (e.1 < oid) && e.2.gid == o.gid && goesFirst s e.1 e.2 o))

/-! ### The BTE aperture (R298, R299) -/

/-- STAT. -/
def bteStat (b : BteCh) : Double :=
  (if b.err then 1#64 <<< 40 else 0) ||| (BitVec.ofNat 64 b.queue.length <<< 32) ||| (b.donecnt.setWidth 64 <<< 16) |||
  b.accepted.setWidth 64

/-- A load from the aperture. -/
def bteRead (s : State) (pa n : Nat) : List Byte :=
  if bteOff pa = 8 ∧ n = 8 then bytesOf 8 (bteStat (bteOf s (bteChan pa))) else List.replicate n 0

/-- Jobs of a context that carry a footprint and have not completed (R304). -/
def jobsOf (s : State) (ctx : Nat) : Nat := (s.jobs.filter (fun j => j.2.ctx == ctx && j.2.kind != .ray && j.2.kind != .skey)).length

/-- A store to the aperture by a group (R298). -/
def bteWrite (s : State) (o : Op) (pa n : Nat) (d : Double) : State :=
  let ch := bteChan pa
  if bteOff pa = 0 then
    if n = 8 ∧ o.instr matches .st _ then
      if d.toNat ≥ 4096 then bteErr s ch
      else
        let b := bteOf s ch
        let g := (grp s o.gid).getD {}
        let j := namedJob s { kind := .bte ch d.toNat, ctx := o.ctx, lid := o.lid, uid := o.uid, gid := o.gid, known := false,
                              core := g.core, user := !g.sys }
        { s with jobs := tabPut s.jobs s.nextId j, nextId := s.nextId + 1,
                 bte := tabPut s.bte ch { b with queue := b.queue ++ [s.nextId], accepted := b.accepted + 1 } }
    else bteErr s ch
  else if bteOff pa = 8 ∧ n = 8 ∧ bit d 40 then { s with bte := tabPut s.bte ch { bteOf s ch with err := false } }
  else s

/-- The writes that a store's lanes make to the aperture: one to a location, with the data of the highest lane (R157). -/
def lastWrites : List Access → List Access
  | [] => []
  | a :: r => if inAperture a.pa ∧ r.any (fun b => b.pa == a.pa) then lastWrites r else a :: lastWrites r
/-- The accesses that an operation makes. -/
def opAccs (o : Op) : List Access := if o.instr matches .st _ then lastWrites o.accs else o.accs

/-- A command of the operation finds its channel's queue or the context's job table full (R298, R304). -/
def bteFull (s : State) (o : Op) : Bool :=
  let cmds := (opAccs o).filter (fun a => inAperture a.pa && bteOff a.pa == 0 && a.write && a.n == 8)
  cmds.any (fun a =>
    decide ((bteOf s (bteChan a.pa)).queue.length + (cmds.filter (fun b => bteChan b.pa == bteChan a.pa)).length > 64) ||
    decide (jobsOf s o.ctx + cmds.length > 1024))

/-! ### Performing an access -/

/-- The lane's step of an atomic or reduction at a location of memory: the old bytes and the state after. -/
def rmw (s : State) (m : Nat) (pa n : Nat) (d : BitVec 128) : List Byte × State :=
  let old := physRead s pa n
  (old, memPut s pa (bytesOf n (atomStep m (ofBytes 64 old) d)))

/-- One access: what it returns and the state after. -/
def performAcc (s : State) (o : Op) (a : Access) : List (Nat × List Byte) × State :=
  let d := a.data.headD 0
  let ret (bs : List Byte) : List (Nat × List Byte) := a.lanes.map (fun l => (l, bs))
  if inAperture a.pa then
    match o.instr with
    | .st _ | .red _ => ([], bteWrite s o a.pa a.n (bits d 0 64))
    | .atom _ => (ret (bteRead s a.pa a.n), bteWrite s o a.pa a.n (bits d 0 64))
    | _ => (ret (bteRead s a.pa a.n), s)
  else
    let s := memTouch s a.pa a.n
    match o.instr with
    | .st _ => ([], memPut s a.pa (bytesOf a.n d))
    | .atom w => let r := rmw s w.minor.toNat a.pa a.n d; (ret r.1, r.2)
    | .red w => ([], (rmw s w.minor.toNat a.pa a.n d).2)
    | _ => (ret (physRead s a.pa a.n), s)

/-- A merging access (R294). -/
def mergeAcc (s : State) (o : Op) (a : Access) : State :=
  let m := match o.instr with | .red w => w.minor.toNat | .atom w => w.minor.toNat | .bgrad _ => 2 | _ => 0
  if inAperture a.pa then bteWrite s o a.pa a.n (bits (a.data.headD 0) 0 64)
  else if backed s a.pa then troughMerge s o.ctx a.va a.pa (troughTyOf m) (bits (a.data.headD 0) 0 64)
  else countUp s cUnback

def performAll (s : State) (o : Op) : List Access → List (Nat × List Byte) → List (Nat × List Byte) × State
  | [], vs => (vs, s)
  | a :: r, vs =>
    if merging o.instr then performAll (mergeAcc s o a) o r vs
    else let x := performAcc s o a; performAll x.2 o r (vs ++ x.1)

/-- The destination of an operation that returns values: register field and bytes per lane. -/
def opDest (i : Instr) : Option (Nat × Nat) :=
  match i with
  | .ld w | .gather w | .gatherBnd w => some (w.d.toNat, 2 ^ w.size)
  | .atom w => if w.d = 0xFF then none else some (w.d.toNat, atomSize w.minor.toNat)
  | _ => none

/-- The greater of two FP32 depths (R126). -/
def depthMax (a b : Word) : Word := BitVec.ofNat 32 (minMaxCode .fp32 true false a.toNat b.toNat).1

/-- The greatest depth over the records read for a pixel (R246). -/
def zmaxOf (bs : List Byte) : Word :=
  (List.range (bs.length / 16)).foldl (fun z k => if k = 0 then nat32 bs 8 else depthMax z (nat32 bs (16 * k + 8))) 0

/-- The register writes that the values of an operation give. -/
def opWrs (i : Instr) (vals : List (Nat × List Byte)) : List RegWr :=
  match i with
  | .vbufZ w => vals.map (fun x => ⟨w.d.toNat, x.1, nat32 x.2 8⟩)
  | .vbufId w => loadWrs w.d.toNat 8 vals
  | .vbufAll w => vals.flatMap (fun x =>
      [⟨w.d.toNat, x.1, nat32 x.2 0⟩, ⟨w.d.toNat + 1, x.1, nat32 x.2 4⟩, ⟨w.d.toNat + 2, x.1, nat32 x.2 8⟩, ⟨w.d.toNat + 3, x.1, 0⟩])
  | .vbufZmax w => vals.map (fun x => ⟨w.d.toNat, x.1, zmaxOf x.2⟩)
  | _ => match opDest i with
    | some (f, n) => loadWrs f n vals
    | none => []

/-- A device-scope synchronisation access, which advances the unit's region number (R319). -/
def advances (o : Op) : Bool := (opScopes o).any (fun x => decide (x ≥ 5)) || (o.instr matches .atom _) && !merging o.instr

/-- The trap of a failed check at a home slice: precise at the instruction (R155, R318, R322). -/
def sliceTrap (s : State) (o : Op) (b : SliceBad) (t : Touch) (fl : Mask) : State :=
  let s := if b.cause = 0x3E then mcheckG s 3 (poisonAddr s t.pa t.n) ((grp s o.gid).getD {}) else s
  takeTrap s o.gid { cause := b.cause, pc := o.pc, active := o.act, flanes := fl, faddr := some t.va, other := b.other,
                     otherLid := b.lid, otherUnit := b.unit }

/-- What an acquire access joins before it is performed, and what a release access leaves at its location (R310, R317): an atomic step
leaves what stood there. An atom with neither role joins and leaves nothing (R311). -/
def opAcquire (s : State) (me : Party) (oid : Nat) (o : Op) : State :=
  if o.acqS = 0 ∨ merging o.instr then s
  else o.accs.foldl (fun s a => if inAperture a.pa then s else acquireAt s me oid o.acqS .mem 0 a.pa a.n) s
def opRelease (before after : State) (me : Party) (oid : Nat) (o : Op) : State :=
  let s := if (o.instr matches .atom _) && !merging o.instr then { after with rels := before.rels } else after
  if o.relS = 0 ∨ merging o.instr then s
  else
    let known := match (tabFind s.ops oid).bind (·.clock) with | some k => k | none => (syncOf s o.gid).known
    o.accs.foldl (fun s a => if inAperture a.pa then s else releaseAt s me known o.relS .mem 0 a.pa a.n) s

/-- The accesses of an operation reach their home slices: the checks, then the accesses, then a closing instruction's commit. -/
def reachSlices (s : State) (oid : Nat) (o : Op) : State :=
  match grp s o.gid with
  | none => s
  | some g =>
    if bteFull s o then s else
    let ts := touchesOf o
    let s := (linesOf ts).foldl mayEvict (o.accs.foldl (fun s a => walkFold s (whoOf g) a.va) s)
    -- a fence that its split has not come to by now counts as one with an active lane (log entry 47)
    let o := withAcq o ((o.ahead.map (·.2)).foldl max o.acqS, [])
    match sliceBadOf s (partyOfOp s o g) (opScopes o) ts with
    | some (b, t, fl) => sliceTrap s o b t fl
    | none =>
        -- the region closes before the operation that advances it is performed (R319)
        let s := if advances o then advanceRegion s o.uid else s
        let me := partyOfOp s o g
        let s := opAcquire s me oid o
        let r := performAll s o (opAccs o) []
        let s := recordAll (opRelease s r.2 me oid o) me oid o.later (opScopes o) ts
        let wrs := opWrs o.instr r.1
        let s := bump (mapOp s oid (fun o => { o with done := true, accs := [], wrs := o.wrs ++ wrs }))
        match o.closer with
        | some k => commitWith s o.gid k
        | none => s

end Sys2Proof.Machine
end

