-- ==== Sys2Proof/Machine/Hash.lean ====
section
/-! DEFINITION. Sys2Proof/Machine/Hash.lean: SHAKE256 (FIPS 202), which the measurements use (R467, R469, R470), and CRC-32, the check
of link flits (R431). -/

namespace Sys2Proof.Machine

open Sys2Proof

/-! ### Keccak-f[1600]: 25 lanes, lane x + 5·y -/

def rotl64 (x : Double) (n : Nat) : Double := x.rotateLeft n

def keccakRot : List Nat :=
  [0, 1, 62, 28, 27, 36, 44, 6, 55, 20, 3, 10, 43, 25, 39, 41, 45, 15, 21, 8, 18, 2, 61, 56, 14]

def keccakRc : List Double :=
  [0x0000000000000001, 0x0000000000008082, 0x800000000000808A, 0x8000000080008000, 0x000000000000808B, 0x0000000080000001,
   0x8000000080008081, 0x8000000000008009, 0x000000000000008A, 0x0000000000000088, 0x0000000080008009, 0x000000008000000A] ++
  [0x000000008000808B, 0x800000000000008B, 0x8000000000008089, 0x8000000000008003, 0x8000000000008002, 0x8000000000000080,
   0x000000000000800A, 0x800000008000000A, 0x8000000080008081, 0x8000000000008080, 0x0000000080000001, 0x8000000080008008]

/-- One round on 25 lanes. -/
def keccakRound (a : List Double) (rc : Double) : List Double :=
  let at_ (l : List Double) (i : Nat) : Double := l.getD i 0
  let c := (List.range 5).map (fun x => at_ a x ^^^ at_ a (x + 5) ^^^ at_ a (x + 10) ^^^ at_ a (x + 15) ^^^ at_ a (x + 20))
  let d := (List.range 5).map (fun x => at_ c ((x + 4) % 5) ^^^ rotl64 (at_ c ((x + 1) % 5)) 1)
  let th := (List.range 25).map (fun i => at_ a i ^^^ at_ d (i % 5))
  -- B[y, 2x + 3y] := rot(A[x, y]): the lane at (X, Y) comes from x = (X + 3Y) mod 5, y = X
  let b := (List.range 25).map (fun i =>
    let x := (i % 5 + 3 * (i / 5)) % 5
    let j := x + 5 * (i % 5)
    rotl64 (at_ th j) (keccakRot.getD j 0))
  (List.range 25).map (fun i =>
    let y := 5 * (i / 5)
    let v := at_ b i ^^^ (~~~ at_ b (y + (i % 5 + 1) % 5) &&& at_ b (y + (i % 5 + 2) % 5))
    if i = 0 then v ^^^ rc else v)

def keccakF (a : List Double) : List Double := keccakRc.foldl keccakRound a

/-- The rate of SHAKE256, in bytes. -/
def shakeRate : Nat := 136

/-- XOR one block of bytes into the state. -/
def absorbBlock (a : List Double) (bs : List Byte) : List Double :=
  (List.range 25).map (fun i => a.getD i 0 ^^^ ofBytes 64 ((bs.drop (8 * i)).take 8))

/-- Absorb blocks; `n` bounds their number. -/
def absorbAll : Nat → List Double → List Byte → List Double
  | 0, a, _ => a
  | n + 1, a, bs =>
    if bs.isEmpty then a else absorbAll n (keccakF (absorbBlock a (bs.take shakeRate))) (bs.drop shakeRate)

/-- Squeeze blocks of output. -/
def squeezeAll : Nat → List Double → List Byte
  | 0, _ => []
  | n + 1, a => (a.flatMap (fun x => bytesOf 8 x)).take shakeRate ++ squeezeAll n (keccakF a)

/-- SHAKE256 of a byte string, the first `n` bytes. -/
def shake256 (bs : List Byte) (n : Nat) : List Byte :=
  let k := shakeRate - bs.length % shakeRate
  let pad : List Byte := if k = 1 then [0x9F] else 0x1F#8 :: List.replicate (k - 2) 0 ++ [0x80]
  (squeezeAll (n / shakeRate + 1) (absorbAll (bs.length / shakeRate + 1) (List.replicate 25 0) (bs ++ pad))).take n

/-- CRC-32 (polynomial 0xEDB8_8320 reflected, initial and final complement). -/
def crc32 (bs : List Byte) : Word :=
  ~~~ bs.foldl (fun c b =>
    (List.range 8).foldl (fun c _ => if bit c 0 then (c >>> 1) ^^^ 0xEDB88320#32 else c >>> 1) (c ^^^ b.setWidth 32))
    0xFFFFFFFF#32

end Sys2Proof.Machine
end

