-- ==== Sys2Proof/Machine/Stack.lean ====
section
/-! DEFINITION. Sys2Proof/Machine/Stack.lean: the reconvergence stack: pushing and spilling entries, refilling a block, arriving at a
JOIN entry, starting a deferred path (R261–R268). -/

namespace Sys2Proof.Machine

open Sys2Proof

/-! ### Divergence (R263, R267) -/

def entryOf (g : Group) (e : Nat) : Option StackEntry := tabFind g.stack e
def onChip (g : Group) : List (Nat × StackEntry) := g.stack.filter (fun e => e.2.spilled.isNone)

/-- Virtual address of a block of the group's spill area (R267). -/
def spillAddr (s : State) (g : Group) (b : Nat) : Double :=
  let p := pktOf s g
  p.spillBase + BitVec.ofNat 64 (16 * p.spillDepth * (64 * g.core + g.slot) + 128 * b)

/-- The outcome of moving blocks between chip and area. -/
inductive SpillRes where
  | ok (s : State) (g : Group)
  | bad
  | absent (va : Double)

/-- Write the 8 oldest on-chip entries as one block at the next free block of the area. -/
def spillBlock (s : State) (g : Group) : SpillRes :=
  let olds := ((onChip g).take 8).map (·.1)
  let b := (lowestFree (g.spills.map (·.1)) (g.spills.length + 1)).getD 0
  let va := spillAddr s g b
  match translate s (whoOf g) .write va with
  | .bad _ => .bad
  | .absent => .absent va
  | .ok pa _ =>
    let tok := s.free
    let s := memStore { s with free := s.free + 1 } pa ((List.range 128).map (Config.spillByte tok))
    .ok s { g with spills := tabPut g.spills b tok,
                   stack := g.stack.map (fun e => if olds.contains e.1 then (e.1, { e.2 with spilled := some b }) else e) }

/-- Push one entry, after the spill it needs. -/
def pushEntry (s : State) (g : Group) (x : StackEntry) : SpillRes :=
  if g.stack.length + 1 > 32 + (pktOf s g).spillDepth then .bad
  else
    let put (s : State) (g : Group) : SpillRes :=
      .ok s { g with stack := tabPut g.stack g.nextEid x, nextEid := g.nextEid + 1 }
    if (onChip g).length ≥ 32 then
      match spillBlock s g with
      | .ok s g => put s g
      | .bad => .bad
      | .absent va => .absent va
    else put s g

/-- A path of a divergence: its lanes and its first word. -/
structure Path where
  mask : Mask
  pc : Double
deriving DecidableEq, Repr

/-- The lowest free split identifier (R263), other than one on which a deferred path is about to start (R264). -/
def freeId (g : Group) : Option Nat := [0, 1, 2, 3].find? (fun i => (tabFind g.splits i).isNone && !g.pathDue.contains i)

/-- A split at the first word of a path. -/
def pathSplit (mask : Mask) (pc : Double) (fmt : Word) (e : Nat) : Split := { pc := pc, mask := mask, fmt := fmt, inner := some e }

/-- The later paths of a divergence: new splits while identifiers are free and DH = 0, PATH entries otherwise. -/
def placePaths (dh : Bool) (x : Nat) (fmt : Word) (e : Nat) : List Path → State → Group → SpillRes
  | [], s, g => .ok s g
  | p :: ps, s, g =>
    match (if dh then none else freeId g) with
    | some i => placePaths dh x fmt e ps s { g with splits := tabPut g.splits i (pathSplit p.mask p.pc fmt e) }
    | none =>
      match pushEntry s g { join := false, mask := p.mask, pc := p.pc, fmt := fmt, owner := x, link := some e } with
      | .ok s g => placePaths dh x fmt e ps s g
      | r => r

/-- Divide split X into paths with a join address (R263). -/
def diverge (s : State) (c : Go) (dh : Bool) (join : Double) (paths : List Path) : SpillRes :=
  let e := c.g.nextEid
  match pushEntry s c.g { join := true, mask := c.t.mask, pc := join, fmt := c.t.fmt, owner := c.sp, link := c.t.inner } with
  | .ok s g =>
    match paths with
    | [] => .ok s g
    | p :: ps =>
      placePaths dh c.sp c.t.fmt e ps s
        { g with splits := tabPut g.splits c.sp { pathSplit p.mask p.pc c.t.fmt e with st := .ready } }
  | r => r

/-! ### Clause state of a split that continues after a join -/

/-- The place in its clause of a split that has passed the join word of the clause whose header is the word `x`. -/
def pastJoin (t : Split) (x : IWord) : Split :=
  match decodeShape x with
  | .ok (.clauseHeader h) => { t with left := h.n1.toNat, set1 := h.set1, set2 := h.set2, taken := 0, long := false, first := false, unread := false }
  | _ => { t with left := 0, unread := false }

/-- The split continues at the word after the join word of the clause whose header stands at `hdr`; where that header cannot be read
now, it is read before the split's next word. -/
def afterJoin (s : State) (g : Group) (t : Split) (hdr : Double) : Split :=
  let t := { t with pc := hdr + 16, hdr := hdr, left := 1, st := .ready, waitHalf := false, sleeps := none, role := none, relScope := 0 }
  match fetch s g hdr with
  | .word x => pastJoin t x
  | _ => { t with unread := true }

/-! ### Arrival (R264, R265) -/

/-- The PATH entries of a JOIN entry, in push order. -/
def pathsOf (g : Group) (e : Nat) : List (Nat × StackEntry) := g.stack.filter (fun x => !x.2.join && x.2.link == some e)

/-- Some split waits at the JOIN entry. -/
def waitsAt (t : Split) (e : Nat) : Bool :=
  match t.st with
  | .asleep (.join k) => k == e
  | _ => false

/-- The merged split of a completed JOIN entry: the owner if it waits; on an exit the lowest split that waits; else the arriver. -/
def mergedId (g : Group) (e : Nat) (x : StackEntry) (sp : Nat) (byExit : Bool) : Nat :=
  match tabFind g.splits x.owner with
  | some t => if waitsAt t e then x.owner else if byExit then
      (match tabFirst g.splits (fun _ t => waitsAt t e) with | some (i, _) => i | none => sp) else sp
  | none => if byExit then (match tabFirst g.splits (fun _ t => waitsAt t e) with | some (i, _) => i | none => sp) else sp

/-- An identifier became free: a PATH entry on chip may start on it (R264). -/
def endSplit (g : Group) (sp : Nat) : Group :=
  let g := { g with splits := tabDel g.splits sp }
  if (onChip g).any (fun x => !x.2.join) then { g with pathDue := g.pathDue ++ [sp] } else g

/-- The owner of a JOIN entry takes its first PATH entry (R264). -/
def takePath (g : Group) (sp : Nat) (e : Nat) (p : Nat × StackEntry) : Group :=
  { g with stack := tabDel g.stack p.1, splits := tabPut g.splits sp (pathSplit p.2.mask p.2.pc p.2.fmt e) }

/-- The arriving path's lanes are added to ARRIVED. -/
def arrived (x : StackEntry) (m : Mask) : StackEntry := { x with arrived := x.arrived ||| m }
/-- Every lane of a JOIN entry that has not exited has arrived. -/
def allArrived (x : StackEntry) : Bool := x.mask &&& ~~~x.arrived == 0

/-- A path arrives at its innermost JOIN entry, by its join word or by its exit (R265); `n` bounds the enclosing entries. -/
def arrive (s : State) (byExit : Bool) : Nat → Group → Nat → Group
  | 0, g, _ => g
  | n + 1, g, sp =>
    match tabFind g.splits sp with
    | none => g
    | some t =>
      match t.inner with
      | none => endSplit g sp
      | some e =>
        match entryOf g e with
        | none => endSplit g sp
        | some x =>
          let x := arrived x t.mask
          let g := { g with stack := tabPut g.stack e x }
          match pathsOf g e with
          | [] =>
            if allArrived x then
              let m := mergedId g e x sp byExit
              let g := { g with stack := tabDel g.stack e }
              let g := if m = sp then g else endSplit g sp
              let g := mapSplit g m (fun t =>
                { afterJoin s g t x.pc with mask := x.mask, fmt := x.fmt, inner := x.link })
              if x.mask = 0 then arrive s true n g m else g
            else if sp = x.owner then mapSplit g sp (fun t => { t with st := .asleep (.join e) })
            else endSplit g sp
          | p :: _ => if sp = x.owner then takePath g sp e p else endSplit g sp

/-- The first spilled entry that an arrival needs: the JOIN entry, the owner's next path, or, where the arrival completes an entry
whose lanes have all exited, what the arrival at the enclosing entry needs (R265, R267). -/
def spilledEntry (byExit : Bool) : Nat → Group → Nat → Option Nat
  | 0, _, _ => none
  | n + 1, g, sp =>
    match (tabFind g.splits sp).bind (fun t => t.inner.bind (fun e => (entryOf g e).map (fun x => (t, e, x)))) with
    | none => none
    | some (t, e, x) => match x.spilled with
      | some b => some b
      | none => match pathsOf g e with
        | p :: _ => if sp = x.owner then p.2.spilled else none
        | [] =>
          if allArrived (arrived x t.mask) && x.mask == 0 then
            let m := mergedId g e x sp byExit
            let g := { g with stack := tabDel g.stack e }
            let g := if m = sp then g else endSplit g sp
            spilledEntry byExit n (mapSplit g m (fun t => { t with mask := 0, inner := x.link })) m
          else none

/-- The spilled block that a split's join or exit needs (R267). -/
def needsRefill (byExit : Bool) (g : Group) (sp : Nat) : Option Nat := spilledEntry byExit (g.stack.length + 1) g sp

/-- The first of the group's spilled blocks whose place in its area lies on a page that is not resident (R268). -/
def spillAbsent (s : State) (g : Group) : Option Double :=
  g.spills.findSome? (fun e => match translate s (whoOf g) .write (spillAddr s g e.1) with
    | .absent => some (spillAddr s g e.1)
    | _ => none)

end Sys2Proof.Machine
end

