-- ==== Sys2Proof/Machine/Control.lean ====
section
/-! DEFINITION. Sys2Proof/Machine/Control.lean: the header, the pair, the branches, calls and joins, exit and the end of a group, roles
and windows, yield (R89, R93–R101, R140–R149, R261–R275). -/

namespace Sys2Proof.Machine

open Sys2Proof

/-! ### nop, the paired word and the clause header -/

/-- nop changes no state (R89). -/
def execNop (s : State) : Out := runGroup .nop s (fun c => c.g)

/-- A breakpoint of the context at a word and slot, unless the match there is suppressed: its number (R252, R253). -/
def brkHit (s : State) (g : Group) (t : Split) (slots : List Nat) : Option Nat :=
  let quiet (b : Brk) : Bool := suppressed g t.pc t.mask && g.suppress.map (·.2.1) == some b.slot
  if g.sys then none
  else (tabFirst (ctxOf s g.ctx).brks (fun _ b => b.addr == t.pc && slots.contains b.slot.toNat && !quiet b)).map (·.1)

/-- The lanes of a half word (R91, R93). -/
def halfMask (g : Group) (t : Split) (h : Half) : Mask := if h.pg = 7 then t.mask else t.mask &&& predMask g h.pg.toNat

/-- A half word in one lane (R91, R92). -/
def halfLane (g : Group) (h : Half) (l : Nat) : LaneRes :=
  halfOp h.hop h.nB h.aB h.imm (regGet g h.d.toNat l) (regGet g h.b.toNat l) (predGet g h.imm.toNat l)

/-- Write a half word's destination. -/
def halfSet (g0 g : Group) (t : Split) (h : Half) : Group :=
  let act := halfMask g0 t h
  if h.hop = 0 then g
  else if halfCmp h.hop.toNat then predSet g h.imm.toNat act (maskOf (fun l => bit (halfLane g0 h l).v 0))
  else lanesSet g h.d.toNat (lanesOf act) (fun l => bits (halfLane g0 h l).v 0 32)

def halfFlags (g0 g : Group) (t : Split) (h : Half) : Group :=
  flagLanes g (lanesOf (halfMask g0 t h)) (fun l => (halfLane g0 h l).fl)
def halfTraps (g0 : Group) (t : Split) (h : Half) : Bool :=
  fpTraps g0 (lanesOf (halfMask g0 t h)) (fun l => (halfLane g0 h l).fl)

/-- A trap of one slot of a paired word (R95). -/
def trapHalf (s : State) (g : Group) (c : Go) (cause : BitVec 6) (slot : BitVec 2) (act : Mask) (info : BitVec 16) : Out :=
  .next (trapWait s (setGrp s c.gid g) c.gid c.sp { infoAt cause c.t act with slot := slot, info := info })

/-- Both half words read the values before the word (R93); the fault behaviour is R95's. -/
def execPairedWord (a b : Half) (low : BitVec 1) (s : State) : Out :=
  match pre (.pairedWord a b low) s with
  | .out o => o
  | .go c =>
    if halfTraps c.g c.t a then
      trapHalf s (halfFlags c.g c.g c.t a) c 0x34#6 1 (halfMask c.g c.t a) 0
    else
      let gA := halfSet c.g (halfFlags c.g c.g c.t a) c.t a
      match brkHit s c.g c.t [2] with
      | some n => trapHalf s gA c 0x30#6 2 (halfMask c.g c.t b) (BitVec.ofNat 16 n)
      | none =>
        let gF := halfFlags c.g gA c.t b
        if halfTraps c.g c.t b then trapHalf s gF c 0x34#6 2 (halfMask c.g c.t b) 0
        else .next (retire s c (halfSet c.g gF c.t b))

/-- The flags of a mask that are busy, and the lowest that holds an error. -/
def anyBusy (g : Group) (m : BitVec 12) : Bool := (List.range 12).any (fun i => bit m i && (flagOf g i).cnt != 0)
def firstErr (g : Group) (m : BitVec 12) : Option Nat := (List.range 12).find? (fun i => bit m i && (flagOf g i).err)

/-- The page, not resident, that a ray of an operation under one of the flags waits for (R230). -/
def rayPage (s : State) (w : Who) (gid : Nat) (m : BitVec 12) : Option Double :=
  s.rays.findSome? (fun e =>
    if e.2.gid = gid then
      match e.2.page, e.2.op.bind (fun o => tabFind s.ops o) with
      | some p, some o => (match o.flag with
        | some f =>
          if bit m f && (translate s w .read (BitVec.ofNat 64 (65536 * p)) matches .absent) then some (BitVec.ofNat 64 (65536 * p)) else none
        | none => none)
      | _, _ => none
    else none)

/-- A wait on busy flags: the split is held, or the group swapped out when a ray waits for a page (R22, R230). -/
def waitBusy (s : State) (c : Go) (m : BitVec 12) : Out :=
  match rayPage s (whoOf c.g) c.gid m with
  | some va => .next (swapAct s c va .read)
  | none => hold s c

/-- A trap with the cause of a flag (R22, R404). -/
def trapFlag (s : State) (c : Go) (f : Nat) : Out :=
  trapInfoAt s c (flagOf c.g f).cause (0x8000#16 ||| BitVec.ofNat 16 f)

/-- The split enters a clause. -/
def enterClause (h : Header) (t : Split) : Split :=
  { t with pc := t.pc + 8, hdr := t.pc, left := h.n1.toNat + 1, set1 := h.set1, set2 := h.set2, taken := 0, long := false, first := true,
           waitHalf := false, sleeps := none, role := none, st := .ready, relScope := 0 }

/-- The first late error that a header of a split reports: of an instruction of its lanes, or, where those lanes have all exited,
of any; an error of user mode waits for the return to it (R101; log entry 35). -/
def lateFor (g : Group) (m : Mask) : Option (Nat × BitVec 6) :=
  (tabFirst g.late (fun _ e => e.2.2 == g.sys && ((e.2.1 &&& m) != 0 || (e.2.1 &&& g.live) == 0))).map (fun e => (e.1, e.2.1))

/-- The header: late errors, the wait, flag errors, the commit of REG, YLD, the clause (R99, R101). -/
def execClauseHeader (h : Header) (s : State) : Out :=
  match pre (.clauseHeader h) s with
  | .out o => o
  | .go c =>
    match lateFor c.g c.t.mask with
    | some (k, e) =>
      .next (trapWait s (mapGrp s c.gid (fun g => { g with late := tabDel g.late k })) c.gid c.sp (infoAt e c.t c.act))
    | none =>
      if anyBusy c.g h.wait then waitBusy s c h.wait
      else match firstErr c.g h.wait with
      | some f => trapFlag s c f
      | none =>
        if h.reg && unchecked s c.gid then hold s c
        else
          let s := if h.reg then
              mapGrp (commitPoint s c.gid c.sp) c.gid (fun g => { g with regentry := g.regentry + 1 })
            else s
          .next { mapGrp s c.gid (fun g =>
                    let g := passed (mapSplit g c.sp (enterClause h)) c.t.pc c.t.mask
                    if h.yld then { g with age := 0, due := false } else g) with cur := none }

/-- The wait of a held split may be over: it is examined again (R22, R269). -/
def execClauseWaitResume (gid sp : Nat) (s : State) : Out :=
  .next (mapGrp s gid (fun g => mapSplit g sp (fun t =>
    if t.st = .held ∧ t.heldAt < s.changes then { t with st := .ready } else t)))

/-! ### Transfers (R140–R143) -/

/-- The split goes to a clause header. -/
def jumpSplit (pc : Double) (t : Split) : Split :=
  { t with pc := pc, left := 0, first := false, waitHalf := false, sleeps := none, role := none, st := .ready, relScope := 0 }

def jump (s : State) (c : Go) (pc : Double) : State :=
  { mapGrp s c.gid (fun g => passed (mapSplit g c.sp (jumpSplit pc)) c.t.pc c.t.mask) with cur := none }

/-- The lanes of the split that do not take a transfer. -/
def restOf (c : Go) : Mask := c.t.mask &&& ~~~c.act

/-- The rules that call, ret, rolejmp and a uniform branch share: no lane, some lanes, or all of them. -/
def uniformJump (s : State) (c : Go) (tgt : Double) (k : State → State) : Out :=
  if c.act = 0 then .next (retireSame s c)
  else if restOf c ≠ 0 then trapAt s c 0x05#6
  else match targetBad s c tgt with
    | some o => o
    | none => .next (jump (k (fetchTouch s c.g tgt)) c tgt)

/-- The outcome of a divergence: the spill trap, a swap, or the new splits (R267, R268). -/
def divergeOut (c : Go) (r : SpillRes) (s : State) : Out :=
  match r with
  | .bad => trapAt s c 0x3C#6
  | .absent va => .next (swapAct s c va .write)
  | .ok s g => .next { setGrp s c.gid (passed g c.t.pc c.t.mask) with cur := none }

/-- bra (R140). -/
def execBra (w : FbWord) (s : State) : Out :=
  match pre (.bra w) s with
  | .out o => o
  | .go c =>
    let tgt := c.t.pc + 8 * w.toff.signExtend 64
    let rest := restOf c
    if c.act = 0 ∨ rest = 0 ∨ w.joff = 0 then uniformJump s c tgt id
    else match targetBad s c tgt with
      | some o => o
      | none =>
        let s := fetchTouch s c.g tgt
        divergeOut c (diverge s c (w.dh == 1) (c.t.pc + 8 * w.joff.signExtend 64)
          [⟨c.act, tgt⟩, ⟨rest, c.t.pc + 8⟩]) s

/-- Insert a target in increasing order, once. -/
def insertTarget (x : Nat) : List Nat → List Nat
  | [] => [x]
  | y :: r => if x < y then x :: y :: r else if x = y then y :: r else y :: insertTarget x r

/-- The distinct targets of brx, in increasing address (R141). -/
def targetsOf (c : Go) (f : BitVec 8) : List Nat := (lanesOf c.act).foldl (fun l i => insertTarget (src2 c.g f i).toNat l) []

/-- The first target that may not be taken. -/
def targetsBad (s : State) (c : Go) : List Nat → Option Out
  | [] => none
  | t :: r => match targetBad s c (BitVec.ofNat 64 t) with
    | some o => some o
    | none => targetsBad (fetchTouch s c.g (BitVec.ofNat 64 t)) c r
/-- The fetches of targets that may all be taken. -/
def targetsTouch (s : State) (c : Go) (ts : List Nat) : State := ts.foldl (fun s t => fetchTouch s c.g (BitVec.ofNat 64 t)) s

/-- brx (R141). -/
def execBrx (w : FrWord) (s : State) : Out :=
  match pre (.brx w) s with
  | .out o => o
  | .go c =>
    let ts := targetsOf c w.a
    let rest := restOf c
    match ts with
    | [] => .next (retireSame s c)
    | t :: r =>
      if r.isEmpty ∧ rest = 0 then uniformJump s c (BitVec.ofNat 64 t) id
      else if w.c = 0xFF then trapAt s c 0x05#6
      else match targetsBad s c ts with
        | some o => o
        | none =>
          let paths := ts.map (fun t => Path.mk (maskOf (fun l => c.act.getLsbD l && (src2 c.g w.a l).toNat == t)) (BitVec.ofNat 64 t))
          let s := targetsTouch s c ts
          divergeOut c (diverge s c false (src2 c.g w.c 0) (paths ++ if rest = 0 then [] else [⟨rest, c.t.pc + 8⟩])) s

/-- call: s60, s61 := PC + 8 (R142). -/
def execCall (w : FbWord) (s : State) : Out :=
  match pre (.call w) s with
  | .out o => o
  | .go c =>
    let ra := c.t.pc + 8
    uniformJump s c (c.t.pc + 8 * w.toff.signExtend 64)
      (fun s => mapGrp s c.gid (fun g => markWritten (regSet (regSet g 252 0 (bits ra 0 32)) 253 0 (bits ra 32 32)) [252, 253]))

/-- ret: to the address in a scalar pair (R143). -/
def execRet (w : FsWord) (s : State) : Out :=
  match pre (.ret w) s with
  | .out o => o
  | .go c => uniformJump s c (src2 c.g w.a 0) id

/-! ### join, refill, deferred paths (R264–R268) -/

/-- join: the split arrives when its innermost entry's join address is its header (R144, R265). -/
def execJoin (w : FsWord) (s : State) : Out :=
  match pre (.join w) s with
  | .out o => o
  | .go c =>
    match c.t.inner with
    | none => .next (retireSame s c)
    | some e => match entryOf c.g e with
      | none => .next (retireSame s c)
      | some x =>
        if x.pc ≠ c.t.hdr then .next (retireSame s c)
        else if (needsRefill false c.g c.sp).isSome then hold s c
        else .next (bump { setGrp s c.gid (passed (arrive s false (c.g.stack.length + 1) c.g c.sp) c.t.pc c.t.mask) with cur := none })

/-- Lanes end: they leave the split, the group and every entry's mask. -/
def dropLanes (g : Group) (sp : Nat) (m : Mask) : Group :=
  let g := mapSplit g sp (fun t => { t with mask := t.mask &&& ~~~m })
  { g with live := g.live &&& ~~~m, stack := g.stack.map (fun e => (e.1, { e.2 with mask := e.2.mask &&& ~~~m })) }

/-- The block that the word of a held split needs: a join word, or an exit of all its lanes (R267). -/
def refillDue (s : State) (g : Group) (sp : Nat) (t : Split) : Option Nat :=
  match fetch s g t.pc with
  | .word x => match decodeWord x with
    | .ok (.join _) => needsRefill false g sp
    | .ok (.exit w) => if t.mask &&& ~~~guardMask (.exit w) g t = 0 then needsRefill true (dropLanes g sp t.mask) sp else none
    | _ => none
  | _ => none

/-- Refill the block that a held split's join or exit needs, and check it (R267, R268). A refill that finds more than 24 entries on
chip makes no room: more than 32 then stand there (DESIGN CHOICE, log entry 84). -/
def execReconvRefill (gid sp : Nat) (s : State) : Out :=
  match grp s gid with
  | none => .next s
  | some g =>
    let t := splitAt g sp
    match if t.st = .held then refillDue s g sp t else none with
    | none => .next s
    | some b =>
      let fail (s : State) : Out := .next (trapWait s s gid sp (infoAt 0x3C#6 t t.mask))
      let va := spillAddr s g b
      match translate s (whoOf g) .read va with
      | .absent => .next (swapOut s gid sp va .read)
      | .bad c => fail (walkCheck s (whoOf g) .read va g c)
      | .ok pa _ =>
        match tabFind g.spills b with
        | none => fail s
        | some tok =>
          let (bs, s) := memLoad (walkFold s (whoOf g) va) pa 128
          if isPoison s .mem 0 pa 128 then
            .next (trapWait s (mcheckG s 3 (poisonAddr s pa 128) g) gid sp { infoAt 0x3E#6 t t.mask with faddr := some va })
          else if bs = (List.range 128).map (Config.spillByte tok) then
            let st := g.stack.map (fun e => if e.2.spilled = some b then (e.1, { e.2 with spilled := none }) else e)
            .next (bump (setGrp s gid { g with spills := tabDel g.spills b, stack := st }))
          else fail s

/-- The identifier that became free takes the on-chip PATH entry pushed earliest (R264). -/
def startPath (g : Group) : Group :=
  match g.pathDue, (onChip g).find? (fun x => !x.2.join) with
  | i :: r, some p =>
    { g with pathDue := r, stack := tabDel g.stack p.1,
             splits := tabPut g.splits i (pathSplit p.2.mask p.2.pc p.2.fmt (p.2.link.getD 0)) }
  | _, _ => { g with pathDue := [] }

def execPathStart (gid : Nat) (s : State) : Out := .next (mapGrp s gid startPath)

/-! ### exit and the end of a group (R145, R171, R221) -/

/-- exit (R145). -/
def execExit (w : FsWord) (s : State) : Out :=
  match pre (.exit w) s with
  | .out o => o
  | .go c =>
    if c.act = 0 then .next (retireSame s c)
    else
      let g := dropLanes c.g c.sp c.act
      if restOf c ≠ 0 then .next (retire s c g)
      else if g.live = 0 then
        let g := { g with st := .exiting c.t.pc c.act, stack := [], splits := [(c.sp, { c.t with mask := 0, st := .held })] }
        .next (bump { setGrp s c.gid g with cur := none })
      else if (needsRefill true g c.sp).isSome then hold s c
      else .next (bump { setGrp s c.gid (passed (arrive s true (g.stack.length + 1) g c.sp) c.t.pc c.t.mask) with cur := none })

/-- The barrier changes phase: who passes it comes after what arrived (R170, R173). -/
def changePhase (b : Barrier) : Barrier := { b with seq := b.seq + 1, arrived := 0, count := 0, acc := [], out := joinClock b.out b.acc }

/-- One barrier when a group of its unit exits (R171). -/
def barrierExit (idx : Nat) (b : Barrier) : Barrier :=
  if b.rowMode then b
  else
    let had := bit b.arrived idx
    let b := { b with part := b.part - 1, arrived := setBit b.arrived idx false, count := if had then b.count - 1 else b.count }
    if b.part ≠ 0 ∧ b.count = b.part then changePhase b else b

def barOf (u : UnitS) (k : Nat) : Barrier := tabGet { part := u.nGroups } u.barriers k
def barPut (u : UnitS) (k : Nat) (b : Barrier) : UnitS := { u with barriers := tabPut u.barriers k b }

/-- Every barrier of the unit when group `idx` exits. -/
def barriersExit (u : UnitS) (idx : Nat) : UnitS :=
  (List.range 16).foldl (fun u k => barPut u k (barrierExit idx (barOf u k))) u

/-- Release every BOUND name as tfree does (R145, R221). -/
def releaseNames (s : State) (gid : Nat) (g : Group) : State :=
  allNames.foldl (fun s i =>
    let n := nameOf g i
    let s := match n.cslot with | some c => releaseSlot s g.core g.uid (isAccName i) c.1 | none => s
    match n.pslot with | some p => releaseSlot s g.core g.uid (isAccName i) p.1 | none => s) s
  |> fun s => mapGrp s gid (fun g => { g with names := [] })

end Sys2Proof.Machine
end

