-- ==== Sys2Proof/Machine/Roles.lean ====
section
/-! DEFINITION. Sys2Proof/Machine/Roles.lean: roles, register windows and yielding (R146–R149, R273, R274). -/

namespace Sys2Proof.Machine

open Sys2Proof

/-- The role table's entry: address (0 for none) and window (R274, R372). -/
def roleEntry (s : State) (g : Group) (n : Nat) : Double × Nat := (pktOf s g).roles.getD n (0, 0)

/-- rolejmp to a role's entry (R146). -/
def roleJump (s : State) (c : Go) (n : Nat) : Out :=
  let a := (roleEntry s c.g n).1
  if c.act = 0 then .next (retireSame s c)
  else if restOf c ≠ 0 ∨ a = 0 then trapAt s c 0x05#6
  else uniformJump s c a id

/-- rolejmp n. -/
def execRolejmp (w : FiWord) (s : State) : Out :=
  match pre (.rolejmp w) s with
  | .out o => o
  | .go c => roleJump s c (bits w.imm 0 4 : BitVec 4).toNat

/-- rolejmp.cur: the current role's entry. -/
def execRolejmpCur (w : FiWord) (s : State) : Out :=
  match pre (.rolejmpCur w) s with
  | .out o => o
  | .go c => roleJump s c c.g.role.toNat

/-- The pool of the group's quarter holds a window of `w` granules for it. -/
def windowFits (s : State) (g : Group) (w : Nat) : Bool := decide (w ≤ g.w + freeGranules s g.uid g.quarter)

/-- No pool of its quarter holds the window a word wants: the group moves to a quarter whose pool does, or the split sleeps. R273
says that the Yard may move it; the model moves it at once when it can (DESIGN CHOICE, log entry 85). -/
def wantWindow (s : State) (i : Instr) (c : Go) (w : Nat) : Out :=
  if mayMove s c.g w then .next (moveOut s c.gid c.sp w) else sleepOn s i c (.granules w)

/-- The spilled blocks move to the area of the group's new slot (R267). A write that faults leaves its block unwritten: the refill of the
block then meets the fault or fails its check (DESIGN CHOICE, log entry 99). -/
def rewriteSpills (s : State) (g : Group) : State :=
  g.spills.foldl (fun s e => match translate s (whoOf g) .write (spillAddr s g e.1) with
    | .ok pa _ => memStore s pa ((List.range 128).map (Config.spillByte e.2))
    | _ => s) s

/-- Every batch the group has closed is complete. -/
def batchesDone (g : Group) : Bool := g.batches.all (fun b => b.2.pend == 0)

/-- The header word at an address has REG = 1 (R147). -/
def regHeaderAt (s : State) (g : Group) (a : Double) : Bool :=
  match fetch s g a with
  | .word x => wordIsHeader x && bit x 31
  | _ => true

/-- The granules an rswitch to role `n` needs. -/
def roleWindow (s : State) (g : Group) (n : Nat) : Nat :=
  let r := roleEntry s g n
  if r.2 = 0 then g.w else r.2

/-- The switch itself, once its waits are over, as it issues or wakes. -/
def switchNow (s : State) (i : Instr) (c : Go) (n : Nat) : Out :=
  let w := roleWindow s c.g n
  if windowFits s c.g w then
    let g := { setWindow c.g w with role := BitVec.ofNat 4 n, hintV := false }
    .next (commitPoint (bump (jump (setGrp s c.gid g) c (roleEntry s c.g n).1)) c.gid c.sp)
  else wantWindow s i c w

/-- The role that a waiting rswitch has taken stays its role, whatever HINT does (R147). -/
def keepRole (s : State) (c : Go) (n : Nat) : State := mapGrp s c.gid (fun g => mapSplit g c.sp (fun t => { t with role := some n }))

/-- rswitch to a role (R147). -/
def roleSwitch (s : State) (i : Instr) (c : Go) (n : Nat) : Out :=
  let r := roleEntry s c.g n
  if restOf c ≠ 0 then trapAt s c 0x05#6
  else if c.g.splits.length > 1 ∨ c.g.stack ≠ [] then trapAt s c 0x04#6
  else if r.1 = 0 then trapAt s c 0x05#6
  else match targetBad s c r.1 with
  | some o => o
  | none =>
    let s := fetchTouch s c.g r.1
    if !regHeaderAt s c.g r.1 then trapAt s c 0x05#6
    else if anyBusy c.g 0xFFF then waitBusy (keepRole s c n) c 0xFFF
    else if !batchesDone c.g ∨ unchecked s c.gid then hold (keepRole s c n) c
    else match firstErr c.g 0xFFF with
    | some f => trapFlag s c f
    | none => switchNow (keepRole s c n) i c n

/-- rswitch n. -/
def execRswitch (w : FiWord) (s : State) : Out :=
  match pre (.rswitch w) s with
  | .out o => o
  | .go c =>
    if c.act = 0 then .next (retireSame s c) else roleSwitch s (.rswitch w) c (bits w.imm 0 4 : BitVec 4).toNat

/-- rswitch.hint: the hinted role, or the next word when no hint is held. -/
def execRswitchHint (w : FiWord) (s : State) : Out :=
  match pre (.rswitchHint w) s with
  | .out o => o
  | .go c =>
    match c.t.role with
    | some n => roleSwitch s (.rswitchHint w) c n
    | none => if c.act = 0 ∨ !c.g.hintV then .next (retireSame s c) else roleSwitch s (.rswitchHint w) c c.g.hint.toNat

/-- The n of claim and giveback. -/
def claimN (w : FiWord) : Nat := (bits w.imm 0 5 : BitVec 5).toNat

/-- The window grows and the region closes. -/
def claimGrow (s : State) (c : Go) (g : Group) : Out := .next (bump (retireClose (setGrp s c.gid g) c))

/-- claim, as it issues or wakes (R148, R273). -/
def claimNow (s : State) (w : FiWord) (c : Go) : Out :=
  let n := claimN w
  if c.g.w + n > 24 ∨ n > (unitOf s c.g.uid).granules.getD c.g.quarter 0 - c.g.w then trapAt s c 0x06#6
  else if unchecked s c.gid then hold s c
  else if windowFits s c.g (c.g.w + n) then claimGrow s c (setWindow c.g (c.g.w + n))
  else wantWindow s (.claim w) c (c.g.w + n)

/-- claim n (R148, R273). -/
def execClaim (w : FiWord) (s : State) : Out :=
  match pre (.claim w) s with
  | .out o => o
  | .go c => if c.act = 0 then .next (retireSame s c) else claimNow s w c

/-- claim.try PD, n (R148). -/
def execClaimTry (w : FiWord) (s : State) : Out :=
  match pre (.claimTry w) s with
  | .out o => o
  | .go c =>
    let n := claimN w
    let pdSet (g : Group) (b : Bool) : Group := predSet g (w.d.toNat % 64) c.act (if b then 0xFFFFFFFF else 0)
    if c.act = 0 then .next (retireSame s c)
    else if c.g.w + n > 24 then trapAt s c 0x06#6
    else if unchecked s c.gid then hold s c
    else if freeGranules s c.g.uid c.g.quarter ≥ n then claimGrow s c (pdSet (setWindow c.g (c.g.w + n)) true)
    else .next (retireClose (setGrp s c.gid (pdSet c.g false)) c)

/-- giveback n (R148): first every result in flight to the granules removed lands. -/
def execGiveback (w : FiWord) (s : State) : Out :=
  match pre (.giveback w) s with
  | .out o => o
  | .go c =>
    let n := claimN w
    if c.act = 0 then .next (retireSame s c)
    else if c.g.w < n + 1 then trapAt s c 0x06#6
    else if unchecked s c.gid || s.ops.any (fun e => e.2.gid == c.gid &&
        e.2.dst.any (fun f => decide (8 * (c.g.w - n) ≤ f ∧ f < 192))) then hold s c
    else claimGrow s c (setWindow c.g (c.g.w - n))

/-- yield: the group's age returns to 0 (R149, R271). -/
def execYield (w : FsWord) (s : State) : Out := runGroup (.yield w) s (fun c => { c.g with age := 0, due := false })

end Sys2Proof.Machine
end

