-- ==== Sys2Proof/Machine/System.lean ====
section
/-! DEFINITION. Sys2Proof/Machine/System.lean: special registers, FMT, software traps, breakpoints, return from a trap, the clock
(R27–R42, R124, R135, R250–R253, R257, R409, R466, R467). -/

namespace Sys2Proof.Machine

open Sys2Proof

/-! ### Measurements (R469) -/

def measOf (s : State) (i : Nat) : List Byte := (tabFind s.meas i).getD (List.replicate 64 0)
/-- Extend a measurement slot with a digest. -/
def extendMeas (s : State) (i : Nat) (d : List Byte) : State :=
  { s with meas := tabPut s.meas i (shake256 (measOf s i ++ d) 64) }

/-! ### Reading a special register -/

def rgnOf (s : State) : Rgn := tabGet {} s.rgns s.rgnsel.toNat
def worldOf (s : State) (core : Nat) : Bool := (tabFind s.cworld core).getD (coreOf s core).secure

/-- The system registers that are defined (R409, R466). -/
def sysSelOk (sel : Nat) : Bool := [0x80, 0x81, 0x82, 0x84, 0x85, 0x86, 0x87].contains sel || decide (0xC0 ≤ sel ∧ sel ≤ 0xC5)
/-- The 64-bit registers. -/
def selIs64 (sel : Nat) : Bool := decide (0x10 ≤ sel ∧ sel ≤ 0x13) || [0x80, 0x84, 0x86, 0xC1, 0xC2].contains sel

/-- The checks of R28, R124 and R466 on a selector, mode first. -/
def selCause (g : Group) (sel : Nat) (pair : Bool) : Option (BitVec 6) :=
  if sel < 0x80 then none
  else if !g.sys then some 0x12#6
  else if !sysSelOk sel then some 0x02#6
  else if sel ≥ 0xC0 ∧ !g.secure then some 0x12#6
  else if pair ∧ !selIs64 sel then some 0x02#6
  else none

/-- A special register as lane `l` of the split reads it (R27, R30–R42, R409, R466). -/
def sprGet (s : State) (c : Go) (sel l : Nat) : Double :=
  let w (x : Word) : Double := x.setWidth 64
  let g := c.g
  let cx := ctxOf s g.ctx
  match sel with
  | 0x00 => BitVec.ofNat 64 l
  | 0x01 => w (groupIdWord g)
  | 0x02 => w g.unit
  | 0x03 => w (coreLocWord g)
  | 0x04 => w (roleWord g)
  | 0x05 => w c.t.mask
  | 0x06 => BitVec.ofNat 64 (4 * g.splits.length + c.sp)
  | 0x07 => w (modeWord g)
  | 0x08 => w c.t.fmt
  | 0x09 => (tabGet 0 g.ff l).setWidth 64
  | 0x0A => g.fpen.setWidth 64
  | 0x0B => w g.mxcount
  | 0x0C => g.spstep.setWidth 64
  | 0x0D => w g.regentry
  | 0x0E => BitVec.ofNat 64 g.w
  | 0x0F => w (flagstWord g)
  | 0x10 => cx.tbase
  | 0x11 => cx.tlimit
  | 0x12 => cx.toffset
  | 0x13 => s.clk
  | 0x80 => g.tframe
  | 0x81 => w g.tcause
  | 0x82 => bOf g.sstep
  | 0x84 => tabGet 0 cx.waddr 0
  | 0x85 => w (tabGet 0x300 cx.wctl 0)
  | 0x86 => tabGet 0 cx.waddr 1
  | 0x87 => w (tabGet 0x300 cx.wctl 1)
  | 0xC0 => s.rgnsel.setWidth 64
  | 0xC1 => BitVec.ofNat 64 (rgnOf s).base
  | 0xC2 => BitVec.ofNat 64 (rgnOf s).limit
  | 0xC3 => (if (rgnOf s).lock then 2 else 0) ||| bOf (rgnOf s).en
  | 0xC4 => s.cwsel.setWidth 64
  | 0xC5 => if s.cwsel.toNat < 192 then bOf (worldOf s s.cwsel.toNat) else 0
  | _ => 0

/-- mrd, the 32-bit and the pair form (R124). -/
def execMrd (w : FiWord) (s : State) : Out :=
  match pre (.mrd w) s with
  | .out o => o
  | .go c =>
    if c.act = 0 then .next (retireSame s c)
    else match selCause c.g w.sel w.pairForm with
    | some e => trapAt s c e
    | none =>
      .next (retire s c (dstSet c.g (if w.pairForm then .pair w.d else .reg w.d) c.act (fun l => sprGet s c w.sel l)))

/-! ### Writing a special register -/

/-- The bits a register's reserved fields cover (R9); every bit of an all-RO register counts as writable and ignored. -/
def sprReserved (sel : Nat) : Double :=
  match sel with
  | 0x08 => 0xFFFFC000
  | 0x09 => 0xFFFFFF80
  | 0x0A => 0xFFFFFFE0
  | 0x0C => 0xFFFF0000
  | 0x0F => 0xF000F000
  | 0x82 => 0xFFFFFFFE
  | 0x84 | 0x86 => 0xFF00000000000000
  | 0x85 | 0x87 => 0xFFFFE0FC
  | 0xC0 => 0xFFFFFFC0
  | 0xC1 | 0xC2 => 0xFFF000000000FFFF
  | 0xC3 => 0xFFFFFFFC
  | 0xC4 => 0xFFFFFF00
  | 0xC5 => 0xFFFFFFFE
  | _ => 0

/-- A value FMT may not hold (R33). -/
def fmtBad (x : Word) : Bool :=
  decide ((bits x 0 4 : BitVec 4).toNat > 8) || decide ((bits x 4 4 : BitVec 4).toNat > 8) ||
  decide ((bits x 8 2 : BitVec 2).toNat > 1) || decide ((bits x 10 2 : BitVec 2).toNat > 1)

/-- The traps of an mwr's value (R9, R28, R33, R409, R466), in user or system mode. -/
def mwrCause (s : State) (g : Group) (sel : Nat) (v : Double) : Option (BitVec 6) :=
  if (sel = 0x0C ∨ sel = 0x0D) ∧ !g.sys then some 0x12#6
  else if 0xC1 ≤ sel ∧ sel ≤ 0xC3 ∧ (rgnOf s).lock then some 0x12#6
  else if v &&& sprReserved sel ≠ 0 then some 0x02#6
  else if sel = 0x08 ∧ fmtBad (bits v 0 32) then some 0x23#6
  else if (sel = 0x85 ∨ sel = 0x87) ∧ !(decide (3 ≤ (bits v 8 5 : BitVec 5).toNat) && decide ((bits v 8 5 : BitVec 5).toNat ≤ 16)) then
    some 0x02#6
  else none

/-- The 24-byte lock record of the selected descriptor (R467). -/
def lockRecord (s : State) (ctl : Double) : List Byte :=
  bytesOf 4 (s.rgnsel.setWidth 32) ++ bytesOf 4 ctl ++ bytesOf 8 (BitVec.ofNat 64 (rgnOf s).base) ++
  bytesOf 8 (BitVec.ofNat 64 (rgnOf s).limit)

/-- Clear the errors of FLAGST that a write names (R40). -/
def clearErrs (g : Group) (v : Double) : Group :=
  (List.range 12).foldl (fun g i =>
    if bit v (16 + i) then flagPut g i { flagOf g i with err := false, cause := 0 } else g) g

/-- The effect of an mwr that traps nowhere. -/
def sprSet (s : State) (c : Go) (sel : Nat) (v : Double) : State :=
  let onG (f : Group → Group) : State := mapGrp s c.gid f
  let rgn (f : Rgn → Rgn) : State := { s with rgns := tabPut s.rgns s.rgnsel.toNat (f (rgnOf s)) }
  match sel with
  | 0x08 => onG (fun g => mapSplit g c.sp (fun t => { t with fmt := bits v 0 32 }))
  | 0x09 => onG (fun g => (lanesOf c.act).foldl (fun g l => { g with ff := tabSet 0 g.ff l (bits v 0 7) }) g)
  | 0x0A => onG (fun g => { g with fpen := bits v 0 5 })
  | 0x0B => onG (fun g =>
      { g with mxcount := bits v 0 32, staged := [0, 0, 0, 0], kept := g.kept.map (fun k => (k.1, k.2.1, [0, 0, 0, 0])) })
  | 0x0C => onG (fun g => { g with spstep := bits v 0 16 })
  | 0x0D => onG (fun g => { g with regentry := bits v 0 32 })
  | 0x0F => onG (fun g => clearErrs g v)
  | 0x82 => onG (fun g => { g with sstep := bit v 0 })
  | 0x84 => mapCtx s c.g.ctx (fun x => { x with waddr := tabSet 0 x.waddr 0 v })
  | 0x86 => mapCtx s c.g.ctx (fun x => { x with waddr := tabSet 0 x.waddr 1 v })
  | 0x85 => mapCtx s c.g.ctx (fun x => { x with wctl := tabSet 0x300 x.wctl 0 (bits v 0 32) })
  | 0x87 => mapCtx s c.g.ctx (fun x => { x with wctl := tabSet 0x300 x.wctl 1 (bits v 0 32) })
  | 0xC0 => { s with rgnsel := bits v 0 6 }
  | 0xC1 => rgn (fun r => { r with base := v.toNat })
  | 0xC2 => rgn (fun r => { r with limit := v.toNat })
  | 0xC3 =>
    let s := if bit v 1 then extendMeas s 3 (shake256 (lockRecord s v) 64) else s
    { s with rgns := tabPut s.rgns s.rgnsel.toNat { rgnOf s with en := bit v 0, lock := bit v 1 } }
  | 0xC4 => { s with cwsel := bits v 0 8 }
  | 0xC5 => if s.cwsel.toNat < 192 then { s with cworld := tabPut s.cworld s.cwsel.toNat (bit v 0) } else s
  | _ => s

/-- mwr (R124). -/
def execMwr (w : FiWord) (s : State) : Out :=
  match pre (.mwr w) s with
  | .out o => o
  | .go c =>
    match lowBit c.act with
    | none => .next (retireSame s c)
    | some l =>
      match selCause c.g w.sel w.pairForm with
      | some e => trapAt s c e
      | none =>
        let v := if w.pairForm then src2 c.g w.a l else src c.g w.a l
        match mwrCause s c.g w.sel v with
        | some e => trapAt s c e
        | none => .next (retireSame (sprSet s c w.sel v) c)

/-- A written CWORLD takes effect while the core holds no resident unit (R467). -/
def execCoreWorldApply (core : Nat) (s : State) : Out :=
  match tabFind s.cworld core with
  | none => .next s
  | some b =>
    if s.units.any (fun u => u.2.core == core && u.2.resident) then .next s
    else .next (mapCore { s with cworld := tabDel s.cworld core } core (fun c => { c with secure := b }))

/-! ### setfmt (R135) -/

def setFmt (i : Instr) (s : State) (v : Go → Word) : Out :=
  match pre i s with
  | .out o => o
  | .go c =>
    let x := v c
    if c.act = 0 then .next (retireSame s c)
    else if (bits x 14 18 : BitVec 18) ≠ 0 then trapAt s c 0x02#6
    else if fmtBad x then trapAt s c 0x23#6
    else .next (retireSame (mapGrp s c.gid (fun g => mapSplit g c.sp (fun t => { t with fmt := x }))) c)

/-- setfmt imm. -/
def execSetfmt (w : FiWord) (s : State) : Out := setFmt (.setfmt w) s (fun _ => w.imm)
/-- setfmt.m value, mask. -/
def execSetfmtM (w : FiWord) (s : State) : Out :=
  setFmt (.setfmtM w) s (fun c =>
    let m : Word := (bits w.imm 16 14 : BitVec 14).setWidth 32
    (c.t.fmt &&& ~~~m) ||| (bits w.imm 0 14 : BitVec 14).setWidth 32)

/-! ### trap, brk, sret (R250–R253, R407) -/

/-- trap n: the region commits at the next word, then SOFTWARE_TRAP with n (R250). -/
def execSoftwareTrap (w : FsWord) (s : State) : Out :=
  match pre (.softwareTrap w) s with
  | .out o => o
  | .go c =>
    if c.act = 0 then .next (retireSame s c)
    else if unchecked s c.gid then hold s c
    else trapInfoAt (commitWith s c.gid (ckptOf (retireGrp c.g c) c.sp)) c 0x31#6 w.imm

/-- brk.set n, sK, slot: in system mode (R251). -/
def execBrkSet (w : FsWord) (s : State) : Out :=
  match pre (.brkSet w) s with
  | .out o => o
  | .go c =>
    let a := src2 c.g w.a 0
    if !c.g.sys then trapAt s c 0x12#6
    else if (bits a 0 3 : BitVec 3) ≠ 0 then trapAt s c 0x14#6
    else .next (retireSame (mapCtx s c.g.ctx (fun x =>
      { x with brks := tabPut x.brks (bits w.imm 0 2 : BitVec 2).toNat { addr := a, slot := bits w.imm 2 2 } })) c)

/-- brk.clr n: in system mode (R251). -/
def execBrkClr (w : FsWord) (s : State) : Out :=
  match pre (.brkClr w) s with
  | .out o => o
  | .go c =>
    if !c.g.sys then trapAt s c 0x12#6
    else .next (retireSame (mapCtx s c.g.ctx (fun x => { x with brks := tabDel x.brks (bits w.imm 0 2 : BitVec 2).toNat })) c)

/-- A boundary trap that was waiting for the group's return to user mode (R249, R411). -/
def boundaryTrap (s : State) (gid : Nat) : State :=
  match grp s gid with
  | none => s
  | some g =>
    let t := splitAt g g.ckpt.split
    if g.sys || g.st != .running then s
    else if g.stopDue then takeTrap (setGrp s gid { g with stopDue := false }) gid (infoAt 0x35#6 t t.mask)
    else if g.rosecDue then takeTrap (setGrp s gid { g with rosecDue := false }) gid (infoAt 0x2A#6 t t.mask)
    else s

/-- What the fetch of the clause header that a return resumes in meets (R98). -/
def resumeFetch (s : State) (g : Group) : Option (Double × Fetch) := g.frameCkpt.map (fun x => (x.2.rclause, fetch s g x.2.rclause))

/-- The spilled blocks go back to the group's area; a page of it that is not resident swaps the group out (R267, R268). -/
def respill (s : State) (gid : Nat) : State :=
  match grp s gid with
  | none => s
  | some g => match spillAbsent s g with
    | some va => swapOut s gid g.ckpt.split va .write
    | none => rewriteSpills s g

def returnWith (i : Instr) (s : State) (pass : Bool) : Out :=
  match pre i s with
  | .out o => o
  | .go c =>
    let back : Out := .next (boundaryTrap (respill (returnFromTrap s c.gid pass) c.gid) c.gid)
    if !c.g.sys then trapAt s c 0x12#6
    else match resumeFetch s c.g with
    | none => back
    | some (_, .word x) => if wordIsHeader x then back else .next (haltGroup { s with cur := none } c.gid 0x05#6)
    | some (_, .bad _) => .next (haltGroup { s with cur := none } c.gid 0x07#6)
    | some (va, .absent) => .next (swapAct s c va .fetch)

/-- sret: return to user mode at the checkpoint (R253, R407). -/
def execSret (w : FsWord) (s : State) : Out := returnWith (.sret w) s false
/-- sret.pass: as sret, and the reported match is suppressed once. -/
def execSretPass (w : FsWord) (s : State) : Out := returnWith (.sretPass w) s true

/-! ### clk (R257) -/

/-- clk.rd: CLK in the clk in which every earlier instruction of the group has completed; the next word of its clause may issue in the
next (R257, R353). -/
def execClkRd (w : FrWord) (s : State) : Out :=
  match pre (.clkRd w) s with
  | .out o => o
  | .go c =>
    if c.act = 0 then .next (retireSame s c)
    else if anyBusy c.g 0xFFF || !(opsOf s c.gid).isEmpty then hold s c
    else
      let now := clkMax s.clk c.g.dataAt
      .next (retire { s with clk := now } c
        (dstSet { c.g with bracket := some (c.sp, clkAdd now 1) } (.pair w.d) c.act (fun _ => now)))

/-- clk.until: the split sleeps until CLK reaches the value read at issue. -/
def execClkUntil (w : FrWord) (s : State) : Out :=
  match pre (.clkUntil w) s with
  | .out o => o
  | .go c =>
    match lowBit c.act with
    | none => .next (retireSame s c)
    | some l =>
      let v := src2 c.g w.a l
      if v.toNat ≤ s.clk.toNat then .next (retireSame s c) else sleepOn s (.clkUntil w) c (.clk v)

/-- The sleeping word is complete: the split is READY on its next word (R276). -/
def wakeSplit (s : State) (gid sp : Nat) : State :=
  match sleepingWord s gid sp with
  | some (_, c) => retireSame s c
  | none => s

/-- CLK reaches a clk.until value. -/
def execClkUntilExpiry (gid sp : Nat) (s : State) : Out :=
  match grp s gid with
  | none => .next s
  | some g => match (splitAt g sp).st with
    | .asleep (.clk v) => .next (if g.st == .running && decide (v.toNat ≤ s.clk.toNat) then wakeSplit s gid sp else s)
    | _ => .next s

end Sys2Proof.Machine
end

