-- ==== Sys2Proof/Machine/Sync.lean ====
section
/-! DEFINITION. Sys2Proof/Machine/Sync.lean: barriers, waits on flags and batches, cpybatch, channels, rflush, and the waking of a
sleeping split (R169–R175, R181–R183, R186, R269). -/

namespace Sys2Proof.Machine

open Sys2Proof

/-! ### Barriers (R169–R174) -/

def setBar (s : State) (uid k : Nat) (b : Barrier) : State := mapUnit s uid (fun u => barPut u k b)
def barAt (s : State) (c : Go) (k : Nat) : Barrier := barOf (unitOf s c.g.uid) k

/-- sync and arrive are refused (R170). -/
def arriveRefused (c : Go) (b : Barrier) : Bool :=
  decide (c.g.splits.length > 1) || bit b.arrived c.g.index || b.rowMode

/-- A group arrives, after the accesses of a clock; the phase changes when the arrivals reach the participant count. -/
def arriveAt (b : Barrier) (idx : Nat) (k : Tab Nat) : Barrier :=
  let b := { b with arrived := setBit b.arrived idx true, count := b.count + 1, acc := joinClock b.acc k }
  if b.count = b.part then changePhase b else b

/-- A group passes a phase change: what arrived happens before what it does next (R173). -/
def passBar (s : State) (c : Go) (k : Nat) : State := learnNow s c.gid (barAt s c k).out

/-- bar.wait, and the wait half of bar.sync (R170, R172). -/
def barWait (s : State) (i : Instr) (c : Go) (k : Nat) : Out :=
  let b := barAt s c k
  if if b.rowMode then !b.complete else bit b.arrived c.g.index then sleepOn s i c (.phase k b.seq)
  else .next (retireSame (passBar s c k) c)

/-- bar.sync: the arrival closes the region with the word's wait half as the resumption point, then the group waits (R174). -/
def execBarSync (w : FiWord) (s : State) : Out :=
  match pre (.barSync w) s with
  | .out o => o
  | .go c =>
    let b := barAt s c w.barK
    if c.act = 0 then .next (retireSame s c)
    else if c.t.waitHalf then barWait s (.barSync w) c w.barK
    else if arriveRefused c b then trapAt s c 0x3A#6
    else if accessPending s c.gid then hold s c
    else
      let b' := arriveAt b c.g.index (clockOf s c.gid)
      let s := mapGrp (setBar (newRelease s c.gid) c.g.uid w.barK b') c.gid (fun g => mapSplit g c.sp (fun t => { t with waitHalf := true }))
      let s := commitPoint s c.gid c.sp
      if b'.seq = b.seq then sleepOn s (.barSync w) c (.phase w.barK b.seq) else .next (bump (retireSame (passBar s c w.barK) c))

/-- bar.arrive. -/
def execBarArrive (w : FiWord) (s : State) : Out :=
  match pre (.barArrive w) s with
  | .out o => o
  | .go c =>
    let b := barAt s c w.barK
    if c.act = 0 then .next (retireSame s c)
    else if arriveRefused c b then trapAt s c 0x3A#6
    else if accessPending s c.gid then hold s c
    else .next (bump (retireClose (setBar (newRelease s c.gid) c.g.uid w.barK (arriveAt b c.g.index (clockOf s c.gid))) c))

/-- bar.wait. -/
def execBarWait (w : FiWord) (s : State) : Out :=
  match pre (.barWait w) s with
  | .out o => o
  | .go c => if c.act = 0 then .next (retireSame s c) else barWait s (.barWait w) c w.barK

/-- A row-mode barrier that is armed and not complete refuses init and rows. -/
def rowsBusy (b : Barrier) : Bool := b.rowMode && b.armed && !b.complete

/-- bar.init bK, n. -/
def execBarInit (w : FiWord) (s : State) : Out :=
  match pre (.barInit w) s with
  | .out o => o
  | .go c =>
    let b := barAt s c w.barK
    let n := (bits w.imm 8 5 : BitVec 5).toNat + 1
    if c.act = 0 then .next (retireSame s c)
    else if b.count ≠ 0 ∨ n > (unitOf s c.g.uid).left ∨ rowsBusy b then trapAt s c 0x3A#6
    else if unchecked s c.gid then hold s c
    else .next (bump (retireClose (setBar s c.g.uid w.barK { part := n, seq := b.seq }) c))

/-- bar.rows bK, n (R172). -/
def execBarRows (w : FiWord) (s : State) : Out :=
  match pre (.barRows w) s with
  | .out o => o
  | .go c =>
    let b := barAt s c w.barK
    if c.act = 0 then .next (retireSame s c)
    else if (!b.rowMode ∧ b.count ≠ 0) ∨ rowsBusy b then trapAt s c 0x3A#6
    else if unchecked s c.gid then hold s c
    else
      .next (bump (retireClose (setBar s c.g.uid w.barK
        { part := b.part, seq := b.seq, rowMode := true, armed := true, rows := (bits w.imm 16 16 : BitVec 16).toNat }) c))

/-- A copied row lands on a row-mode barrier (R172, R178). -/
def rowLands (b : Barrier) : Barrier :=
  if b.rowMode && b.armed && !b.complete then
    let b := { b with landed := b.landed + 1 }
    if b.landed = b.rows then { b with seq := b.seq + 1, complete := true, out := [] } else b
  else b

/-! ### Waits (R175) -/

/-- fwait. -/
def execFwait (w : FiWord) (s : State) : Out :=
  match pre (.fwait w) s with
  | .out o => o
  | .go c =>
    let m : BitVec 12 := bits w.imm 0 12
    if c.act = 0 then .next (retireSame s c)
    else if anyBusy c.g m then waitBusy s c m
    else match firstErr c.g m with
    | some f => trapFlag s c f
    | none => .next (retireSame s c)

/-- The batches that a bwait for b names: those in (BSEQ − 16, b], oldest first. -/
def batchesTo (g : Group) (b : Word) : List (Word × Batch) :=
  ((List.range 16).map (fun i => g.bseq - 15 + BitVec.ofNat 32 i)).filterMap (fun n =>
    if (b - n).toNat < 2 ^ 31 then (tabFind g.batches n.toNat).map (fun x => (n, x)) else none)

/-- bwait. -/
def execBwait (w : FiWord) (s : State) : Out :=
  match pre (.bwait w) s with
  | .out o => o
  | .go c =>
    match lowBit c.act with
    | none => .next (retireSame s c)
    | some l =>
      let b := srcW c.g w.a l + w.imm
      if b = 0 then .next (retireSame s c)
      else if (c.g.bseq - b).toNat ≥ 2 ^ 31 then trapAt s c 0x15#6
      else
        let bs := batchesTo c.g b
        if bs.any (fun x => x.2.pend != 0) then hold s c
        else match bs.find? (fun x => x.2.err) with
        | some (n, x) =>
          .next (trapWait s
            (mapGrp s c.gid (fun g => { g with batches := tabMap g.batches n.toNat (fun y => { y with err := false, cause := 0 }) }))
            c.gid c.sp { infoAt x.cause c.t c.act with info := 0xC000#16 ||| BitVec.ofNat 16 (n.toNat % 16) })
        | none => .next (retireSame s c)

/-! ### cpybatch (R181) -/

/-- The number after BSEQ, skipping 0. -/
def nextBatch (n : Word) : Word := if n + 1 = 0 then 1 else n + 1

/-- Close the open batch. -/
def closeBatch (g : Group) : Group :=
  let n := nextBatch g.bseq
  let kept := g.batches.filter (fun b => b.2.pend != 0 || decide ((n - b.2.num).toNat < 16))
  { g with bseq := n, batches := tabPut kept n.toNat { g.openBatch with num := n }, openBatch := { num := nextBatch n } }

/-- cpybatch D. -/
def execCpybatch (w : FiWord) (s : State) : Out :=
  match pre (.cpybatch w) s with
  | .out o => o
  | .go c =>
    if c.act = 0 then .next (retireSame s c)
    else if (c.g.batches.filter (fun b => b.2.pend != 0)).length ≥ 16 ∨ unchecked s c.gid then hold s c
    else
      let g := closeBatch c.g
      .next (retireClose (setGrp s c.gid (dstSet g (.reg w.d) c.act (fun _ => g.bseq.setWidth 64))) c)

/-! ### Channels (R24, R182, R183) -/

def chanOf (s : State) (lid k : Nat) : Channel := tabGet {} (levelOf s lid).chans k
def setChan (s : State) (lid k : Nat) (ch : Channel) : State := mapLevel s lid (fun v => { v with chans := tabPut v.chans k ch })

/-- The register writes of a received slot: lanes 0–15. -/
def slotWrs (f : Nat) (ws : List Word) : List RegWr := (List.range 16).map (fun i => ⟨f, i, ws.getD i 0⟩)

/-- A slot of a channel is filled, after the accesses of a clock. -/
def fillSlot (s : State) (lid k : Nat) (ws : List Word) (clock : Tab Nat) : State :=
  let ch := chanOf s lid k
  setChan s lid k { ch with queue := ch.queue ++ [(ws, clock)], wr := ch.wr + 1 }

/-- A channel closes: a recv that waits completes with CHANNEL_CLOSED once its slots are taken (R182). -/
def closeChan (s : State) (lid k : Nat) : State := setChan s lid k { chanOf s lid k with closed := true }

/-- send, as it issues or wakes: it fills a slot, or sleeps until one is free (R182, R352). -/
def sendNow (s : State) (w : FmWord) (c : Go) : Out :=
  let k := w.minor.toNat
  let ch := chanOf s c.g.lid k
  if ch.closed then trapAt s c 0x38#6
  else if accessPending s c.gid then hold s c
  else if ch.queue.length ≥ ch.slots then sleepOn s (.send w) c (.room k)
  else
    let ws := (List.range 16).map (fun l => regGet c.g w.d.toNat l)
    .next (bump (retireClose (fillSlot (newRelease (advanceRegion s c.g.uid) c.gid) c.g.lid k ws (clockOf s c.gid)) c))

/-- send chK, vD. -/
def execSend (w : FmWord) (s : State) : Out :=
  match pre (.send w) s with
  | .out o => o
  | .go c => if c.act = 0 then .next (retireSame s c) else sendNow s w c

/-- send.close chK. -/
def execSendClose (w : FmWord) (s : State) : Out :=
  match pre (.sendClose w) s with
  | .out o => o
  | .go c =>
    let k := w.minor.toNat
    if c.act = 0 then .next (retireSame s c)
    else if (chanOf s c.g.lid k).closed then trapAt s c 0x38#6
    else if accessPending s c.gid then hold s c
    else .next (bump (retireClose (closeChan (advanceRegion s c.g.uid) c.g.lid k) c))

/-- The channel when its oldest slot has been taken. -/
def slotTakenFrom (s : State) (lid k : Nat) : State :=
  let ch := chanOf s lid k
  setChan s lid k { ch with queue := ch.queue.tail, rd := ch.rd + 1 }

/-- A recv of the group takes the oldest slot: it acquires, at device scope, what its sender released (R183). -/
def takeSlotOf (s : State) (c : Go) (k : Nat) (clock : Tab Nat) : State :=
  slotTakenFrom (learnNow (advanceRegion s c.g.uid) c.gid clock) c.g.lid k

/-- An accepted recv that sleeps takes the oldest slot, when it is the first that waits, or learns that the channel is closed and
empty; its region closes then (R182, R183, R352). -/
def recvWake (s : State) (w : FmWord) (c : Go) (k oid : Nat) : State :=
  let ch := chanOf s c.g.lid k
  let fin (s : State) (f : Op → Op) : State :=
    bump (retireClose (dropWaiting (mapOp s oid (fun o => f { o with engine := false, done := true })) c.g.lid oid) c)
  match ch.queue with
  | (ws, x) :: _ => fin (takeSlotOf s c k x) (fun o => { o with wrs := slotWrs w.d.toNat ws })
  | [] => fin s (fun o => { o with err := 0x38 })

/-- recv vD, chK: takes the next slot in the order of the recvs, or sleeps until it can. -/
def execRecv (w : FmWord) (s : State) : Out :=
  match pre (.recv w) s with
  | .out o => o
  | .go c =>
    let k := w.minor.toNat
    let ch := chanOf s c.g.lid k
    if flagFull (.recv w) c then hold s c
    else if c.act = 0 then issueNone s (.recv w) c
    else if ch.queue.isEmpty && ch.closed then trapAt s c 0x38#6
    else if unchecked s c.gid then hold s c
    else match ch.queue, ch.waiting with
    | (ws, x) :: _, [] =>
      let s := takeSlotOf s c k x
      .next (bump (commitPoint (issueOp s (.recv w) c { newOp (.recv w) c with done := true, wrs := slotWrs w.d.toNat ws }) c.gid c.sp))
    | _, _ =>
      let oid := s.nextId
      let s := setChan s c.g.lid k { ch with waiting := ch.waiting ++ [oid] }
      sleepOn (startOp s (.recv w) c { newOp (.recv w) c with engine := true }) (.recv w) c (.recv k oid)

/-! ### rflush (R186) -/

/-- Record h of a context is dropped from both dies' caches, with the values that its parts held before (R302). -/
def forgetRecord (s : State) (ctx h : Nat) : State :=
  let key := (ctx * 4096 + h) * 2
  let c := ctxOf s ctx
  let ws := (List.range 24).filterMap (fun i =>
    match translate s (device ctx false c.secure) .read (c.recbase + BitVec.ofNat 64 (192 * h + 8 * i)) with
    | .ok pa _ => some (pa / 8)
    | _ => none)
  { s with recs := s.recs.filter (fun e => e.1 != key && e.1 != key + 1), past := s.past.filter (fun e => !ws.contains e.1) }

/-- rflush: after the group's earlier stores, the record leaves every record cache. -/
def execRflush (w : FiWord) (s : State) : Out :=
  match pre (.rflush w) s with
  | .out o => o
  | .go c =>
    if flagFull (.rflush w) c then hold s c
    else match lowBit c.act with
    | none => issueNone s (.rflush w) c
    | some l =>
      let h := (srcW c.g w.a l + w.imm).toNat
      if h ≥ 4096 then trapAt s c 0x16#6
      else if accessPending s c.gid then hold s c
      else
        .next (issueOp (advanceRegion (forgetRecord s c.g.ctx h) c.g.uid) (.rflush w) c { newOp (.rflush w) c with done := true })

end Sys2Proof.Machine
end

