-- ==== Sys2Proof/Machine/Engine.lean ====
section
/-! DEFINITION. Sys2Proof/Machine/Engine.lean: what the engines share: footprints and their edges, translation under a lease, the bytes a
job reads and writes, the completion of a job (R178, R180, R303, R304, R324, R326, R393). -/

namespace Sys2Proof.Machine

open Sys2Proof

def jobOf (s : State) (j : Nat) : Option Job := tabFind s.jobs j
def mapJob (s : State) (j : Nat) (f : Job → Job) : State := { s with jobs := tabMap s.jobs j f }

/-! ### Footprints (R303, R304) -/

/-- A range rounded outward to 128-byte boundaries. -/
def roundRange (r : Range) : Range := { r with va := r.va / 128 * 128, len := (r.va + r.len + 127) / 128 * 128 - r.va / 128 * 128 }

def rangesMeet (a b : Range) : Bool :=
  a.core == b.core && decide (a.va < b.va + b.len) && decide (b.va < a.va + a.len) && decide (0 < a.len) && decide (0 < b.len)
def anyMeet (xs ys : List Range) : Bool := xs.any (fun a => ys.any (rangesMeet a))

/-- The incomplete jobs of the context that were accepted earlier. -/
def earlierJobs (s : State) (jid : Nat) (j : Job) : List Job :=
  (s.jobs.filter (fun e => decide (e.1 < jid) && e.2.ctx == j.ctx)).map (·.2)

/-- An earlier job's regions are not known yet, and the job may have some. -/
def unknownAhead (x j : Job) (mine : List Range) : Bool := !x.known && !(j.known && mine.isEmpty)
/-- Held from reading: a write region of an earlier job meets one it reads, or may meet one. -/
def edgeR (s : State) (jid : Nat) (j : Job) : Bool :=
  (earlierJobs s jid j).any (fun x => unknownAhead x j j.reads || anyMeet x.writes j.reads)
/-- Held from writing: by an earlier write region, or by a read region not read yet. -/
def edgeW (s : State) (jid : Nat) (j : Job) : Bool :=
  (earlierJobs s jid j).any (fun x =>
    unknownAhead x j j.writes || anyMeet x.writes j.writes || (!x.readDone && anyMeet x.reads j.writes))

/-- The Yard accepts a job: its edges hold it. -/
def acceptJob (s : State) (j : Job) : Nat × State :=
  let jid := s.nextId
  let j := { namedJob s j with reads := j.reads.map roundRange, writes := j.writes.map roundRange }
  (jid, { s with jobs := tabPut s.jobs jid { j with heldR := edgeR s jid j, heldW := edgeW s jid j }, nextId := jid + 1 })

/-- A BTE command of the group is not accepted yet: its later jobs wait, so that the Yard accepts them in issue order (R304). -/
def commandPending (s : State) (gid : Nat) : Bool :=
  s.ops.any (fun e => e.2.gid == gid && !e.2.done && e.2.accs.any (fun a => a.write && inAperture a.pa))

/-- The record that gives a job's regions has been read: its edges, and those of the jobs accepted later, are known (R303, R304). -/
def learnJob (s : State) (jid : Nat) (reads writes : List Range) : State :=
  match jobOf s jid with
  | none => s
  | some j =>
    let s := mapJob s jid (fun j => { j with known := true, reads := reads.map roundRange, writes := writes.map roundRange })
    bump { s with jobs := s.jobs.map (fun e =>
      if e.1 < jid ∨ e.2.ctx ≠ j.ctx then e else (e.1, { e.2 with heldR := edgeR s e.1 e.2, heldW := edgeW s e.1 e.2 })) }

/-- ENGINE_FOOTPRINT_RELEASE: an edge that held a job is gone. -/
def execEngineFootprintRelease (jid : Nat) (s : State) : Out :=
  match jobOf s jid with
  | none => .next s
  | some j => .next (mapJob s jid (fun j' => { j' with heldR := j'.heldR && edgeR s jid j, heldW := j'.heldW && edgeW s jid j }))

/-- A job completes: its region closes, its leases drain, its edges end. -/
def endJob (s : State) (jid : Nat) : State := bump { s with jobs := tabDel s.jobs jid }

/-! ### Translation by an engine (R180, R393, R395) -/

/-- How an engine's access to a run of bytes in one page ends. -/
inductive EngXlate where
  | ok (pa : Nat) (s : State)
  | bad (c : BitVec 6) (s : State)
  | wait (s : State)

/-- A machine check that an engine job meets: with the core and slot of the group that started it, where one did (R458). -/
def mcheckJob (s : State) (src pa jid : Nat) : State :=
  match jobOf s jid with
  | none => mcheck s src pa 0 0 0
  | some j => mcheck s src pa j.ctx j.core (((grp s j.gid).map (·.slot)).getD 0)

/-- The leased translation of an address. -/
def leaseFind (j : Job) (va : Nat) : Option TlbEntry := j.leases.find? (fun e => va / 2 ^ e.bits == e.va / 2 ^ e.bits)

/-- Translate for a job: under its lease, else anew, taking a lease; a page that is not resident is requested. The tensor window needs
no page and no lease (R41). -/
def engXlate (s : State) (jid : Nat) (w : Who) (need : Need) (va : Double) : EngXlate :=
  match jobOf s jid with
  | none => .bad 0x11#6 s
  | some j =>
    let a := va.toNat
    match if a ≥ 2 ^ 56 ∨ inWindow s w.ctx a then none else leaseFind j a with
    | some e => match xlateLeaf s w need a e with
      | .ok pa _ => .ok pa s
      | .bad c => .bad c s
      | .absent => .wait s
    | none => match translate s w need va with
      | .ok pa _ =>
        let s := walkFold s w va
        let lease : List TlbEntry := if inWindow s w.ctx a then [] else match (match tlbFind s w a with | some e => some e | none => match walk s w.ctx a with | .leaf e => some e | _ => none) with
          | some e => if xlateLeaf s w need a e = .ok pa e.priv then [e] else []
          | none => []
        .ok pa (mapJob s jid (fun j => { j with leases := j.leases ++ lease }))
      | .bad c => .bad c (if c = 0x3E then mcheckJob s 3 (checkAddr s w need va) jid else s)
      | .absent => .wait (requestPage (walkFold s w va) w.ctx va need true)

/-! ### Bytes (R324) -/

/-- An engine's read of global bytes within one page: folded, recorded under the job, poison reported. -/
def engRead (s : State) (jid : Nat) (cluster : Option Nat) (pa n : Nat) : Except (BitVec 6) (List Byte × State) :=
  if isPoison s .mem 0 pa n then .error 0x3E#6
  else match jobOf s jid with
  | none => .error 0x11#6
  | some j =>
    let s := memTouch s pa n
    let me := partyOfJob jid j cluster
    .ok (physRead s pa n, (chunks .engine true false pa n).foldl (fun s t => recordTouch s me t) s)

/-- An engine's write of global bytes within one page. -/
def engWrite (s : State) (jid : Nat) (cluster : Option Nat) (pa : Nat) (bs : List Byte) : State :=
  match jobOf s jid with
  | none => s
  | some j =>
    let s := memTouch s pa bs.length
    let me := partyOfJob jid j cluster
    memPut ((chunks .engine false true pa bs.length).foldl (fun s t => recordTouch s me t) s) pa bs

/-- How an engine's access to a run of virtual bytes ends. -/
inductive EngRes (α : Type) where
  | ok (a : α) (s : State)
  | bad (c : BitVec 6) (s : State)
  | wait (s : State)

/-- The pieces of a run of virtual bytes, none crossing a 64 KiB page. -/
def pagePieces : Nat → Double → Nat → List (Double × Nat)
  | 0, _, _ => []
  | f + 1, va, n =>
    if n = 0 then []
    else
      let k := min n (65536 - va.toNat % 65536)
      (va, k) :: pagePieces f (va + BitVec.ofNat 64 k) (n - k)
def pieces (va : Double) (n : Nat) : List (Double × Nat) := pagePieces (n / 65536 + 2) va n

/-- Translate every piece of a run before any of its bytes is touched. -/
def xlateAll (s : State) (jid : Nat) (w : Who) (need : Need) : List (Double × Nat) → List (Nat × Nat) → EngRes (List (Nat × Nat))
  | [], acc => .ok acc s
  | (va, n) :: r, acc => match engXlate s jid w need va with
    | .ok pa s => if portFails s pa then .bad 0x3E#6 (mcheckJob s 3 pa jid) else xlateAll s jid w need r (acc ++ [(pa, n)])
    | .bad c s => .bad c s
    | .wait s => .wait s

def readAll (s : State) (jid : Nat) (cl : Option Nat) : List (Nat × Nat) → List Byte → EngRes (List Byte)
  | [], acc => .ok acc s
  | (pa, n) :: r, acc => match engRead s jid cl pa n with
    | .ok (bs, s) => readAll s jid cl r (acc ++ bs)
    | .error c => .bad c (if c = 0x3E then mcheckJob s 3 (poisonAddr s pa n) jid else s)

def writeAll (s : State) (jid : Nat) (cl : Option Nat) : List (Nat × Nat) → List Byte → State
  | [], _ => s
  | (pa, n) :: r, bs => writeAll (engWrite s jid cl pa (bs.take n)) jid cl r (bs.drop n)

/-- The runs of bytes with the poison that stands there; the reads of the device itself are no accesses (R305). -/
def peekAll (s : State) (jid : Nat) : List (Nat × Nat) → List Byte → EngRes (List Byte)
  | [], acc => .ok acc s
  | (pa, n) :: r, acc =>
    if isPoison s .mem 0 pa n then .bad 0x3E#6 (mcheckJob s 3 (poisonAddr s pa n) jid)
    else peekAll (memTouch s pa n) jid r (acc ++ physRead (memTouch s pa n) pa n)

/-- The device reads, for a job, the record that describes it. -/
def jobPeek (s : State) (jid : Nat) (w : Who) (va : Double) (n : Nat) : EngRes (List Byte) :=
  match xlateAll s jid w .read (pieces va n) [] with
  | .ok ps s => peekAll s jid ps []
  | .bad c s => .bad c s
  | .wait s => .wait s

/-- A job reads a run of virtual bytes. -/
def jobRead (s : State) (jid : Nat) (w : Who) (cl : Option Nat) (va : Double) (n : Nat) : EngRes (List Byte) :=
  match xlateAll s jid w .read (pieces va n) [] with
  | .ok ps s => readAll s jid cl ps []
  | .bad c s => .bad c s
  | .wait s => .wait s

/-- A job writes a run of virtual bytes. -/
def jobWrite (s : State) (jid : Nat) (w : Who) (cl : Option Nat) (va : Double) (bs : List Byte) : EngRes Unit :=
  match xlateAll s jid w .write (pieces va bs.length) [] with
  | .ok ps s => .ok () (writeAll s jid cl ps bs)
  | .bad c s => .bad c s
  | .wait s => .wait s

end Sys2Proof.Machine
end

