-- ==== Sys2Proof/Machine/Ray.lean ====
section
/-! DEFINITION. Sys2Proof/Machine/Ray.lean: the arithmetic of traversal: the acceptance rule, triangle and box tests, instance transforms,
the state words (R225–R228, R336–R341). -/

namespace Sys2Proof.Machine

open Sys2Proof

/-! ### FP32 words as exact values -/

def fpv (x : Word) : Num := Fmt.fp32.decode x.toNat
/-- RoundNE(x, FP32). -/
def rne (x : Num) : Word := BitVec.ofNat 32 (x.deliver .fp32 .ne).1
/-- The exact product of several values. -/
def mulN : List Num → Num
  | [] => .fin false 1 0
  | [a] => a
  | a :: r => (a.mul (mulN r)).1
/-- The exact sum of several values. -/
def addN (l : List Num) : Num := (sumNum .ne l).1
def subN (a b : Num) : Num := addN [a, b.neg]
/-- a ÷ b rounded once to FP32 (R125 has the corners of a quotient: 0/0 and ∞/∞ are NaN, x/0 and ∞/x infinite). -/
def divW (a b : Num) : Word :=
  match a, b with
  | .nan _, _ | _, .nan _ => 0x7FC00000
  | .inf _, .inf _ => 0x7FC00000
  | .inf s, .fin t _ _ => rne (.inf (s != t))
  | .fin s _ _, .inf t => if s != t then 0x80000000 else 0
  | .fin s m e, .fin t n k =>
    if n = 0 then (if m = 0 then 0x7FC00000 else rne (.inf (s != t)))
    else
      let (q, x) := divSticky m n
      rne (.fin (s != t) q (x + e - k))
/-- a < b, a ≤ b; false with a NaN. -/
def ltN (a b : Num) : Bool := !a.isNan && !b.isNan && a.cmp b == .lt
def leN (a b : Num) : Bool := !a.isNan && !b.isNan && a.cmp b != .gt
def ltW (a b : Word) : Bool := ltN (fpv a) (fpv b)
def leW (a b : Word) : Bool := leN (fpv a) (fpv b)
def isNanW (a : Word) : Bool := (fpv a).isNan

def w0 (l : List Word) : Word := l.getD 0 0
def w1 (l : List Word) : Word := l.getD 1 0
def w2 (l : List Word) : Word := l.getD 2 0

/-- Dot product, exact. -/
def dotN (a b : List Word) : Num :=
  addN [mulN [fpv (w0 a), fpv (w0 b)], mulN [fpv (w1 a), fpv (w1 b)], mulN [fpv (w2 a), fpv (w2 b)]]
/-- One component of a cross product, exact then rounded. -/
def crossW (a b c d : Word) : Word := rne (subN (mulN [fpv a, fpv d]) (mulN [fpv b, fpv c]))
def cross (a b : List Word) : List Word :=
  [crossW (w1 a) (w2 a) (w1 b) (w2 b), crossW (w2 a) (w0 a) (w2 b) (w0 b), crossW (w0 a) (w1 a) (w0 b) (w1 b)]
/-- A componentwise rounded difference. -/
def subV (a b : List Word) : List Word := [rne (subN (fpv (w0 a)) (fpv (w0 b))), rne (subN (fpv (w1 a)) (fpv (w1 b))), rne (subN (fpv (w2 a)) (fpv (w2 b)))]

/-! ### Acceptance (R227) -/

/-- A candidate is accepted. -/
def accepts (r : Ray) (t inst prim : Word) : Bool :=
  leW r.tmin t && leW t r.tmax &&
  (!r.hitv || ltW t r.tmax ||
    ((fpv t).cmp (fpv r.tmax) == .eq && (decide (inst.toNat < r.hinst.toNat) || (inst == r.hinst && decide (prim.toNat < r.hprim.toNat)))))

/-- Acceptance records the hit. -/
def acceptHit (r : Ray) (t inst prim : Word) (kind : Nat) (face : Bool) (b1 b2 : Word) : Ray :=
  { r with tmax := t, hitv := true, kind := kind, face := face, hinst := inst, hprim := prim, b1 := b1, b2 := b2 }

/-! ### Triangles (R340) -/

def cullB (r : Ray) : Bool := bit r.flags 1
def cullF (r : Ray) : Bool := bit r.flags 2
def firstHit (r : Ray) : Bool := bit r.flags 0

/-- A triangle's candidate: t, u, v and whether it is a back face. -/
def triHit (o d v0 v1 v2 : List Word) : Option (Word × Word × Word × Bool) :=
  let e1 := subV v1 v0
  let e2 := subV v2 v0
  let sv := subV o v0
  let pv := cross d e2
  let qv := cross sv e1
  let det := rne (dotN e1 pv)
  if isNanW det || (fpv det).isZero then none
  else
    let u := divW (fpv (rne (dotN sv pv))) (fpv det)
    let v := divW (fpv (rne (dotN d qv))) (fpv det)
    let t := divW (fpv (rne (dotN e2 qv))) (fpv det)
    if leW 0 u && leW 0 v && leN (addN [fpv u, fpv v]) (.fin false 1 0) then some (t, u, v, ltW det 0) else none

/-- A triangle record's effect on a ray (R227, R340). -/
def testTriangle (r : Ray) (bs : List Byte) : Ray :=
  let v (k : Nat) : List Word := [nat32 bs (12 * k), nat32 bs (12 * k + 4), nat32 bs (12 * k + 8)]
  match triHit r.space.org r.space.dir (v 0) (v 1) (v 2) with
  | none => r
  | some (t, u, w, back) =>
    if (back && cullB r) || (!back && cullF r) then r
    else if accepts r t r.space.inst (nat32 bs 36) then acceptHit r t r.space.inst (nat32 bs 36) 0 back u w
    else r

/-! ### Boxes (R337, R341) -/

/-- The greater and the lesser of two words; a NaN of either stays. -/
def maxN (a b : Word) : Word := if isNanW a then a else if isNanW b then b else if ltW a b then b else a
def minN (a b : Word) : Word := if isNanW a then a else if isNanW b then b else if ltW b a then b else a

/-- (b − o) / d, the difference exact, rounded once. -/
def slabT (b o d : Word) : Word := divW (subN (fpv b) (fpv o)) (fpv d)

/-- One axis of the slab test: its near and far t; `none` when the slab is empty. -/
def slab (lo hi o d : Word) : Option (Word × Word) :=
  if (fpv d).isZero then (if leW lo o && leW o hi then some (0xFF800000, 0x7F800000) else none)
  else
    let t1 := slabT lo o d
    let t2 := slabT hi o d
    some (minN t1 t2, maxN t1 t2)

/-- The ray enters a procedural leaf's box (R341). -/
def boxEnter (r : Ray) (lo hi : List Word) : Bool :=
  let ax (k : Nat) : Option (Word × Word) := slab (lo.getD k 0) (hi.getD k 0) (r.space.org.getD k 0) (r.space.dir.getD k 0)
  match ax 0, ax 1, ax 2 with
  | some a, some b, some c =>
    leW (maxN r.tmin (maxN a.1 (maxN b.1 c.1))) (minN r.tmax (minN a.2 (minN b.2 c.2)))
  | _, _, _ => false

/-- A fraction with a positive denominator. -/
structure Frac where
  n : Dy
  d : Dy

def fracLe (a b : Frac) : Bool := (a.n.mul b.d).le (b.n.mul a.d)

/-- The exact interval of t in which a ray lies between lo and hi on one axis; `none` when it never does. -/
def axisSpan (lo hi o d : Dy) : Option (List Frac × List Frac) :=
  if d.isZero then (if lo.le o && o.le hi then some ([], []) else none)
  else
    let f (b : Dy) : Frac := if d.n < 0 then ⟨(b.sub o).neg, d.neg⟩ else ⟨b.sub o, d⟩
    if d.n < 0 then some ([f hi], [f lo]) else some ([f lo], [f hi])

/-- The exact test of a child's box: the ray may enter it within [TMIN, TMAX] (R337). -/
def mayEnter (r : Ray) (lo hi : List Dy) : Bool :=
  let fin (x : Word) : Bool := match fpv x with | .fin .. => true | _ => false
  if !(r.space.org.all fin && r.space.dir.all fin) then true
  else
    let ax (k : Nat) := axisSpan (lo.getD k .zero) (hi.getD k .zero) (fpv (r.space.org.getD k 0)).dy (fpv (r.space.dir.getD k 0)).dy
    match ax 0, ax 1, ax 2 with
    | some a, some b, some c =>
      let lim (x : Word) : List Frac := match fpv x with | .fin b m e => [⟨(Num.fin b m e).dy, .ofInt 1⟩] | _ => []
      let near := a.1 ++ b.1 ++ c.1 ++ lim r.tmin
      let far := a.2 ++ b.2 ++ c.2 ++ lim r.tmax
      near.all (fun x => far.all (fun y => fracLe x y))
    | _, _, _ => false

/-! ### Nodes (R336) -/

def byteAt (bs : List Byte) (i : Nat) : Nat := (bs.getD i 0).toNat
def nat64 (bs : List Byte) (off : Nat) : Nat := (ofBytes 64 ((bs.drop off).take 8)).toNat
def metaKind (bs : List Byte) (i : Nat) : Nat := byteAt bs (32 + i) / 32
def metaCnt (bs : List Byte) (i : Nat) : Nat := byteAt bs (32 + i) % 32
def childInner (bs : List Byte) (i : Nat) : Bool := byteAt bs 15 / 2 ^ i % 2 == 1
def childLeaf (bs : List Byte) (i : Nat) : Bool := !childInner bs i && decide (1 ≤ metaKind bs i ∧ metaKind bs i ≤ 3)

/-- Internal children below child i; leaf records before child i's. -/
def innerBelow (bs : List Byte) (i : Nat) : Nat := ((List.range i).filter (childInner bs)).length
def leafBelow (bs : List Byte) (i : Nat) : Nat :=
  (List.range i).foldl (fun n j => if childLeaf bs j then n + metaCnt bs j else n) 0

/-- A child's box: its bounds when they are finite (R337). An exponent byte of 0x80, outside the range R336 states, is decoded as −128
(DESIGN CHOICE, log entry 108). -/
def childBox (bs : List Byte) (i : Nat) : Option (List Dy × List Dy) :=
  let one (k q : Nat) : Option Dy :=
    match fpv (nat32 bs (4 * k)) with
    | .fin b m e =>
      some ((Num.fin b m e).dy.add ⟨(byteAt bs (q + 8 * k + i) : Int), signedOf 8 (byteAt bs (12 + k))⟩)
    | _ => none
  match one 0 40, one 1 40, one 2 40, one 0 64, one 1 64, one 2 64 with
  | some a, some b, some c, some d, some e, some f => some ([a, b, c], [d, e, f])
  | _, _, _, _, _, _ => none

/-- A child with QL > QH on some axis is empty. -/
def childVoid (bs : List Byte) (i : Nat) : Bool :=
  [0, 1, 2].any (fun k => decide (byteAt bs (40 + 8 * k + i) > byteAt bs (64 + 8 * k + i)))

/-- A node that ends the lane: a child that is not internal has a reserved KIND, or a base is off its alignment (R338; which cause where
both hold is log entry 97). -/
def nodeFault (bs : List Byte) : Option (BitVec 6) :=
  if (List.range 8).any (fun i => !childInner bs i && decide (metaKind bs i ≥ 4)) then some 0x02#6
  else if nat64 bs 16 % 128 ≠ 0 ∨ nat64 bs 24 % 64 ≠ 0 then some 0x14#6
  else none

/-- What a child adds to the walk. -/
def childTodo (bs : List Byte) (i : Nat) : List RayTodo :=
  if childInner bs i then [.node (nat64 bs 16 + 128 * innerBelow bs i)]
  else if childLeaf bs i then
    (List.range (metaCnt bs i)).map (fun k => .leaf (metaKind bs i) (nat64 bs 24 + 64 * (leafBelow bs i + k)))
  else []

/-! ### Instances (R339) -/

/-- One row of M applied to a vector, with its fourth element for a point. -/
def rowM (bs : List Byte) (r : Nat) (v : List Word) (point : Bool) : Word :=
  let m (c : Nat) : Num := fpv (nat32 bs (16 * r + 4 * c))
  rne (addN ([mulN [m 0, fpv (w0 v)], mulN [m 1, fpv (w1 v)], mulN [m 2, fpv (w2 v)]] ++ if point then [m 3] else []))

/-- The ray in an instance's space. -/
def intoInstance (sp : RaySpace) (bs : List Byte) : RaySpace :=
  { org := [rowM bs 0 sp.org true, rowM bs 1 sp.org true, rowM bs 2 sp.org true],
    dir := [rowM bs 0 sp.dir false, rowM bs 1 sp.dir false, rowM bs 2 sp.dir false], inst := nat32 bs 56 }

/-! ### The state words (R226) -/

/-- STAT of a lane that has ended or suspended. -/
def statMiss : Nat := 0
def statHit : Nat := 1
def statProc : Nat := 2
def statFault : Nat := 3

/-- The sixteen words of a lane's state. -/
def rayWords (r : Ray) (stat slot gen : Nat) : List Word :=
  let p := stat == statProc
  let w (b : Bool) (x : Word) : Word := if b then x else 0
  [ BitVec.ofNat 32 ((if p then r.stack.length else 0) * 2 ^ 20 + (if r.hitv && r.face then 128 else 0) +
      (if r.hitv then 32 * r.kind + 16 else 0) + stat),
    r.tmax, r.tmin, w p (BitVec.ofNat 32 (gen * 65536 + slot)),
    w p (w0 r.space.org), w p (w1 r.space.org), w p (w2 r.space.org), w p (w0 r.space.dir), w p (w1 r.space.dir), w p (w2 r.space.dir),
    w p r.leaf, w p r.space.inst, w r.hitv r.hprim, w r.hitv r.hinst, w r.hitv r.b1, w r.hitv r.b2 ]

end Sys2Proof.Machine
end

