-- ==== Sys2Proof/Machine/Splat.lean ====
section
/-! DEFINITION. Sys2Proof/Machine/Splat.lean: splat keys and the radix sort (R232–R238, R303). -/

namespace Sys2Proof.Machine

open Sys2Proof

/-! ### A check of a whole range at issue (R155, R404) -/

/-- The outcome of a check of a whole range, then the rest. -/
def wholeThen (s : State) (c : Go) (need : Need) (k : Nat → Out) : Checked LaneAcc → Out
  | .bad e _ va => .next (trapWait s (walkCheck s (whoOf c.g) need va c.g e) c.gid c.sp { infoAt e c.t c.act with faddr := some va })
  | .watch m _ => .next (watchTrap s c m c.act)
  | .absent va _ => .next (swapAct s c va need)
  | .ok a => k a.pa
/-- The checks of `n` bytes at an aligned address that no lane makes by itself. -/
def withWhole (s : State) (c : Go) (need : Need) (n : Nat) (va : Double) (k : Nat → Out) : Out :=
  wholeThen s c need k (watched s c need n (laneCheck s (whoOf c.g) need n 0 va none))

/-- The address of a descriptor, record or packet: the scalar base and the offset. -/
def wholeVa (c : Go) (w : FmWord) : Double := pairGet c.g w.base.toNat 0 + w.off.signExtend 64

/-! ### skey (R232–R234) -/

/-- The sort key's depth bits; `none` when the lane emits nothing. -/
def depthBits (z : Word) : Option Word :=
  match fpv z with
  | .nan _ => none
  | .inf neg => if neg then none else some z
  | .fin neg m _ => if m = 0 then some 0 else if neg then none else some z

def keyOf (t : Nat) (z : Word) : Double := (BitVec.ofNat 64 t <<< 48) ||| z.setWidth 64

/-- lo, lo + 1, …, hi. -/
def spanTo (lo hi : Nat) : List Nat := if hi < lo then [] else (List.range (hi - lo + 1)).map (fun i => lo + i)

/-- The keys a lane emits on a grid of w × h tiles. -/
def laneKeys (w h : Nat) (k : KeyLane) : List Double :=
  match depthBits k.depth with
  | none => []
  | some z =>
    let lo (x : Word) : Nat := x.toNat % 65536
    let hi (x : Word) : Nat := x.toNat / 65536
    (spanTo (hi k.c0) (min (hi k.c1) (h - 1))).flatMap (fun ty =>
      (spanTo (lo k.c0) (min (lo k.c1) (w - 1))).map (fun tx => keyOf (ty * w + tx) z))

/-- Pairs at consecutive positions. -/
def placeFrom (v : Word) : Nat → List Double → List (Nat × Double × Word)
  | _, [] => []
  | p, k :: r => (p, k, v) :: placeFrom v (p + 1) r

/-- The pairs of .at: each lane's from its own position. -/
def pairsAt (w h : Nat) (ls : List KeyLane) : List (Nat × Double × Word) :=
  ls.flatMap (fun k => placeFrom k.idx k.pos (laneKeys w h k))
/-- The pairs of the append form, from one position on. -/
def pairsFrom (w h : Nat) : Nat → List KeyLane → List (Nat × Double × Word)
  | _, [] => []
  | p, k :: r => placeFrom k.idx p (laneKeys w h k) ++ pairsFrom w h (p + (laneKeys w h k).length) r
def pairCount (w h : Nat) (ls : List KeyLane) : Nat := ls.foldl (fun n k => n + (laneKeys w h k).length) 0

def keyLaneOf (c : Go) (w : FmWord) (at_ : Bool) (l : Nat) : KeyLane :=
  let r (k : Nat) : Word := regGet c.g (w.d.toNat + k) l
  { c0 := r 0, c1 := r 1, depth := r 2, idx := r 3, pos := if at_ then (regGet c.g w.idx.toNat l).toNat else 0 }

/-- A job that holds leases and no footprint. -/
def leaseJob (s : State) (gid : Nat) (g : Group) (k : JobKind) : Nat × State :=
  (s.nextId, { s with nextId := s.nextId + 1,
                      jobs := tabPut s.jobs s.nextId
                        (namedJob s { kind := k, ctx := g.ctx, lid := g.lid, uid := g.uid, gid := gid, core := g.core }) })

def issueSkey (i : Instr) (w : FmWord) (at_ : Bool) (s : State) : Out :=
  match pre i s with
  | .out o => o
  | .go c =>
    if flagFull i c then hold s c
    else match lanesOf c.act with
    | [] => issueNone s i c
    | ls =>
      withWhole s c (if at_ then .read else .both) 32 (wholeVa c w) (fun pa =>
        if !at_ && unchecked s c.gid then hold s c
        else
          let (j, s) := leaseJob s c.gid c.g .skey
          let oid := s.nextId
          let o := { newOp i c with accs := [{ va := wholeVa c w, pa := pa, n := 32, lanes := ls.take 1 }] }
          let s := if at_ then issueOp s i c o else issueCloser s i c o
          .next { s with keys := tabPut s.keys oid { job := j, desc := wholeVa c w, append := !at_, lanes := ls.map (keyLaneOf c w at_) } })

/-- skey, the append form: it closes the region (R222). -/
def execSkey (w : FmWord) (s : State) : Out := issueSkey (.skey w) w false s
/-- skey.at. -/
def execSkeyAt (w : FmWord) (s : State) : Out := issueSkey (.skeyAt w) w true s

/-- The checks of a key-buffer descriptor, in order. -/
def descFault (bs : List Byte) : Option (BitVec 6) :=
  let cap := (nat32 bs 16).toNat
  let wh := (nat32 bs 24).toNat
  if nat64 bs 0 % 8 ≠ 0 ∨ nat64 bs 8 % 4 ≠ 0 then some 0x14#6
  else if nat32 bs 28 ≠ 0 then some 0x02#6
  else if cap = 0 ∨ cap > 2 ^ 31 ∨ wh % 65536 = 0 ∨ wh / 65536 = 0 ∨ wh % 65536 * (wh / 65536) > 65536 then some 0x15#6
  else none

/-- The operation completes with a cause; its leases end. -/
def endKeys (s : State) (oid : Nat) (k : KeyJob) (c : BitVec 6) : State :=
  let s := mapOp s oid (fun o => { o with engine := false, done := true, accs := [], err := c })
  bump { s with keys := tabDel s.keys oid, jobs := tabDel s.jobs k.job }

def mapKeys (s : State) (oid : Nat) (f : KeyJob → KeyJob) : State := { s with keys := tabMap s.keys oid f }
/-- The closing instruction's commit, once its checks are done. -/
def commitOp (s : State) (o : Op) : State :=
  match o.closer with
  | some k => commitWith s o.gid k
  | none => s

/-- The descriptor's bytes are poisoned, or their port is down. -/
def descPoison (s : State) (pa : Nat) : Bool := isPoison s .mem 0 pa 32 || portFails s pa

/-- The descriptor is read: of skey's accesses only its writes are accesses of the group (R305), so no race is looked for; poison traps
precisely, and the descriptor's own checks go to the flag. -/
def readDesc (s : State) (oid : Nat) (o : Op) (g : Group) (k : KeyJob) : State :=
  match engXlate s k.job { whoOf g with ctx := o.ctx } .read k.desc with
  | .bad c s => endKeys (commitOp s o) oid k c
  | .wait s => s
  | .ok pa s =>
    if descPoison s pa then
      sliceTrap { s with keys := tabDel s.keys oid, jobs := tabDel s.jobs k.job } o ⟨0x3E, 0, 0, 0⟩
        { va := k.desc, pa := pa, n := 32, rd := true, wr := false, kind := .plain } o.act
    else
      let s := memTouch s pa 32
      let bs := physRead s pa 32
      match descFault bs with
      | some c => endKeys (commitOp s o) oid k c
      | none =>
        let wh := (nat32 bs 24).toNat
        let (w, h) := (wh % 65536, wh / 65536)
        let s := mapOp (commitOp s o) oid (fun o => { o with engine := true, accs := [] })
        mapKeys s oid (fun k =>
          { k with ready := true, keys := ofBytes 64 (bs.take 8), vals := ofBytes 64 ((bs.drop 8).take 8), cap := (nat32 bs 16).toNat,
                   w := w, h := h, todo := if k.append then [] else pairsAt w h k.lanes })

/-- A group's access by its engine-side half: translated under the lease, behind the group's earlier accesses to the bytes (R306), checked,
and its cause or its place. -/
def keyAccess (s : State) (oid : Nat) (o : Op) (g : Group) (k : KeyJob) (va : Double) (n : Nat) (rd : Bool) (kind : WKind) : EngXlate :=
  match engXlate s k.job { whoOf g with ctx := o.ctx } (if rd then .both else .write) va with
  | .ok pa s =>
    if earlierMeets s o.gid oid pa n then .wait s
    else
      let t : Touch := { va := va, pa := pa, n := n, rd := rd, wr := true, kind := kind }
      let me := partyOfOp s o g
      let sc := match kind with | .sync sc => [sc] | _ => []
      match sliceCheck s me sc t with
      | some b => .bad b.cause (if b.cause = 0x3E then mcheckG s 3 (poisonAddr s pa n) g else s)
      | none => .ok pa (recordAll (memTouch s pa n) me oid o.later sc [t])
  | x => x

/-- COUNT advances by the pairs of every lane. -/
def addCount (s : State) (oid : Nat) (o : Op) (g : Group) (k : KeyJob) : State :=
  match keyAccess s oid o g k (k.desc + 20) 4 true (.sync 5) with
  | .bad c s => endKeys s oid k c
  | .wait s => s
  | .ok pa s =>
    let p0 := physNat s pa 4
    let s := memPut s pa (bytesOf 4 (BitVec.ofNat 32 (p0 + pairCount k.w k.h k.lanes)))
    mapKeys s oid (fun k => { k with added := true, todo := pairsFrom k.w k.h p0 k.lanes })

/-- One pair is written: its key, then its value. A fault of an array ends the operation with its own cause, whether or not some
position lay beyond CAP (DESIGN CHOICE, log entry 91). -/
def writePair (s : State) (oid : Nat) (o : Op) (g : Group) (k : KeyJob) (x : Nat × Double × Word) : State :=
  let next (s : State) (ovf : Bool) : State := mapKeys s oid (fun k => { k with todo := k.todo.drop 1, ovf := k.ovf || ovf })
  if x.1 ≥ k.cap then next s true
  else
    match keyAccess s oid o g k (k.keys + BitVec.ofNat 64 (8 * x.1)) 8 false .plain with
    | .bad c s => endKeys s oid k c
    | .wait s => s
    | .ok pk s =>
      let s := memPut s pk (bytesOf 8 x.2.1)
      match keyAccess s oid o g k (k.vals + BitVec.ofNat 64 (4 * x.1)) 4 false .plain with
      | .bad c s => endKeys s oid k c
      | .wait s => s
      | .ok pv s => next (memPut s pv (bytesOf 4 x.2.2)) false

/-- One step of an skey at the home slices. -/
def stepKeys (s : State) (oid : Nat) (k : KeyJob) : State :=
  match tabFind s.ops oid with
  | none => { s with keys := tabDel s.keys oid, jobs := tabDel s.jobs k.job }
  | some o => match grp s o.gid with
    | none => s
    | some g =>
      if !k.ready then (if mayPerform s oid o then readDesc s oid o g k else s)
      else if k.append && !k.added then addCount s oid o g k
      else match k.todo with
        | x :: _ => writePair s oid o g k x
        | [] => endKeys s oid k (if k.ovf then 0x2B else 0)

/-! ### sort (R235–R238) -/

/-- The footprint of a sort, by its record and its descriptor (R303). -/
def sortRanges (va : Double) (rec_ d : List Byte) : List Range × List Range :=
  let r (a n : Nat) : Range := ⟨a, n, none⟩
  let cap := (nat32 d 16).toNat
  let wh := (nat32 d 24).toNat
  let arrays := [r (nat64 d 0) (8 * cap), r (nat64 d 8) (4 * cap)]
  ([r va.toNat 64, r (nat64 rec_ 0) 32] ++ arrays,
   arrays ++ [r (nat64 rec_ 8) (12 * cap)] ++
     (if nat64 rec_ 16 = 0 then [] else [r (nat64 rec_ 16) (8 * (wh % 65536 * (wh / 65536)))]))

/-- sort: the command goes to the Radix Sort Engine of the core's cluster; the Yard learns its footprint from the record, which the engine
reads, so that no watchpoint matches it (R410). -/
def execSort (w : FmWord) (s : State) : Out :=
  match pre (.sort w) s with
  | .out o => o
  | .go c =>
    if flagFull (.sort w) c then hold s c
    else if c.act = 0 then issueNone s (.sort w) c
    else wholeThen s c .read (fun _ =>
      if commandPending s c.gid || decide (jobsOf s c.g.ctx ≥ 1024) then hold s c
      else
        let (jid, s) := acceptJob s { kind := .sort, ctx := c.g.ctx, lid := c.g.lid, uid := c.g.uid, gid := c.gid, core := c.g.core,
                                      known := false }
        let oid := s.nextId
        let s := issueOp s (.sort w) c { newOp (.sort w) c with engine := true }
        .next { s with sorts := tabPut s.sorts oid { job := jid, cluster := clusterOf c.g.core, va := wholeVa c w, user := !c.g.sys,
                                                     secure := c.g.secure } }) (laneCheck s (whoOf c.g) .read 64 0 (wholeVa c w) none)

/-- The bits of a key that order it: [47:32] do not (R236). -/
def sortBits (k : Double) : Nat := (k.toNat / 2 ^ 48) * 2 ^ 32 + k.toNat % 2 ^ 32

/-- Insert a pair before the first that is greater: equal keys keep their order. -/
def insertPair (x : Double × Word) : List (Double × Word) → List (Double × Word)
  | [] => [x]
  | y :: r => if sortBits x.1 < sortBits y.1 then x :: y :: r else y :: insertPair x r
/-- The stable sort of the pairs. -/
def sortPairs (l : List (Double × Word)) : List (Double × Word) := l.foldl (fun acc x => insertPair x acc) []

/-- Some pass of the sort runs: two keys differ in a digit. -/
def sortPasses (l : List (Double × Word)) : Bool :=
  match l with
  | [] => false
  | x :: r => r.any (fun y => sortBits y.1 != sortBits x.1)

/-- The range table: of each tile, the keys below it and the keys up to it (R237). -/
def rangeTable (n : Nat) (ks : List Double) : List Byte :=
  (List.range n).flatMap (fun t =>
    bytesOf 4 (BitVec.ofNat 32 (ks.filter (fun k => decide (k.toNat / 2 ^ 48 < t))).length) ++
    bytesOf 4 (BitVec.ofNat 32 (ks.filter (fun k => decide (k.toNat / 2 ^ 48 ≤ t))).length))

/-- The command has ended. -/
def endSort (s : State) (oid : Nat) (k : SortCmd) (c : BitVec 6) : State :=
  let s := mapOp s oid (fun o => { o with engine := false, done := true, err := c })
  endJob { s with sorts := tabDel s.sorts oid } k.job

def sortWho (s : State) (k : SortCmd) : Who :=
  { ctx := match jobOf s k.job with | some j => j.ctx | none => 0, user := k.user, secure := k.secure, tlbs := [192 + k.cluster] }
def sortRead (s : State) (k : SortCmd) (va : Double) (n : Nat) : EngRes (List Byte) := jobRead s k.job (sortWho s k) (some k.cluster) va n
def sortWrite (s : State) (k : SortCmd) (va : Double) (bs : List Byte) : EngRes Unit := jobWrite s k.job (sortWho s k) (some k.cluster) va bs

/-- Bytes the manual leaves open. -/
def openBytes (tok n : Nat) : List Byte := (List.range n).map (Config.allocByte tok 2)

/-- The arrays and the table are left in no promised state by a recorded error (R236). -/
def scramble (s : State) (k : SortCmd) (rs : List (Double × Nat)) : State :=
  rs.foldl (fun s r =>
    let (t, s) := takeFree s
    match sortWrite s k r.1 (openBytes t r.2) with
    | .ok _ s => s
    | _ => s) s

/-- The checks of the record and the descriptor, in order. -/
def sortFault (r d : List Byte) : Option (BitVec 6) :=
  let zero (l : List Byte) : Bool := l.all (fun b => b == 0)
  let wh := (nat32 d 24).toNat
  let cap := (nat32 d 16).toNat
  if nat64 r 0 % 32 ≠ 0 ∨ nat64 r 8 % 8 ≠ 0 ∨ nat64 d 0 % 8 ≠ 0 ∨ nat64 r 16 % 8 ≠ 0 ∨ nat64 d 8 % 4 ≠ 0 then some 0x14#6
  else if !zero ((r.drop 24).take 40) || nat32 d 28 != 0 then some 0x02#6
  else if cap = 0 ∨ cap > 2 ^ 31 ∨ wh % 65536 = 0 ∨ wh / 65536 = 0 ∨ wh % 65536 * (wh / 65536) > 65536 then some 0x15#6
  else none

/-- The pairs of two arrays. -/
def pairsOf (ks vs : List Byte) (n : Nat) : List (Double × Word) :=
  (List.range n).map (fun i => (ofBytes 64 ((ks.drop (8 * i)).take 8), nat32 vs (4 * i)))

/-- Write a list of runs, one after another. -/
def sortWrites (k : SortCmd) : State → List (Double × List Byte) → EngRes Unit
  | s, [] => .ok () s
  | s, (va, bs) :: r => match sortWrite s k va bs with
    | .ok _ s => sortWrites k s r
    | x => x

/-- The sort itself, once the record and the descriptor have passed. -/
def runSort (s : State) (oid : Nat) (k : SortCmd) (r d : List Byte) : State :=
  let n := (nat32 d 20).toNat
  let wh := (nat32 d 24).toNat
  let tiles := wh % 65536 * (wh / 65536)
  let keys : Double := ofBytes 64 (d.take 8)
  let vals : Double := ofBytes 64 ((d.drop 8).take 8)
  let tbl : Double := ofBytes 64 ((r.drop 16).take 8)
  let scr : Double := ofBytes 64 ((r.drop 8).take 8)
  let open_ := [(keys, 8 * n), (vals, 4 * n)] ++ (if tbl = 0 then [] else [(tbl, 8 * tiles)])
  if n > (nat32 d 16).toNat then endSort s oid k 0x2B
  else match sortRead s k keys (8 * n) with
  | .bad c s => endSort (scramble s k open_) oid k c
  | .wait s => s
  | .ok kb s => match sortRead s k vals (4 * n) with
    | .bad c s => endSort (scramble s k open_) oid k c
    | .wait s => s
    | .ok vb s =>
      let ps := pairsOf kb vb n
      let out := sortPairs ps
      let moved := sortPasses ps
      let (t, s) := takeFree s
      let ws : List (Double × List Byte) :=
        (if moved then [(scr, openBytes t (12 * (nat32 d 16).toNat)), (keys, out.flatMap (fun p => bytesOf 8 p.1)),
                        (vals, out.flatMap (fun p => bytesOf 4 p.2))] else []) ++
        (if tbl = 0 then [] else [(tbl, rangeTable tiles (out.map (·.1)))])
      match sortWrites k s ws with
      | .ok _ s => endSort s oid k 0
      | .bad c s => endSort (scramble s k open_) oid k c
      | .wait s => s

/-- The Yard reads a sort's record and descriptor for its footprint; where they cannot be read the sort itself ends with the cause. -/
def learnSort (s : State) (k : SortCmd) : State :=
  match jobPeek s k.job (sortWho s k) k.va 64 with
  | .wait s => s
  | .bad _ _ => learnJob s k.job [⟨k.va.toNat, 64, none⟩] []
  | .ok r s => match jobPeek s k.job (sortWho s k) (ofBytes 64 (r.take 8)) 32 with
    | .wait s => s
    | .bad _ _ => learnJob s k.job [⟨k.va.toNat, 64, none⟩, ⟨nat64 r 0, 32, none⟩] []
    | .ok d s => let fp := sortRanges k.va r d; learnJob s k.job fp.1 fp.2

/-- SORT_JOB: the oldest command of a cluster's engine, when no edge holds it. -/
def execSortJob (oid : Nat) (s : State) : Out :=
  match tabFind s.sorts oid with
  | none => .next s
  | some k =>
    let held := match jobOf s k.job with | some j => j.heldR || j.heldW | none => true
    if (match jobOf s k.job with | some j => !j.known | none => false) then .next (learnSort s k)
    else if held || s.sorts.any (fun e => decide (e.1 < oid) && e.2.cluster == k.cluster) then .next s
    else match sortRead s k k.va 64 with
    | .bad c s => .next (endSort s oid k c)
    | .wait s => .next s
    | .ok r s => match sortRead s k (ofBytes 64 (r.take 8)) 32 with
      | .bad c s => .next (endSort s oid k c)
      | .wait s => .next s
      | .ok d s => match sortFault r d with
        | some c => .next (endSort s oid k c)
        | none => .next (runSort s oid k r d)

end Sys2Proof.Machine
end

