-- ==== Sys2Proof/Machine/Blend.lean ====
section
/-! DEFINITION. Sys2Proof/Machine/Blend.lean: blend, bgrad and the visibility-buffer reads (R239–R246). -/

namespace Sys2Proof.Machine

open Sys2Proof

/-! ### Plain reads of a lane at issue (R155, R158) -/

/-- A failure of a read. -/
inductive RdFail where
  | bad (c : BitVec 6) (va : Double) (pa : Nat) (other : Double) (lid unit : Word)
  | absent (va : Double)
  | watch (k : Nat)
  /-- an earlier access of the group to the location is not performed yet (R306) -/
  | pending
deriving DecidableEq, Repr

/-- The reads made so far: the state with the Trough folded, and what is to be recorded. -/
structure RdAcc where
  s : State
  ts : List Touch := []

/-- One aligned 32-bit read of a lane. -/
def rdWord (c : Go) (lane : Nat) (va : Double) (a : RdAcc) : Except RdFail (Word × RdAcc) :=
  match watched a.s c .read 4 (laneCheck a.s (whoOf c.g) .read 4 lane va none) with
  | .bad e _ va => .error (.bad e va (checkAddr a.s (whoOf c.g) .read va) 0 0 0)
  | .watch k _ => .error (.watch k)
  | .absent va _ => .error (.absent va)
  | .ok x =>
    let t : Touch := { lane := lane, va := va, pa := x.pa, n := 4, rd := true, wr := false, kind := .plain }
    if earlierMeets a.s c.gid a.s.nextId x.pa 4 then .error .pending
    else match sliceCheck a.s (partyOf a.s c.gid c.g) [] t with
    | some b => .error (.bad b.cause va x.pa b.other b.lid b.unit)
    | none =>
      let s := memTouch (walkFold a.s (whoOf c.g) va) x.pa 4
      .ok (BitVec.ofNat 32 (physNat s x.pa 4), ⟨s, a.ts ++ [t]⟩)

/-- Consecutive words. -/
def rdWords (c : Go) (lane : Nat) : Nat → Double → RdAcc → List Word → Except RdFail (List Word × RdAcc)
  | 0, _, a, ws => .ok (ws, a)
  | n + 1, va, a, ws => match rdWord c lane va a with
    | .error e => .error e
    | .ok (x, a) => rdWords c lane n (va + 4) a (ws ++ [x])

/-- Entry `n` of the value array, and the record it names (R239). -/
def rdEntry (c : Go) (lane : Nat) (rb vb : Double) (n : Word) (a : RdAcc) : Except RdFail (Word × List Word × RdAcc) :=
  match rdWord c lane (vb + BitVec.ofNat 64 (4 * n.toNat)) a with
  | .error e => .error e
  | .ok (j, a) => match rdWords c lane 10 (rb + BitVec.ofNat 64 (48 * j.toNat)) a [] with
    | .error e => .error e
    | .ok (r, a) => .ok (j, r, a)

/-! ### The arithmetic of R241 -/

/-- What a splat is at a pixel: dx, dy, α, whether α was limited, whether pw was raised, Exp(pw). -/
structure SplatAt where
  dx : Word
  dy : Word
  al : Word
  limited : Bool
  raised : Bool
  ex : Word
deriving DecidableEq, Repr

def fpHalfNeg : Num := .fin true 1 (-1)
def fpTwo : Num := .fin false 2 0
def fpOne : Num := .fin false 1 0
/-- 0.99 and 1/255 of R241. -/
def alphaMax : Word := 0x3F7D70A4
def alphaMin : Word := 0x3B808081

def splatAt (r : List Word) (px py : Word) : SplatAt :=
  let f (k : Nat) : Num := fpv (r.getD k 0)
  let dx := rne (subN (fpv px) (f 0))
  let dy := rne (subN (fpv py) (f 1))
  let q := addN [mulN [f 2, fpv dx, fpv dx], mulN [fpTwo, f 3, fpv dx, fpv dy], mulN [f 4, fpv dy, fpv dy]]
  let pw := rne (mulN [fpHalfNeg, q])
  let raised := ltW 0 pw
  let ex : Word := BitVec.ofNat 32 (laneExp (if raised then 0 else pw).toNat)
  let raw := rne (mulN [f 5, fpv ex])
  let limited := ltW alphaMax raw
  ⟨dx, dy, if limited then alphaMax else raw, limited, raised, ex⟩

/-- The splat is skipped: α is NaN or below 1/255. -/
def splatSkip (p : SplatAt) : Bool := isNanW p.al || ltW p.al alphaMin

/-! ### blend (R240, R241) -/

/-- The blended state: D's words and the next entry. -/
def blendOne (d r : List Word) (p : SplatAt) (tn : Word) : List Word :=
  let t := fpv (d.getD 3 0)
  let ch (k : Nat) : Word := rne (addN [fpv (d.getD k 0), mulN [fpv p.al, t, fpv (r.getD (6 + k) 0)]])
  let n := d.getD 4 0 + 1
  [ch 0, ch 1, ch 2, tn, n, n, d.getD 6 0, d.getD 7 0]

/-- A pixel: at most `n` entries of its list. -/
def blendLane (c : Go) (lane : Nat) (ab : List Word) (rb vb : Double) (thr : Word) :
    Nat → List Word → RdAcc → Except RdFail (List Word × RdAcc)
  | 0, d, x => .ok (d, x)
  | n + 1, d, x =>
    if d.getD 6 0 ≠ 0 then .ok (d, x)
    else if (d.getD 4 0).toNat ≥ (ab.getD 3 0).toNat then .ok (d.set 6 3, x)
    else match rdEntry c lane rb vb (d.getD 4 0) x with
    | .error e => .error e
    | .ok (_, r, x) =>
      if ltW (ab.getD 2 0) (r.getD 9 0) then .ok (d.set 6 2, x)
      else
        let p := splatAt r (ab.getD 0 0) (ab.getD 1 0)
        if splatSkip p then blendLane c lane ab rb vb thr n (d.set 4 (d.getD 4 0 + 1)) x
        else
          let tn := rne (mulN [fpv (d.getD 3 0), subN fpOne (fpv p.al)])
          if ltW tn thr then .ok (d.set 6 1, x)
          else blendLane c lane ab rb vb thr n (blendOne d r p tn) x

/-- How the lanes' reads end. -/
inductive RdAll (α : Type) where
  | ok (v : List (Nat × α)) (a : RdAcc)
  | fail (e : RdFail) (l : Nat)

/-- Every lane in turn; the lowest that fails decides (R155). -/
def rdLanes (f : Nat → RdAcc → Except RdFail (α × RdAcc)) : List Nat → RdAcc → List (Nat × α) → RdAll α
  | [], a, vs => .ok vs a
  | l :: r, a, vs => match f l a with
    | .error e => .fail e l
    | .ok (v, a) => rdLanes f r a (vs ++ [(l, v)])

/-- The lowest address among the lanes that fail with a cause (R404). -/
def failVa (f : Nat → RdAcc → Except RdFail (α × RdAcc)) (a : RdAcc) (ls : List Nat) (c : BitVec 6) (va : Double) : Double :=
  ls.foldl (fun m l => match f l a with
    | .error (.bad e v _ _ _ _) => if e = c ∧ v.toNat < m.toNat then v else m
    | _ => m) va

/-- The lanes whose reads a watchpoint matches (R410). -/
def watchLanes (f : Nat → RdAcc → Except RdFail (α × RdAcc)) (a : RdAcc) (ls : List Nat) (n : Nat) : Mask :=
  ls.foldl (fun m l => match f l a with
    | .error (.watch k) => if k = n then setBit m l true else m
    | _ => m) 0

/-- Run the lanes' reads: a failure is precise and writes nothing. -/
def withReads (s : State) (c : Go) (f : Nat → RdAcc → Except RdFail (α × RdAcc)) (k : List (Nat × α) → State → Out) : Out :=
  let ls := lanesOf c.act
  match rdLanes f ls ⟨s, []⟩ [] with
  | .ok vs a => k vs (recordAll a.s (partyOf a.s c.gid c.g) a.s.nextId 0 [] a.ts)
  | .fail (.absent va) _ => .next (swapAct s c va .read)
  | .fail .pending _ => hold s c
  | .fail (.watch n) _ => .next (watchTrap s c n (watchLanes f ⟨s, []⟩ ls n))
  | .fail (.bad e va pa other lid unit) _ =>
    let s' := if e = 0x3E then mcheckG s 3 pa c.g else s
    .next (trapWait s s' c.gid c.sp { infoAt e c.t c.act with
      faddr := some (failVa f ⟨s, []⟩ ls e va), other := other, otherLid := lid, otherUnit := unit })

def words (g : Group) (f : BitVec 8) (n l : Nat) : List Word := (List.range n).map (fun k => regGet g (f.toNat + k) l)
def wordsWrs (f : BitVec 8) (l : Nat) (ws : List Word) : List RegWr :=
  (List.range ws.length).map (fun k => ⟨f.toNat + k, l, ws.getD k 0⟩)

/-- blend: lanes whose STAT is zero advance; D+7 is written 0. -/
def execBlend (w : FrWord) (s : State) : Out :=
  match pre (.blend w) s with
  | .out o => o
  | .go c =>
    let i : Instr := .blend w
    if flagFull i c || mustWait s c.gid false false then hold s c
    else if c.act = 0 then issueNone s i c
    else
      let rb := src2 c.g w.b 0
      let vb := src2 c.g w.c 0
      let run (l : Nat) (a : RdAcc) : Except RdFail (List Word × RdAcc) :=
        let d := words c.g w.d 8 l
        if d.getD 6 0 ≠ 0 then .ok (d, a)
        else blendLane c l (words c.g w.a 4 l) rb vb (pktOf s c.g).thr 256 (d.set 7 0) a
      withReads s c run (fun vs s =>
        .next (issueOp s i c { newOp i c with done := true, wrs := vs.flatMap (fun v => wordsWrs w.d v.1 v.2) }))

/-! ### bgrad (R242–R244) -/

/-- The nine values a replayed entry emits, in record order (R242, R243). -/
def gradOf (d r : List Word) (p : SplatAt) (ti : Word) : List Word :=
  let f (k : Nat) : Num := fpv (r.getD k 0)
  let g (k : Nat) : Num := fpv (d.getD k 0)
  let sCh (k : Nat) : Num := fpv (d.getD (5 + k) 0)
  let al := fpv p.al
  let dcol (k : Nat) : Word := rne (mulN [al, fpv ti, g k])
  let dal := rne (mulN [fpv ti, addN [mulN [g 0, subN (f 6) (sCh 0)], mulN [g 1, subN (f 7) (sCh 1)], mulN [g 2, subN (f 8) (sCh 2)]]])
  let zero := p.limited || p.raised
  let dop : Word := if zero then 0 else rne (mulN [fpv dal, fpv p.ex])
  let dpw : Num := fpv (if zero then 0 else rne (mulN [fpv dal, al]))
  let dx := fpv p.dx
  let dy := fpv p.dy
  [ rne (mulN [dpw, addN [mulN [f 2, dx], mulN [f 3, dy]]]), rne (mulN [dpw, addN [mulN [f 3, dx], mulN [f 4, dy]]]),
    rne (mulN [fpHalfNeg, dpw, dx, dx]), rne (mulN [dpw.neg, dx, dy]), rne (mulN [fpHalfNeg, dpw, dy, dy]),
    dop, dcol 0, dcol 1, dcol 2 ]

/-- The state after an entry is replayed. -/
def gradNext (d r : List Word) (p : SplatAt) (om ti : Word) (n : Word) : List Word :=
  let sNew (k : Nat) : Word := rne (addN [mulN [fpv p.al, fpv (r.getD (6 + k) 0)], mulN [fpv om, fpv (d.getD (5 + k) 0)]])
  [d.getD 0 0, d.getD 1 0, d.getD 2 0, ti, n, sNew 0, sNew 1, sNew 2]

/-- What a lane's replay gives: the state and the values emitted, by splat. -/
structure GradRes where
  d : List Word
  em : List (Word × List Word) := []
deriving DecidableEq, Repr

/-- A pixel's replay: at most `n` entries, back to front. -/
def gradLane (c : Go) (lane : Nat) (ab : List Word) (rb vb : Double) : Nat → GradRes → RdAcc → Except RdFail (GradRes × RdAcc)
  | 0, q, x => .ok (q, x)
  | n + 1, q, x =>
    let d := q.d
    if (d.getD 4 0).toNat ≤ (ab.getD 3 0).toNat then .ok (q, x)
    else
      let pos := d.getD 4 0 - 1
      match rdEntry c lane rb vb pos x with
      | .error e => .error e
      | .ok (j, r, x) =>
        let p := splatAt r (ab.getD 0 0) (ab.getD 1 0)
        if splatSkip p then gradLane c lane ab rb vb n { q with d := d.set 4 pos } x
        else
          let om := rne (subN fpOne (fpv p.al))
          let ti := divW (fpv (d.getD 3 0)) (fpv om)
          gradLane c lane ab rb vb n ⟨gradNext d r p om ti pos, q.em ++ [(j, gradOf d r p ti)]⟩ x

/-- Add a value to the running sum of its address (R244). -/
def sumInto (va : Nat) (x : Word) : List (Nat × Word) → List (Nat × Word)
  | [] => [(va, x)]
  | (a, y) :: r => if a = va then (a, BitVec.ofNat 32 (addF32 y.toNat x.toNat)) :: r else (a, y) :: sumInto va x r

/-- The combined values, by address, in the order of their first emission. -/
def gradSums (gb : Double) (em : List (Word × List Word)) : List (Nat × Word) :=
  em.foldl (fun acc e => (List.range 9).foldl (fun acc k =>
    sumInto (gb + BitVec.ofNat 64 (48 * e.1.toNat + 4 * k)).toNat (e.2.getD k 0) acc) acc) []

/-- The first update whose page is not resident. -/
def updAbsent (s : State) (w : Who) (us : List (Nat × Word)) : Option Double :=
  (us.map (fun u => BitVec.ofNat 64 u.1)).find? (fun va => match translate s w .both va with | .absent => true | _ => false)

/-- The watchpoint that an update matches, one that passes the alignment, translation and permission steps of R155 (R410). -/
def updHit (s : State) (c : Go) (u : Nat × Word) : Option Nat :=
  if u.1 % 4 ≠ 0 then none
  else match translate s (whoOf c.g) .both (BitVec.ofNat 64 u.1) with
  | .ok _ _ => watchHit s c .write 4 (BitVec.ofNat 64 u.1)
  | _ => none
/-- The first update that a watchpoint matches. -/
def updWatch (s : State) (c : Go) (us : List (Nat × Word)) : Option Nat := us.findSome? (updHit s c)
/-- The lanes that emit an update which watchpoint `n` matches. -/
def updLanes (s : State) (c : Go) (gb : Double) (vs : List (Nat × GradRes)) (n : Nat) : Mask :=
  vs.foldl (fun m v => if (gradSums gb v.2.em).any (fun u => updHit s c u == some n) then setBit m v.1 true else m) 0

/-- An update waiting for its home slice: the place it is bound for keeps its order among the group's accesses (R306); one whose
translation fails has none. -/
def updAccess (s : State) (w : Who) (u : Nat × Word) : Access :=
  let va : Double := BitVec.ofNat 64 u.1
  let at_ : Nat × Nat := match translate s w .both va with
    | .ok pa _ => (pa, 4)
    | _ => (0, 0)
  { va := va, pa := at_.1, n := at_.2, lanes := [0], data := [u.2.setWidth 128], write := true }

/-- bgrad: it closes the region; its updates go to the Trough. Where one of them faults after the issue, D's registers are not written
(DESIGN CHOICE, log entry 92). -/
def execBgrad (w : FrWord) (s : State) : Out :=
  match pre (.bgrad w) s with
  | .out o => o
  | .go c =>
    let i : Instr := .bgrad w
    if flagFull i c || mustWait s c.gid false false then hold s c
    else if c.act = 0 then issueNone s i c
    else
      let rb := src2 c.g w.b 0
      let gb := pairGet c.g (w.b.toNat + 2) 0
      let vb := src2 c.g w.c 0
      withReads s c (fun l a => gradLane c l (words c.g w.a 4 l) rb vb 256 { d := words c.g w.d 8 l } a) (fun vs s' =>
        let us := gradSums gb (vs.flatMap (fun v => v.2.em))
        match updAbsent s (whoOf c.g) us with
        | some va => .next (swapAct s c va .write)
        | none => match updWatch s c us with
          | some n => .next (watchTrap s c n (updLanes s c gb vs n))
          | none =>
            if unchecked s c.gid then hold s c
            else
              let acc (u : Nat × Word) : Access := updAccess s (whoOf c.g) u
              .next (commitPoint (issueOp s' i c { newOp i c with
                accs := us.map acc, done := us.isEmpty, wrs := vs.flatMap (fun v => wordsWrs w.d v.1 v.2.d) }) c.gid c.sp))

/-- The updates of a bgrad reach their home slices, in order, until one fails (R244). -/
def gradMerge (oid : Nat) (o : Op) (g : Group) : List Access → State → State
  | [], s => bump (mapOp s oid (fun o => { o with done := true, accs := [] }))
  | a :: r, s =>
    let fail (s : State) (c : BitVec 6) : State := bump (mapOp s oid (fun o => { o with done := true, accs := [], err := c }))
    let w : Who := { whoOf g with ctx := o.ctx }
    if a.va.toNat % 4 ≠ 0 then fail s 0x14#6
    else match translate s w .both a.va with
    | .bad c => fail (walkCheck s w .both a.va g c) c
    | .absent => mapOp (requestPage s o.ctx a.va .write false) oid (fun o => { o with accs := a :: r })
    | .ok pa _ =>
      let t : Touch := { va := a.va, pa := pa, n := 4, rd := false, wr := true, kind := .red 2 }
      let me := partyOfOp s o g
      match sliceCheck s me [] t with
      | some b => fail (if b.cause = 0x3E then mcheckG s 3 (poisonAddr s pa 4) g else s) b.cause
      | none => gradMerge oid o g r (recordAll (mergeAcc s o { a with pa := pa, n := 4 }) me oid o.later [] [t])

/-! ### The visibility buffer (R245, R246) -/

/-- x in the even bits, y in the odd bits, four bits each. -/
def morton (x y : Nat) : Nat :=
  (List.range 4).foldl (fun m i => m + (x / 2 ^ i % 2) * 2 ^ (2 * i) + (y / 2 ^ i % 2) * 2 ^ (2 * i + 1)) 0

/-- Offset of sample s of pixel (x, y) in a buffer wv pixels wide with S samples. -/
def vbufOff (wv spp x y s : Nat) : Nat :=
  16 * (spp * (256 * (y / 16 * ((wv + 15) / 16) + x / 16) + morton (x % 16) (y % 16)) + s)

def vbufRead (i : Instr) (w : FmWord) (zmax : Bool) (s : State) : Out :=
  match pre i s with
  | .out o => o
  | .go c =>
    let base := pairGet c.g w.base.toNat 0
    let cfg := regGet c.g (w.base.toNat + 2) 0
    let wv := cfg.toNat % 65536
    let spp := 2 ^ (bits cfg 16 2 : BitVec 2).toNat
    let sm := (bits w.off 0 3 : BitVec 3).toNat
    if flagFull i c then hold s c
    else if c.act = 0 then issueNone s i c
    else if (bits cfg 18 14 : BitVec 14) ≠ 0 ∨ regGet c.g (w.base.toNat + 3) 0 ≠ 0 then trapAt s c 0x02#6
    else if base.toNat % 256 ≠ 0 then .next (trapWait s s c.gid c.sp { infoAt 0x14#6 c.t c.act with faddr := some base })
    else
      let n := if zmax then 16 * spp else 16
      let lane (l : Nat) : Nat × Double × Option (BitVec 6) :=
        let xy := (regGet c.g w.idx.toNat l).toNat
        let (x, y) := (xy % 65536, xy / 65536)
        (l, base + BitVec.ofNat 64 (vbufOff wv spp x y (if zmax then 0 else sm)),
         if x ≥ wv ∨ (!zmax ∧ sm ≥ spp) then some 0x15#6 else none)
      withGlobal s c .read .read n ((lanesOf c.act).map lane) (fun accs =>
        .next (issueOp s i c { newOp i c with accs := accs.map (fun a => accessOf a n [] false) }))

/-- vbuf.z. -/
def execVbufZ (w : FmWord) (s : State) : Out := vbufRead (.vbufZ w) w false s
/-- vbuf.id. -/
def execVbufId (w : FmWord) (s : State) : Out := vbufRead (.vbufId w) w false s
/-- vbuf.all. -/
def execVbufAll (w : FmWord) (s : State) : Out := vbufRead (.vbufAll w) w false s
/-- vbuf.zmax. -/
def execVbufZmax (w : FmWord) (s : State) : Out := vbufRead (.vbufZmax w) w true s

end Sys2Proof.Machine
end

