-- ==== Sys2Proof/Machine/Copies.lean ====
section
/-! DEFINITION. Sys2Proof/Machine/Copies.lean: tile copies and multicast: issue, rows, events (R176–R180, R184, R185, R297). -/

namespace Sys2Proof.Machine

open Sys2Proof

/-! ### cpy (R176–R179) -/

/-- The words of the configuration quad. -/
structure CpyCfg where
  w0 : Word
  w1 : Word
  w2 : Word
  w3 : Word
deriving DecidableEq, Repr

def CpyCfg.bar (c : CpyCfg) : Nat := (bits c.w0 28 4 : BitVec 4).toNat
def CpyCfg.rb (c : CpyCfg) : Bool := bit c.w0 27
def CpyCfg.n (c : CpyCfg) : Nat := (bits c.w0 16 11 : BitVec 11).toNat
def CpyCfg.r (c : CpyCfg) : Nat := (bits c.w0 0 13 : BitVec 13).toNat

def cfgOf (g : Group) (w : FmWord) : CpyCfg :=
  let r (k : Nat) : Word := regGet g (w.idx.toNat + k) 0
  ⟨r 0, r 1, r 2, r 3⟩

/-- A field outside the limits of R177. -/
def cfgBad (w : FmWord) (c : CpyCfg) : Bool :=
  (bits c.w0 13 3 : BitVec 3) != 0 || c.r % 4 != 0 || decide (c.r < 4) || decide (c.r > 4096) || (w.kind == 2 && c.n != 0) ||
  (w.kind == 0 && c.w1 != 0) || (bits c.w2 18 14 : BitVec 14) != 0 || c.w3 != 0 || (c.rb && w.dir)

/-- The rows: 0 to N − 1 (0 stands for 2,048), or one per active lane. -/
def cpyRows (w : FmWord) (c : CpyCfg) (act : Mask) : List Nat :=
  if w.kind = 2 then lanesOf act else List.range (if c.n = 0 then 2048 else c.n)
/-- Bytes of scratchpad the copy names. -/
def cpySpan (w : FmWord) (c : CpyCfg) : Nat := (if w.kind = 2 then 32 else if c.n = 0 then 2048 else c.n) * c.r

/-- Global address of row i (R178). -/
def rowVa (c : Copy) (i : Nat) : Double :=
  c.g + (if c.kind = 0 then BitVec.ofNat 64 (i * c.r)
         else if c.kind = 1 then BitVec.ofInt 64 (i * c.step.toInt)
         else BitVec.ofNat 64 ((tabGet 0 c.idx i).toNat * c.step.toNat))

/-- The bounding range of the global bytes of the rows. -/
def globalRange (c : Copy) (rows : List Nat) : Range :=
  let as := rows.map (fun i => (rowVa c i).toNat)
  match listMin as with
  | none => ⟨0, 0, none⟩
  | some lo => ⟨lo, as.foldl max 0 + c.r - lo, none⟩

/-- Copies a core's engine holds (R297). -/
def copiesHeld (s : State) (core : Nat) : Nat := (s.copies.filter (fun c => c.2.core == core)).length

/-- The batch a copy issued now will belong to (R181). -/
def openBatchAdd (g : Group) : Group :=
  { g with openBatch := { g.openBatch with num := nextBatch g.bseq, pend := g.openBatch.pend + 1 } }

/-- The first fault of R177, with its address: MISALIGNED tests the address that the engine uses, offset included (DEDUCED, log entry 88). -/
def cpyFault (s : State) (c : Go) (w : FmWord) (k : CpyCfg) (ga : Double) : Option (BitVec 6 × Option Double) :=
  let o := k.w2.toNat
  if cfgBad w k then some (0x02#6, none)
  else if k.rb && !((barAt s c k.bar).rowMode && (barAt s c k.bar).armed) then some (0x3A#6, none)
  else if ga.toNat % 4 ≠ 0 then some (0x14#6, some ga)
  else if o % 4 ≠ 0 then some (0x14#6, some (BitVec.ofNat 64 o))
  else
    let size := (unitOf s c.g.uid).scratchSize
    if o + cpySpan w k > size then some (0x15#6, some (BitVec.ofNat 64 (max o size))) else none

/-- cpy: the copy is handed to the core's Tile-Copy Engine. -/
def execCpy (w : FmWord) (s : State) : Out :=
  match pre (.cpy w) s with
  | .out o => o
  | .go c =>
    let k := cfgOf c.g w
    let ga := pairGet c.g w.base.toNat 0 + w.off.signExtend 64
    if flagFull (.cpy w) c then hold s c
    else if c.act = 0 then issueNone s (.cpy w) c
    else match cpyFault s c w k ga with
    | some (e, fa) => .next (trapWait s s c.gid c.sp { infoAt e c.t c.act with faddr := fa })
    | none =>
      if copiesHeld s c.g.core ≥ 16 ∨ jobsOf s c.g.ctx ≥ 1024 ∨ commandPending s c.gid then hold s c
      else
        let rows := cpyRows w k c.act
        let cp : Copy :=
          { job := 0, core := c.g.core, uid := c.g.uid, user := !c.g.sys, secure := c.g.secure, dir := w.dir, kind := w.kind,
            scope := w.scope, g := ga, o := k.w2.toNat, r := k.r, step := k.w1, bar := if k.rb then some k.bar else none,
            idx := if w.kind = 2 then (lanesOf c.act).map (fun l => (l, regGet c.g w.d.toNat l)) else [], left := rows }
        let gr := globalRange cp rows
        let sr : Range := ⟨cp.o, cpySpan w k, some c.g.core⟩
        let (jid, s) := acceptJob s { kind := .cpy, ctx := c.g.ctx, lid := c.g.lid, uid := c.g.uid, gid := c.gid, core := c.g.core,
                                      reads := [if w.dir then sr else gr], writes := [if w.dir then gr else sr] }
        let oid := s.nextId
        let s := issueOp s (.cpy w) c { newOp (.cpy w) c with engine := true, batch := some (nextBatch c.g.bseq) }
        .next { mapGrp s c.gid openBatchAdd with copies := tabPut s.copies oid { cp with job := jid } }

/-! ### Rows -/

def mapCopy (s : State) (oid : Nat) (f : Copy → Copy) : State := { s with copies := tabMap s.copies oid f }
def copyWho (s : State) (c : Copy) : Who := { ctx := (unitOf s c.uid).ctx, user := c.user, secure := c.secure, tlbs := coreTlbs c.core }
def rowOff (c : Copy) (i : Nat) : Nat := c.o + i * c.r

/-- The copy's operation has no event left: its flags, its batch, its job (R179, R180). -/
def endCopy (s : State) (oid : Nat) (c : Copy) (err : BitVec 6) : State :=
  let s := mapOp s oid (fun o => { o with engine := false, done := true, err := err })
  let s := { s with copies := tabDel s.copies oid }
  let gid := ((tabFind s.ops oid).map (·.gid)).getD 0
  goOn (endJob (finishOp s oid true) c.job) gid

/-- Rows of an indexed copy move lowest lane first when they are written to memory, so that the highest lane's row stands; before that,
while its rows are still to be read, any of them may be the one that is in error. -/
def rowTurn (c : Copy) (i : Nat) : Bool := !(c.dir && c.kind == 2) || c.buf.isEmpty || c.left.head? == some i

/-- A row of a load-direction copy: its bytes, from the gather buffer when an equal index has been read. -/
def loadRow (s : State) (c : Copy) (i : Nat) : EngRes (List Byte) :=
  match if c.kind = 2 then tabFind c.buf (tabGet 0 c.idx i).toNat else none with
  | some bs => .ok bs s
  | none => jobRead s c.job (copyWho s c) (some (clusterOf c.core)) (rowVa c i) c.r

/-- A Tile-Copy Engine accesses its core's scratchpad: no bracket of the core holds across it (R353). -/
def engineTouch (s : State) (c : Copy) : State := endBrackets s (fun _ h => h.core == c.core)

/-- A load-direction row lands in the scratchpad, on its barrier. -/
def landRow (s : State) (oid : Nat) (c : Copy) (i : Nat) (bs : List Byte) : State :=
  let s := spacePut (engineTouch s c) false c.uid (rowOff c i) bs
  let s := match c.bar with
    | some k => mapUnit s c.uid (fun u => barPut u k (rowLands (barOf u k)))
    | none => s
  bump (mapCopy s oid (fun c => { c with left := c.left.filter (fun x => x != i),
                                         buf := if c.kind = 2 then tabPut c.buf (tabGet 0 c.idx i).toNat bs else c.buf }))

/-- The copy is one of the at most 4 that its engine runs, or may become one (R297). -/
def mayRun (s : State) (c : Copy) : Bool :=
  c.running || decide ((s.copies.filter (fun e => e.2.core == c.core && e.2.running)).length < 4)

/-- The edges let a copy's row move (R304). -/
def rowFree (s : State) (c : Copy) : Bool :=
  mayRun s c && match jobOf s c.job with
  | some j => if c.dir then !j.heldW else !j.heldR && !j.heldW
  | none => false

/-- CPY_ROW_LANDED: one row moves; a page that is not resident is requested and the row waits. -/
def execCpyRowLanded (oid row : Nat) (s : State) : Out :=
  match tabFind s.copies oid with
  | none => .next s
  | some c =>
    if c.dead || !c.left.contains row || !rowTurn c row || !rowFree s c then .next s
    else
    let s := mapCopy s oid (fun c => { c with running := true })
    if c.dir then
      match tabFind c.buf row with
      | none => .next s
      | some bs => match jobWrite s c.job (copyWho s c) (some (clusterOf c.core)) (rowVa c row) bs with
        | .ok _ s => .next (mapCopy s oid (fun c => { c with left := c.left.filter (fun x => x != row) }))
        | .bad _ _ => .next s
        | .wait s => .next s
    else match loadRow s c row with
      | .ok bs s => .next (landRow s oid c row bs)
      | .bad _ _ => .next s
      | .wait s => .next s

/-- CPY_SOURCE_FREE: a store-direction copy has read every row; its first flag completes (R179). -/
def execCpySourceFree (oid : Nat) (s : State) : Out :=
  match tabFind s.copies oid with
  | none => .next s
  | some c =>
    let held := match jobOf s c.job with | some j => j.heldR | none => true
    if !c.dir || !c.buf.isEmpty || held || c.dead || !mayRun s c then .next s
    else if c.left.any (fun i => isPoison s .scratch c.uid (rowOff c i) c.r) then .next s
    else
      let buf := c.left.map (fun i => (i, spaceBytes s false c.uid (rowOff c i) c.r))
      let s := mapJob (mapCopy (engineTouch s c) oid (fun c => { c with buf := buf, running := true })) c.job (fun j => { j with readDone := true })
      match tabFind s.ops oid with
      | none => .next s
      | some o => match o.flag with
        | none => .next (bump s)
        | some f => .next (bump (mapOp (mapGrp s o.gid (fun g => flagDone g f 0)) oid (fun o => { o with flag := none, quiet := true })))

/-- CPY_VISIBLE: every row has landed, or is visible at its scope (R178, R179). -/
def execCpyVisible (oid : Nat) (s : State) : Out :=
  match tabFind s.copies oid with
  | none => .next s
  | some c => .next (if c.left.isEmpty && !c.dead then endCopy s oid c 0 else s)

/-- The fault that a row meets, if any, and the state after its machine check (R180, R456, R458). -/
def rowFault (s : State) (c : Copy) (i : Nat) : Option (BitVec 6 × State) :=
  if c.dir && c.buf.isEmpty then
    (if isPoison s .scratch c.uid (rowOff c i) c.r then some (0x3E#6, mcheckJob s 2 0 c.job) else none)
  else if c.dir then
    match xlateAll s c.job (copyWho s c) .write (pieces (rowVa c i) c.r) [] with
    | .bad e s => some (e, s)
    | _ => none
  else match loadRow s c i with
    | .bad e s => some (e, s)
    | _ => none

/-- CPY_ROW_FAULT: no later row starts; the cause goes to the flags and the batch, and the copy completes at once. -/
def execCpyRowFault (oid row : Nat) (s : State) : Out :=
  match tabFind s.copies oid with
  | none => .next s
  | some c =>
    if !c.left.contains row || !rowTurn c row || !rowFree s c then .next s
    else match rowFault s c row with
    | none => .next s
    | some (e, s) => .next (endCopy s oid c e)

/-! ### mcast (R184, R185) -/

/-- The legal cores of a placement entry (R373). -/
def legalCore (e : BitVec 16) (core : Nat) : Bool :=
  let k := (bits e 0 8 : BitVec 8).toNat
  match (bits e 14 2 : BitVec 2).toNat with
  | 0 => core == k
  | 1 => core / 4 == k
  | 2 => clusterOf core == k
  | _ => true

/-- The entry of unit k; with no map every core is legal. -/
def placeEntry (p : Packet) (k : Nat) : BitVec 16 := p.map.getD k 0xC000#16

/-- The resident or saved unit of a launch with an index. -/
def unitAt (s : State) (lid k : Nat) : Option (Nat × UnitS) := tabFirst s.units (fun _ u => u.lid == lid && u.unit.toNat == k)

/-- The unit indexes an mcast reaches: placed on a near core, or, not placed or completed, with near cores only (DESIGN CHOICE, log
entry 49). -/
def castTargets (s : State) (c : Go) (cluster : Bool) : List Nat :=
  let near (core : Nat) : Bool := if cluster then clusterOf core == clusterOf c.g.core else core / 4 == c.g.core / 4
  let p := pktOf s c.g
  (List.range p.nUnits).filter (fun k =>
    k != c.g.unit.toNat &&
    match unitAt s c.g.lid k with
    | some (_, u) => near u.core
    | none => (List.range 192).all (fun core => !legalCore (placeEntry p k) core || near core))

/-- mcast.team and mcast.cluster. -/
def mcast (i : Instr) (w : FmWord) (cluster : Bool) (s : State) : Out :=
  match pre i s with
  | .out o => o
  | .go c =>
    let src := pairGet c.g w.base.toNat 0 + w.off.signExtend 64
    let land := (srcW c.g w.d 0).toNat
    let len := srcW c.g w.idx 0
    let n := 64 * ((bits len 0 8 : BitVec 8).toNat + 1)
    let size := (unitOf s c.g.uid).vaultSize
    let trap (e : BitVec 6) (a : Option Double) : Out := .next (trapWait s s c.gid c.sp { infoAt e c.t c.act with faddr := a })
    if flagFull i c then hold s c
    else if c.act = 0 then issueNone s i c
    else if (bits len 8 24 : BitVec 24) ≠ 0 then trap 0x02#6 none
    else if src.toNat % 64 ≠ 0 then trap 0x14#6 (some src)
    else if land % 64 ≠ 0 then trap 0x14#6 (some (BitVec.ofNat 64 land))
    else if src.toNat / 2 ^ 22 ≠ 0 ∨ src.toNat + n > size then trap 0x15#6 (some src)
    else if land + n > size then trap 0x15#6 (some (BitVec.ofNat 64 land))
    else if isPoison s .vault c.g.uid src.toNat n then
      .next (trapWait s (mcheckG s 2 0 c.g) c.gid c.sp { infoAt 0x3E#6 c.t c.act with faddr := some src })
    else if mustWait s c.gid false false then hold s c
    else
      let oid := s.nextId
      let k : Cast := { bytes := spaceBytes s true c.g.uid src.toNat n, landing := land, lid := c.g.lid, left := castTargets s c cluster }
      let s := issueOp s i c { newOp i c with engine := !k.left.isEmpty, done := k.left.isEmpty }
      let cores := k.left.filterMap (fun u => (unitAt s k.lid u).map (fun x => x.2.core))
      .next (if k.left.isEmpty then s else sendFlits { s with casts := tabPut s.casts oid k } c.g.core (cores.map (fun x => (x, n))))

def execMcastTeam (w : FmWord) (s : State) : Out := mcast (.mcastTeam w) w false s
def execMcastCluster (w : FmWord) (s : State) : Out := mcast (.mcastCluster w) w true s

/-- An earlier mcast of the same group has not reached bytes of the same vault that this one writes (R289). -/
def earlierCast (s : State) (oid k : Nat) (c : Cast) : Bool :=
  match tabFind s.ops oid with
  | none => false
  | some o => s.casts.any (fun e => decide (e.1 < oid) && e.2.left.contains k && e.2.lid == c.lid &&
      decide (e.2.landing < c.landing + c.bytes.length) && decide (c.landing < e.2.landing + e.2.bytes.length) &&
      (match tabFind s.ops e.1 with | some x => x.gid == o.gid | none => false))

/-- The unit of a launch with an index, when it is resident: its allocation is present. -/
def castUnit (s : State) (c : Cast) (k : Nat) : Option Nat :=
  match unitAt s c.lid k with
  | some (uid, u) => if u.resident then some uid else none
  | none => none
/-- The data of a multicast is written at one target. -/
def castLand (c : Cast) (s : State) (k : Nat) : State :=
  match castUnit s c k with
  | some uid => spacePut s true uid c.landing c.bytes
  | none => s
/-- A multicast that has been issued reaches all its targets (R376). -/
def deliverAll (s : State) (oid : Nat) : State :=
  match tabFind s.casts oid with
  | none => s
  | some c => { c.left.foldl (castLand c) s with casts := tabDel s.casts oid }

/-- MCAST_DELIVERY: the data reaches a target's vault port, and is written when the allocation is present. -/
def execMcastDelivery (oid k : Nat) (s : State) : Out :=
  match tabFind s.casts oid with
  | none => .next s
  | some c =>
    if !c.left.contains k || earlierCast s oid k c then .next s
    else
      let c' := { c with left := c.left.filter (fun x => x != k), released := c.released || (castUnit s c k).isNone }
      let s := castLand c s k
      let c := c'
      if c.left.isEmpty then
        .next (bump (mapOp { s with casts := tabDel s.casts oid } oid (fun o =>
          { o with engine := false, done := true, err := if c.released then 0x39 else 0 })))
      else .next { s with casts := tabPut s.casts oid c }

end Sys2Proof.Machine
end

