-- ==== Sys2Proof/Machine/MatArith.lean ====
section
/-! DEFINITION. Sys2Proof/Machine/MatArith.lean: the arithmetic of the matrix words: elements and their scales, the exact group sums and
the one rounding of each, the saturating integer form, and the three stages of a shared-value row (R50, R55, R56, R65–R68, R72, R209). -/

namespace Sys2Proof.Machine

open Sys2Proof

/-! ### Formats (R56) -/

/-- The combinations that a matrix word accepts: AFMT, BFMT, ACC, BSM. -/
def matFmtOk (a b acc bsm : Nat) : Bool :=
  if a = 1 ∨ a = 2 then (b == 1 || b == 2) && acc == 0 && bsm == 0
  else if a = 3 ∨ a = 4 then (b == 3 || b == 4) && acc == 0 && decide (bsm ≤ 1)
  else if a = 5 then b == 5 && acc == 0 && decide (bsm ≤ 1)
  else if a = 6 ∨ a = 7 then b == a && decide (acc ≤ 1) && decide (bsm ≤ 1) && (bsm == 0 || acc == 0)
  else false

/-- The width in bits of an element of a matrix format. -/
def matWidth (f : Nat) : Nat := if f = 1 ∨ f = 2 then 16 else if f = 5 ∨ f = 7 then 4 else 8
def matFloat (f : Nat) : Fmt :=
  match f with | 1 => .bf16 | 2 => .fp16 | 3 => .e4m3 | 4 => .e5m2 | _ => .e2m1

/-- The value of an element and whether it is the reserved INT4 code. -/
def matElem (f code : Nat) : Num × Bool :=
  if f = 6 then (Num.ofInt (signedOf 8 code), false)
  else if f = 7 then let r := readI4 code; (Num.ofInt r.1, r.2)
  else ((matFloat f).decode code, false)

/-- An operand as the array reads it: its format, each row as a number, its scale bytes, whether scales apply. -/
structure MatOp where
  fmt : Nat
  rows : List Nat
  scales : List Byte
  bsm : Bool

def MatOp.code (o : MatOp) (r k : Nat) : Nat := o.rows.getD r 0 / 2 ^ (matWidth o.fmt * k) % 2 ^ matWidth o.fmt
def MatOp.scale (o : MatOp) (r k : Nat) : Num := if o.bsm then e8m0 (o.scales.getD (4 * r + k / 32) 0x7F).toNat else .fin false 1 0

/-- A factor of a product: its value, its scale, and whether it is the reserved code. -/
structure Factor where
  x : Num
  sc : Num
  irc : Bool

def MatOp.factor (o : MatOp) (r k : Nat) : Factor := let e := matElem o.fmt (o.code r k); ⟨e.1, o.scale r k, e.2⟩

/-! ### Groups (R65, R67, R209) -/

/-- The exact product of two factors with their scales, and its flags. -/
def factorMul (a b : Factor) : Num × FFlags :=
  let p := a.x.mul b.x
  let q := (p.1.mul a.sc).1.mul b.sc
  (q.1, p.2 ||| sigIV [a.x, b.x] ||| flIf (a.sc.isNan || b.sc.isNan) flIV ||| flIf (a.irc || b.irc) flIRC)

/-- The exact sum of a group and its flags. -/
def groupSum (ts : List (Factor × Factor)) : Num × FFlags :=
  let ps := ts.map (fun t => factorMul t.1 t.2)
  let r := sumNum .ne (ps.map (·.1))
  (r.1, r.2 ||| flOr (ps.map (·.2)))

/-- One group applied to an FP32 accumulator element: a zero sum leaves it unchanged (R65, R66); a signalling NaN there counts IV (R46). -/
def applyFloat (rnd : Rnd) (acc : Word) (g : Num) : Word × FFlags :=
  if g.isZero then (acc, 0)
  else
    let a := Fmt.fp32.decode acc.toNat
    let x := sumNum rnd [a, g]
    let r := x.1.deliver .fp32 rnd
    (BitVec.ofNat 32 r.1, sigIV [a] ||| x.2 ||| r.2)

/-- One group applied to an INT32 element, saturating (R67). -/
def applyInt (acc : Word) (g : Num) : Word × FFlags :=
  let r := satInt true 32 (acc.toInt + g.dy.floor)
  (wrap 32 r.1, flIf r.2 flSAT)

/-- Apply the groups of one element in increasing order. -/
def applyGroups (accInt : Bool) (rnd : Rnd) : List (List (Factor × Factor)) → Word → FFlags → Word × FFlags
  | [], acc, fl => (acc, fl)
  | ts :: r, acc, fl =>
    let g := groupSum ts
    let x := if accInt then applyInt acc g.1 else applyFloat rnd acc g.1
    applyGroups accInt rnd r x.1 (fl ||| g.2 ||| x.2)

/-- A product over the active rows: `terms i j` lists the groups of element (i, j). -/
def matProduct (accInt : Bool) (rnd : Rnd) (act : Mask) (acc : Nat → Nat → Word)
    (terms : Nat → Nat → List (List (Factor × Factor))) : List (Nat × List Word) × FFlags :=
  let rows := (lanesOf act).map (fun i => (i, lanes.map (fun j => applyGroups accInt rnd (terms i j) (acc i j) 0)))
  (rows.map (fun r => (r.1, r.2.map (·.1))), flOr (rows.flatMap (fun r => r.2.map (·.2))))

/-- The groups of element (i, j) of a forward product: `on k` says whether element k takes part. -/
def mmaTerms (a b : MatOp) (on : Nat → Nat → Nat → Bool) (i j : Nat) : List (List (Factor × Factor)) :=
  let kk := 512 / matWidth a.fmt
  (List.range (kk / 8)).map (fun q =>
    ((List.range 8).filter (fun e => on i j (8 * q + e))).map (fun e => (a.factor i (8 * q + e), b.factor j (8 * q + e))))

/-- mmb.da: acc[i][kk] over j of G[i][j] × B[32q + kk][j] (R215). -/
def mmbDaTerms (g b : MatOp) (q i kk : Nat) : List (List (Factor × Factor)) :=
  (List.range 4).map (fun p => (List.range 8).map (fun e => (g.factor i (8 * p + e), b.factor (8 * p + e) (32 * q + kk))))

/-- mmb.db: acc[kk][j] over i of A[i][32q + kk] × G[i][j] (R215). -/
def mmbDbTerms (a g : MatOp) (q kk j : Nat) : List (List (Factor × Factor)) :=
  (List.range 4).map (fun p => (List.range 8).map (fun e => (a.factor (8 * p + e) (32 * q + kk), g.factor (8 * p + e) j)))

/-! ### Shared-value rows (R72, R218) -/

/-- The sum of converted activations in stream order: the first exactly, each later one rounded. -/
def streamSum (rnd : Rnd) : List (Nat × FFlags) → Option Nat → FFlags → Nat × FFlags
  | [], acc, fl => (acc.getD 0, fl)
  | (x, f) :: r, none, fl => streamSum rnd r (some x) (fl ||| f)
  | (x, f) :: r, some a, fl =>
    let y := laneFadd .fp32 0 false rnd a x
    streamSum rnd r (some y.1) (fl ||| f ||| y.2)

/-- One value of a row applied to one lane's accumulator. -/
def svrApply (rnd : Rnd) (acc : Nat) (v : Nat) (xs : List (Nat × FFlags)) : Nat × FFlags :=
  let s := streamSum rnd xs none 0
  let p := laneFmul .fp32 0 false rnd s.1 (v * 65536)
  let a := laneFadd .fp32 0 false rnd acc p.1
  (a.1, s.2 ||| p.2 ||| a.2)

end Sys2Proof.Machine
end

