-- ==== Sys2Proof/Machine/Tiles.lean ====
section
/-! DEFINITION. Sys2Proof/Machine/Tiles.lean: handle names at issue, the scoreboard, talloc, tfree, thand, tload and tstore
(R187–R207). -/

namespace Sys2Proof.Machine

open Sys2Proof

/-! ### Names at issue (R26, R192, R193, R196) -/

/-- The slot a name reads: the provisional one when there is one (R189). -/
def curSlot (n : HName) : Option (Nat × BitVec 16) := match n.pslot with | some p => some p | none => n.cslot

/-- The name is not BOUND, or its slot has another generation (R26, R192). -/
def nameStale (s : State) (g : Group) (i : Nat) : Bool :=
  let n := nameOf g i
  n.st != .bound || match curSlot n with
    | some (k, gen) => slotGen s g.core (isAccName i) k != gen
    | none => true

/-- HANDLE_KIND then HANDLE_STALE over names with the kind each must have: `some true` an accumulator, `some false` an operand. -/
def namesBad (s : State) (g : Group) (ns : List (Nat × Option Bool)) : Option (BitVec 6) :=
  if ns.any (fun n => match n.2 with | some a => isAccName n.1 != a | none => false) then some 0x21#6
  else if ns.any (fun n => nameStale s g n.1) then some 0x20#6
  else none

/-- The scoreboard (R193): `chain` accepts a pending writer under R194. -/
def namesBusy (s : State) (gid : Nat) (rds wrs : List Nat) (chain : Instr → Bool) : Bool :=
  s.ops.any (fun e => e.2.gid == gid &&
    (rds.any (fun r => e.2.hwr.contains r) || wrs.any (fun w => e.2.hrd.contains w) ||
     wrs.any (fun w => e.2.hwr.contains w && !chain e.2.instr)))
def noChain : Instr → Bool := fun _ => false

/-- A closing instruction's checks are not done: what follows it belongs to the next region. -/
def closerPending (s : State) (gid : Nat) : Bool := s.ops.any (fun e => e.2.gid == gid && e.2.closer.isSome && !e.2.done)

/-- The provisional slot of a name that an instruction writes, its contents copied when the write does not cover it (R189). -/
def writeSlot (s : State) (gid : Nat) (i : Nat) (copy : Bool) : Option (Nat × State) :=
  match grp s gid with
  | none => none
  | some g =>
    let n := nameOf g i
    match n.pslot with
    | some (k, _) => some (k, s)
    | none =>
      match takeSlot s g.core g.uid (isAccName i) with
      | none => none
      | some (p, s) =>
        let s := match n.cslot with
          | some c => if copy then copySlot s g.core (isAccName i) c.1 p.1 else s
          | none => s
        some (p.1, mapGrp s gid (fun g => namePut g i { n with pslot := some p }))

/-- The slot of a BOUND name, 0 when it has none. -/
def slotOf (g : Group) (i : Nat) : Nat := match curSlot (nameOf g i) with | some (k, _) => k | none => 0

/-- A poisoned word in a slot (R456). -/
def slotPoison (s : State) (g : Group) (i : Nat) : Bool :=
  if isAccName i then isPoison s .acc g.core (4096 * slotOf g i) 4096
  else isPoison s .operand g.core (2048 * slotOf g i) 2048 || isPoison s .operand g.core (scaleAt (slotOf g i)) 128

def trapPoison (s : State) (c : Go) : Out :=
  .next (trapWait s (mcheckG s 2 0 c.g) c.gid c.sp (infoAt 0x3E#6 c.t c.act))

/-! ### talloc, tfree, thand (R198–R200) -/

/-- Names of a kind that the unit's groups hold bound (R188). -/
def boundNames (s : State) (uid : Nat) (acc : Bool) : Nat :=
  s.groups.foldl (fun n e => if e.2.uid = uid then
      n + (e.2.names.filter (fun x => isAccName x.1 == acc && (x.2.st == .bound || x.2.st == .parked || x.2.st == .evicted))).length
    else n) 0

/-- talloc. -/
def execTalloc (w : FtWord) (s : State) : Out :=
  match pre (.talloc w) s with
  | .out o => o
  | .go c =>
    let i := w.hd.toNat
    let acc := isAccName i
    let u := unitOf s c.g.uid
    let st := (nameOf c.g i).st
    if c.act = 0 then .next (retireSame s c)
    else if st ≠ .free ∧ st ≠ .given then trapAt s c 0x20#6
    else if namesBusy s c.gid [i] [i] noChain || closerPending s c.gid then hold s c
    else if boundNames s c.g.uid acc ≥ (if acc then u.alimit else u.olimit) then trapAt s c 0x22#6
    else match takeSlot s c.g.core c.g.uid acc with
    | none => hold s c
    | some (p, s) =>
      let s := clearSlot s c.g.core acc p.1
      .next (retireSame (mapGrp s c.gid (fun g => namePut g i { st := .bound, pslot := some p, isNew := true })) c)

/-- tfree: commits, then releases the slot. -/
def execTfree (w : FtWord) (s : State) : Out :=
  match pre (.tfree w) s with
  | .out o => o
  | .go c =>
    let i := w.hd.toNat
    if c.act = 0 then .next (retireSame s c)
    else if nameStale s c.g i then trapAt s c 0x20#6
    else if namesBusy s c.gid [i] [i] noChain || unchecked s c.gid then hold s c
    else
      let s := retireClose s c
      let n := match grp s c.gid with | some g => nameOf g i | none => {}
      let s := [n.cslot, n.pslot].foldl (fun s k => match k with
        | some k => releaseSlot s c.g.core c.g.uid (isAccName i) k.1
        | none => s) s
      .next (bump (mapGrp s c.gid (fun g => namePut g i {})))

/-- The group of the unit with an index, when it has not exited. -/
def groupAt (s : State) (uid idx : Nat) : Option (Nat × Group) := tabFirst s.groups (fun _ g => g.uid == uid && g.index == idx)

/-- thand xT, sG, xN: commits, then moves the binding. The binding received has NEW = 0, as the rule's own text has it and as a binding
that survives the receiver's trap needs (R200, R278); R189's table says 1 (DESIGN CHOICE, log entry 90). -/
def execThand (w : FtWord) (s : State) : Out :=
  match pre (.thand w) s with
  | .out o => o
  | .go c =>
    let i := w.ha.toNat
    let j := w.hd.toNat
    let x := regGet c.g (192 + w.s6.toNat) 0
    if c.act = 0 then .next (retireSame s c)
    else if isAccName i ≠ isAccName j then trapAt s c 0x21#6
    else if nameStale s c.g i then trapAt s c 0x20#6
    else if (bits x 5 27 : BitVec 27) ≠ 0 then trapAt s c 0x02#6
    else match groupAt s c.g.uid x.toNat with
    | none => trapAt s c 0x16#6
    | some (tid, tg) =>
      if (nameOf tg j).st ≠ .free then trapAt s c 0x20#6
      else if namesBusy s c.gid [i] [i] noChain || unchecked s c.gid || (tg.st matches .swapped _) then hold s c
      else
        let s := retireClose s c
        match (grp s c.gid).bind (fun g => (nameOf g i).cslot) with
        | none => .next s
        | some k =>
          let s := mapGrp s c.gid (fun g => namePut g i { st := if tid = c.gid then .free else .given })
          .next (bump (mapGrp s tid (fun g => namePut g j { st := .bound, cslot := some k })))

/-! ### Memory of a tile instruction (R203, R207) -/

/-- A part of a row after its checks: global bytes, or bytes of a unit's scratchpad or vault. -/
inductive Spot where
  | mem (va : Double) (pa n : Nat) (priv : Bool)
  | sp (vault : Bool) (uid off n : Nat)
deriving DecidableEq, Repr

/-- Rows cut into parts of at most 16 bytes, in row order. -/
def partsOf (rows : List (Double × Nat)) : List (Double × Nat) :=
  rows.flatMap (fun r => (List.range ((r.2 + 15) / 16)).map (fun j => (r.1 + BitVec.ofNat 64 (16 * j), min 16 (r.2 - 16 * j))))

/-- Check the parts in order, a watchpoint's match after step 5: the first that fails decides (R207, R410). -/
def spotsOf (s : State) (c : Go) (space : Nat) (need : Need) : List (Double × Nat) → List Spot → Checked (List Spot)
  | [], acc => .ok acc
  | (va, n) :: r, acc =>
    if space = 0 then
      match translate s (whoOf c.g) need va with
      | .ok pa priv =>
        match watchHit s c need n va with
        | some k => .watch k c.act
        | none => spotsOf s c space need r (acc ++ [.mem va pa n priv])
      | .bad e => .bad e c.act va
      | .absent => .absent va c.act
    else
      let vault := space == 2
      let u := unitOf s c.g.uid
      match (placeOf (if vault then 22 else 18) (if vault then u.vaultSize else u.scratchSize) n va).bind
          (fun p => (placeUnit s c.g vault p).map (fun uid => (uid, p.off))) with
      | some (uid, off) => spotsOf s c space need r (acc ++ [.sp vault uid off n])
      | none => .bad 0x15#6 c.act va

def spotTouch (rd wr : Bool) : Spot → List Touch
  | .mem va pa n _ => [{ va := va, pa := pa, n := n, rd := rd, wr := wr, kind := .plain }]
  | .sp .. => []
def spotPoison (s : State) : Spot → Bool
  | .mem .. => false
  | .sp v uid off n => isPoison s (spaceStore v) uid off n
def spotRead (s : State) : Spot → List Byte
  | .mem _ pa n _ => physRead s pa n
  | .sp v uid off n => spaceBytes s v uid off n
def spotWrite (s : State) (bs : List Byte) : Spot → State
  | .mem _ pa _ _ => memPut s pa bs
  | .sp v uid off _ => spacePut s v uid off bs
def spotSize : Spot → Nat
  | .mem _ _ n _ => n
  | .sp _ _ _ n => n
def spotPriv : Spot → Bool
  | .mem _ _ _ p => p
  | .sp .. => false

/-- Fold the lines a tile instruction touches, those of its walks first, and count the unbacked ones. -/
def spotsFold (s : State) (c : Go) (xs : List Spot) : State :=
  xs.foldl (fun s x => match x with
    | .mem va pa n _ => memTouch (walkFold s (whoOf c.g) va) pa n
    | .sp .. => s) s

/-- Write the bytes of the rows to their parts, in order. -/
def spotsWrite (s : State) : List Spot → List Byte → State
  | [], _ => s
  | x :: r, bs => spotsWrite (spotWrite s (bs.take (spotSize x)) x) r (bs.drop (spotSize x))

/-- The part may not be accessed yet: an earlier access of the group to its bytes is not performed (R306; log entry 43), or an earlier
mcast to its bytes of a vault is not delivered (R289). -/
def spotWaits (s : State) (gid : Nat) : Spot → Bool
  | .mem _ pa n _ => earlierMeets s gid s.nextId pa n
  | .sp v uid off n => v && pendingCast s gid uid off n
/-- What the parts' accesses do for the fences around them (R310), and the flits of those in other units' vaults (R288). -/
def spotsRoute (s : State) (c : Go) (wr : Bool) (xs : List Spot) : State :=
  let s := xs.foldl (fun s x => match x with
    | .sp v uid off n => spaceFence s (partyOf s c.gid c.g) (!wr) wr v uid off n
    | .mem .. => s) s
  awayFlits s c (xs.filterMap (fun x => match x with
    | .sp true uid _ n => some (uid, n)
    | _ => none))

/-- All the memory checks of a tile instruction, its home-slice checks and records among them; then its effect on the state. -/
def withSpots (s : State) (c : Go) (space : Nat) (wr : Bool) (rows : List (Double × Nat)) (k : State → List Spot → Out) : Out :=
  match spotsOf s c space (if wr then .write else .read) (partsOf rows) [] with
  | .bad e fl va =>
    .next (trapWait s (walkCheck s (whoOf c.g) (if wr then .write else .read) va c.g e) c.gid c.sp
      { infoAt e c.t c.act with flanes := fl, faddr := some va })
  | .watch m fl => .next (watchTrap s c m fl)
  | .absent va fl => .next (swapLanes s c.gid c.sp va (if wr then .write else .read) c.act fl)
  | .ok xs =>
    if xs.any (spotWaits s c.gid) then hold s c else
    let ts := xs.flatMap (spotTouch (!wr) wr)
    let s := (linesOf ts).foldl mayEvict s
    let me := partyOf s c.gid c.g
    match sliceBadOf s me [] ts with
    | some (b, t, _) =>
      let s' := if b.cause = 0x3E then mcheckG s 3 (poisonAddr s t.pa t.n) c.g else s
      .next (trapWait s s' c.gid c.sp { infoAt b.cause c.t c.act with faddr := some t.va, other := b.other, otherLid := b.lid, otherUnit := b.unit })
    | none =>
      if !wr && xs.any (spotPoison s) then trapPoison s c
      else k (spotsRoute (recordAll (spotsFold s c xs) me s.nextId 0 [] ts) c wr xs) xs

/-! ### tload (R203, R204) -/

/-- Element width of a format code in bits (R43). -/
def fmtWidth (f : Nat) : Nat := if f = 0 then 32 else if f ≤ 2 then 16 else if f = 5 ∨ f = 7 then 4 else 8
/-- K of a 16-, 8- or 4-bit format (R56). -/
def fmtK (f : Nat) : Nat := 512 / fmtWidth f
/-- The floating-point format of a code. -/
def fmtFloat (f : Nat) : Fmt :=
  match f with | 1 => .bf16 | 2 => .fp16 | 3 => .e4m3 | 4 => .e5m2 | 5 => .e2m1 | _ => .fp32

/-- The base pair of an FT word. -/
def s6Pair (g : Group) (w : FtWord) (k : Nat) : Double := pairGet g (192 + w.s6.toNat + k) 0

/-- The misaligned address of a base and pitch, if any: the base, or the second row. -/
def misBase (base : Double) (p : Nat) : Option Double :=
  if base.toNat % 16 ≠ 0 then some base else if p % 16 ≠ 0 then some (base + BitVec.ofNat 64 p) else none

/-- A tile instruction that accesses memory: the checks of R196 up to its operands. -/
def withTile (i : Instr) (s : State) (c : Go) (names : List (Nat × Option Bool)) (fmtBad : Bool) (mis : Option Double)
    (rds wrs : List Nat) (k : Unit → Out) : Out :=
  if flagFull i c then hold s c
  else if c.act = 0 then issueNone s i c
  else match namesBad s c.g names with
  | some e => trapAt s c e
  | none =>
    if fmtBad then trapAt s c 0x23#6
    else match mis with
    | some a => .next (trapWait s s c.gid c.sp { infoAt 0x14#6 c.t c.act with faddr := some a })
    | none => if namesBusy s c.gid rds wrs noChain || closerPending s c.gid || pendingAcq s c.gid then hold s c else k ()

/-- Issue a tile operation that has acted. -/
def issueTile (s : State) (i : Instr) (c : Go) (rds wrs : List Nat) : State :=
  issueOp s i c { newOp i c with done := true, dst := [], hrd := rds, hwr := wrs }

/-- The 16 bits of element r of a row of 2-byte elements, or its byte. -/
def rowElem (bs : List Byte) (w r : Nat) : List Byte := (bs.drop (w * r)).take w

/-- The loaded FP32 of a BF16 or FP16 element, and IV for a signalling NaN. -/
def widen (f : Nat) (code : Nat) : Word × Bool :=
  let r := ((fmtFloat f).decode code).deliver .fp32 .ne
  (BitVec.ofNat 32 r.1, r.2 &&& flIV != 0)

/-- The elements of one accumulator row of a tload. -/
def accRow (f : Nat) (bs : List Byte) : List (Word × Bool) :=
  lanes.map (fun j => if f = 0 then (nat32 bs (4 * j), false) else widen f (ofBytes 16 (rowElem bs 2 j)).toNat)

/-- Load an accumulator's active rows. -/
def tloadAcc (s : State) (core slot f n : Nat) : List Nat → List Byte → Bool → State × Bool
  | [], _, iv => (s, iv)
  | i :: r, bs, iv =>
    let es := accRow f (bs.take n)
    tloadAcc (accPut s core slot (32 * i) (es.map (·.1))) core slot f n r (bs.drop n) (iv || es.any (·.2))

/-- tload.fmt: an operand slot whole, or an accumulator's active rows. -/
def execTload (w : FtWord) (s : State) : Out :=
  match pre (.tload w) s with
  | .out o => o
  | .go c =>
    let i := w.hd.toNat
    let f := w.fmtc
    let acc := isAccName i
    let base := s6Pair c.g w 0
    let p := (srcW c.g w.v8 ((lowBit c.act).getD 0)).toNat
    let row (r : Nat) : Double := base + BitVec.ofNat 64 (r * p)
    withTile (.tload w) s c [(i, none)] (if acc then decide (f > 2) else decide (f = 0 ∨ f > 7)) (misBase base p) [] [i] (fun _ =>
      let n := if acc then (if f = 0 then 128 else 64) else 64
      let rs := if acc then lanesOf c.act else lanes
      withSpots s c w.space false (rs.map (fun r => (row r, n))) (fun s1 xs =>
        let bs := xs.flatMap (spotRead s1)
        match writeSlot s1 c.gid i (acc && c.act != 0xFFFFFFFF || !acc) with
        | none => hold s c
        | some (k, s) =>
          if acc then
            let r := tloadAcc s c.g.core k f n rs bs false
            .next (issueTile (mapGrp r.1 c.gid (fun g => stageCounts g r.2 false false false)) (.tload w) c [] [i])
          else .next (issueTile (operandPut s c.g.core k 0 bs) (.tload w) c [] [i])))

/-- tload.t: element k of slot row r is element r of source row k. -/
def execTloadT (w : FtWord) (s : State) : Out :=
  match pre (.tloadT w) s with
  | .out o => o
  | .go c =>
    let i := w.hd.toNat
    let f := w.fmtc
    let b := fmtWidth f / 8
    let base := s6Pair c.g w 0
    let p := (srcW c.g w.v8 ((lowBit c.act).getD 0)).toNat
    withTile (.tloadT w) s c [(i, some false)] (!([1, 2, 3, 4, 6].contains f)) (misBase base p) [] [i] (fun _ =>
      withSpots s c w.space false ((List.range (fmtK f)).map (fun k => (base + BitVec.ofNat 64 (k * p), 32 * b))) (fun s1 xs =>
        let bs := xs.flatMap (spotRead s1)
        let slot := lanes.flatMap (fun r => (List.range (fmtK f)).flatMap (fun k => (bs.drop (32 * b * k + b * r)).take b))
        match writeSlot s1 c.gid i true with
        | none => hold s c
        | some (k, s) => .next (issueTile (operandPut s c.g.core k 0 slot) (.tloadT w) c [] [i])))

/-- tload.sc: the scale field. -/
def execTloadSc (w : FtWord) (s : State) : Out :=
  match pre (.tloadSc w) s with
  | .out o => o
  | .go c =>
    let i := w.hd.toNat
    let base := s6Pair c.g w 0
    withTile (.tloadSc w) s c [(i, some false)] false (misBase base 0) [] [i] (fun _ =>
      withSpots s c w.space false [(base, 128)] (fun s1 xs =>
        match writeSlot s1 c.gid i true with
        | none => hold s c
        | some (k, s) => .next (issueTile (scalePut s c.g.core k 0 (xs.flatMap (spotRead s))) (.tloadSc w) c [] [i])))

/-! ### tstore (R205, R206) -/

/-- Pack codes of a width in bits, lowest element first (R52). -/
def packCodes (w : Nat) (cs : List Nat) : List Byte :=
  let x := cs.foldr (fun c acc => acc * 2 ^ w + c % 2 ^ w) 0
  (List.range (w * cs.length / 8)).map (fun k => BitVec.ofNat 8 (x / 2 ^ (8 * k)))

/-- One accumulator element converted to a format, with its flags (R205). -/
def storeElem (f : Nat) (accInt : Bool) (rnd : Rnd) (x : Word) : Nat × FFlags :=
  if f = 0 then (x.toNat, 0)
  else if f = 6 ∨ f = 7 then
    let w := fmtWidth f
    let r := if accInt then (let y := satInt true w x.toInt; (y.1, flIf y.2 flSAT)) else numToIntType (Fmt.fp32.decode x.toNat) rnd true w
    ((wrap w r.1).toNat, r.2)
  else (if accInt then Num.ofInt x.toInt else Fmt.fp32.decode x.toNat).deliver (fmtFloat f) rnd

/-- The staged counters of a set of flags: IV, OF (overflow or saturation), UF, IRC. -/
def stageFlags (g : Group) (fl : FFlags) : Group :=
  stageCounts g (fl &&& flIV != 0) (fl &&& (flOF ||| flSAT) != 0) (fl &&& flUF != 0) (fl &&& flIRC != 0)

/-- The staged counters of a forward product: a counter that its steps below SPSTEP have staged does not advance again (R197). A mma of
the handler is none that was cut. -/
def stageCut (g : Group) (fl : FFlags) : Group :=
  let d := if g.kept.isSome then 0 else g.cut
  let new (m : FFlags) : Bool := fl &&& m != 0 && d &&& m == 0
  { stageCounts g (new flIV) (new (flOF ||| flSAT)) (new flUF) (new flIRC) with cut := if g.kept.isSome then g.cut else 0 }

/-- Write the rows of a tstore and issue it; it closes the region unless every byte is group-private (R154, R207). -/
def tstoreRows (i : Instr) (s : State) (c : Go) (space h : Nat) (rows : List (Double × List Byte)) (fl : FFlags) : Out :=
  if slotPoison s c.g h then trapPoison s c
  else withSpots s c space true (rows.map (fun r => (r.1, r.2.length))) (fun s1 xs =>
    let closes := !xs.all spotPriv
    if closes && unchecked s c.gid then hold s c
    else
      let s := spotsWrite s1 xs (rows.flatMap (·.2))
      let s := issueTile (mapGrp s c.gid (fun g => stageFlags g fl)) i c [h] []
      .next (bump (if closes then commitPoint s c.gid c.sp else s)))

/-- tstore.fmt. -/
def execTstore (w : FtWord) (s : State) : Out :=
  match pre (.tstore w) s with
  | .out o => o
  | .go c =>
    let h := w.ha.toNat
    let f := w.fmtc
    let acc := isAccName h
    let base := s6Pair c.g w 0
    let p := (srcW c.g w.v8 ((lowBit c.act).getD 0)).toNat
    let row (r : Nat) : Double := base + BitVec.ofNat 64 (r * p)
    withTile (.tstore w) s c [(h, none)] (if acc then decide (f > 7) else decide (f = 0 ∨ f > 7)) (misBase base p) [h] [] (fun _ =>
      let k := slotOf c.g h
      if acc then
        let accInt := bits c.t.fmt 8 2 == (1 : BitVec 2)
        let rnd := Rnd.ofBits (bits c.t.fmt 12 2)
        let es (r : Nat) : List (Nat × FFlags) := lanes.map (fun j => storeElem f accInt rnd (accElem s c.g.core k r j))
        let all := lanes.map (fun r => (row r, es r))
        tstoreRows (.tstore w) s c w.space h (all.map (fun x => (x.1, packCodes (fmtWidth f) (x.2.map (·.1)))))
          (flOr (all.flatMap (fun x => x.2.map (·.2))))
      else
        let bs := operandBytes s c.g.core k
        tstoreRows (.tstore w) s c w.space h (lanes.map (fun r => (row r, (bs.drop (64 * r)).take 64))) 0)

/-- tstore.t. -/
def execTstoreT (w : FtWord) (s : State) : Out :=
  match pre (.tstoreT w) s with
  | .out o => o
  | .go c =>
    let h := w.ha.toNat
    let f := w.fmtc
    let b := fmtWidth f / 8
    let base := s6Pair c.g w 0
    let p := (srcW c.g w.v8 ((lowBit c.act).getD 0)).toNat
    withTile (.tstoreT w) s c [(h, some false)] (!([1, 2, 3, 4, 6].contains f)) (misBase base p) [h] [] (fun _ =>
      let bs := operandBytes s c.g.core (slotOf c.g h)
      tstoreRows (.tstoreT w) s c w.space h ((List.range (fmtK f)).map (fun k =>
        (base + BitVec.ofNat 64 (k * p), lanes.flatMap (fun r => (bs.drop (64 * r + b * k)).take b)))) 0)

/-- The quantiser's element format of a code. -/
def tileQuant (f : Nat) : QFmt := match f with | 6 => .i8 | 7 => .i4 | _ => .flt (fmtFloat f)

/-- tstore.q: each accumulator row quantised, its codes and its scale code stored. -/
def execTstoreQ (w : FtWord) (s : State) : Out :=
  match pre (.tstoreQ w) s with
  | .out o => o
  | .go c =>
    let h := w.ha.toNat
    let f := w.fmtc
    let base := s6Pair c.g w 0
    let sbase := s6Pair c.g w 2
    let p := (srcW c.g w.v8 ((lowBit c.act).getD 0)).toNat
    let accBad := (bits c.t.fmt 8 2 : BitVec 2) != 0
    let mis := match misBase base p with | some a => some a | none => misBase sbase 0
    withTile (.tstoreQ w) s c [(h, some true)] (decide (f < 3 ∨ f > 7) || accBad) mis [h] [] (fun _ =>
      let k := slotOf c.g h
      let q := lanes.map (fun r => quantise (tileQuant f) (lanes.map (fun j => Fmt.fp32.decode (accElem s c.g.core k r j).toNat)))
      let rows := (lanes.zip q).flatMap (fun x =>
        [(base + BitVec.ofNat 64 (x.1 * p), packCodes (fmtWidth f) x.2.codes), (sbase + BitVec.ofNat 64 x.1, [BitVec.ofNat 8 x.2.scale])])
      tstoreRows (.tstoreQ w) s c w.space h rows
        (flOr (q.map (fun r => flIf r.iv flIV ||| flIf (r.sat.any id) flSAT))))

end Sys2Proof.Machine
end

