-- ==== Sys2Proof/Machine/Matrix.lean ====
section
/-! DEFINITION. Sys2Proof/Machine/Matrix.lean: mma, the joint product of a team, mmb and svr (R208–R219). -/

namespace Sys2Proof.Machine

open Sys2Proof

/-! ### Operands -/

def fmtA (x : Word) : Nat := (bits x 0 4 : BitVec 4).toNat
def fmtB (x : Word) : Nat := (bits x 4 4 : BitVec 4).toNat
def fmtAcc (x : Word) : Nat := (bits x 8 2 : BitVec 2).toNat
def fmtBsm (x : Word) : Nat := (bits x 10 2 : BitVec 2).toNat
def fmtRnd (x : Word) : Rnd := Rnd.ofBits (bits x 12 2)
def matFmtBad (x : Word) : Bool := !matFmtOk (fmtA x) (fmtB x) (fmtAcc x) (fmtBsm x)

/-- An operand slot as an operand of a format. -/
def matOpOf (s : State) (core slot f : Nat) (bsm : Bool) : MatOp :=
  let bs := operandBytes s core slot
  { fmt := f, rows := lanes.map (fun r => (ofBytes 512 ((bs.drop (64 * r)).take 64)).toNat), scales := scaleBytes s core slot, bsm := bsm }

/-- The rows of a product into a slot. -/
def putRows (s : State) (core slot : Nat) (rows : List (Nat × List Word)) : State :=
  rows.foldl (fun s r => accPut s core slot (32 * r.1) r.2) s

/-- The cause of a format that a matrix word does not accept. -/
def fmtCause (bad : Bool) : Option (BitVec 6) := if bad then some 0x23#6 else none

/-- The checks that the matrix words share, `own` after those of the names (R196, R193, R194), then the effect. -/
def withMat (i : Instr) (s : State) (c : Go) (d a b : Nat) (own : Option (BitVec 6)) (chain : Instr → Bool) (k : Unit → Out) : Out :=
  if flagFull i c then hold s c
  else if c.act = 0 then issueNone s i c
  else match namesBad s c.g [(d, some true), (a, some false), (b, some false)] with
  | some e => trapAt s c e
  | none => match own with
    | some e => trapAt s c e
    | none =>
      if namesBusy s c.gid [a, b] [d] chain || closerPending s c.gid then hold s c
      else if slotPoison s c.g d || slotPoison s c.g a || slotPoison s c.g b then trapPoison s c
      else k ()

/-- Words that chain on the forward array, and on the backward array (R194). -/
def chainsFwd : Instr → Bool
  | .mma _ | .mmaSa _ | .mmaSb _ | .mmaSab _ => true
  | _ => false
def chainsBwd : Instr → Bool
  | .mmbDa _ | .mmbDb _ => true
  | _ => false

/-- The product goes to the accumulator's provisional slot; the counters are staged; the word issues. -/
def matResult (i : Instr) (s : State) (c : Go) (d a b : Nat) (stage : Group → FFlags → Group)
    (compute : (Nat → Nat → Word) → List (Nat × List Word) × FFlags) : Out :=
  match writeSlot s c.gid d true with
  | none => hold s c
  | some (k, s) =>
    let r := compute (fun i j => accElem s c.g.core k i j)
    let s := putRows s c.g.core k r.1
    .next (issueTile (mapGrp s c.gid (fun g => stage g r.2)) i c [a, b] [d])

/-! ### mma (R208–R211) -/

/-- Element k of row i and column j takes part: chunk k / g at or past SPSTEP, its bitmap bits set (R209). A product that a bitmap skips
is left out of the sum, as in the rule's pseudocode, also where its other factor is infinite or NaN (DEDUCED, log entry 86). -/
def bitmapOn (c : Go) (f sp : Nat) (ra rb : Option Nat) (i j k : Nat) : Bool :=
  let ch := k / (512 / matWidth f / 32)
  decide (ch ≥ sp) && (match ra with | some r => bit (regGet c.g r i) ch | none => true) &&
    (match rb with | some r => bit (regGet c.g r j) ch | none => true)

/-- The forward product with optional bitmaps. -/
def forward (i : Instr) (w : FtWord) (s : State) (ra rb : Option Nat) : Out :=
  match pre i s with
  | .out o => o
  | .go c =>
    let d := w.hd.toNat
    let fm := c.t.fmt
    withMat i s c d w.ha.toNat w.hb.toNat (fmtCause (matFmtBad fm)) chainsFwd (fun _ =>
      let a := matOpOf s c.g.core (slotOf c.g w.ha.toNat) (fmtA fm) (fmtBsm fm == 1)
      let b := matOpOf s c.g.core (slotOf c.g w.hb.toNat) (fmtB fm) (fmtBsm fm == 1)
      matResult i (mapGrp s c.gid (fun g => { g with spstep := 0 })) c d w.ha.toNat w.hb.toNat stageCut (fun acc =>
        matProduct (fmtAcc fm == 1) (fmtRnd fm) c.act acc (mmaTerms a b (bitmapOn c (fmtA fm) c.g.spstep.toNat ra rb))))

/-- mma. -/
def execMma (w : FtWord) (s : State) : Out := forward (.mma w) w s none none
/-- mma.sa: the A bitmap in V8. -/
def execMmaSa (w : FtWord) (s : State) : Out := forward (.mmaSa w) w s (some w.v8.toNat) none
/-- mma.sb: the B bitmap in V8. -/
def execMmaSb (w : FtWord) (s : State) : Out := forward (.mmaSb w) w s none (some w.v8.toNat)
/-- mma.sab: the A bitmap in V8 and the B bitmap in V8 + 1. -/
def execMmaSab (w : FtWord) (s : State) : Out := forward (.mmaSab w) w s (some w.v8.toNat) (some (w.v8.toNat + 1))

/-! ### mma.team (R212–R214) -/

/-- The members of a joint operation that wait: the pending mma.team operations of a team and tag. -/
def isTeamOp (s : State) (team tag : Nat) (o : Op) : Bool :=
  (o.instr matches .mmaTeam _) && o.engine && o.tag == tag && (match grp s o.gid with | some g => g.core / 4 == team | none => false)
def members (s : State) (team tag : Nat) : List (Nat × Op) := s.ops.filter (fun e => isTeamOp s team tag e.2)
def opCore (s : State) (o : Op) : Nat := match grp s o.gid with | some g => g.core | none => 0

/-- CLK at which the first member of the operation issued, which every member of it carries (R214). -/
def gatherStart (s : State) (team tag : Nat) : Double := ((members s team tag).head?.map (fun e => e.2.at_)).getD s.clk

/-- mma.team: the member waits for the other three; a tag its core holds in flight completes at once with an error. -/
def execMmaTeam (w : FtWord) (s : State) : Out :=
  match pre (.mmaTeam w) s with
  | .out o => o
  | .go c =>
    let d := w.hd.toNat
    let x := regGet c.g (192 + w.s6.toNat) 0
    let tag := (bits x 0 16 : BitVec 16).toNat
    let own := if matFmtBad c.t.fmt then some 0x23#6 else if (pktOf s c.g).teamop then none else some 0x02#6
    withMat (.mmaTeam w) s c d w.ha.toNat w.hb.toNat own noChain (fun _ =>
      let o := { newOp (.mmaTeam w) c with dst := [], hrd := [w.ha.toNat, w.hb.toNat], hwr := [d], tag := tag, fmt := c.t.fmt, at_ := gatherStart s (c.g.core / 4) tag }
      if (members s (c.g.core / 4) tag).any (fun e => opCore s e.2 == c.g.core) then
        .next (issueOp s (.mmaTeam w) c { o with done := true, err := 0x3A })
      else .next (issueOp s (.mmaTeam w) c { o with engine := true }))

/-- The FT fields of a member. -/
def teamWord : Instr → FtWord
  | .mmaTeam w => w
  | _ => ⟨⟨false, 63⟩, 0, 0, 0, 0, 0, 0, 0, 0⟩

/-- The member at a position of the team. -/
def memberAt (s : State) (ms : List (Nat × Op)) (pos : Nat) : Option (Nat × Op) := ms.find? (fun e => opCore s e.2 % 4 == pos)

/-- The operand that position p supplies. -/
def memberOp (s : State) (ms : List (Nat × Op)) (pos : Nat) (isA : Bool) (fm : Word) : MatOp :=
  match memberAt s ms pos with
  | none => ⟨1, [], [], false⟩
  | some (_, o) =>
    let g := (grp s o.gid).getD {}
    let w := teamWord o.instr
    if isA then matOpOf s g.core (slotOf g w.ha.toNat) (fmtA fm) (fmtBsm fm == 1)
    else matOpOf s g.core (slotOf g w.hb.toNat) (fmtB fm) (fmtBsm fm == 1)

/-- acc + P, one partial: rounded to nearest even, or saturating with FMT.ACC = 1 (R213). -/
def addPartial (accInt : Bool) (acc p : Word) : Word × FFlags :=
  if accInt then let r := satInt true 32 (acc.toInt + p.toInt); (wrap 32 r.1, flIf r.2 flSAT)
  else let r := laneFadd .fp32 0 false .ne acc.toNat p.toNat; (BitVec.ofNat 32 r.1, r.2)

/-- The slot a completing member writes: its provisional slot, or its committed one when the region it issued in has committed. -/
def memberSlot (s : State) (o : Op) : Option (Nat × State) :=
  match grp s o.gid with
  | none => none
  | some g =>
    let d := (teamWord o.instr).hd.toNat
    if o.epoch < g.epoch then some (slotOf g d, s) else writeSlot s o.gid d true

/-- The counts of a member: staged in the open region, or, when the region it issued in has committed, added at once, so that no later
trap discards them (R38). -/
def countMember (o : Op) (fl : FFlags) (g : Group) : Group :=
  if o.epoch < g.epoch then { g with mxcount := addStaged g.mxcount (stageFlags { g with staged := [0, 0, 0, 0] } fl).staged }
  else stageFlags g fl

/-- One member's part of the joint product. `swap` is the order the team chose for its two partials. -/
def memberResult (s : State) (ms : List (Nat × Op)) (swap : Bool) (e : Nat × Op) : State :=
  let o := e.2
  let pos := opCore s o % 4
  let r := pos / 2
  let c := pos % 2
  let fm := o.fmt
  let accInt := fmtAcc fm == 1
  let part (h : Nat) : List (Nat × List Word) × FFlags :=
    matProduct accInt (fmtRnd fm) o.act (fun _ _ => 0) (mmaTerms (memberOp s ms (2 * r + h) true fm) (memberOp s ms (2 * c + h) false fm) (fun _ _ _ => true))
  let p0 := part (if swap then 1 else 0)
  let p1 := part (if swap then 0 else 1)
  match memberSlot s o with
  | none => s
  | some (k, s) =>
    let core := opCore s o
    let rows := (p0.1.zip p1.1).map (fun x =>
      let es := (lanes.zip (x.1.2.zip x.2.2)).map (fun y =>
        let a := addPartial accInt (accElem s core k x.1.1 y.1) y.2.1
        let b := addPartial accInt a.1 y.2.2
        (b.1, a.2 ||| b.2))
      (x.1.1, es))
    let s := putRows s core k (rows.map (fun x => (x.1, x.2.map (·.1))))
    mapGrp s o.gid (countMember o (p0.2 ||| p1.2 ||| flOr (rows.flatMap (fun x => x.2.map (·.2)))))

/-- The operations of a joint operation end, each with a cause or 0. -/
def endMembers (s : State) (ms : List (Nat × Op)) (err : BitVec 6) : State :=
  bump (ms.foldl (fun s e => mapOp s e.1 (fun o => { o with engine := false, done := true, err := err })) s)

/-- JOINT_OPERATION: all four members have issued. -/
def execJointOperation (team tag : Nat) (s : State) : Out :=
  let ms := members s team tag
  if !([0, 1, 2, 3].all (fun p => (memberAt s ms p).isSome)) then .next s
  else match ms with
  | [] => .next s
  | (_, o) :: _ =>
    if ms.any (fun e => e.2.fmt != o.fmt) then .next (endMembers s ms 0x23#6)
    else
      let (k, s) := takeFree s
      -- every product reads the slots as they stand before any member's result is written
      let r := ms.foldl (fun x e => memberResult x ms (Config.chance k) e) s
      .next (endMembers r ms 0)

/-- Whether the section watchdog interval of a launch, counted from an earlier CLK, has passed (R214, R249, R371). -/
def wdogPassed (s : State) (lid : Nat) (from_ : Double) : Bool :=
  decide (1000 * (levelOf s lid).pkt.wdog ≤ (s.clk - from_).toNat)

/-- JOINT_OPERATION_TIMEOUT: the interval passes before four members gather. -/
def execJointOperationTimeout (team tag : Nat) (s : State) : Out :=
  let ms := members s team tag
  if [0, 1, 2, 3].all (fun p => (memberAt s ms p).isSome) then .next s
  else if ms.any (fun e => wdogPassed s e.2.lid e.2.at_) then .next (endMembers s ms 0x3B#6)
  else .next s

/-! ### mmb (R215) -/

def backward (i : Instr) (w : FtWord) (s : State) (terms : MatOp → MatOp → Nat → Nat → Nat → List (List (Factor × Factor))) : Out :=
  match pre i s with
  | .out o => o
  | .go c =>
    let d := w.hd.toNat
    let fm := c.t.fmt
    let bad := matFmtBad fm || decide (w.q ≥ 512 / matWidth (fmtA fm) / 32)
    withMat i s c d w.ha.toNat w.hb.toNat (fmtCause bad) chainsBwd (fun _ =>
      let a := matOpOf s c.g.core (slotOf c.g w.ha.toNat) (fmtA fm) (fmtBsm fm == 1)
      let b := matOpOf s c.g.core (slotOf c.g w.hb.toNat) (fmtB fm) (fmtBsm fm == 1)
      matResult i s c d w.ha.toNat w.hb.toNat stageFlags (fun acc =>
        matProduct (fmtAcc fm == 1) (fmtRnd fm) c.act acc (terms a b w.q)))

/-- mmb.da. -/
def execMmbDa (w : FtWord) (s : State) : Out := backward (.mmbDa w) w s mmbDaTerms
/-- mmb.db. -/
def execMmbDb (w : FtWord) (s : State) : Out := backward (.mmbDb w) w s mmbDbTerms

/-! ### svr (R53, R54, R217–R219) -/

/-- How the reading of a shared-value stream ends. -/
inductive Stream (α : Type) where
  | ok (a : α)
  | bad (c : BitVec 6) (va : Option Double)
  | watch (k : Nat)
  | other (t : SliceBad) (va : Double)
  | absent (va : Double)

/-- One half of the stream, checked as a load, and its access. -/
def streamHalf (s : State) (c : Go) (me : Party) (va : Double) : Stream (Nat × Touch) :=
  match watched s c .read 2 (laneCheck s (whoOf c.g) .read 2 0 va none) with
  | .bad e _ _ => .bad e (some va)
  | .watch k _ => .watch k
  | .absent _ _ => .absent va
  | .ok a =>
    let t : Touch := { va := va, pa := a.pa, n := 2, rd := true, wr := false, kind := .plain }
    match sliceCheck s me [] t with
    | some b => .other b va
    | none => .ok ((ofBytes 16 (viewRead s a.pa 2)).toNat, t)

/-- `n` positions, each below C. -/
def streamPos (s : State) (c : Go) (me : Party) (cols : Nat) : Nat → Double → List Nat → List Touch → Stream (List Nat × Double × List Touch)
  | 0, va, ps, ts => .ok (ps, va, ts)
  | n + 1, va, ps, ts =>
    match streamHalf s c me va with
    | .ok (p, t) =>
      if p ≥ cols then .bad 0x16#6 none
      else streamPos s c me cols n (va + 2) (ps ++ [p]) (ts ++ [t])
    | .bad e a => .bad e a
    | .watch k => .watch k
    | .other b a => .other b a
    | .absent a => .absent a

/-- The entries of one row, with the address after its token; at most 64 values and 4,096 positions (R54). -/
def streamRow (s : State) (c : Go) (me : Party) (cols : Nat) : Nat → Double → List (Nat × List Nat) → Nat → List Touch →
    Stream (List (Nat × List Nat) × Double × List Touch)
  | 0, _, _, _, _ => .bad 0x24#6 none
  | f + 1, va, es, sum, ts =>
    match streamHalf s c me va with
    | .bad e a => .bad e a
    | .watch k => .watch k
    | .other b a => .other b a
    | .absent a => .absent a
    | .ok (v, t) =>
      if v = 0xFFFF then .ok (es, va + 2, ts ++ [t])
      else if es.length ≥ 64 then .bad 0x24#6 none
      else match streamHalf s c me (va + 2) with
      | .bad e a => .bad e a
      | .watch k => .watch k
      | .other b a => .other b a
      | .absent a => .absent a
      | .ok (n, t') =>
        if n = 0 ∨ sum + n > 4096 then .bad 0x24#6 none
        else match streamPos s c me cols n (va + 4) [] (ts ++ [t, t']) with
        | .ok (ps, va, ts) => streamRow s c me cols f va (es ++ [(v, ps)]) (sum + n) ts
        | .bad e a => .bad e a
        | .watch k => .watch k
        | .other b a => .other b a
        | .absent a => .absent a

def streamRows (s : State) (c : Go) (me : Party) (cols : Nat) : Nat → Double → List (List (Nat × List Nat)) → List Touch →
    Stream (List (List (Nat × List Nat)) × Double × List Touch)
  | 0, va, rs, ts => .ok (rs, va, ts)
  | n + 1, va, rs, ts =>
    match streamRow s c me cols 66 va [] 0 ts with
    | .ok (es, va, ts) => streamRows s c me cols n va (rs ++ [es]) ts
    | .bad e a => .bad e a
    | .watch k => .watch k
    | .other b a => .other b a
    | .absent a => .absent a

/-- One row's entries applied to one lane's accumulator element. -/
def svrRow (rnd : Rnd) (act : Nat → Nat × FFlags) : List (Nat × List Nat) → Nat → FFlags → Nat × FFlags
  | [], acc, fl => (acc, fl)
  | (v, ps) :: r, acc, fl =>
    let sig := flIf (Fmt.bf16.decode v).isSig flIV
    let x := svrApply rnd acc v (ps.map act)
    svrRow rnd act r x.1 (fl ||| sig ||| x.2)

/-- svr (R217–R219). A field C above 0x1_0000 traps as C = 0 does: the field's table ends there (DEDUCED, log entry 89). -/
def execSvr (w : FtWord) (s : State) : Out :=
  match pre (.svr w) s with
  | .out o => o
  | .go c =>
    let d := w.hd.toNat
    let r (k : Nat) : Word := regGet c.g (192 + w.s6.toNat + k) 0
    let addr := pairVal (r 0) (r 1)
    let o := (r 2).toNat
    let nr := (bits (r 3) 27 5 : BitVec 5).toNat + 1
    let j0 := (bits (r 3) 22 5 : BitVec 5).toNat
    let cols := (bits (r 3) 0 17 : BitVec 17).toNat
    let fm := c.t.fmt
    let size := (unitOf s c.g.uid).scratchSize
    let fmtOk := fmtA fm == 8 && (fmtB fm == 1 || fmtB fm == 2) && fmtAcc fm == 0 && fmtBsm fm == 0
    let trapVa (e : BitVec 6) (a : Double) : Out := .next (trapWait s s c.gid c.sp { infoAt e c.t c.act with faddr := some a })
    if flagFull (.svr w) c then hold s c
    else if c.act = 0 then issueNone s (.svr w) c
    else match namesBad s c.g [(d, some true)] with
    | some e => trapAt s c e
    | none =>
      if !fmtOk then trapAt s c 0x23#6
      else if o / 2 ^ 18 ≠ 0 ∨ (bits (r 3) 17 5 : BitVec 5) ≠ 0 ∨ j0 + nr > 32 ∨ cols = 0 ∨ cols > 0x10000 then trapAt s c 0x02#6
      else if o % 4 ≠ 0 then trapVa 0x14#6 (BitVec.ofNat 64 o)
      else if addr.toNat % 2 ≠ 0 then trapVa 0x14#6 addr
      else if o + 64 * cols > size then trapVa 0x15#6 (BitVec.ofNat 64 (max o size))
      else if namesBusy s c.gid [] [d] noChain || accessPending s c.gid then hold s c
      else if slotPoison s c.g d || isPoison s .scratch c.g.uid o (64 * cols) then trapPoison s c
      else
        let me := partyOf s c.gid c.g
        match streamRows s c me cols nr addr [] [] with
        | .absent a => .next (swapAct s c a .read)
        | .watch k => .next (watchTrap s c k c.act)
        | .bad e a =>
          .next (trapWait s (walkCheck s (whoOf c.g) .read (a.getD 0) c.g e) c.gid c.sp { infoAt e c.t c.act with faddr := a })
        | .other b a =>
          .next (trapWait s (walkCheck s (whoOf c.g) .read a c.g b.cause) c.gid c.sp
            { infoAt b.cause c.t c.act with faddr := some a, other := b.other, otherLid := b.lid, otherUnit := b.unit })
        | .ok (rows, end_, ts) =>
          match writeSlot s c.gid d true with
          | none => hold s c
          | some (k, s) =>
            let s := recordAll (ts.foldl (fun s t => memTouch (walkFold s (whoOf c.g) t.va) t.pa t.n) s) me s.nextId 0 [] ts
            let s := spaceFence s me true false false c.g.uid o (64 * cols)
            let rnd := fmtRnd fm
            let conv (b p : Nat) : Nat × FFlags :=
              let x := (ofBytes 16 (spaceBytes s false c.g.uid (o + 64 * p + 2 * b) 2)).toNat
              ((if fmtB fm = 1 then Fmt.bf16 else Fmt.fp16).decode x).deliver .fp32 .ne
            let res := (lanesOf c.act).map (fun b => (b, (List.range nr).zip rows |>.map (fun x =>
              (j0 + x.1, svrRow rnd (conv b) x.2 (accElem s c.g.core k b (j0 + x.1)).toNat 0))))
            let s := res.foldl (fun s x => x.2.foldl (fun s y => accPut s c.g.core k (32 * x.1 + y.1) [BitVec.ofNat 32 y.2.1]) s) s
            let fl := flOr (res.flatMap (fun x => x.2.map (fun y => y.2.2)))
            let s := mapGrp s c.gid (fun g =>
              let g := stageFlags g fl
              regSet (regSet g (192 + w.s6.toNat) 0 (bits end_ 0 32)) (192 + w.s6.toNat + 1) 0 (bits end_ 32 32))
            .next (commitPoint (issueTile s (.svr w) c [] [d]) c.gid c.sp)

end Sys2Proof.Machine
end

