-- ==== Sys2Proof/Machine/Traversal.lean ====
section
/-! DEFINITION. Sys2Proof/Machine/Traversal.lean: trav, its rays and their walk, tres (R222–R231, R305, R336–R341, R393). -/

namespace Sys2Proof.Machine

open Sys2Proof

/-! ### Slots (R229) -/

def rayKey (core k : Nat) : Nat := 64 * core + k
def rayGen (s : State) (key : Nat) : BitVec 16 := tabGet 0 s.raygen key
/-- The free slots of a core, lowest first. -/
def freeRays (s : State) (core : Nat) : List Nat := (List.range 64).filter (fun k => (tabFind s.rays (rayKey core k)).isNone)
def mapRay (s : State) (key : Nat) (f : Ray → Ray) : State := { s with rays := tabMap s.rays key f }

/-- Release a slot: its generation advances, its job ends. -/
def freeRay (s : State) (key : Nat) : State :=
  match tabFind s.rays key with
  | none => s
  | some r =>
    bump { s with rays := tabDel s.rays key, raygen := tabSet 0 s.raygen key (rayGen s key + 1), jobs := tabDel s.jobs r.job }

/-- Release every slot of a group (R145, R229). -/
def freeRaysOf (s : State) (gid : Nat) : State :=
  (s.rays.filter (fun e => e.2.gid == gid)).foldl (fun s e => freeRay s e.1) s

/-- A job for one walk of a ray, with no footprint (R303, R305). -/
def rayJob (s : State) (gid : Nat) (g : Group) : Nat × State :=
  (s.nextId, { s with nextId := s.nextId + 1,
                      jobs := tabPut s.jobs s.nextId
                        (namedJob s { kind := .ray, ctx := g.ctx, lid := g.lid, uid := g.uid, gid := gid, core := g.core }) })

/-! ### Issue (R224, R225, R228) -/

def regsAt (g : Group) (f : BitVec 8) (n l : Nat) : List Word := (List.range n).map (fun k => regGet g (f.toNat + k) l)
/-- The sixteen words of a state block to be written in a lane. -/
def stateWrs (f : BitVec 8) (l : Nat) (ws : List Word) : List RegWr :=
  (List.range 16).map (fun i => ⟨f.toNat + i, l, ws.getD i 0⟩)

/-- The lane's ray as its block gives it. -/
def rayOf (c : Go) (w : FrWord) (l : Nat) : Ray :=
  let b := regsAt c.g w.a 8 l
  { gid := c.gid, lane := l, user := !c.g.sys, secure := c.g.secure, tmin := b.getD 3 0, tmax := b.getD 7 0,
    flags := regGet c.g w.c.toNat l, space := { org := b.take 3, dir := (b.drop 4).take 3 },
    todo := [.node (src2 c.g w.b l).toNat] }

/-- A ray that visits nothing: tmin > tmax or a NaN (R227). -/
def rayVoid (r : Ray) : Bool := !leW r.tmin r.tmax

/-- Give a lane's ray a slot for an operation. -/
def startRay (s : State) (c : Go) (oid key : Nat) (r : Ray) : State :=
  let (j, s) := rayJob s c.gid c.g
  { s with rays := tabPut s.rays key { r with op := some oid, job := j } }

def startRays (s : State) (c : Go) (oid : Nat) : List Nat → List Ray → State
  | k :: ks, r :: rs => startRays (startRay s c oid (rayKey c.g.core k) r) c oid ks rs
  | _, _ => s

/-- Rays of an operation still in flight. -/
def raysOf (s : State) (oid : Nat) : List (Nat × Ray) := s.rays.filter (fun e => e.2.op == some oid)

/-- The operation is done when none of its rays walks. -/
def settleTrav (s : State) (oid : Nat) : State :=
  if (raysOf s oid).isEmpty then mapOp s oid (fun o => { o with engine := false, done := true }) else s

/-- Issue a trav: it closes the region when the unit accepts it (R222). -/
def issueTrav (s : State) (i : Instr) (c : Go) (o : Op) : Nat × State :=
  (s.nextId, commitPoint (issueOp s i c o) c.gid c.sp)

/-- trav.start (R225, R228, R229). -/
def execTravStart (w : FrWord) (s : State) : Out :=
  match pre (.travStart w) s with
  | .out o => o
  | .go c =>
    let i : Instr := .travStart w
    if flagFull i c then hold s c
    else match lanesOf c.act with
    | [] => issueNone s i c
    | ls =>
      let bad := ls.filter (fun l => regGet c.g w.c.toNat l &&& 0xFFFF00F8 != 0)
      let rs := ls.map (rayOf c w)
      let go := rs.filter (fun r => !rayVoid r)
      if !bad.isEmpty then
        .next (trapWait s s c.gid c.sp { infoAt 0x02#6 c.t c.act with flanes := bad.foldl (fun m l => setBit m l true) 0 })
      else if unchecked s c.gid || decide ((freeRays s c.g.core).length < go.length) then hold s c
      else
        let miss := (rs.filter rayVoid).flatMap (fun r => stateWrs w.d r.lane (rayWords r statMiss 0 0))
        let slots := freeRays s c.g.core
        let x := issueTrav s i c { newOp i c with engine := true, wrs := miss }
        .next (settleTrav (startRays x.2 c x.1 slots go) x.1)

/-- The slot that a lane's state block names, when the group holds it suspended. A stale block that names a slot whose ray is walking again
is refused as one that names no slot (DESIGN CHOICE, log entry 105). -/
def heldRay (s : State) (c : Go) (b : List Word) : Option (Nat × Ray) :=
  let key := rayKey c.g.core (bits (b.getD 3 0) 0 6 : BitVec 6).toNat
  match tabFind s.rays key with
  | some r => if r.gid == c.gid && r.op.isNone && rayGen s key == bits (b.getD 3 0) 16 16 then some (key, r) else none
  | none => none

/-- The lane's state is PROC. -/
def isProc (b : List Word) : Bool := (bits (b.getD 0 0) 0 2 : BitVec 2) == 2
def blkHit (b : List Word) : Bool := bit (b.getD 0 0) 4
def blkKind (b : List Word) : Nat := (bits (b.getD 0 0) 5 2 : BitVec 2).toNat

/-- The lanes of PROC states, with their blocks. -/
def procLanes (c : Go) (w : FrWord) : List (Nat × List Word) :=
  ((lanesOf c.act).map (fun l => (l, regsAt c.g w.a 16 l))).filter (fun x => isProc x.2)

/-- Two lanes name one slot. -/
def dupKeys : List Nat → Bool
  | [] => false
  | k :: r => r.contains k || dupKeys r

/-- A lane whose checks of R228 fail. -/
def travBad (s : State) (c : Go) (resume : Bool) (x : Nat × List Word) : Bool :=
  match heldRay s c x.2 with
  | none => true
  | some (_, r) => resume && (!leW (x.2.getD 1 0) r.tmax || (blkHit x.2 && decide (blkKind x.2 > 1)))

def procKeys (s : State) (c : Go) (ps : List (Nat × List Word)) : List Nat := ps.filterMap (fun x => (heldRay s c x.2).map (·.1))

def trapTrav (s : State) (c : Go) (bad : List Nat) : Out :=
  .next (trapWait s s c.gid c.sp { infoAt 0x29#6 c.t c.act with flanes := bad.foldl (fun m l => setBit m l true) 0 })

/-- The lanes that fail: by their own checks, or by naming a slot that another lane names. -/
def travBadLanes (s : State) (c : Go) (resume : Bool) (ps : List (Nat × List Word)) : List Nat :=
  let bad := (ps.filter (travBad s c resume)).map (·.1)
  if bad.isEmpty && dupKeys (procKeys s c ps) then ps.map (·.1) else bad

/-- The slot takes the block's words 0, 1 and 12–15, and the walk goes on. -/
def resumeRay (s : State) (c : Go) (oid : Nat) (x : Nat × List Word) : State :=
  match heldRay s c x.2 with
  | none => s
  | some (key, r) =>
    let (j, s) := rayJob s c.gid c.g
    let b := x.2
    let r := { r with op := some oid, lane := x.1, job := j, tmax := b.getD 1 0, hitv := blkHit b, kind := blkKind b,
                      face := bit (b.getD 0 0) 7, hprim := b.getD 12 0, hinst := b.getD 13 0, b1 := b.getD 14 0, b2 := b.getD 15 0 }
    { s with rays := tabPut s.rays key (if firstHit r && r.hitv then { r with todo := [] } else r) }

/-- trav.resume (R228). -/
def execTravResume (w : FrWord) (s : State) : Out :=
  match pre (.travResume w) s with
  | .out o => o
  | .go c =>
    let i : Instr := .travResume w
    let ps := procLanes c w
    if flagFull i c then hold s c
    else if c.act = 0 then issueNone s i c
    else match travBadLanes s c true ps with
    | l :: r => trapTrav s c (l :: r)
    | [] =>
      if unchecked s c.gid then hold s c
      else
        let same := (lanesOf c.act).filter (fun l => !isProc (regsAt c.g w.a 16 l))
        let wrs := same.flatMap (fun l => stateWrs w.d l (regsAt c.g w.a 16 l))
        let x := issueTrav s i c { newOp i c with engine := true, wrs := wrs }
        .next (settleTrav (ps.foldl (fun s p => resumeRay s c x.1 p) x.2) x.1)

/-- trav.drop (R229). -/
def execTravDrop (w : FrWord) (s : State) : Out :=
  match pre (.travDrop w) s with
  | .out o => o
  | .go c =>
    let i : Instr := .travDrop w
    let ps := procLanes c w
    if flagFull i c then hold s c
    else if c.act = 0 then issueNone s i c
    else match travBadLanes s c false ps with
    | l :: r => trapTrav s c (l :: r)
    | [] =>
      if unchecked s c.gid then hold s c
      else
        let s := (procKeys s c ps).foldl freeRay s
        .next (issueTrav s i c { newOp i c with done := true }).2

/-! ### The walk (R228, R230, R336–R341) -/

/-- One visit's result. -/
inductive RayStep where
  | more (r : Ray) (s : State)
  | stop (r : Ray) (stat : Nat) (s : State)
  | fault (c : BitVec 6) (s : State)
  | wait (page : Nat) (s : State)

def rayWho (s : State) (r : Ray) : Who :=
  match grp s r.gid with
  | some g => { ctx := g.ctx, user := r.user, secure := r.secure, tlbs := coreTlbs g.core }
  | none => device 0 r.user r.secure
def rayCluster (s : State) (r : Ray) : Option Nat := (grp s r.gid).map (fun g => clusterOf g.core)

/-- One fetch of a node or leaf. -/
def rayFetch (s : State) (r : Ray) (a n : Nat) : EngRes (List Byte) :=
  jobRead s r.job (rayWho s r) (rayCluster s r) (BitVec.ofNat 64 a) n

/-- A child is visited: its box may be entered, or the device visits it all the same (R337). -/
def childVisit (r : Ray) (bs : List Byte) (extra : Bool) (i : Nat) : Bool :=
  if childVoid bs i || (!childInner bs i && metaKind bs i == 0) then false
  else match childBox bs i with
    | none => true
    | some (lo, hi) => extra || mayEnter r lo hi

/-- A list in the order that a number chooses; every order is the choice of some number. -/
def inOrder {α : Type} : Nat → Nat → List α → List α
  | 0, _, _ => []
  | n + 1, k, l => l.drop (k % l.length) |>.take 1 |>.append (inOrder n (k / l.length) (l.eraseIdx (k % l.length)))

/-- A node; its bytes 88–127 are not read (R336). The nodes and leaf records that its children name are visited in an order the device
chooses, the records of one child too (R228, R450; DESIGN CHOICE, log entry 59). -/
def visitNode (s : State) (r : Ray) (a : Nat) : RayStep :=
  if a % 128 ≠ 0 then .fault 0x14#6 s
  else match rayFetch s r a 88 with
  | .bad c s => .fault c s
  | .wait s => .wait (a / 65536) s
  | .ok bs s =>
    let (k, s) := takeFree s
    let xs := ((List.range 8).filter (childVisit r bs (Config.chance k))).flatMap (childTodo bs)
    match nodeFault bs with
    | some c => .fault c s
    | none => .more { r with todo := inOrder xs.length (Config.choice k) xs ++ r.todo } s

/-- An instance: its mask, its identifier, the push, its root (R338, R339). Of several faults the identifier's comes first, then ROOT's,
then the push's (DESIGN CHOICE, log entry 108). -/
def visitInstance (s : State) (r : Ray) (bs : List Byte) : RayStep :=
  if (bits r.flags 8 8 : BitVec 8) &&& bs.getD 60 0 = 0 then .more r s
  else if nat32 bs 56 = 0xFFFFFFFF then .fault 0x02#6 s
  else if nat64 bs 48 % 128 ≠ 0 then .fault 0x14#6 s
  else if r.stack.length ≥ 8 then .fault 0x28#6 s
  else .more { r with stack := r.space :: r.stack, space := intoInstance r.space bs, todo := .node (nat64 bs 48) :: .pop :: r.todo } s

def words3 (bs : List Byte) (off : Nat) : List Word := [nat32 bs off, nat32 bs (off + 4), nat32 bs (off + 8)]

/-- Bytes of a leaf record that are read, from its first (R338). -/
def leafBytes (kind : Nat) : Nat := if kind = 1 then 40 else if kind = 2 then 28 else 61

def visitLeaf (s : State) (r : Ray) (kind a : Nat) : RayStep :=
  match rayFetch s r a (leafBytes kind) with
  | .bad c s => .fault c s
  | .wait s => .wait (a / 65536) s
  | .ok bs s =>
    if kind = 1 then
      let r' := testTriangle r bs
      if firstHit r && r'.hitv then .stop r' statHit s else .more r' s
    else if kind = 2 then
      if boxEnter r (words3 bs 0) (words3 bs 12) then .stop { r with leaf := nat32 bs 24 } statProc s else .more r s
    else visitInstance s r bs

/-- The next thing the ray has to do. -/
def visit (s : State) (r : Ray) : RayStep :=
  match r.todo with
  | [] => .stop r (if r.hitv then statHit else statMiss) s
  | .node a :: t =>
    (match visitNode s { r with todo := t } a with
     | .wait p s => .wait p s
     | x => x)
  | .leaf k a :: t => visitLeaf s { r with todo := t } k a
  | .pop :: t =>
    match r.stack with
    | [] => .more { r with todo := t } s
    | sp :: st => .more { r with todo := t, stack := st, space := sp } s

/-- The D field of a trav. -/
def travD : Instr → BitVec 8
  | .travStart w | .travResume w => w.d
  | _ => 0xFF

/-- The state words of a ray that has ended: they wait for the completion of its operation, or go to the swap frame of a group that is out
(R448). -/
def stateWords (s : State) (gid oid : Nat) (ws : List RegWr) : State :=
  let keep : State := mapOp s oid (fun o => { o with wrs := o.wrs ++ ws })
  match grp s gid with
  | none => s
  | some g => match g.st with
    | .swapped k => (ws.filter (fun x => decide (x.f < 255))).foldl (fun s x =>
        let off := if x.f < 192 then 0x1000 + 128 * x.f + 4 * x.lane else 0x500 + 4 * (x.f - 192)
        let va := (ctxOf s g.ctx).sfbase + 0x40000#64 * BitVec.ofNat 64 k + BitVec.ofNat 64 off
        match vaWrite s (frameWho g) va (w32 x.v) with
        | .ok s => s
        | .error (_, s) => s) s
    | _ => keep

/-- A lane's share of its operation is complete: its state, its cause (R226, R230, R448). -/
def endLane (s : State) (key : Nat) (r : Ray) (stat : Nat) (c : BitVec 6) : State :=
  match r.op with
  | none => s
  | some oid =>
    let ws := rayWords r stat (key % 64) (rayGen s key).toNat
    let d := match tabFind s.ops oid with | some o => (stateWrs (travD o.instr) r.lane ws).filter (wrLands o) | none => []
    let s := mapOp (stateWords s r.gid oid d) oid (fun o => { o with err := if o.err = 0 then c else o.err })
    let s := if stat = statProc then
        bump { s with rays := tabPut s.rays key { r with op := none, page := none }, jobs := tabDel s.jobs r.job }
      else freeRay s key
    settleTrav s oid

/-- Visits of one event; a longer walk goes on in the next. -/
def rayWalk (key : Nat) : Nat → State → Ray → State
  | 0, s, r => { s with rays := tabPut s.rays key r }
  | n + 1, s, r =>
    match visit s r with
    | .more r s => rayWalk key n s r
    | .stop r stat s => endLane s key r stat 0
    | .fault c s => endLane s key r statFault c
    | .wait p s => bump { s with rays := tabPut s.rays key { r with page := some p } }

/-- RAY_END: the ray in a slot walks to its end, its suspension, a fault or a page it must wait for. -/
def execRayEnd (key : Nat) (s : State) : Out :=
  match tabFind s.rays key with
  | none => .next s
  | some r => if r.op.isNone || r.page.isSome then .next s else .next (rayWalk key 4096 s r)

/-- The page a ray waits for is resident, or its walk faults now. -/
def rayMayGo (s : State) (r : Ray) : Bool :=
  match r.page with
  | none => true
  | some p => match translate s (rayWho s r) .read (BitVec.ofNat 64 (65536 * p)) with
    | .absent => false
    | _ => true

/-- RAY_PAGE_ARRIVAL (R230). -/
def execRayPageArrival (key : Nat) (s : State) : Out :=
  match tabFind s.rays key with
  | none => .next s
  | some r => if rayMayGo s r then .next (mapRay s key (fun r => { r with page := none })) else .next s

/-! ### tres (R231) -/

/-- One lane of tres: the words it changes. -/
def tresLane (b : List Word) (t b1 b2 : Word) : List (Nat × Word) :=
  let r : Ray := { tmin := b.getD 2 0, tmax := b.getD 1 0, hitv := blkHit b, hprim := b.getD 12 0, hinst := b.getD 13 0 }
  let prim := b.getD 10 0
  let inst := b.getD 11 0
  if isProc b && accepts r t inst prim then
    [(0, (b.getD 0 0 &&& 0xFFFFFF0F) ||| 0x30), (1, t), (12, prim), (13, inst), (14, b1), (15, b2)]
  else []

/-- tres: the candidate of each PROC lane goes to R227; of a scalar block the lowest active lane's (R14). -/
def execTres (w : FrWord) (s : State) : Out :=
  runGroup (.tres w) s (fun c =>
    (if w.d.toNat ≥ 192 then (lanesOf c.act).take 1 else lanesOf c.act).foldl (fun g l =>
      (tresLane (regsAt c.g w.d 16 l) (srcW c.g w.a l) (regGet c.g w.b.toNat l) (regGet c.g (w.b.toNat + 1) l)).foldl
        (fun g x => regSet g (w.d.toNat + x.1) l x.2) g) c.g)

end Sys2Proof.Machine
end

