-- ==== Sys2Proof/Machine/Perform.lean ====
section
/-! DEFINITION. Sys2Proof/Machine/Perform.lean: the events by which an operation's accesses are performed at their home slices and by
which it completes (R21, R234, R244, R294, R298, R322). -/

namespace Sys2Proof.Machine

open Sys2Proof

/-- An operation that stores to the BTE aperture (R298). -/
def isBte (o : Op) : Bool := o.accs.any (fun a => a.write && inAperture a.pa)
def isBgrad : Instr → Bool
  | .bgrad _ => true
  | _ => false

/-- Its home slices are reached by HOME_SLICE_ACCESS, not by TROUGH_MERGE or BTE_COMMAND. -/
def plainPerform (o : Op) : Bool := !merging o.instr && !isBte o && !isBgrad o.instr && !isSkey o.instr

/-- HOME_SLICE_ACCESS: an operation's accesses are checked and performed. -/
def execHomeSliceAccess (oid : Nat) (s : State) : Out :=
  match tabFind s.keys oid with
  | some k => .next (stepKeys s oid k)
  | none => match tabFind s.ops oid with
    | none => .next s
    | some o => .next (if mayPerform s oid o && plainPerform o then reachSlices s oid o else s)

/-- TROUGH_MERGE: a merging reduction, or the updates of a bgrad, reach their home slices. -/
def execTroughMerge (oid : Nat) (s : State) : Out :=
  match tabFind s.ops oid with
  | none => .next s
  | some o =>
    if !mayPerform s oid o || isBte o then .next s
    else if isBgrad o.instr then
      (match grp s o.gid with
       | none => .next s
       | some g => .next (gradMerge oid o g o.accs s))
    else .next (if merging o.instr then reachSlices s oid o else s)

/-- BTE_COMMAND: a store to the BTE aperture enqueues a command, or is refused (R298). -/
def execBteCommand (oid : Nat) (s : State) : Out :=
  match tabFind s.ops oid with
  | none => .next s
  | some o => .next (if mayPerform s oid o && isBte o then reachSlices s oid o else s)

/-- FLAG_COMPLETION: an operation with nothing left to do writes its registers and releases its flag (R21), in the state that the Yard holds
where its group is swapped out (R396, R448); a stopped group that waited for it alone goes on (R401). -/
def execFlagCompletion (oid : Nat) (s : State) : Out :=
  match tabFind s.ops oid with
  | none => .next s
  | some o => .next (if o.done && !o.engine then goOn (finishOp s oid true) o.gid else s)

end Sys2Proof.Machine
end

