-- ==== Sys2Proof/Machine/Packet.lean ====
section
/-! DEFINITION. Sys2Proof/Machine/Packet.lean: the launch packet, its declaration block, map and raster record; the context descriptor;
what a unit takes of a core; validation (R258, R273, R342, R371–R374, R386, R387, R465). -/

namespace Sys2Proof.Machine

open Sys2Proof

/-! ### Reading little-endian fields -/

def leNat (bs : List Byte) (off n : Nat) : Nat := (ofBytes 128 ((bs.drop off).take n)).toNat
def zeroBytes (bs : List Byte) (off n : Nat) : Bool := ((bs.drop off).take n).all (fun b => b == 0)

/-- How a read by the Yard ends. -/
inductive YRead where
  | ok (bs : List Byte) (s : State)
  | bad (c : BitVec 6) (s : State)
  | absent (va : Double) (s : State)

/-- The Yard reads virtual bytes at device scope: every piece in turn. -/
def yardPieces (w : Who) : List (Double × Nat) → List Byte → State → YRead
  | [], acc, s => .ok acc s
  | (va, n) :: r, acc, s =>
    match translate s w .read va with
    | .bad c => .bad c (if c = 0x3E then mcheck s 3 (checkAddr s w .read va) w.ctx 0 0 else s)
    | .absent => .absent va s
    | .ok pa _ => if isPoison s .mem 0 pa n then .bad 0x3E#6 (mcheck s 3 (poisonAddr s pa n) w.ctx 0 0)
      else let x := memLoad (walkFold s w va) pa n; yardPieces w r (acc ++ x.1) x.2
def yardRead (s : State) (w : Who) (va : Double) (n : Nat) : YRead := yardPieces w (pieces va n) [] s

/-! ### The context descriptor (R386, R387) -/

/-- Address of a context's descriptor. -/
def descAddr (s : State) (ctx : Nat) : Nat := (hregGet s 0x43000).toNat % 2 ^ 52 / 65536 * 65536 + 256 * ctx
def descBytes (s : State) (ctx : Nat) : List Byte := viewRead s (descAddr s ctx) 256

/-- The fields of a descriptor, over what the device already holds for the context. A context whose descriptor was not valid when it was
last read is created by this reading: its watchpoints are reset and its placements and launches count from the start (R321, R409;
log entry 98). -/
def descLoad (c : Context) (d : List Byte) : Context :=
  let dead := leNat d 0x5C 4
  let age := leNat d 0x60 4
  let c := if c.valid then c else { c with waddr := [], wctl := [], placements := 0, launches := 0 }
  { c with
    valid := true, secure := (leNat d 0x64 4) / 2 % 2 == 1, root := leNat d 0 8, tbase := BitVec.ofNat 64 (leNat d 8 8),
    tlimit := BitVec.ofNat 64 (leNat d 0x10 8), toffset := BitVec.ofNat 64 (leNat d 0x18 8), recbase := BitVec.ofNat 64 (leNat d 0x20 8),
    tvec := BitVec.ofNat 64 (leNat d 0x28 8), tfbase := BitVec.ofNat 64 (leNat d 0x30 8), sfbase := BitVec.ofNat 64 (leNat d 0x38 8),
    sfcount := leNat d 0x40 4, ufcount := leNat d 0x44 4, ufbase := BitVec.ofNat 64 (leNat d 0x48 8),
    prqbase := BitVec.ofNat 64 (leNat d 0x50 8), prqsize := leNat d 0x58 4,
    deadline := if dead = 0 then 2000 else dead, evictage := if age = 0 then 1000 else age }

def descMisaligned (d : List Byte) : Bool :=
  leNat d 0 8 % 2 ^ 20 != 0 || leNat d 0x20 8 % 64 != 0 || leNat d 0x28 8 % 8 != 0 || leNat d 0x30 8 % 65536 != 0 ||
  leNat d 0x38 8 % 0x40000 != 0 || leNat d 0x48 8 % 65536 != 0 || leNat d 0x50 8 % 64 != 0

/-- A nonzero reserved bit: bytes 0x68 and up, CTL[31:2], TBASE, TLIMIT, TOFFSET (R41). -/
def descReserved (d : List Byte) : Bool :=
  !zeroBytes d 0x68 0x98 || leNat d 0x64 4 / 4 != 0 || leNat d 8 8 / 2 ^ 56 != 0 || leNat d 8 8 % 2 ^ 21 != 0 ||
  leNat d 0x10 8 / 2 ^ 56 != 0 || leNat d 0x10 8 % 2 ^ 21 != 0 || leNat d 0x18 8 / 2 ^ 52 != 0 || leNat d 0x18 8 % 2 ^ 21 != 0

def isPow2Nat (n : Nat) : Bool := n != 0 && 2 ^ Nat.log2 n == n

/-- V = 0, a field outside its limits, a window outside HBM4. -/
def descOutside (d : List Byte) : Bool :=
  leNat d 0x64 4 % 2 == 0 || decide (leNat d 0 8 + 2 ^ 20 > hbmEnd) || decide (leNat d 0x40 4 > 2 ^ 20) ||
  decide (leNat d 0x44 4 > 65536) || decide (leNat d 0x58 4 < 16) || decide (leNat d 0x58 4 > 65536) || !isPow2Nat (leNat d 0x58 4) ||
  (leNat d 0x5C 4 != 0 && (decide (leNat d 0x5C 4 < 10) || decide (leNat d 0x5C 4 > 1000000))) || decide (leNat d 0x60 4 > 1000000) ||
  (leNat d 0x10 8 != 0 && decide (leNat d 0x18 8 + leNat d 0x10 8 > hbmEnd))

/-- The first cause met by a descriptor's checks. -/
def descCause (s : State) (ctx : Nat) : Option (BitVec 6) :=
  let d := descBytes s ctx
  if isPoison s .mem 0 (descAddr s ctx) 256 then some 0x3E#6
  else if descMisaligned d then some 0x14#6
  else if descReserved d then some 0x02#6
  else if descOutside d then some 0x15#6
  else none

/-! ### Parsing -/

def ofBit (n k : Nat) : Bool := n / 2 ^ k % 2 == 1

/-- The packet's own fields (R371). -/
def packetOf (b : List Byte) : Packet :=
  let d (o : Nat) : Double := BitVec.ofNat 64 (leNat b o 8)
  let w (o : Nat) : Word := BitVec.ofNat 32 (leNat b o 4)
  let y (o : Nat) : Nat := leNat b o 1
  { code := d 0, args := d 8, pmap := d 0x10, decl := d 0x18, spillBase := d 0x20, nUnits := leNat b 0x28 4,
    lastMask := if w 0x2C = 0 then 0xFFFFFFFF else w 0x2C, fmt := w 0x30, scratch := leNat b 0x34 4, vault := leNat b 0x38 4,
    groups := y 0x3C, regs := y 0x3D, hcount := y 0x3E, acount := y 0x3F, spillDepth := leNat b 0x40 2, claimRes := y 0x42,
    prio := y 0x43 % 4, eclass := y 0x44 % 8, gang := ofBit (y 0x45) 0, teamop := ofBit (y 0x45) 1, restart := ofBit (y 0x45) 2,
    tile := y 0x46, thr := if w 0x48 = 0 then 0x38D1B717 else w 0x48, wdog := if w 0x4C = 0 then 100 else leNat b 0x4C 4,
    node := y 0x50 % 64, gend := ofBit (leNat b 0x50 2) 6, pend := ofBit (leNat b 0x50 2) 7, jend := ofBit (leNat b 0x50 2) 8,
    depMask := d 0x58 }

/-- A role entry, a stage entry (R372). -/
def roleOf (d : List Byte) (n : Nat) : Double × Nat := (BitVec.ofNat 64 (leNat d (16 * n) 8), leNat d (16 * n + 8) 1)
def stageOf (d : List Byte) (n : Nat) : Stage :=
  let o := 0x100 + 16 * n
  { chan := leNat d o 1, kind := leNat d (o + 1) 1, roles := BitVec.ofNat 16 (leNat d (o + 2) 2), used := ofBit (leNat d (o + 4) 1) 0,
    rrec := leNat d (o + 8) 8 }
def stagesOf (d : List Byte) : List Stage := (List.range 16).map (stageOf d)
def chansOf (d : List Byte) : List Nat := (List.range 32).map (fun k => leNat d (0x200 + k) 1)
def mapOf (m : List Byte) (n : Nat) : List (BitVec 16) := (List.range n).map (fun k => BitVec.ofNat 16 (leNat m (2 * k) 2))

/-- A raster stage: used, KIND 5. -/
def isRaster (t : Stage) : Bool := t.used && t.kind == 5

/-! ### The checks (R374) -/

def packetMisaligned (p : Packet) (d : List Byte) (rs : List (List Byte)) : Bool :=
  p.code.toNat % 8 != 0 || p.pmap.toNat % 8 != 0 || p.decl.toNat % 64 != 0 || p.spillBase.toNat % 128 != 0 ||
  (List.range 16).any (fun n => (roleOf d n).1.toNat % 8 != 0) || (stagesOf d).any (fun t => isRaster t && t.rrec % 64 != 0) ||
  rs.any (fun r => leNat r 0 8 % 256 != 0)

/-- A stage entry's zero fields. -/
def stageReserved (d : List Byte) (n : Nat) : Bool :=
  let o := 0x100 + 16 * n
  let t := stageOf d n
  if t.used then leNat d (o + 4) 1 / 2 != 0 || !zeroBytes d (o + 5) 3 || decide (t.kind > 5) || (t.kind != 5 && t.rrec != 0)
  else !zeroBytes d o 16

def packetReserved (b : List Byte) (child : Bool) (m : List (BitVec 16)) (d : List Byte) (rs : List (List Byte)) : Bool :=
  let y (o : Nat) : Nat := leNat b o 1
  leNat b 0x30 4 / 2 ^ 14 != 0 || y 0x43 / 4 != 0 || y 0x44 / 8 != 0 || y 0x45 / 8 != 0 || decide (y 0x46 ≥ 3) || y 0x47 != 0 ||
  leNat b 0x50 2 / 512 != 0 || !zeroBytes b 0x52 6 || !zeroBytes b 0x60 32 || (child && !(zeroBytes b 0x50 2 && zeroBytes b 0x58 8)) ||
  m.any (fun e => (bits e 8 6 : BitVec 6) != 0 || ((bits e 14 2 : BitVec 2) == 3 && (bits e 0 8 : BitVec 8) != 0)) ||
  (List.range 16).any (fun n => !zeroBytes d (16 * n + 9) 7) || (List.range 16).any (stageReserved d) || !zeroBytes d 0x220 32 ||
  rs.any (fun r => leNat r 12 1 / 4 != 0 || leNat r 15 1 != 0 || !zeroBytes r 28 36)

/-- A field outside its range. -/
def packetOutside (b : List Byte) (p : Packet) (m : List (BitVec 16)) (d : List Byte) : Bool :=
  let thr := leNat b 0x48 4
  decide (p.nUnits = 0) || decide (p.nUnits > 2 ^ 24) || p.scratch % 4 != 0 || decide (p.scratch > 262144) || p.vault % 64 != 0 ||
  decide (p.vault > 4194304) || decide (p.groups = 0) || decide (p.groups > 32) || decide (p.regs = 0) || decide (p.regs > 24) ||
  decide (p.hcount > 32) || decide (p.acount > 32) || p.spillDepth % 8 != 0 || decide (p.spillDepth > 1024) ||
  decide (p.claimRes > 127) || decide (thr > 0x3F800000) || decide (p.wdog > 1000000) || p.depMask.toNat / 2 ^ p.node != 0 ||
  m.any (fun e => let k := (bits e 0 8 : BitVec 8).toNat
    match (bits e 14 2 : BitVec 2).toNat with
    | 0 => decide (k > 191) | 1 => decide (k > 47) | 2 => decide (k > 3) | _ => false) ||
  (List.range 16).any (fun n => decide ((roleOf d n).2 > 24)) ||
  (stagesOf d).any (fun t => t.used && decide (t.chan > 31)) || (chansOf d).any (fun n => decide (n > 64))

def quarterCount (p : Packet) : Nat := (p.groups + 3) / 4

def dupNat : List Nat → Bool
  | [] => false
  | x :: r => r.contains x || dupNat r

/-- A raster record outside the limits of R342. -/
def rasterBad (r : List Byte) : Bool :=
  let rq := leNat r 13 1
  let aq := leNat r 14 1
  decide (leNat r 8 2 = 0) || decide (leNat r 10 2 = 0) || decide (rq > 31) || (decide (aq > 31) && aq != 255) || rq == aq

/-- The resources a launch's unit asks for do not exist, or its stages clash. -/
def packetExcess (p : Packet) (d : List Byte) (rs : List (List Byte)) : Bool :=
  let used := (stagesOf d).filter (·.used)
  decide (quarterCount p * p.regs + p.claimRes > 128) || decide (2 * p.groups * p.hcount > 256) ||
  decide (2 * p.groups * p.acount > 2048) || (List.range 16).any (fun n => decide ((roleOf d n).2 > p.regs + p.claimRes)) ||
  used.any (fun t => (chansOf d).getD t.chan 0 == 0) || dupNat (used.map (·.chan)) || decide ((used.filter isRaster).length > 1) ||
  rs.any rasterBad

/-- TEAMOP's rules on the map. -/
def teamBad (p : Packet) (m : List (BitVec 16)) : Bool :=
  p.teamop &&
    (!p.gang || m.isEmpty || m.any (fun e => (bits e 14 2 : BitVec 2) != 0) ||
      let cs := m.map (fun e => (bits e 0 8 : BitVec 8).toNat)
      cs.any (fun c => [0, 1, 2, 3].any (fun k => !cs.contains (c / 4 * 4 + k))))

/-! ### What a unit takes of a core (R187, R258, R273) -/

/-- Resident slots and granules of each quarter, operand slots, accumulator slots, scratchpad and vault bytes. -/
structure Room where
  slots : List Nat
  grans : List Nat
  ops : Nat
  accs : Nat
  scratch : Nat
  vault : Nat
deriving DecidableEq, Repr

def emptyCore : Room := ⟨[16, 16, 16, 16], [128, 128, 128, 128], 256, 2048, 262144, 4194304⟩

/-- Groups of a unit in a quarter, group i being in quarter (i + q0) mod 4. -/
def groupsIn (n q0 q : Nat) : Nat := ((List.range n).filter (fun i => (i + q0) % 4 == q)).length

/-- What one unit needs. -/
def needOf (p : Packet) (q0 : Nat) : Room :=
  ⟨[0, 1, 2, 3].map (groupsIn p.groups q0), [0, 1, 2, 3].map (fun q => groupsIn p.groups q0 q * p.regs + p.claimRes),
   2 * p.groups * p.hcount, 2 * p.groups * p.acount, roundUp p.scratch 128, roundUp p.vault 64⟩

def roomFits (r n : Room) : Bool :=
  [0, 1, 2, 3].all (fun q => decide (n.slots.getD q 0 ≤ r.slots.getD q 0) && decide (n.grans.getD q 0 ≤ r.grans.getD q 0)) &&
  decide (n.ops ≤ r.ops) && decide (n.accs ≤ r.accs) && decide (n.scratch ≤ r.scratch) && decide (n.vault ≤ r.vault)
def roomTake (r n : Room) : Room :=
  ⟨[0, 1, 2, 3].map (fun q => r.slots.getD q 0 - n.slots.getD q 0), [0, 1, 2, 3].map (fun q => r.grans.getD q 0 - n.grans.getD q 0),
   r.ops - n.ops, r.accs - n.accs, r.scratch - n.scratch, r.vault - n.vault⟩

/-- Legal cores of a placement entry (R373), in increasing number. -/
def entryCores (e : BitVec 16) : List Nat := (List.range 192).filter (legalCore e)
/-- Those of the context's world that are online (R455). -/
def legalCores (s : State) (secure : Bool) (e : BitVec 16) : List Nat :=
  (entryCores e).filter (fun c => (coreOf s c).secure == secure && !(coreOf s c).failed)

/-- First fit of one unit: the first legal core, and the first q0, with room. -/
def firstFit (p : Packet) (cs : List Nat) (rooms : Tab Room) : Option (Tab Room) :=
  cs.findSome? (fun c =>
    let r := tabGet emptyCore rooms c
    ([0, 1, 2, 3].find? (fun q0 => roomFits r (needOf p q0))).map (fun q0 => tabPut rooms c (roomTake r (needOf p q0))))

/-- A gang can be placed on otherwise empty cores; whether a core is online is no matter here (R374, R455). -/
def gangFits (p : Packet) (m : List (BitVec 16)) : Nat → Nat → Tab Room → Bool
  | 0, _, _ => true
  | n + 1, u, rooms =>
    match firstFit p (entryCores (m.getD u 0xC000#16)) rooms with
    | none => false
    | some rooms => gangFits p m n (u + 1) rooms

/-- How validation ends. -/
inductive Valid where
  | ok (p : Packet) (rs : List (List Byte)) (s : State)
  | bad (c : BitVec 6) (s : State)
  | absent (va : Double) (s : State)

/-- A read of the Yard that validation makes, then the rest. -/
def yardThen (r : YRead) (k : List Byte → State → Valid) : Valid :=
  match r with
  | .ok bs s => k bs s
  | .bad c s => .bad c s
  | .absent va s => .absent va s

/-- The raster records of the stages. -/
def readRasters (w : Who) (k : List (List Byte) → State → Valid) : List Stage → List (List Byte) → State → Valid
  | [], acc, s => k acc s
  | t :: r, acc, s => yardThen (yardRead s w (BitVec.ofNat 64 t.rrec) 64) (fun b => readRasters w k r (acc ++ [b]))

/-- The packet's own checks, in the table's order. -/
def packetChecks (child : Bool) (b : List Byte) (m : List (BitVec 16)) (d : List Byte) (rs : List (List Byte)) (s : State) : Valid :=
  let p := packetOf b
  if packetMisaligned p d rs then .bad 0x14#6 s
  else if packetReserved b child m d rs then .bad 0x02#6 s
  else if fmtBad p.fmt then .bad 0x23#6 s
  else if packetOutside b p m d || packetExcess p d rs || teamBad p m then .bad 0x15#6 s
  else if p.gang && !gangFits p m p.nUnits 0 [] then .bad 0x15#6 s
  else .ok { p with roles := (List.range 16).map (roleOf d), stages := stagesOf d, chans := chansOf d, map := m } rs s

/-- Validation of a packet's bytes (R374). -/
def validate (s : State) (w : Who) (child : Bool) (b : List Byte) : Valid :=
  let p := packetOf b
  let n := min p.nUnits (2 ^ 24)
  yardThen (if p.pmap = 0 then .ok [] s else yardRead s w p.pmap (2 * n)) (fun m s =>
    yardThen (if p.decl = 0 then .ok (List.replicate 576 0) s else yardRead s w p.decl 576) (fun d =>
      readRasters w (packetChecks child b (if p.pmap = 0 then [] else mapOf m n) d) ((stagesOf d).filter isRaster) []))

end Sys2Proof.Machine
end

