-- ==== Sys2Proof/Machine/Ends.lean ====
section
/-! DEFINITION. Sys2Proof/Machine/Ends.lean: rasteriser-ordered sections; the end of a group and of a unit; cancel; the completion of
levels and what an error does to the rest of a job (R145, R171, R221, R247–R249, R256, R349, R368–R377, R424). -/

namespace Sys2Proof.Machine

open Sys2Proof

/-! ### Sections (R247–R249) -/

def rosecKey (lid key : Nat) : Nat := 65536 * lid + key
def rosecNext (s : State) (lid key : Nat) : Word := tabGet 0 s.rosec (rosecKey lid key)

/-- NEXT advances past the holder's ticket and the section is closed. -/
def closeSection (s : State) (gid : Nat) : State :=
  match grp s gid with
  | none => s
  | some g => match g.sect with
    | none => s
    | some x =>
      bump { setGrp s gid { g with sect := none } with
        rosec := tabPut s.rosec (rosecKey x.base x.key) (BitVec.ofNat 32 (x.ticket + 1)) }

/-- What rosec.leave does, and the end of a group that holds a section: at device scope every access of the group is released, to the next
holder of the key, and the section closes (R248, R310). -/
def leaveSection (s : State) (gid : Nat) : State :=
  match grp s gid with
  | none => s
  | some g => match g.sect with
    | none => s
    | some x =>
      let k := rosecKey x.base x.key
      closeSection (newRelease { advanceRegion s g.uid with
        rosecClk := tabSet [] s.rosecClk k (joinClock (tabGet [] s.rosecClk k) (clockOf s gid)) } gid) gid

/-- The section opens, at the enter's issue or wake: the group acquires what the previous holders of the key released. -/
def enterSection (s : State) (c : Go) (key seq : Word) : State :=
  let x : Section := { base := c.g.lid, key := key.toNat, ticket := seq.toNat,
                       expires := s.clk + BitVec.ofNat 64 (1000 * (pktOf s c.g).wdog) }
  let s := learnNow (advanceRegion s c.g.uid) c.gid (tabGet [] s.rosecClk (rosecKey c.g.lid key.toNat))
  retireClose (setGrp s c.gid { c.g with sect := some x }) c

/-- rosec.enter sK: KEY in the low word, SEQ in the high word. -/
def execRosecEnter (w : FsWord) (s : State) : Out :=
  match pre (.rosecEnter w) s with
  | .out o => o
  | .go c =>
    let key := regGet c.g w.a.toNat 0
    let seq := regGet c.g (w.a.toNat + 1) 0
    let next := rosecNext s c.g.lid (key.toNat % 65536)
    if c.act = 0 then .next (retireSame s c)
    else if key.toNat ≥ 65536 then trapAt s c 0x02#6
    else if c.g.splits.length > 1 ∨ c.g.sect.isSome ∨ (seq - next).toNat ≥ 2 ^ 31 then trapAt s c 0x3A#6
    else if unchecked s c.gid then hold s c
    else if seq ≠ next then sleepOn s (.rosecEnter w) c (.rosec c.g.lid key.toNat seq.toNat)
    else .next (enterSection s c key seq)

/-- rosec.leave: after every access of the group, NEXT(KEY) := SEQ + 1. -/
def execRosecLeave (w : FsWord) (s : State) : Out :=
  match pre (.rosecLeave w) s with
  | .out o => o
  | .go c =>
    if c.act = 0 then .next (retireSame s c)
    else if c.g.sect.isNone then trapAt s c 0x3A#6
    else if accessPending s c.gid then hold s c
    else .next (retireClose (leaveSection s c.gid) c)

/-- A group in user mode that waits comes to its next boundary at once: its splits that are HELD, or asleep at no join, are READY (R249). -/
def rouse (g : Group) : Group :=
  if g.sys then g
  else { g with splits := g.splits.map (fun e => match e.2.st with
    | .asleep (.join _) => e
    | _ => (e.1, { e.2 with st := .ready })) }

/-- A trap of a group that waits at its exit, with the exit's PC and lanes (R145, R249, R411). -/
def exitTrap (s : State) (gid : Nat) (t : TrapInfo) (act : Mask) : State :=
  takeTrap (mapGrp s gid (fun g => { g with st := .running, live := act })) gid t

/-- A group in user mode that waits at its exit takes a boundary's trap at once. -/
def exitingTrap (s : State) (gid : Nat) (c : BitVec 6) : State :=
  match grp s gid with
  | none => s
  | some g => match g.st with
    | .exiting pc act => if g.sys then s
        else exitTrap (mapGrp s gid (fun g => if c = 0x35#6 then { g with stopDue := false } else { g with rosecDue := false })) gid
          { cause := c, pc := pc, active := act, flanes := act, split := act } act
    | _ => s

/-- ROSEC_TIMEOUT: the section watchdog expires; the trap follows at the group's next boundary, at once if it waits. -/
def execRosecTimeout (gid : Nat) (s : State) : Out :=
  match grp s gid with
  | none => .next s
  | some g => match g.sect with
    | none => .next s
    | some x =>
      if s.clk.toNat < x.expires.toNat then .next s
      else .next (exitingTrap (mapGrp (closeSection s gid) gid (fun g => { rouse g with rosecDue := true })) gid 0x2A#6)

/-! ### Engine jobs that stop (R376 step 5) -/

/-- Forget what the engines hold for a job. -/
def stopJob (s : State) (jid : Nat) (j : Job) : State :=
  let s := match j.kind with
    | .bte ch _ =>
      let b := bteOf s ch
      { s with bte := tabPut s.bte ch { b with queue := b.queue.filter (fun k => k != jid), donecnt := b.donecnt + 1,
                                               running := if b.running = some jid then none else b.running } }
    | _ => s
  bump { s with
    copies := s.copies.filter (fun e => e.2.job != jid), sorts := s.sorts.filter (fun e => e.2.job != jid),
    keys := s.keys.filter (fun e => e.2.job != jid), rays := s.rays.filter (fun e => e.2.job != jid || e.2.op.isNone),
    draws := s.draws.filter (fun e => e.2.job != jid), jobs := tabDel s.jobs jid }

def stopJobs (s : State) (p : Job → Bool) : State :=
  (s.jobs.filter (fun e => p e.2)).foldl (fun s e => stopJob s e.1 e.2) s

/-! ### The end of a group (R145, R171, R221, R376 step 3) -/

/-- The rest of an skey: its descriptor, its COUNT, its keys. -/
def keysStep (s : State) (oid : Nat) : State :=
  match tabFind s.keys oid with
  | some k => stepKeys s oid k
  | none => s
def keysSteps : Nat → State → Nat → State
  | 0, s, _ => s
  | n + 1, s, oid => keysSteps n (keysStep s oid) oid
def finishKeys (s : State) (oid : Nat) : State :=
  match tabFind s.keys oid, tabFind s.ops oid with
  | some k, some o =>
    let bad := match translate s { ctx := o.ctx, user := false, secure := (ctxOf s o.ctx).secure } .read k.desc with
      | .ok pa _ => descPoison s pa
      | _ => false
    if !k.ready && bad then endKeys s oid k 0x3E
    else
      let s := keysStep (keysStep s oid) oid
      keysSteps (((tabFind s.keys oid).map (fun k => k.todo.length + 1)).getD 0) s oid
  | _, _ => s

/-- Words already issued complete: an operation's accesses are performed. One that waits for a page stays undone. -/
def performNow (s : State) (oid : Nat) : State :=
  match tabFind s.ops oid with
  | none => s
  | some o =>
    if isSkey o.instr then finishKeys s oid
    else if o.done || o.engine then s
    else match o.instr, grp s o.gid with
    | .bgrad _, some g => gradMerge oid o g o.accs s
    | _, _ => mapOp (performAll s o (opAccs o) []).2 oid (fun o => { o with done := true, accs := [] })

/-- The operations of a group that ends are forgotten. -/
def dropOps (s : State) (gid lid : Nat) : State :=
  let ids := (opsOf s gid).map (·.1)
  let s := ids.foldl (fun s k => deliverAll (performNow s k) k) s
  let held := (s.keys.filter (fun e => ids.contains e.1)).map (fun e => e.2.job)
  let s := { s with ops := s.ops.filter (fun e => e.2.gid != gid), keys := s.keys.filter (fun e => !ids.contains e.1),
                    jobs := s.jobs.filter (fun e => !held.contains e.1) }
  mapLevel s lid (fun v => { v with chans := v.chans.map (fun e =>
    (e.1, { e.2 with waiting := e.2.waiting.filter (fun k => !ids.contains k) })) })

/-- The swap frame a group holds is free again. -/
def freeSwapFrame (s : State) (g : Group) : State :=
  match g.st with
  | .swapped k | .saved k => mapCtx s g.ctx (fun c => { c with sframes := c.sframes.filter (fun x => x != k) })
  | _ => s

/-- The slot of a group that ends returns to its core: the unit keeps as many as it has groups left (R145, R258). -/
def giveSlot (s : State) (gid : Nat) (g : Group) : State :=
  mapUnit s g.uid (fun u => { u with rslots := slotsLess s g.uid (some gid) g.slot u.rslots })

/-- What a group has done happens before the completion of its launch (R310). -/
def clockToLevel (s : State) (gid lid : Nat) : State :=
  { mapLevel s lid (fun v => { v with after := joinClock v.after (clockOf s gid) }) with sync := tabDel s.sync gid }

/-- What every end of a group does: its section, ray slots, names, frame and slot; its unit counts it. -/
def removeGroup (s : State) (gid : Nat) : State :=
  match grp s gid with
  | none => s
  | some g =>
    let s := clockToLevel (freeRaysOf (leaveSection s gid) gid) gid g.lid
    let s := match grp s gid with | some g => releaseNames s gid g | none => s
    let s := giveSlot (freeSwapFrame s g) gid g
    let s := mapUnit s g.uid (fun u => { barriersExit u g.index with left := u.left - 1 })
    let s := { s with groups := tabDel s.groups gid }
    bump (if s.cur.map (·.1) = some gid then { s with cur := none } else s)

/-- The unit frame that a saved unit holds is free again. -/
def freeUnitFrame (s : State) (u : UnitS) : State :=
  if u.resident || u.rerun then s else mapCtx s u.ctx (fun c => { c with uframes := c.uframes.filter (fun x => x != u.frame) })

/-- A unit is complete: what it holds returns to the core, and its launch counts it (R368). -/
def endUnit (s : State) (uid : Nat) : State :=
  match tabFind s.units uid with
  | none => s
  | some u =>
    let s := dropTag (freeUnitFrame s u) uid
    let s := { s with units := tabDel s.units uid }
    bump (mapLevel s u.lid (fun v => { v with count := v.count - 1 }))

/-- The job was started by a group of the unit; a draw belongs to its launch (R342). -/
def jobOfUnit (uid : Nat) (j : Job) : Bool := j.uid == uid && (match j.kind with | .draw _ => false | _ => true)

/-- A unit is complete once its last group has ended and the accesses of the engine jobs its groups started are performed (R368, R369). -/
def endUnitIfEmpty (s : State) (uid : Nat) : State :=
  if (unitOf s uid).left = 0 ∧ ¬ s.jobs.any (fun e => jobOfUnit uid e.2) then endUnit s uid else s

/-- A long-latency operation of the group is pending. -/
def opsPending (s : State) (gid : Nat) : Bool := s.ops.any (fun e => e.2.gid == gid)

/-- A group that waits at its exit for a trav's flag while a ray of the trav waits on a page is swapped out; restored, it reaches its
exit again (R230). -/
def swapExit (s : State) (gid : Nat) (g : Group) (va : Double) (t : TrapInfo) : State :=
  swapStop (requestPage s g.ctx va .read false) gid
    { g with waitPage := some (va.toNat / 65536), waitKind := askWord va .read false % 65536, live := t.active }
    { t with cause := 0x10, faddr := some va }

/-- GROUP_END: an exiting group with nothing pending reports an error at its exit, or ends. -/
def execGroupEnd (gid : Nat) (s : State) : Out :=
  match grp s gid with
  | none => .next s
  | some g => match g.st with
    | .exiting pc act =>
      let t : TrapInfo := { cause := 0, pc := pc, active := act, flanes := act, split := act }
      if anyBusy g 0xFFF || opsPending s gid then
        match rayPage s (whoOf g) gid 0xFFF with
        | some va => .next (swapExit s gid g va t)
        | none => .next s
      else
        match firstErr g 0xFFF with
        | some f => .next (exitTrap s gid { t with cause := (flagOf g f).cause, info := 0x8000#16 ||| BitVec.ofNat 16 f } act)
        | none => match g.late with
          | (k, e) :: _ => .next (exitTrap (mapGrp s gid (fun g => { g with late := tabDel g.late k })) gid { t with cause := e.1 } act)
          | [] => .next (endUnitIfEmpty (removeGroup (commitRegion s gid) gid) g.uid)
    | _ => .next s

/-- A group of a cancelled level ends as by exit, without its waits and its checks. -/
def cancelGroup (s : State) (gid : Nat) (g : Group) : State := removeGroup (dropOps s gid g.lid) gid

/-- Every group of a unit ends, the words it has issued performed first; then the jobs they have started stop. -/
def endGroups (s : State) (uid : Nat) : State :=
  stopJobs ((s.groups.filter (fun e => e.2.uid == uid)).foldl (fun s e => cancelGroup s e.1 e.2) s) (jobOfUnit uid)
/-- Every group of a unit ends, and the unit is complete. -/
def cancelUnit (s : State) (uid : Nat) : State := endUnit (endGroups s uid) uid

/-! ### Cancel (R376) -/

def childrenOf (s : State) (lid : Nat) : List Nat := (s.levels.filter (fun e => e.2.parent == some lid)).map (·.1)

/-- The units and jobs of a launch end, its queues are discarded, no further unit starts. -/
def endLaunchWork (s : State) (lid : Nat) : State :=
  let s := (s.units.filter (fun e => e.2.lid == lid)).foldl (fun s e => cancelUnit s e.1) s
  let s := stopJobs s (fun j => j.lid == lid)
  mapLevel s lid (fun v =>
    { v with count := v.count - (v.pkt.nUnits - v.placed), placed := v.pkt.nUnits, readyAt := none,
             chans := v.chans.map (fun e => (e.1, { e.2 with queue := [], waiting := [], closed := true })) })

def setCause (v : Level) (c : BitVec 6) : Level := if v.cause = 0 then { v with cause := c } else v

/-- One level is marked, and a launch's work ends. -/
def cancelOne (s : State) (lid : Nat) (c : BitVec 6) : State :=
  let v := levelOf s lid
  if v.done then s
  else
    let s := mapLevel s lid (fun v => setCause { v with cancelled := true } c)
    if v.kind = .launch then endLaunchWork s lid else s

/-- A level and every level it contains. -/
def cancelTree (c : BitVec 6) : Nat → State → Nat → State
  | 0, s, _ => s
  | n + 1, s, lid =>
    if (levelOf s lid).done then s
    else (childrenOf s lid).foldl (cancelTree c n) (cancelOne s lid c)

def cancelAll (s : State) (lid : Nat) (c : BitVec 6) : State := cancelTree c (s.levels.length + 1) s lid

/-! ### What an error or a cancel does to the rest of a job (R375) -/

/-- Bit of a launch's node. -/
def nodeBit (v : Level) : Double := 1#64 <<< v.pkt.node

/-- A launch of a graph depends on a failed node. -/
def dependsOnFailed (s : State) (v : Level) : Bool :=
  v.kind == .launch && !v.child && !v.done && !v.cancelled &&
  (match v.parent with
   | some g => (v.pkt.depMask &&& (levelOf s g).failed) != 0
   | none => false)

/-- Cancel, one after another, the launches of a graph that depend on a failed one. -/
def cancelDependents : Nat → State → Nat → State
  | 0, s, _ => s
  | n + 1, s, gr =>
    match tabFirst s.levels (fun _ v => v.parent == some gr && dependsOnFailed s v) with
    | none => s
    | some (lid, v) =>
      cancelDependents n (mapLevel (cancelAll s lid 0x3D) gr (fun g => { g with failed := g.failed ||| nodeBit v })) gr

/-- The later members of a phase or a job are cancelled. -/
def stopLater (s : State) (up me : Nat) : State :=
  (childrenOf s up).foldl (fun s k => if k > me then cancelAll s k 0x3D else s)
    (mapLevel s up (fun v => { v with stop := true }))

/-- A level takes a cause, and what follows it in the level above stops. -/
def stopUp : Nat → State → Nat → BitVec 6 → State
  | 0, s, _, _ => s
  | n + 1, s, lid, c =>
    let s := mapLevel s lid (fun v => if v.done then v else setCause v c)
    match (levelOf s lid).parent with
    | none => s
    | some up => stopUp n (stopLater s up lid) up c

/-- A launch, graph or phase has failed or was cancelled. -/
def levelFailed (s : State) (lid : Nat) (c : BitVec 6) : State :=
  let v := levelOf s lid
  if v.child then s
  else match v.kind, v.parent with
  | .launch, some gr =>
    let s := mapLevel s gr (fun g => { g with failed := g.failed ||| nodeBit v })
    stopUp 3 (cancelDependents (s.levels.length + 1) s gr) gr c
  | .launch, none => s
  | _, _ => stopUp 3 s lid c

/-- A cancel names a level. -/
def cancelLevel (s : State) (lid : Nat) (c : BitVec 6) : State :=
  if (levelOf s lid).done then s else levelFailed (cancelAll s lid c) lid c

/-- A launch that is not run, or stops, with an error of its own. -/
def failLaunch (s : State) (lid : Nat) (c : BitVec 6) : State :=
  levelFailed (mapLevel s lid (fun v => setCause v c)) lid c

/-! ### Readiness (R370, R378) -/

/-- No earlier member of the containing level is incomplete. -/
def firstOpen (s : State) (parent lid : Nat) : Bool :=
  !(s.levels.any (fun e => e.2.parent == some parent && decide (e.1 < lid) && !e.2.done))

/-- Every launch of the graph that a mask names has completed. -/
def depsDone (s : State) (gr : Nat) (m : Double) : Bool :=
  (List.range 64).all (fun i => !bit m i ||
    s.levels.any (fun e => e.2.parent == some gr && e.2.kind == .launch && !e.2.child && e.2.pkt.node == i && e.2.done))

def queueOf (s : State) (q : Nat) : Queue := tabGet {} s.queues q
def mapQueue (s : State) (q : Nat) (f : Queue → Queue) : State := { s with queues := tabPut s.queues q (f (queueOf s q)) }

/-- A completion record of the queue a level names waits for its ring. At most one does: the queue's next phase does not run, nor complete,
before the record is written (R424; DEDUCED, log entry 103). -/
def recordWaits (s : State) (v : Level) : Bool := v.queue.any (fun q => !(queueOf s q).recs.isEmpty)

/-- The ordering of a launch of the job tree. -/
def orderMet (s : State) (v : Level) : Bool :=
  match v.parent with
  | none => true
  | some gr =>
    depsDone s gr v.pkt.depMask && match (levelOf s gr).parent with
    | none => true
    | some ph => firstOpen s ph gr && match (levelOf s ph).parent with
      | none => true
      | some jb => firstOpen s jb ph && !recordWaits s (levelOf s ph) &&
        !(s.levels.any (fun e => e.2.kind == .job && e.2.queue == (levelOf s jb).queue && decide (e.1 < jb) && !e.2.done))

/-- The parent of a child launch has not completed or been cancelled. -/
def parentOpen (s : State) (v : Level) : Bool :=
  match v.parent with
  | some p => !(levelOf s p).done && !(levelOf s p).cancelled
  | none => true

/-- The units of a launch that wait to be placed again: saved units before units to be re-run, by UNITID (R416, R453). -/
def waitingUnit (s : State) (lid : Nat) : Option Nat :=
  let pick (r : Bool) : Option (Nat × UnitS) :=
    (s.units.filter (fun e => e.2.lid == lid && !e.2.resident && e.2.rerun == r)).foldl
      (fun m e => match m with
        | none => some e
        | some x => if e.2.unit.toNat < x.2.unit.toNat then some e else some x) none
  match pick false with
  | some e => some e.1
  | none => (pick true).map (·.1)

/-- A launch with a unit to place, its ordering met, whatever the state of its context (R378, R413). -/
def launchReady (s : State) (lid : Nat) (v : Level) : Bool :=
  v.kind == .launch && v.valid && !v.done && !v.cancelled &&
  (decide (v.placed < v.pkt.nUnits) || (waitingUnit s lid).isSome) && (if v.child then parentOpen s v else orderMet s v)

/-- What the completions that a launch of the job tree waits for have ordered before its accesses (R310, R370): of the launches of its graph
that it names and the earlier graphs, phases and jobs, what happens before each. -/
def beforeOf (s : State) (v : Level) : Tab Nat :=
  let all (p : Nat → Level → Bool) : Tab Nat := s.levels.foldl (fun m e => if p e.1 e.2 && e.2.done then joinClock m e.2.after else m) []
  match v.parent with
  | none => []
  | some gr =>
    let k := all (fun _ u => u.parent == some gr && u.kind == .launch && !u.child && bit v.pkt.depMask u.pkt.node)
    match (levelOf s gr).parent with
    | none => k
    | some ph =>
      let k := joinClock k (all (fun i u => u.parent == some ph && decide (i < gr)))
      match (levelOf s ph).parent with
      | none => k
      | some jb => joinClock (joinClock k (all (fun i u => u.parent == some jb && decide (i < ph))))
          (all (fun i u => u.kind == .job && u.queue == (levelOf s jb).queue && decide (i < jb)))

/-- Launches that have become ready, at the acceptance of one or at the completion of a level, are stamped with the time. -/
def markReady (s : State) : State :=
  { s with levels := s.levels.map (fun e =>
      if e.2.readyAt.isNone && launchReady s e.1 e.2 then
        (e.1, { e.2 with readyAt := some s.clk.toNat, before := if e.2.child then e.2.before else beforeOf s e.2 })
      else e) }

/-- The submission queue of the job a level belongs to. -/
def queueNo : Nat → State → Nat → Nat
  | 0, _, _ => 0
  | n + 1, s, lid =>
    let v := levelOf s lid
    match v.queue, v.parent with
    | some q, _ => q
    | none, some p => queueNo n s p
    | none, none => 0

/-! ### Completion (R368, R369) -/

/-- Fold every Trough partial of a context (R295). -/
def foldContext (s : State) (ctx : Nat) : State :=
  (s.trough.filter (fun e => e.2.ctx == ctx)).foldl (fun s e => foldLine s e.1) s

/-- Every member of a level is complete, those not accepted or not run among them, and no more can come. -/
def levelReady (s : State) (lid : Nat) (v : Level) : Bool :=
  !v.done && v.count == 0 &&
  (if v.kind = .launch then
     (v.valid || v.cause != 0) && decide (v.pkt.nUnits ≤ v.placed) && !(s.jobs.any (fun j => j.2.lid == lid)) &&
       (tabFind s.draws lid).isNone
   else v.closed && !(s.levels.any (fun e => e.2.parent == some lid && !e.2.done)) && !(v.kind == .phase && recordWaits s v))

/-- The completion record of a phase (R424). -/
def phaseRecord (s : State) (v : Level) : List Byte :=
  let job := match v.parent with | some j => (levelOf s j).jobSeq | none => 0
  let canc := v.cancelled || v.cause == 0x3D
  let flags := (if v.last then 1 else 0) + (if canc then 2 else 0) + (if v.cause ≠ 0 ∧ v.cause ≠ 0x3D then 4 else 0) +
    (if v.last ∧ v.trunc then 8 else 0)
  w32 job ++ bytesOf 2 (BitVec.ofNat 16 v.index) ++ [BitVec.ofNat 8 flags, v.cause.setWidth 8] ++ List.replicate 8 0

/-- The completion of a launch reaches the instructions that wait for it (R254). -/
def tellLauncher (s : State) (v : Level) : State :=
  let fin (s : State) (o : Option Nat) : State :=
    match o with
    | none => s
    | some oid => mapOp s oid (fun o => { o with engine := false, done := true, err := v.cause })
  fin s v.waiter

/-- The levels below a job that is complete are forgotten. -/
def forgetBelow : Nat → State → Nat → State
  | 0, s, _ => s
  | n + 1, s, lid => (childrenOf s lid).foldl (fun s k => { forgetBelow n s k with levels := tabDel (forgetBelow n s k).levels k }) s

/-- A level completes, exactly once. -/
def completeLevel (s : State) (lid : Nat) : State :=
  let v := levelOf s lid
  let v := if v.kind = .launch then setCause v v.drawErr else v
  let s := mapLevel s lid (fun _ => { v with done := true })
  let s := if v.kind = .phase ∨ v.kind = .job then foldContext s v.ctx else s
  let s := match v.kind, v.queue with
    | .phase, some q => mapQueue s q (fun x => { x with recs := x.recs ++ [phaseRecord s v] })
    | _, _ => s
  let s := match v.parent with
    | some p => mapLevel s p (fun u =>
        { u with count := if v.valid then u.count - 1 else u.count, after := if v.child then u.after else joinClock u.after v.after })
    | none => s
  let s := if v.kind = .launch then tellLauncher s v else s
  let s := if v.cause ≠ 0 ∧ v.kind = .launch then levelFailed s lid v.cause else s
  let s := if v.kind = .job then forgetBelow 4 s lid else s
  bump (markReady s)

/-- The units of a launch whose groups have ended and whose jobs have completed are complete. -/
def endEmptyUnits (s : State) (lid : Nat) : State :=
  (s.units.filter (fun e => e.2.lid == lid)).foldl (fun s e => endUnitIfEmpty s e.1) s

/-- LEVEL_COMPLETION: a level whose count has reached zero completes. -/
def execLevelCompletion (lid : Nat) (s : State) : Out :=
  let s := endEmptyUnits s lid
  match tabFind s.levels lid with
  | none => .next s
  | some v => .next (if levelReady s lid v then completeLevel s lid else s)

end Sys2Proof.Machine
end

