-- ==== Sys2Proof/Machine/Launch.lean ====
section
/-! DEFINITION. Sys2Proof/Machine/Launch.lean: launch, the validation of packets, completion counters (R254–R256, R321, R342, R374). -/

namespace Sys2Proof.Machine

open Sys2Proof

/-! ### launch (R254) -/

/-- Launches of a group whose flags are busy, and those in flight that took no flag (DESIGN CHOICE, log entry 106). -/
def launchesOut (s : State) (gid : Nat) : Nat :=
  (s.ops.filter (fun e => e.2.gid == gid && (match e.2.instr with | .launchAcc _ | .launchDone _ => true | _ => false))).length

/-- A child level, not validated yet, with the operation that waits for it; its accesses come after `clock`. -/
def childLevel (c : Go) (va : Double) (oid : Nat) (done : Bool) (depth : Nat) (clock : Tab Nat) : Level :=
  { kind := .launch, ctx := c.g.ctx, parent := some c.g.lid, child := true, depth := depth, va := va, user := !c.g.sys, before := clock,
    accOp := if done then none else some oid, waiter := if done then some oid else none }

/-- launch, as it issues or wakes: the group's earlier accesses are performed, then the Yard takes the packet; a seventeenth launch
sleeps until a flag of the others is released (R254, R269). -/
def launchNow (s : State) (i : Instr) (w : FmWord) (done : Bool) (c : Go) : Out :=
  if flagFull i c || accessPending s c.gid then hold s c
  else if launchesOut s c.gid ≥ 16 then sleepOn s i c .queue
  else
    let oid := s.nextId
    let clock := clockOf s c.gid
    let s := commitPoint (issueOp (newRelease (advanceRegion s c.g.uid) c.gid) i c { newOp i c with engine := true }) c.gid c.sp
    let lid := s.nextId
    .next { s with nextId := lid + 1,
                   levels := tabPut s.levels lid (childLevel c (wholeVa c w) oid done ((levelOf s c.g.lid).depth + 1) clock) }

def issueLaunch (i : Instr) (w : FmWord) (done : Bool) (s : State) : Out :=
  match pre i s with
  | .out o => o
  | .go c =>
    if flagFull i c then hold s c
    else if c.act = 0 then issueNone s i c
    else withWhole s c .read 128 (wholeVa c w) (fun _ => launchNow s i w done c)

/-- launch.acc. -/
def execLaunchAcc (w : FmWord) (s : State) : Out := issueLaunch (.launchAcc w) w false s
/-- launch.done. -/
def execLaunchDone (w : FmWord) (s : State) : Out := issueLaunch (.launchDone w) w true s

/-! ### Validation (R321, R374) -/

/-- The next launch identifier of a context, by the identifiers given so far: from 1, modulo 2³², skipping 0. -/
def nextIdent (c : Context) : Word := BitVec.ofNat 32 (c.launches % (2 ^ 32 - 1) + 1)

/-- The register that receives a child's identifier. -/
def launchD : Instr → BitVec 8
  | .launchAcc w | .launchDone w => w.d
  | _ => 0xFF

/-- The identifier under R14. -/
def identWrs (o : Op) (id : Word) : List RegWr :=
  let f := (launchD o.instr).toNat
  if f = 255 then []
  else (lanesOf o.act).map (fun l => ⟨f, l, id⟩)

/-- A waiting operation of a launch learns the identifier. -/
def giveIdent (s : State) (oid : Option Nat) (id : Word) : State :=
  match oid with
  | none => s
  | some k => mapOp s k (fun o => { o with wrs := identWrs o id })
def finishWait (s : State) (oid : Option Nat) (c : BitVec 6) : State :=
  match oid with
  | none => s
  | some k => bump (mapOp s k (fun o => { o with engine := false, done := true, err := c }))

/-- The channels a launch declares. -/
def channelsOf (p : Packet) : Tab Channel :=
  (List.range 32).filterMap (fun k =>
    let n := p.chans.getD k 0
    if n = 0 then none else some (k, { slots := n, closed := false }))

/-- The launch is not run: it completes with a cause. -/
def refuseLaunch (s : State) (lid : Nat) (c : BitVec 6) : State :=
  let v := levelOf s lid
  let s := mapLevel s lid (fun v => setCause { v with placed := v.pkt.nUnits, count := 0 } c)
  let s := finishWait (finishWait s v.accOp c) v.waiter c
  if v.child then bump { s with levels := tabDel s.levels lid } else levelFailed s lid c

/-- A member of a level is accepted, and counted in the level above; a graph is accepted with the first of its launches, a phase with the
first of its graphs (R368; DEDUCED, log entry 103). -/
def acceptMember : Nat → State → Nat → State
  | 0, s, _ => s
  | n + 1, s, lid => match (levelOf s lid).parent with
    | none => s
    | some k =>
      let s := mapLevel s k (fun u => { u with count := u.count + 1 })
      if (levelOf s k).kind = .launch ∨ (levelOf s k).valid then s
      else acceptMember n (mapLevel s k (fun u => { u with valid := true })) k

/-- The launch is accepted. -/
def acceptLaunch (s : State) (lid : Nat) (p : Packet) (rs : List (List Byte)) : State :=
  let v := levelOf s lid
  let id := nextIdent (ctxOf s v.ctx)
  let s := mapCtx s v.ctx (fun c => { c with launches := c.launches + 1 })
  let s := mapLevel s lid (fun v =>
    { v with valid := true, pkt := p, count := p.nUnits, ident := id, chans := channelsOf p, raw := rs.headD [] })
  let s := acceptMember 4 s lid
  bump (markReady (finishWait (giveIdent (giveIdent s v.accOp id) v.waiter id) v.accOp 0))

/-- The descriptor of the context says that it does not exist (R386: CTL.V). -/
def descAbsent (s : State) (ctx : Nat) : Bool := leNat (descBytes s ctx) 0x64 4 % 2 == 0

/-- Whether a packet's context and its ring let it run (R387, R465), then its own checks. -/
def validateLevel (s : State) (v : Level) : Valid :=
  let s := memTouch s (descAddr s v.ctx) 256
  match descCause s v.ctx with
  | some c =>
    .bad c (if c = 0x3E then mcheck s 3 (poisonAddr s (descAddr s v.ctx) 256) v.ctx 0 0
      else if descAbsent s v.ctx then mapCtx s v.ctx (fun c => { c with valid := false }) else s)
  | none =>
    let secure := leNat (descBytes s v.ctx) 0x64 4 / 2 % 2 == 1
    let s := mapCtx s v.ctx (fun c => descLoad c (descBytes s v.ctx))
    if v.copyErr ≠ 0 then .bad v.copyErr s
    else if v.depth > 8 then .bad 0x15#6 s
    else if !v.child && secure && !v.ring then .bad 0x13#6 s
    else
      let w := device v.ctx v.user secure
      if v.child then yardThen (yardRead s w v.va 128) (fun b s => validate s w true b)
      else validate s w false v.raw

/-- An earlier packet of the same queue has been copied and not accepted or refused yet: packets are accepted in ring order (R422). -/
def earlierPacket (s : State) (lid : Nat) (v : Level) : Bool :=
  !v.child && s.levels.any (fun e => decide (e.1 < lid) && e.2.kind == .launch && !e.2.child && !e.2.valid && e.2.cause == 0 &&
    !e.2.done && queueNo 16 s e.1 == queueNo 16 s lid)

/-- PACKET_VALIDATION: the Yard copies and checks a launch's packet and what it names. -/
def execPacketValidation (lid : Nat) (s : State) : Out :=
  match tabFind s.levels lid with
  | none => .next s
  | some v =>
    if v.kind ≠ .launch ∨ v.valid ∨ v.cause ≠ 0 ∨ v.done then .next s
    else if v.child && (match v.parent with | some p => (levelOf s p).done || (levelOf s p).cancelled | none => false) then
      .next (refuseLaunch s lid 0x3D)
    else if earlierPacket s lid v then .next s
    else match validateLevel s v with
      | .bad c s => .next (refuseLaunch s lid c)
      | .absent va s => .next (requestPage s v.ctx va .read true)
      | .ok p rs s => .next (acceptLaunch s lid p rs)

/-! ### cnt (R255, R256) -/

/-- The level a LEVEL number names for a group: 1 launch, 2 graph, 3 phase, 4 job. A child belongs to its parent's graph. -/
def ownLaunch : Nat → State → Nat → Nat
  | 0, _, lid => lid
  | n + 1, s, lid =>
    let v := levelOf s lid
    match v.child, v.parent with
    | true, some p => ownLaunch n s p
    | _, _ => lid
def upFrom : Nat → State → Nat → Option Nat
  | 0, _, lid => some lid
  | n + 1, s, lid => match (levelOf s lid).parent with
    | none => none
    | some p => upFrom n s p
def namedLevel (s : State) (g : Group) (lv : Nat) : Option Nat :=
  if lv = 1 then some g.lid else upFrom (lv - 1) s (ownLaunch 9 s g.lid)

/-- The child that an identifier names (R255). -/
def childNamed (s : State) (lid : Nat) (id : Word) : Option Nat :=
  (tabFirst s.levels (fun _ v => v.child && v.valid && v.parent == some lid && v.ident == id)).map (·.1)

/-- A counter: the members not complete, and bit 31 once cancelled. -/
def counterWord (n : Nat) (cancelled : Bool) : Word := BitVec.ofNat 32 (n % 2 ^ 31 + if cancelled then 2 ^ 31 else 0)
def levelCounter (s : State) (lid : Nat) : Word := counterWord (levelOf s lid).count (levelOf s lid).cancelled

/-- The child identifier of the lowest active lane. -/
def childId (c : Go) (w : FiWord) : Word := match lowBit c.act with | some l => srcW c.g w.a l | none => 0

/-- cnt.rd. -/
def execCntRd (w : FiWord) (s : State) : Out :=
  match pre (.cntRd w) s with
  | .out o => o
  | .go c =>
    let put (x : Word) : Out := .next (retire s c (dstSet c.g (.reg w.d) c.act (fun _ => x.setWidth 64)))
    if c.act = 0 then .next (retireSame s c)
    else if w.level = 5 then
      match childNamed s c.g.lid (childId c w) with
      | none => trapAt s c 0x16#6
      | some k => put (levelCounter s k)
    else if w.level = 0 then put (counterWord (unitOf s c.g.uid).left (unitOf s c.g.uid).cancelled)
    else match namedLevel s c.g w.level with
      | none => put 0
      | some k => put (levelCounter s k)

/-- The group has seen the completion of a child: it acquires, at device scope, every access of the child's groups (R256, R310). -/
def childWaited (s : State) (c : Go) (k : Nat) : State := learnNow (advanceRegion s c.g.uid) c.gid (levelOf s k).after

/-- cnt.wait.child: until the child's count is zero; then its accesses are acquired at device scope. -/
def execCntWait (w : FiWord) (s : State) : Out :=
  match pre (.cntWait w) s with
  | .out o => o
  | .go c =>
    if c.act = 0 then .next (retireSame s c)
    else match childNamed s c.g.lid (childId c w) with
    | none => trapAt s c 0x16#6
    | some k =>
      if (levelOf s k).done then .next (retireSame (childWaited s c k) c) else sleepOn s (.cntWait w) c (.count k)

/-- cnt.cancel: the region closes; the level and what it contains end (R376). -/
def execCntCancel (w : FiWord) (s : State) : Out :=
  match pre (.cntCancel w) s with
  | .out o => o
  | .go c =>
    if c.act = 0 then .next (retireSame s c)
    else if unchecked s c.gid then hold s c
    else if w.level = 5 then
      match childNamed s c.g.lid (childId c w) with
      | none => trapAt s c 0x16#6
      | some k => .next (cancelLevel (retireClose s c) k 0x3D)
    else if w.level = 0 then
      .next (cancelUnit (mapUnit (retireClose s c) c.g.uid (fun u => { u with cancelled := true })) c.g.uid)
    else match namedLevel s c.g w.level with
      | none => .next (retireClose s c)
      | some k => .next (cancelLevel (retireClose s c) k 0x3D)

end Sys2Proof.Machine
end

