-- ==== Sys2Proof/Machine/Placement.lean ====
section
/-! DEFINITION. Sys2Proof/Machine/Placement.lean: what units hold of a core, readiness and order of launches, placement of units, the start
of groups, the dispatch decision, role hints, the energy budget (R258, R259, R321, R370, R378–R385, R416, R455). -/

namespace Sys2Proof.Machine

open Sys2Proof

/-! ### What a core has free (R187, R258, R273) -/

/-- What one resident unit holds. -/
def holds (u : UnitS) : Room :=
  ⟨[0, 1, 2, 3].map (fun q => (u.rslots.filter (fun k => k / 16 == q)).length), u.granules, u.oslots.length, u.aslots.length,
   roundUp u.scratchSize 128, roundUp u.vaultSize 64⟩

/-- The units resident on a core. -/
def unitsOn (s : State) (core : Nat) : Tab UnitS := s.units.filter (fun e => e.2.resident && e.2.core == core)

/-- The room that a core has free; a resident slot is free that no group holds and no unit has reserved. -/
def roomOf (s : State) (core : Nat) : Room :=
  { (unitsOn s core).foldl (fun r e => roomTake r (holds e.2)) emptyCore with
    slots := [0, 1, 2, 3].map (fun q => ((List.range 16).filter (fun k => !slotTaken s 0 core (16 * q + k))).length) }

/-- Free granules of a core. -/
def freeGrans (s : State) (core : Nat) : Nat := (roomOf s core).grans.foldl (· + ·) 0

/-- The first `n` numbers below a bound that are not taken. -/
def takeFirst (taken : Nat → Bool) (bound n : Nat) : List Nat := ((List.range bound).filter (fun k => !taken k)).take n

def opTaken (s : State) (core : Nat) (acc : Bool) (k : Nat) : Bool :=
  (unitsOn s core).any (fun e => (if acc then e.2.aslots else e.2.oslots).contains k)

/-- Resident slots for groups 0 … n − 1, group i in quarter (i + q0) mod 4, lowest free first (R258). -/
def pickSlots (s : State) (core q0 : Nat) : Nat → Nat → List Nat → List Nat
  | 0, _, acc => acc
  | n + 1, i, acc =>
    let q := (i + q0) % 4
    let k := ((List.range 16).map (fun k => 16 * q + k)).find? (fun k => !acc.contains k && !slotTaken s 0 core k)
    pickSlots s core q0 n (i + 1) (acc ++ [k.getD 0])

/-! ### Age of launches (R379) -/

/-- A launch is older than another (R379). -/
def older (s : State) (a b : Nat) : Bool :=
  let ra := ((levelOf s a).readyAt).getD 0
  let rb := ((levelOf s b).readyAt).getD 0
  let qa := queueNo 16 s a
  let qb := queueNo 16 s b
  decide (ra < rb) || (ra == rb && (decide (qa < qb) || (qa == qb && decide (a < b))))

/-! ### Placing one unit (R258, R259, R321, R381) -/

/-- The map entry of a unit. -/
def entryOf_ (v : Level) (u : Nat) : BitVec 16 := if v.pkt.map.isEmpty then 0xC000#16 else v.pkt.map.getD u 0xC000#16

/-- The quarters q0 under which the unit fits on a core. -/
def fitsAt (s : State) (p : Packet) (core : Nat) : List Nat := [0, 1, 2, 3].filter (fun q0 => roomFits (roomOf s core) (needOf p q0))

/-- The logical core is being remapped or has failed, or a change of its world is due: nothing is placed there (R453, R467). -/
def coreClosed (s : State) (core : Nat) : Bool := (coreOf s core).failed || (tabFind s.cworld core).isSome

/-- Among cores that can take the unit, the one with the most free granules, lowest first (R378). -/
def bestCore (s : State) (p : Packet) (cs : List Nat) : Option Nat :=
  (cs.filter (fun c => !coreClosed s c && !(fitsAt s p c).isEmpty)).foldl
    (fun m c => match m with
      | none => some c
      | some b => if freeGrans s b < freeGrans s c then some c else some b) none

/-- The next placement number of a context: from 1, not 0, held by no unit, in no record (R321). -/
def tagUsed (s : State) (t : Word) : Bool :=
  s.tags.any (fun e => e.2 == t) || s.races.any (fun e =>
    [e.2.wr, e.2.rd0, e.2.rd1].any (fun x => match x with | some y => y.who.tag == t | none => false))
def nextTag (s : State) (ctx : Nat) : Nat → Nat → Nat
  | 0, k => k
  | n + 1, k =>
    let k := (k + 1) % 2 ^ 24
    if k = 0 ∨ tagUsed s (BitVec.ofNat 32 (ctx * 2 ^ 24 + k)) then nextTag s ctx n k else k

/-- Give a unit a tag; its first region is 1. -/
def giveTag (s : State) (uid ctx : Nat) : State :=
  let k := nextTag s ctx (s.tags.length + 3 * s.races.length + 2) (ctxOf s ctx).placements
  mapCtx { s with tags := tabPut s.tags uid (BitVec.ofNat 32 (ctx * 2 ^ 24 + k)), regnum := tabDel s.regnum uid } ctx
    (fun c => { c with placements := k })

/-- The start hint of group i (R381). -/
def startHint (p : Packet) (i : Nat) : Option (Nat × BitVec 4) :=
  let used := (List.range 16).filter (fun n => (p.stages.getD n {}).used)
  if used.isEmpty then none
  else
    let n := used.getD (i % used.length) 0
    (lowBit (p.stages.getD n {}).roles).map (fun r => (n, BitVec.ofNat 4 r))

/-- Group i of a unit as it starts (R19, R259). -/
def newGroup (v : Level) (secure : Bool) (uid lid : Nat) (u : UnitS) (i slot : Nat) : Group :=
  let p := v.pkt
  let m : Mask := if i + 1 = p.groups ∧ u.unit.toNat + 1 = p.nUnits then p.lastMask else 0xFFFFFFFF
  let g : Group :=
    { uid := uid, lid := lid, ctx := v.ctx, index := i, unit := u.unit, core := u.core, quarter := slot / 16, slot := slot,
      secure := secure, live := m, w := p.regs,
      s := tabSet 0 (tabSet 0 [] 0 (bits p.args 0 32)) 1 (bits p.args 32 32),
      splits := [(0, { pc := p.code, mask := m, fmt := p.fmt })] }
  let g := match startHint p i with
    | some (n, r) => { g with hintV := true, hint := r, hintFor := n }
    | none => g
  { g with ckpt := ckptOf g 0 }

/-- Start every group of a unit. -/
def startGroups (s : State) (uid lid : Nat) (u : UnitS) : List Nat → Nat → State
  | [], _ => s
  | k :: r, i =>
    let gid := s.nextId
    let g := newGroup (levelOf s lid) (ctxOf s u.ctx).secure uid lid u i k
    startGroups (learn { setGrp s gid g with nextId := gid + 1 } gid gid (levelOf s lid).before) uid lid u r (i + 1)

/-- What a unit reserves on a core: its slots and pools. -/
def reserve (s : State) (p : Packet) (core q0 : Nat) (u : UnitS) : UnitS :=
  let no := 2 * p.groups * p.hcount
  let na := 2 * p.groups * p.acount
  let os := takeFirst (opTaken s core false) 256 no
  let as := takeFirst (opTaken s core true) 2048 na
  { u with core := core, resident := true, q0 := q0, rslots := pickSlots s core q0 p.groups 0 [], oslots := os, aslots := as, opool := os,
           apool := as, granules := [0, 1, 2, 3].map (fun q => groupsIn p.groups q0 q * p.regs + p.claimRes), eclass := p.eclass }

/-- A unit starts on a core (R258): it and its groups, all at once. -/
def startUnit (s : State) (lid uid : Nat) (unit : Word) (core q0 : Nat) : State :=
  let v := levelOf s lid
  let p := v.pkt
  let u := reserve s p core q0
    { lid := lid, ctx := v.ctx, unit := unit, nGroups := p.groups, left := p.groups, tag := s.nextId, scratchSize := p.scratch,
      vaultSize := p.vault, olimit := p.groups * p.hcount, alimit := p.groups * p.acount }
  let s := giveTag { s with units := tabPut s.units uid u, nextId := s.nextId + 1 } uid v.ctx
  startGroups s uid lid u u.rslots 0

/-- The draw of a launch starts with its unit 0, on that core's cluster (R342, R348). -/
def startDraw (s : State) (lid uid core : Nat) : State :=
  let v := levelOf s lid
  let r := v.raw
  let d : Draw :=
    { job := 0, cluster := core / 48, secure := (ctxOf s v.ctx).secure, base := BitVec.ofNat 64 (leNat r 0 8), wv := leNat r 8 2,
      hv := leNat r 10 2, ls := leNat r 12 1 % 4, rq := leNat r 13 1, aq := leNat r 14 1, x0 := leNat r 16 2, y0 := leNat r 18 2,
      x1 := leNat r 20 2, y1 := leNat r 22 2, drawid := BitVec.ofNat 32 (leNat r 24 4) }
  let (jid, s) := acceptJob s
    { kind := .draw lid, ctx := v.ctx, lid := lid, uid := uid, core := core, readDone := true,
      writes := [⟨leNat r 0 8, 16 * 2 ^ d.ls * 256 * ((d.wv + 15) / 16) * ((d.hv + 15) / 16), none⟩] }
  { s with draws := tabPut s.draws lid { d with job := jid } }

/-! ### A saved unit returns (R415, R416) -/

/-- A barrier as the unit frame holds it, over the one the device remembers. -/
def barrierOf (b : Barrier) (d : List Byte) : Barrier :=
  let y := leNat d 6 1
  { b with
    part := leNat d 4 1, arrived := BitVec.ofNat 32 (leNat d 0 4), count := leNat d 5 1,
    seq := if b.seq % 2 = y % 2 then b.seq else b.seq + 1, rowMode := ofBit y 1, armed := ofBit y 2, complete := ofBit y 3,
    rows := leNat d 8 2, landed := leNat d 10 2 }

/-- Address of unit frame k (R414). -/
def unitFrameAddr (c : Context) (k : Nat) : Double := c.ufbase + BitVec.ofNat 64 (0x480000 * k)

/-- Read consecutive bytes of a frame of any length, page by page; an unreadable page ends it. -/
def frameRead (w : Who) : Nat → State → Double → Nat → Dev (List Byte × State)
  | 0, s, _, _ => .ok ([], s)
  | f + 1, s, va, n =>
    if n ≤ 65536 then vaRead s w va n
    else match vaRead s w va 65536 with
    | .error c => .error c
    | .ok a => match frameRead w f a.2 (va + 0x10000) (n - 65536) with
      | .error c => .error c
      | .ok b => .ok (a.1 ++ b.1, b.2)
def frameWrite (w : Who) : Nat → State → Double → List Byte → Dev State
  | 0, s, _, _ => .ok s
  | f + 1, s, va, bs =>
    match vaWrite s w va (bs.take 65536) with
    | .error c => .error c
    | .ok s => if bs.length ≤ 65536 then .ok s else frameWrite w f s (va + 0x10000) (bs.drop 65536)

/-- The unit's barriers and allocations from its frame. -/
def unitFromFrame (u : UnitS) (head scr vlt : List Byte) : UnitS :=
  { u with barriers := (List.range 16).map (fun k => (k, barrierOf (barOf u k) ((head.drop (16 * k)).take 16))),
           scratch := (List.range scr.length).map (fun i => (i, scr.getD i 0)),
           vault := (List.range vlt.length).map (fun i => (i, vlt.getD i 0)) }

/-- A group of a unit that is placed again waits in its frame to be restored, at its place on the new core. -/
def regroup (u : UnitS) (core : Nat) (g : Group) : Group :=
  let st := match g.st with
    | .saved k => .swapped k
    | x => x
  let k := u.rslots.getD g.index 0
  { g with st := st, core := core, quarter := k / 16, slot := k }

/-- A saved unit is placed; a frame that cannot be read halts its groups (R405). -/
def restoreUnit (s : State) (uid core q0 : Nat) : State :=
  let u := unitOf s uid
  let c := ctxOf s u.ctx
  let w := device u.ctx false c.secure
  let base := unitFrameAddr c u.frame
  let u' := reserve s (levelOf s u.lid).pkt core q0 u
  let place (s : State) (u : UnitS) : State :=
    let s := mapCtx s u.ctx (fun c => { c with uframes := c.uframes.filter (fun k => k != u.frame) })
    let s := giveTag { s with units := tabPut s.units uid u } uid u.ctx
    { s with groups := s.groups.map (fun e => if e.2.uid = uid then (e.1, regroup u core e.2) else e) }
  let halt (s : State) (e : BitVec 6) : State :=
    (s.groups.filter (fun x => x.2.uid == uid)).foldl (fun s x => haltGroup s x.1 e) (place s u')
  match vaRead s w base 0x188 with
  | .error (e, s) => halt s e
  | .ok h => match frameRead w 8 h.2 (base + 0x1000) u.scratchSize with
    | .error (e, s) => halt s e
    | .ok a => match frameRead w 80 a.2 (base + 0x41000) u.vaultSize with
      | .error (e, s) => halt s e
      | .ok b => place b.2 (unitFromFrame u' h.1 a.1 b.1)

/-! ### The next unit of a launch -/

/-- The legal cores of a unit of a launch, online and of its world (R373, R455); a TEAMOP unit needs its whole team (R455). -/
def legalFor (s : State) (v : Level) (unit : Nat) : List Nat :=
  (legalCores s (ctxOf s v.ctx).secure (entryOf_ v unit)).filter (fun c =>
    !v.pkt.teamop || [0, 1, 2, 3].all (fun k => !(coreOf s (c / 4 * 4 + k)).failed))

/-- The unit that a launch would place next: its number, and its record when it waits to be placed again. -/
def nextUnit (s : State) (lid : Nat) (v : Level) : Nat × Option Nat :=
  match waitingUnit s lid with
  | some uid => ((unitOf s uid).unit.toNat, some uid)
  | none => (v.placed, none)

/-- Put one unit on a core. -/
def putUnit (s : State) (lid unit : Nat) (old : Option Nat) (core : Nat) : State :=
  let qs := fitsAt s (levelOf s lid).pkt core
  let (k, s) := takeFree s
  let q0 := qs.getD (Config.choice k % max qs.length 1) 0
  match old with
  | some uid =>
    if (unitOf s uid).rerun then startUnit { s with units := tabDel s.units uid } lid uid (BitVec.ofNat 32 unit) core q0
    else restoreUnit s uid core q0
  | none =>
    let uid := s.nextId
    let s := startUnit { s with nextId := uid + 1 } lid uid (BitVec.ofNat 32 unit) core q0
    let s := mapLevel s lid (fun v => { v with placed := v.placed + 1 })
    if unit = 0 ∧ (levelOf s lid).raw ≠ [] then startDraw s lid uid core else s

/-- A unit without an online legal core completes with MACHINE_CHECK (R455). -/
def dropUnit (s : State) (lid : Nat) (old : Option Nat) : State :=
  let s := mapLevel s lid (fun v => setCause v 0x3E#6)
  match old with
  | some uid => cancelUnit s uid
  | none => mapLevel s lid (fun v => { v with placed := v.placed + 1, count := v.count - 1 })

/-- Place the rest of a gang: every unit, or none, on cores that may be used (R378, R379). -/
def placeGang (lid : Nat) (allow : Nat → Bool) : Nat → State → Option State
  | 0, s => some s
  | n + 1, s =>
    let v := levelOf s lid
    let (unit, old) := nextUnit s lid v
    if v.placed ≥ v.pkt.nUnits ∧ old.isNone then some s
    else
      let cs := legalFor s v unit
      if cs.isEmpty then placeGang lid allow n (dropUnit s lid old)
      else match bestCore s v.pkt (cs.filter allow) with
      | none => none
      | some c => placeGang lid allow n (putUnit s lid unit old c)

/-- What the launch's next placement in a cluster would give; `allow` says which cores it may use. While its context drains or is off no
unit is placed (R413). -/
def tryPlace (s : State) (lid cluster : Nat) (allow : Nat → Bool) : Option State :=
  let v := levelOf s lid
  let (unit, old) := nextUnit s lid v
  let cs := legalFor s v unit
  if (ctxOf s v.ctx).st ≠ .running then none
  else if cs.isEmpty then some (dropUnit s lid old)
  else match bestCore s v.pkt (cs.filter (fun c => c / 48 == cluster && allow c)) with
  | none => none
  | some c =>
    let s := putUnit s lid unit old c
    if v.pkt.gang then placeGang lid allow v.pkt.nUnits s else some s

/-! ### The budget (R384) -/

/-- Every group of the unit that has not ended is wholly asleep; a unit with no group left, whose engine jobs still run, counts as asleep,
and is not charged (DESIGN CHOICE, log entry 109). -/
def groupAsleep (g : Group) : Bool :=
  g.st == .running && g.splits.all (fun e => match e.2.st with | .asleep _ => true | _ => false)
def unitAsleep (s : State) (uid : Nat) : Bool := s.groups.all (fun e => e.2.uid != uid || groupAsleep e.2)

/-- Committed power in quarter watts: a class c charges 2^c of them. -/
def commitPower (s : State) : Nat :=
  s.units.foldl (fun n e => if e.2.resident && !unitAsleep s e.1 then n + 2 ^ e.2.eclass else n) 0

/-- The units that a launch places at once: all that wait, of a gang; else its next. -/
def dueUnits (s : State) (lid : Nat) (v : Level) : List Nat :=
  if v.pkt.gang then
    (s.units.filter (fun e => e.2.lid == lid && !e.2.resident)).map (fun e => e.2.unit.toNat) ++
      (List.range v.pkt.nUnits).filter (fun u => decide (v.placed ≤ u))
  else [(nextUnit s lid v).1]

/-- The launch's next placement fits the remaining budget. -/
def fits (s : State) (lid : Nat) : Bool :=
  let p := (levelOf s lid).pkt
  decide (commitPower s + (if p.gang then p.nUnits else 1) * 2 ^ p.eclass ≤ 4 * s.allow)

/-! ### DISPATCH_DECISION (R379) -/

def readyLaunches (s : State) : List Nat := (s.levels.filter (fun e => launchReady s e.1 e.2)).map (·.1)

/-- A launch can be placed somewhere. -/
def placeable (s : State) (lid : Nat) : Bool := [0, 1, 2, 3].any (fun k => (tryPlace s lid k (fun _ => true)).isSome)

/-- Launches with a PASS count of 16 or more and no free legal core keep others off the legal cores of the units they place next. -/
def starving (s : State) : List Nat :=
  (readyLaunches s).filter (fun l =>
    decide ((levelOf s l).pass ≥ 16) && (ctxOf s (levelOf s l).ctx).st == .running && !placeable s l)
def allowedFor (s : State) (st : List Nat) (lid core : Nat) : Bool :=
  !(st.any (fun l => l != lid && (dueUnits s l (levelOf s l)).any (fun u => (legalFor s (levelOf s l) u).contains core)))

/-- The candidates of a cluster, with what each placement gives. -/
def candidates (s : State) (cluster : Nat) : List (Nat × State) :=
  let st := starving s
  (readyLaunches s).filterMap (fun l => (tryPlace s l cluster (allowedFor s st l)).map (fun s' => (l, s')))

/-- The best of a list under an order. -/
def bestBy (lt : Nat → Nat → Bool) (cs : List (Nat × State)) : Option (Nat × State) :=
  cs.foldl (fun m c => match m with
    | none => some c
    | some b => if lt c.1 b.1 then some c else some b) none

/-- The candidate that a decision takes. -/
def decision (s : State) (cs : List (Nat × State)) : Option (Nat × State) :=
  match bestBy (older s) (cs.filter (fun c => decide ((levelOf s c.1).pass ≥ 16))) with
  | some c => some c
  | none =>
    let pr (l : Nat) : Nat := (levelOf s l).pkt.prio
    bestBy (fun a b => decide (pr b < pr a) || (pr a == pr b && older s a b)) (cs.filter (fun c => fits s c.1))

/-- A unit is placed between two states. -/
def placesUnit (s t : State) : Bool := t.units.any (fun e => e.2.resident && !(tabFind s.units e.1).any (·.resident))

/-- PASS counts after a decision that has placed a unit: the placed launch's returns to 0, every other candidate's rises. -/
def passAfter (s : State) (cs : List Nat) (lid : Nat) : State :=
  { s with levels := s.levels.map (fun e =>
      if e.1 = lid then (e.1, { e.2 with pass := 0 })
      else if cs.contains e.1 then (e.1, { e.2 with pass := e.2.pass + 1 }) else e) }

/-- DISPATCH_DECISION: the dispatcher of a cluster places one unit, or one gang; a unit without a legal core completes instead (R455),
which is no placement. -/
def execDispatchDecision (cluster : Nat) (s : State) : Out :=
  let cs := candidates s cluster
  match decision s cs with
  | none => .next s
  | some (lid, s') =>
    .next (bump (if placesUnit s s' then passAfter s' ((cs.filter (fun c => placesUnit s c.2)).map (·.1)) lid else s'))

/-! ### ROLE_HINT_EVALUATION (R351, R381) -/

/-- Groups of a unit, or of the launch, asleep in send on a channel; groups of the launch asleep in recv on it. -/
def sendSleepers (s : State) (p : Group → Bool) (k : Nat) : Nat :=
  (s.groups.filter (fun e => p e.2 && e.2.splits.any (fun t => t.2.st == .asleep (.room k)))).length
def recvSleepers (s : State) (lid k : Nat) : Nat :=
  (s.groups.filter (fun e => e.2.lid == lid && e.2.splits.any (fun t => match t.2.st with
    | .asleep (.recv c _) => c == k
    | _ => false))).length
/-- The Rasteriser holds a task that a full attribute queue does not take: a waiting producer (R346). -/
def rasterWaits (s : State) (lid k : Nat) : Nat :=
  match tabFind s.draws lid with
  | some d => if d.aq = k ∧ !d.tasks.isEmpty then 1 else 0
  | none => 0

def backPressured (s : State) (lid : Nat) (t : Stage) : Bool :=
  let ch := chanOf s lid t.chan
  t.used && decide (ch.queue.length ≥ ch.slots) &&
    decide (sendSleepers s (fun g => g.lid == lid) t.chan + rasterWaits s lid t.chan ≥ 1)
def starved (s : State) (lid : Nat) (t : Stage) : Bool :=
  let ch := chanOf s lid t.chan
  t.used && ch.queue.isEmpty && !ch.closed && decide (recvSleepers s lid t.chan ≥ 1)

/-- Withdraw the hints that no longer have a cause. -/
def withdrawHint (s : State) (g : Group) : Group :=
  if g.hintV && (!backPressured s g.lid ((pktOf s g).stages.getD g.hintFor {}) || g.role != g.hintRole) then { g with hintV := false } else g

/-- The stage that a unit acts on: back-pressured, most of its groups asleep in send, lowest index. -/
def hintStage (s : State) (uid lid : Nat) (p : Packet) : Option Nat :=
  let sleepers (n : Nat) : Nat :=
    sendSleepers s (fun g => g.uid == uid) (p.stages.getD n {}).chan + rasterWaits s lid (p.stages.getD n {}).chan
  ((List.range 16).filter (fun n => backPressured s lid (p.stages.getD n {}))).foldl
    (fun m n => match m with
      | none => some n
      | some b => if sleepers b < sleepers n then some n else some b) none

/-- A group may take a hint for a stage: awake, its role outside the stage's, and of a starved stage or of none. -/
def mayHint (s : State) (p : Packet) (t : Stage) (g : Group) : Bool :=
  g.st == .running && !groupAsleep g && !bit t.roles g.role.toNat &&
  (p.stages.any (fun x => starved s g.lid x && bit x.roles g.role.toNat) ||
   !(p.stages.any (fun x => x.used && bit x.roles g.role.toNat)))

/-- Raise one hint in a unit. -/
def raiseHint (s : State) (uid : Nat) (u : UnitS) : State :=
  let p := (levelOf s u.lid).pkt
  match hintStage s uid u.lid p with
  | none => s
  | some n =>
    let t := p.stages.getD n {}
    let gs := s.groups.filter (fun e => e.2.uid == uid && mayHint s p t e.2)
    match gs.foldl (fun m e => match m with
        | none => some e
        | some b => if e.2.index < b.2.index then some e else some b) none, lowBit t.roles with
    | some e, some r => setGrp s e.1 { e.2 with hintV := true, hint := BitVec.ofNat 4 r, hintFor := n, hintRole := e.2.role }
    | _, _ => s

/-- ROLE_HINT_EVALUATION: withdraw, then raise one hint per resident unit. -/
def execRoleHintEvaluation (s : State) : Out :=
  let s := { s with groups := s.groups.map (fun e => (e.1, withdrawHint s e.2)) }
  let us : Tab UnitS := s.units.filter (fun e => e.2.resident)
  .next (us.foldl (fun s e => raiseHint s e.1 e.2) s)

/-! ### BUDGET_REFRESH (R382, R383, R385) -/

/-- LIMIT as it acts. -/
def powerLimit (s : State) : Nat := min 3000 (max 1000 ((hregGet s 0x42000).toNat % 4096))

/-- THERM from the hottest sensor, in sixteenths of a degree. -/
def thermAt (t16 : Int) : Nat := if t16 ≤ 95 * 16 then 3000 else max 1000 (3000 - 200 * ((t16 - 95 * 16 + 15) / 16).toNat)

/-- THERMSTAT at a refresh: PEAK, TMAX rounded up, HOT (R476). -/
def setThermstat (s : State) (t16 : Int) (hot : Nat) : State :=
  let t := ((t16 + 15) / 16).toNat % 256
  let peak := max t ((hregGet s 0x62000).toNat / 65536 % 256)
  hregSet s 0x62000 (BitVec.ofNat 64 (peak * 65536 + t * 256 + hot % 32))

/-- The readings of sensors 0–19, then those from 20 on. -/
def sensors (dies rest : List (Option Int)) : List (Option Int) := (List.range 20).map (fun k => dies.getD k none) ++ rest
/-- The reading of a sensor in sixteenths of a degree; one that reports none counts as 110 °C (R476). -/
def readingOf (temps : List (Option Int)) (k : Nat) : Int := (temps.getD k none).getD 1760
/-- Tmax and the sensor that gives it, the lowest of several, among the 32 (R476). -/
def hottest (temps : List (Option Int)) : Int × Nat :=
  (List.range 32).foldl (fun m k => if m.1 < readingOf temps k then (readingOf temps k, k) else m) (readingOf temps 0, 0)

/-- A refresh of the limits below 110 °C: from Tmax, its sensor and the estimated draw in W. -/
def refreshLimits (t16 : Int) (hot draw : Nat) (s : State) : State :=
  let s := setThermstat s t16 hot
  let therm := thermAt t16
  let allow := min (powerLimit s) therm - 900
  let level := if draw > allow then min (s.level + 1) 14 else if 8 * draw < 7 * allow then s.level - 1 else s.level
  let s := { s with therm := therm, allow := allow, level := level }
  let up (e : Nat × Level) : Nat × Level :=
    if launchReady s e.1 e.2 && !fits s e.1 && placeable s e.1 then (e.1, { e.2 with pass := e.2.pass + 1 }) else e
  { s with levels := s.levels.map up }

end Sys2Proof.Machine
end

