-- ==== Sys2Proof/Machine/Sched.lean ====
section
/-! DEFINITION. Sys2Proof/Machine/Sched.lean: what happens at a word's boundary before it acts (fetch, the traps that wait for a boundary,
the join check, breakpoints), the suspension of a sparse mma, the choice of group and split, the waking of sleepers
(R211, R252, R266, R269–R272, R408, R411, R457). -/

namespace Sys2Proof.Machine

open Sys2Proof

/-! ### A sparse mma suspends (R211) -/

/-- The bitmaps of a sparse mma. -/
def sparseOf : Instr → Option (FtWord × Option Nat × Option Nat)
  | .mmaSa w => some (w, some w.v8.toNat, none)
  | .mmaSb w => some (w, none, some w.v8.toNat)
  | .mmaSab w => some (w, some w.v8.toNat, some (w.v8.toNat + 1))
  | _ => none

/-- The chunks at which an expansion may stop: above SPSTEP, beginning a group of 8 K. -/
def stopChunks (fm : Word) (sp : Nat) : List Nat :=
  (List.range 32).filter (fun c => decide (c > sp) && c * (512 / matWidth (fmtA fm) / 32) % 8 == 0)

/-- Every step below chunk `n` is applied to the provisional slot; SPSTEP holds `n`. -/
def partMma (s : State) (c : Go) (w : FtWord) (ra rb : Option Nat) (n : Nat) : Option State :=
  let fm := c.t.fmt
  let d := w.hd.toNat
  let a := matOpOf s c.g.core (slotOf c.g w.ha.toNat) (fmtA fm) (fmtBsm fm == 1)
  let b := matOpOf s c.g.core (slotOf c.g w.hb.toNat) (fmtB fm) (fmtBsm fm == 1)
  match writeSlot s c.gid d true with
  | none => none
  | some (k, s) =>
    let on (i j e : Nat) : Bool :=
      bitmapOn c (fmtA fm) c.g.spstep.toNat ra rb i j e && decide (e / (512 / matWidth (fmtA fm) / 32) < n)
    let r := matProduct (fmtAcc fm == 1) (fmtRnd fm) c.act (fun i j => accElem s c.g.core k i j) (mmaTerms a b on)
    some (mapGrp (putRows s c.g.core k r.1) c.gid (fun g => { stageCut g r.2 with spstep := BitVec.ofNat 16 n, cut := g.cut ||| r.2 }))

/-- A sparse mma that would issue now: its checks and the scoreboard pass. It is cut only where no other work of the open region is in
flight that R401 would abandon, for the resumption at the mma would not issue it again (DESIGN CHOICE, log entry 55). -/
def mmaMaySuspend (s : State) (c : Go) (i : Instr) (w : FtWord) : Bool :=
  let (d, a, b) := (w.hd.toNat, w.ha.toNat, w.hb.toNat)
  (opsOf s c.gid).all (fun e => decide (e.2.epoch < c.g.epoch) || continues e.2) && !flagFull i c && c.act != 0 && (namesBad s c.g [(d, some true), (a, some false), (b, some false)]).isNone &&
  !matFmtBad c.t.fmt && !namesBusy s c.gid [a, b] [d] chainsFwd && !closerPending s c.gid &&
  !(slotPoison s c.g d || slotPoison s c.g a || slotPoison s c.g b)

/-- STOP_REQUEST at a suspended mma: the region's provisional names stay as they are, the frame resumes at the mma. -/
def suspendMma (s : State) (c : Go) : State :=
  match grp s c.gid with
  | none => s
  | some g =>
    let held := allNames.filter (fun i => (nameOf g i).pslot.isSome)
    takeTrap (setGrp s c.gid { g with kept := some (g.ckpt, held, g.staged), ckpt := ckptOf g c.sp }) c.gid (infoAt 0x35#6 c.t c.act)

/-- The stop takes the group, in a sparse mma when the device began it and the word can be cut. -/
def stopTrap (s : State) (gid sp : Nat) (g : Group) (t : Split) : State :=
  let s0 := s
  let s := setGrp s gid { g with stopDue := false }
  let plain : State := trapWait s0 s gid sp (infoAt 0x35#6 t t.mask)
  let (f, s) := takeFree s
  match fetch s g t.pc with
  | .word x => match decodeWord x with
    | .ok i => match sparseOf i, pre i { s with cur := some (gid, sp) } with
      | some (w, ra, rb), .go c =>
        let ks := stopChunks t.fmt g.spstep.toNat
        if Config.chance f && mmaMaySuspend s c i w && !ks.isEmpty then
          let n := ks.getD (Config.choice f % ks.length) 8
          match partMma s c w ra rb n with
          | some s' => suspendMma s' c
          | none => plain
        else plain
      | _, _ => plain
    | .error _ => plain
  | _ => plain

/-! ### The boundary before a word -/

/-- The check of the word at a split's innermost join address, which must be a clause header whose first word is join (R266): `none`
when the word may act; else what the fetch of the first word met, a word that makes no join clause included. The check comes before
those of R76 and R98 on the word itself (DEDUCED, log entry 81). -/
def joinCheck (s : State) (g : Group) (t : Split) (x : IWord) : Option Fetch :=
  match t.inner.bind (entryOf g) with
  | none => none
  | some e =>
    if e.pc ≠ t.pc then none
    else if !wordIsHeader x then some (.word x)
    else match fetch s g (t.pc + 8) with
      | .word y => if wordIsJoin y then none else some (.word y)
      | f => some f

/-- What the boundary leaves: a word to act, or the state after a trap or a swap. -/
inductive Boundary where
  | word (i : Instr)
  | gone (s : State)

/-- Traps that wait for a boundary, in user mode: STOP_REQUEST, ROSEC_TIMEOUT, SINGLE_STEP (R249, R408, R411), in this order where several
are due (DESIGN CHOICE, log entry 107). -/
def dueTrap (s : State) (gid sp : Nat) (g : Group) (t : Split) : Option State :=
  if g.sys then none
  else if g.stopDue then some (stopTrap s gid sp g t)
  else if g.rosecDue then some (trapWait s (setGrp s gid { g with rosecDue := false }) gid sp (infoAt 0x2A#6 t t.mask))
  else if g.stepDue then some (trapWait s (setGrp s gid { g with stepDue := false }) gid sp (infoAt 0x33#6 t t.mask))
  else none

/-- The slots of a word that a breakpoint before the word matches (R252). -/
def brkSlots (x : IWord) : List Nat := if bit x 63 then [0, 1] else [0]

/-- A breakpoint's trap: its number, and the slot it names. -/
def brkTrap (s : State) (gid sp : Nat) (g : Group) (t : Split) (n : Nat) : State :=
  trapWait s s gid sp { infoAt 0x30#6 t t.mask with
    info := BitVec.ofNat 16 n, slot := ((tabFind (ctxOf s g.ctx).brks n).map (·.slot)).getD 0 }

/-- The fetch of a word that a split needs has faulted, or met a page that is not resident (R98, R390). -/
def fetchTrap (s : State) (gid sp : Nat) (g : Group) (t : Split) (pc : Double) (c : BitVec 6) : State :=
  trapWait s (fetchCheck s g pc c) gid sp { infoAt 0x07#6 t t.mask with info := c.setWidth 16, faddr := some pc }

/-- What stands before a word that has been fetched: a breakpoint, the check of a join address, the first steps of decoding. -/
def wordBoundary (s : State) (gid sp : Nat) (g : Group) (t : Split) (x : IWord) : Boundary :=
  match brkHit s g t (brkSlots x) with
  | some n => .gone (brkTrap s gid sp g t n)
  | none => match joinCheck s g t x with
    | some (.word _) => .gone (trapWait s (fetchTouch s g (t.pc + 8)) gid sp (infoAt 0x05#6 t t.mask))
    | some (.bad c) => .gone (fetchTrap s gid sp g t (t.pc + 8) c)
    | some .absent => .gone (swapOut s gid sp (t.pc + 8) .fetch)
    | none => match decodeShape x with
      | .ok i => .word i
      | .error c => .gone (trapWait s s gid sp (infoAt c t t.mask))

/-- The header of a split's clause, not readable when the split merged, is read before its next word (R265). -/
def readHeader (s : State) (gid sp : Nat) (g : Group) (t : Split) : State :=
  match fetch s g t.hdr with
  | .word x => mapGrp (fetchTouch s g t.hdr) gid (fun g => mapSplit g sp (fun t => pastJoin t x))
  | .bad c => fetchTrap s gid sp g t t.hdr c
  | .absent => swapOut s gid sp t.hdr .fetch

/-- Fetch the word of the issuing split, and everything that may come before it acts. -/
def boundary (s : State) (gid sp : Nat) : Boundary :=
  match grp s gid with
  | none => .gone { s with cur := none }
  | some g =>
    let t := splitAt g sp
    match dueTrap s gid sp g t with
    | some s' => .gone s'
    | none =>
      if t.unread then .gone (readHeader s gid sp g t)
      else match fetch s g t.pc with
      | .bad c => .gone (fetchTrap s gid sp g t t.pc c)
      | .absent => .gone (swapOut s gid sp t.pc .fetch)
      | .word x => wordBoundary (fetchTouch s g t.pc) gid sp g t x

/-! ### The choice of group and split (R271, R272) -/

def splitReady (t : Split) : Bool := t.st == .ready
/-- A group is ready when one of its splits is. -/
def groupReady (g : Group) : Bool := g.st == .running && g.splits.any (fun e => splitReady e.2)

/-- Group a comes before group b. -/
def comesFirst (s : State) (a b : Group) : Bool :=
  let da := a.due || decide (a.age ≥ 48)
  let db := b.due || decide (b.age ≥ 48)
  let pa := (pktOf s a).prio
  let pb := (pktOf s b).prio
  if da != db then da
  else if !da && pa != pb then decide (pb < pa)
  else decide (b.age < a.age) || (a.age == b.age && decide (a.slot < b.slot))

/-- The group a quarter of a core chooses. -/
def chooseGroup (s : State) (core quarter : Nat) : Option (Nat × Group) :=
  (s.groups.filter (fun e => e.2.core == core && e.2.quarter == quarter && groupReady e.2)).foldl
    (fun m e => match m with
      | none => some e
      | some b => if comesFirst s e.2 b.2 then some e else some b) none

/-- The first READY split after the one that issued last. -/
def chooseSplit (g : Group) : Option Nat :=
  ([1, 2, 3, 4].map (fun d => (g.lastSplit + d) % 4)).find? (fun k =>
    match tabFind g.splits k with
    | some t => splitReady t
    | none => false)

/-- The ages after an issue cycle in which a word of split `sp` of group `gid` issued, in the state `t` that the word left: the other
groups of the quarter that were ready in `s` and not chosen grow older (R271, R272). The quarter's next word issues in a later clk. -/
def agedGroups (s : State) (gid sp : Nat) (g : Group) (t : State) : State :=
  let older (k : Nat) : Bool := match grp s k with
    | some h => h.core == g.core && h.quarter == g.quarter && groupReady h
    | none => false
  { t with groups := t.groups.map (fun e =>
      if e.1 = gid then (e.1, { e.2 with age := 0, due := false, lastSplit := sp })
      else if older e.1 then (e.1, { e.2 with age := e.2.age + 1 }) else e),
           nextIssue := tabPut t.nextIssue (4 * g.core + g.quarter) (clkAdd t.clk 1) }

/-- The bracket of a group ends with a word of group `gid`, which was `g` before it: its own unless the word has just set it; another's
where that word issues in the same quarter (R353). -/
def contends (gid : Nat) (g : Group) (k : Nat) (h : Group) : Bool :=
  if k = gid then h.bracket == g.bracket else h.core == g.core && h.quarter == g.quarter

/-- A word of a split has issued in a step to `t`, unless the split is HELD at it (R269, R271). -/
def afterWord (s : State) (gid sp : Nat) (t : State) : State :=
  let held : Bool := match (grp t gid).bind (fun g => tabFind g.splits sp) with
    | some x => x.st == .held
    | none => false
  match grp s gid with
  | some g =>
    if held then endBrackets t (fun k _ => k == gid)
    else endBrackets (agedGroups s gid sp g t) (contends gid g)
  | none => t

/-- The outcome of a word with its issue cycle counted. -/
def issued (s : State) (gid sp : Nat) (o : Out) : Out :=
  match o with
  | .next t => .next (afterWord s gid sp t)
  | o => o

/-- The split is at its innermost join address. -/
def joinsHere (g : Group) (t : Split) : Bool := (t.inner.bind (entryOf g)).any (fun e => e.pc == t.pc)

/-- The word of a split has been fetched to issue, at its join address with the word behind it: the fetches touch their lines (R283,
R295). -/
def wordFetched (s : State) (gid sp : Nat) : State :=
  match grp s gid with
  | some g =>
    let t := splitAt g sp
    let x := fetchTouch s g t.pc
    if joinsHere g t then fetchTouch x g (t.pc + 8) else x
  | none => s

/-- A word that issues does so a clk or more after the last of its quarter (R271). -/
def issueTick (s : State) (gid : Nat) : State :=
  match grp s gid with
  | some g => { s with clk := issueClk s g }
  | none => s

/-! ### Register parity (R457) -/

/-- A repair: the group stops as for a trap and resumes at its checkpoint, in its mode. -/
def repairGroup (s : State) (gid : Nat) : State :=
  let s := discardRegion (settle s gid) gid
  match grp s gid with
  | none => s
  | some g => respill (setGrp s gid { resumeAt g g.ckpt with repairs := g.repairs + 1, stepSkip := g.stepSkip }) gid

/-- A read of a register meets a parity error. -/
def parityError (s : State) (gid sp r : Nat) : State :=
  match grp s gid with
  | none => s
  | some g =>
    if g.written.contains r && decide (g.repairs < 3) then bump (repairGroup (countUp s 0x60000) gid)
    else trapWait s (mcheckG (countUp s 0x60004) 1 0 g) gid sp (infoAt 0x3E#6 (splitAt g sp) (splitAt g sp).mask)

/-- The CLK that the next word of a group may sample: where its quarter may issue, and its latest lds has written its data (R353). -/
def wordClk (s : State) (g : Group) : Double := clkMax (issueClk s g) g.dataAt

/-- ISSUE_CYCLE: a quarter of a core chooses the word it issues; `bad` is a register the word reads whose parity is in error. It waits
where the word's clk is past that which another group's bracket allows (R353; log entry 1). -/
def execIssueCycle (core quarter : Nat) (bad : Option Nat) (s : State) : Out :=
  if s.cur.isSome then .next s
  else match chooseGroup s core quarter with
  | none => .next s
  | some (gid, g) =>
    match chooseSplit g with
    | none => .next s
    | some sp =>
      if (clockCap s (some gid)).toNat < (wordClk s g).toNat then .next s else
      let s := { s with turn := 4 * core + quarter + 1 }
      match bad with
      | some r => .next (parityError s gid sp r)
      | none => .next { s with cur := some (gid, sp) }

/-- GROUP_DUE: a group whose age has reached 48 is due. -/
def execGroupDue (gid : Nat) (s : State) : Out :=
  .next (mapGrp s gid (fun g => if g.age ≥ 48 then { g with due := true } else g))

end Sys2Proof.Machine
end

