-- ==== Sys2Proof/Machine/Paging.lean ====
section
/-! DEFINITION. Sys2Proof/Machine/Paging.lean: walks and invalidations, arrived pages, the restore of a swapped group, eviction under store
pressure, the control of contexts, the save of units, the failure of a core (R220, R391–R398, R411–R418, R453). -/

namespace Sys2Proof.Machine

open Sys2Proof

/-! ### Walks and requests (R390, R391, R395) -/

/-- A request that waited for room in its ring is posted once there is room. -/
def retryAsk (s : State) (ctx : Nat) : State :=
  match (ctxOf s ctx).waitingAsk with
  | [] => s
  | a :: r => if askFull s ctx then s else postAsk (mapCtx s ctx (fun c => { c with waitingAsk := r })) ctx a

/-- An entry joins a TLB that does not hold it; in a full one it takes the place of an entry that the device chooses (R391). -/
def tlbEnter (s : State) (e : TlbEntry) (k : Nat) : State :=
  let l := tabGet [] s.tlb k
  if (l.find? (tlbMaps e.ctx e.va)).isSome then s
  else
    let l := if l.length < tlbSize k then l else l.eraseIdx (Config.choice (s.free + k) % l.length)
    { s with tlb := tabPut s.tlb k (e :: l) }

/-- TRANSLATION_WALK: a walk ends; a leaf enters the TLBs of the core that asked (which one is open: log entry 52) and of its cluster; a
request that waits for ring room is looked at again. -/
def execTranslationWalk (ctx va : Nat) (s : State) : Out :=
  match walk s ctx va with
  | .leaf e =>
    let (f, s) := takeFree s
    .next ((coreTlbs (Config.choice f % 192)).foldl (fun s k => tlbEnter s e k) s)
  | .bad _ => .next s
  | .absent => .next (retryAsk s ctx)

/-- One swapped or saved group after PGDONE for its page: ready to be restored, or its request posted again (R397, R418). -/
def pageCame (page : Nat) (s : State) (e : Nat × Group) : State :=
  match walk s e.2.ctx (65536 * page) with
  | .absent => requestAsk s e.2.ctx (65536 * page + e.2.waitKind)
  | _ => mapGrp s e.1 (fun g => { g with waitPage := none, st := if g.st = .waiting then .running else g.st })

/-- PGDONE: the host reports a page. -/
def execPgdone (ctx va : Nat) (s : State) : Out :=
  if !s.ready then .next s else
  let page := va / 65536
  let s := mapCtx s ctx (fun c =>
    { c with asked := c.asked.filter (fun p => p != page), waitingAsk := c.waitingAsk.filter (fun a => a / 65536 != page) })
  .next (bump ((s.groups.filter (fun e => e.2.ctx == ctx && e.2.waitPage == some page)).foldl (pageCame page) s))

/-! ### TLBINV (R392, R412) -/

def tlbErr (s : State) : State := hregSet s 0x43010 (hregGet s 0x43010 ||| 2)
/-- A TLBINV starts, or is ignored whole. -/
def startInval (i : Inval) (s : State) : Out :=
  .next (if !s.ready then s else if s.inval.isSome ∨ (i.scope = 1 ∧ i.n ≥ 25) then tlbErr s else { s with inval := some i })

def execTlbinvPage (ctx va : Nat) (wb : Bool) (s : State) : Out := startInval ⟨0, ctx, va / 65536 * 65536, 0, wb⟩ s
def execTlbinvRange (ctx va n : Nat) (wb : Bool) (s : State) : Out := startInval ⟨1, ctx, va / 65536 * 65536, n, wb⟩ s
def execTlbinvContext (ctx : Nat) (wb : Bool) (s : State) : Out := startInval ⟨2, ctx, 0, 0, wb⟩ s
def execTlbinvAll (wb : Bool) (s : State) : Out := startInval ⟨3, 0, 0, 0, wb⟩ s

/-- An entry holds a translation that the invalidation names. -/
def invalMatches (i : Inval) (e : TlbEntry) : Bool :=
  match i.scope with
  | 3 => true
  | 2 => e.ctx == i.ctx
  | _ => e.ctx == i.ctx && decide (e.va < i.va + 65536 * (if i.scope = 1 then 2 ^ i.n else 1)) && decide (i.va < e.va + 2 ^ e.bits)

/-- A lease holds the invalidation up (R393). -/
def leaseHolds (s : State) (i : Inval) : Bool := s.jobs.any (fun j => j.2.leases.any (invalMatches i))

/-- The address of a context lies in a page that the invalidation names. -/
def invalNames (i : Inval) (ctx va : Nat) : Bool :=
  match i.scope with
  | 3 => true
  | 2 => ctx == i.ctx
  | _ => ctx == i.ctx && decide (i.va ≤ va) && decide (va < i.va + 65536 * (if i.scope = 1 then 2 ^ i.n else 1))

/-- A group's access that is translated and not performed yet holds it up (R393); an skey's holds its lease instead. -/
def accessHolds (s : State) (i : Inval) : Bool :=
  s.ops.any (fun e => !e.2.done && (tabFind s.keys e.1).isNone && e.2.space == .global &&
    e.2.accs.any (fun a => invalNames i e.2.ctx a.va.toNat || invalNames i e.2.ctx (a.va.toNat + a.n - 1)))

/-- Fold every Trough partial. -/
def foldAll (s : State) : State := s.trough.foldl (fun s e => foldLine s e.1) s

/-- The physical page that a leaf names, resident or not: its address and the log₂ of its size. -/
def leafExtent (s : State) (va : Nat) : List (Nat × Nat × Nat × Bool) → Nat → Option (Nat × Nat)
  | [], _ => none
  | (sh, ib, _, lf) :: rest, t =>
    let e : Double := ofBytes 64 (viewRead s (t + 8 * (va / 2 ^ sh % 2 ^ ib)) 8)
    if !bit e 0 then none
    else if bit e 1 then (if lf then some ((bits e 16 36 : BitVec 36).toNat * 65536, sh) else none)
    else leafExtent s va rest ((bits e 8 44 : BitVec 44).toNat * 256)

/-- The physical pages of a range, as the TLBs and the table map them. -/
def invalPages (s : State) (i : Inval) : List (Nat × Nat) :=
  let held := (s.tlb.flatMap (·.2)).filter (invalMatches i)
  let pages := (List.range (if i.scope = 1 then 2 ^ i.n else 1)).filterMap (fun k =>
    let va := i.va + 65536 * k
    (leafExtent s va walkLevels (ctxOf s i.ctx).root).map (fun x => (x.1 + va % 2 ^ x.2 / 65536 * 65536, 16)))
  held.map (fun e => (e.pa, e.bits)) ++ pages

/-- Updates came to the line through a page that the invalidation names, as it was mapped then (R392). -/
def mergedThrough (i : Inval) (e : TroughEntry) : Bool := e.pages.any (fun p => invalNames i p.1 (65536 * p.2))

/-- What WB does: fold, write back, invalidate; the records of the lines leave with them (R325). -/
def writeBack (s : State) (i : Inval) : State :=
  if i.scope ≥ 2 then { foldAll s with races := [], scopes := [] }
  else
    let es := invalPages s i
    let out (l : Nat) : Bool := es.any (fun e => decide (e.1 < 128 * l + 128) && decide (128 * l < e.1 + 2 ^ e.2))
    let ls := (s.trough.filter (fun e => out e.1 || mergedThrough i e.2)).map (·.1)
    let s := ls.foldl writeBackLine s
    let gone (l : Nat) : Bool := out l || ls.contains l
    { s with races := s.races.filter (fun r => !gone r.1), scopes := s.scopes.filter (fun r => !gone r.1) }

/-- The TLBs without the entries that a test finds. -/
def tlbDrop (s : State) (p : TlbEntry → Bool) : State := { s with tlb := s.tlb.map (fun x => (x.1, x.2.filter (fun e => !p e))) }

/-- TLBINV_COMPLETE: once the leases have drained and translated accesses are performed, the entries are dropped and BUSY clears. -/
def execTlbinvComplete (s : State) : Out :=
  match s.inval with
  | none => .next s
  | some i =>
    if leaseHolds s i || accessHolds s i then .next s
    else
      let s := if i.wb then writeBack s i else s
      .next { tlbDrop s (invalMatches i) with inval := none }

/-! ### The restore of a group (R220, R229, R397, R407, R416) -/

/-- A handle name as a frame holds it (R406). -/
def frameName (bs : List Byte) (i : Nat) : HName :=
  let o := 0x100 + 16 * i
  let st : HState := match leNat bs o 1 with
    | 1 => .bound | 2 => .parked | 3 => .evicted | 4 => .given | _ => .free
  let slot (k : Nat) : Option (Nat × BitVec 16) :=
    let n := leNat bs (o + k) 2
    if n = 0xFFFF then none else some (n, BitVec.ofNat 16 (leNat bs (o + k + 2) 2))
  { st := st, isNew := leNat bs (o + 1) 1 != 0,
    cslot := (match st with | .bound | .parked => slot 2 | _ => none), pslot := if st = .free then none else slot 6 }

def frameFlag (bs : List Byte) (i : Nat) : Flag :=
  let a := leNat bs (0xA0 + 2 * i) 1
  { cnt := a % 64, err := ofBit a 6, cause := BitVec.ofNat 6 (leNat bs (0xA1 + 2 * i) 1) }
def frameBatch (bs : List Byte) (i : Nat) (num : Word) : Batch :=
  let a := leNat bs (0xB8 + 4 * i) 4
  { num := num, pend := a % 65536, err := ofBit a 22, cause := BitVec.ofNat 6 (a / 65536) }

/-- The flags: the frame's, with what completed since loaded over what was saved (R396, R407). -/
def loadFlags (g : Group) (bs : List Byte) : Group :=
  (List.range 12).foldl (fun g i =>
    if frameFlag bs i = tabGet {} g.swapFlags i then g else flagPut g i (frameFlag bs i)) g

def loadBatches (g : Group) (bs : List Byte) : Group :=
  let b := nat32 bs 0x98
  (List.range 16).foldl (fun g i =>
    let num := b - 15 + BitVec.ofNat 32 i
    let x := frameBatch bs i num
    match tabFind g.swapBatches num.toNat with
    | some y => if x = y then g else { g with batches := tabPut g.batches num.toNat x }
    | none => if x.pend = 0 ∧ !x.err then g else { g with batches := tabPut g.batches num.toNat x }) { g with bseq := b }

def loadNames (g : Group) (bs : List Byte) : Group :=
  allNames.foldl (fun g i =>
    let n := frameName bs i
    namePut g i (if n.st = .parked then { n with st := .bound } else n)) g

/-- The quarter and slot in which the group may be restored: the first quarter, from its former one on, whose pool holds its window (the
one it wants, when it moves), as soon as a slot there is free. -/
def restorePlace (s : State) (g : Group) : Option (Nat × Nat) :=
  let w := g.moveW.getD g.w
  match ([0, 1, 2, 3].map (fun d => (g.quarter + d) % 4)).find? (fun q => decide (freeGranules s g.uid q ≥ w)) with
  | none => none
  | some q => (freeSlot s g.uid g.core q).map (fun k => (q, k))

/-- The spilled blocks of the checkpoint that a swapped group returns to. -/
def savedSpills (g : Group) : Tab Nat := (g.swapCkpt.map (fun x => x.2.spills)).getD []

def isEvicted (n : HName) : Bool := n.st == .evicted

/-- The slots that the unit's pool has lost to evictions, of at most `n` names. -/
def lackOf (u : UnitS) (acc : Bool) (n : Nat) : Nat :=
  min n (if acc then 2 * u.alimit - u.aslots.length else 2 * u.olimit - u.oslots.length)

/-- Free slots of a unit's core for those. -/
def regainable (s : State) (uid : Nat) (acc : Bool) (n : Nat) : List Nat :=
  let u := unitOf s uid
  takeFirst (opTaken s u.core acc) (if acc then 2048 else 256) (lackOf u acc n)

/-- The unit's pool regains from the core the slots that evictions took from it. -/
def regain (s : State) (uid : Nat) (acc : Bool) (n : Nat) : State :=
  let ks := regainable s uid acc n
  mapUnit s uid (fun u =>
    if acc then { u with aslots := u.aslots ++ ks, apool := ks.foldl (fun l k => poolAdd k l) u.apool }
    else { u with oslots := u.oslots ++ ks, opool := ks.foldl (fun l k => poolAdd k l) u.opool })

/-- An evicted name takes a slot and its contents from the frame. -/
def refillName (s : State) (gid : Nat) (fa : Double) (i : Nat) : Dev State :=
  match grp s gid with
  | none => .ok s
  | some g =>
    if !isEvicted (nameOf g i) then .ok s
    else match takeSlot s g.core g.uid (isAccName i) with
    | none => .ok s
    | some (k, s) =>
      let s := setGrp s gid (namePut g i { st := .bound, cslot := some k })
      let w := frameWho g
      if isAccName i then
        match vaRead s w (fa + BitVec.ofNat 64 (0x1D000 + 0x1000 * (i - 32))) 4096 with
        | .error c => .error c
        | .ok (bs, s) => .ok (accPut s g.core k.1 0 ((List.range 1024).map (fun j => nat32 bs (4 * j))))
      else
        match vaRead s w (fa + BitVec.ofNat 64 (0xB000 + 0x900 * i)) 2176 with
        | .error c => .error c
        | .ok (bs, s) => .ok (scalePut (operandPut s g.core k.1 0 (bs.take 2048)) g.core k.1 0 (bs.drop 2048))

def refillNames (s : State) (gid : Nat) (fa : Double) : List Nat → Dev State
  | [] => .ok s
  | i :: r => match refillName s gid fa i with
    | .ok s => refillNames s gid fa r
    | .error c => .error c

def evictedNames (g : Group) (acc : Bool) : Nat := (allNames.filter (fun i => isAccName i == acc && isEvicted (nameOf g i))).length

/-- The core has as many free slots as the unit's pool must regain for the group's evicted names (R398). -/
def mayRegain (s : State) (g : Group) : Bool :=
  [false, true].all (fun acc => decide ((regainable s g.uid acc (evictedNames g acc)).length = lackOf (unitOf s g.uid) acc (evictedNames g acc)))

/-- The pools hold a slot for every evicted name. -/
def poolsCover (s : State) (g : Group) : Bool :=
  decide (evictedNames g false ≤ (unitOf s g.uid).opool.length) && decide (evictedNames g true ≤ (unitOf s g.uid).apool.length)

/-- What the pools of a group's unit are once they have regained the slots of its evicted names. -/
def regainFor (s : State) (g : Group) : State :=
  regain (regain s g.uid false (evictedNames g false)) g.uid true (evictedNames g true)

/-- Give up a swap frame. -/
def dropFrame (s : State) (ctx k : Nat) : State := mapCtx s ctx (fun c => { c with sframes := c.sframes.filter (fun x => x != k) })

/-- The group is back in a slot: registers, flags, batches, names and checkpoint from its frame. -/
def restoreGroup (s : State) (gid : Nat) (g : Group) (k q slot : Nat) : State :=
  let fa := (ctxOf s g.ctx).sfbase + 0x40000#64 * BitVec.ofNat 64 k
  let s := reslot s g.uid g.slot slot
  let g := { g with quarter := q, slot := slot, st := .running }
  match vaRead s (frameWho g) fa 0xB000, g.swapCkpt with
  | .error (c, s), _ => haltGroup (setGrp s gid g) gid c
  | .ok _, none => haltGroup (setGrp s gid g) gid 0x3F#6
  | .ok (bs, s), some (tok, ck) =>
    if !ckptOk bs tok then haltGroup (setGrp s gid g) gid 0x3F#6
    else
      let g := resumeAt (loadNames (loadBatches (loadFlags (frameRegs g bs) bs) bs) bs) ck
      let g := { g with swapCkpt := none, moveW := none, stepSkip := if g.sstep && !g.sys then some ck.repc else g.stepSkip }
      match refillNames (regainFor (setGrp s gid g) g) gid fa allNames with
      | .error (c, s) => haltGroup s gid c
      | .ok s => bump (dropFrame (rewriteSpills s g) g.ctx k)

/-- GROUP_RESTORE: once the page is there, and a quarter of the unit's core has the slot, the granules and the slots of names. -/
def execGroupRestore (gid : Nat) (s : State) : Out :=
  match grp s gid with
  | none => .next s
  | some g => match g.st with
    | .swapped k =>
      let c := ctxOf s g.ctx
      if g.waitPage.isSome || !(unitOf s g.uid).resident || !(c.st == .running || c.st == .draining) then .next s
      else match restorePlace s g with
      | none => .next s
      | some (q, slot) =>
        match spillAbsent s { g with quarter := q, slot := slot, spills := savedSpills g } with
        | some va => .next (mapGrp (requestPage s g.ctx va .write false) gid (fun g =>
            { g with waitPage := some (va.toNat / 65536), waitKind := askWord va .write false % 65536 }))
        | none =>
          if mayRegain s g && poolsCover (regainFor s g) g then .next (restoreGroup s gid g k q slot) else .next s
    | _ => .next s

/-! ### Eviction (R220, R398) -/

/-- Write a name's slot to the frame, mark it EVICTED, release the slot. -/
def evictName (fa : Double) (gid : Nat) (s : State) (i : Nat) : Dev State :=
  match grp s gid with
  | none => .ok s
  | some g =>
    let n := nameOf g i
    match n.cslot, n.pslot with
    | none, _ | _, some _ => .ok s
    | some (k, _), none =>
      let acc := isAccName i
      if slotPoison s g i then .error (0x3E#6, mcheckG s 2 0 g) else
      let bs : List Byte := if acc then (accWords s g.core k).flatMap w32
        else operandBytes s g.core k ++ scaleBytes s g.core k ++ List.replicate 128 0
      let off := if acc then 0x1D000 + 0x1000 * (i - 32) else 0xB000 + 0x900 * i
      let w := frameWho g
      match vaWrite s w (fa + BitVec.ofNat 64 off) bs with
      | .error c => .error c
      | .ok s =>
        let n' : HName := { st := .evicted }
        match vaWrite s w (fa + BitVec.ofNat 64 (0x100 + 16 * i)) (nameBytes n') with
        | .error c => .error c
        | .ok s =>
          let s := releaseSlot (setGrp s gid (namePut g i n')) g.core g.uid acc k
          .ok (mapUnit s g.uid (fun u =>
            if acc then { u with aslots := u.aslots.filter (fun x => x != k), apool := u.apool.filter (fun x => x != k) }
            else { u with oslots := u.oslots.filter (fun x => x != k), opool := u.opool.filter (fun x => x != k) }))

def evictNames (fa : Double) (gid : Nat) : List Nat → State → Dev State
  | [], s => .ok s
  | i :: r, s => match evictName fa gid s i with
    | .ok s => evictNames fa gid r s
    | .error c => .error c

/-- Nothing but want of room keeps a launch's next unit from a core: its context runs, the core is legal, open and not reserved for a
launch that starves, and the budget lets it (R379, R413, R453, R467). -/
def coreServes (s : State) (l core : Nat) : Bool :=
  let v := levelOf s l
  (ctxOf s v.ctx).st == .running && (legalFor s v (nextUnit s l v).1).contains core && !coreClosed s core &&
  allowedFor s (starving s) l core && (decide (v.pass ≥ 16) || fits s l)

/-- A ready unit legal on the core does not fit there for want of operand or accumulator slots alone (R398). -/
def slotsShort (s : State) (core : Nat) : Bool :=
  (readyLaunches s).any (fun l =>
    let v := levelOf s l
    coreServes s l core && (fitsAt s v.pkt core).isEmpty &&
    [0, 1, 2, 3].any (fun q0 => roomFits { roomOf s core with ops := 256, accs := 2048 } (needOf v.pkt q0)))

def hasParked (g : Group) : Bool := g.names.any (fun e => e.2.st == .parked && e.2.cslot.isSome && e.2.pslot.isNone)

/-- The group of the core swapped out longest, for EVICTAGE at least, that holds PARKED slots. -/
def evictVictim (s : State) (core : Nat) : Option (Nat × Group) :=
  (s.groups.filter (fun e => e.2.core == core && (match e.2.st with | .swapped _ => true | _ => false) && hasParked e.2 &&
      decide (e.2.swapAt.toNat + 1000 * (ctxOf s e.2.ctx).evictage ≤ s.clk.toNat))).foldl
    (fun m e => match m with
      | none => some e
      | some b => if e.2.swapAt.toNat < b.2.swapAt.toNat then some e else some b) none

/-- STORE_PRESSURE_EVICT: the PARKED slots of one group go to its frame, and leave the unit's pool for the core. -/
def execStorePressureEvict (core : Nat) (s : State) : Out :=
  if !slotsShort s core then .next s
  else match evictVictim s core with
  | none => .next s
  | some (gid, g) => match g.st with
    | .swapped k =>
      (match evictNames ((ctxOf s g.ctx).sfbase + 0x40000#64 * BitVec.ofNat 64 k) gid allNames s with
       | .ok s => .next (bump s)
       | .error (c, s) => .next (haltGroup s gid c))
    | _ => .next s

/-! ### The save of a unit (R414, R415) -/

/-- A group that has not ended is asleep or swapped out, in user mode, with no ray slot and no section. -/
def groupQuiet (s : State) (gid : Nat) (g : Group) : Bool :=
  !g.sys && g.sect.isNone && !g.stopDue && !(s.rays.any (fun r => r.2.gid == gid)) && !committedBusy s gid g false &&
  match g.st with
  | .swapped _ => true
  | .running => groupAsleep g
  | _ => false

def groupsOf (s : State) (uid : Nat) : Tab Group := s.groups.filter (fun e => e.2.uid == uid)

/-- A unit is quiescent (R414). -/
def quiescent (s : State) (uid : Nat) : Bool :=
  (groupsOf s uid).all (fun e => groupQuiet s e.1 e.2) && !(s.jobs.any (fun j => jobOfUnit uid j.2))

/-- One group goes to its swap frame with every name EVICTED. -/
def saveGroup (s : State) (gid : Nat) : Dev State :=
  match grp s gid with
  | none => .ok s
  | some g =>
    let c := ctxOf s g.ctx
    let w (k : Nat) : Double := c.sfbase + 0x40000#64 * BitVec.ofNat 64 k
    match g.st with
    | .swapped k =>
      (match evictNames (w k) gid allNames s with
       | .ok s => .ok (mapGrp s gid (fun g => { g with st := .saved k }))
       | .error e => .error e)
    | _ => match freeFrame c.sframes c.sfcount with
      | none => .ok s
      | some k =>
        let s := discardRegion (settle s gid) gid
        let tok := s.free
        let s := { s with free := s.free + 1 }
        match grp s gid with
        | none => .ok s
        | some g =>
          let t : TrapInfo := { cause := 0, pc := g.ckpt.repc, active := g.live, flanes := g.live }
          match writeFrame s g t (w k) tok with
          | .error e => .error e
          | .ok s =>
            let s := mapCtx s g.ctx (fun c => { c with sframes := k :: c.sframes })
            let s := setGrp s gid { g with st := .saved k, swapCkpt := some (tok, g.ckpt), swapAt := s.clk, swapFlags := g.flags,
                                           swapBatches := g.batches }
            evictNames (w k) gid allNames s

def saveGroups : List Nat → State → Dev State
  | [], s => .ok s
  | gid :: r, s => match saveGroup s gid with
    | .ok s => saveGroups r s
    | .error c => .error c

/-- The 16 bytes of a barrier. -/
def barrierBytes (b : Barrier) : List Byte :=
  w32 b.arrived ++ [BitVec.ofNat 8 b.part, BitVec.ofNat 8 b.count,
    BitVec.ofNat 8 (b.seq % 2 + (if b.rowMode then 2 else 0) + (if b.armed then 4 else 0) + (if b.complete then 8 else 0)), 0] ++
  bytesOf 2 (BitVec.ofNat 16 b.rows) ++ bytesOf 2 (BitVec.ofNat 16 b.landed) ++ [0, 0, 0, 0]

/-- The swap frame of group i of a unit, all ones for an ended group. -/
def frameOfGroup (s : State) (uid i : Nat) : Word :=
  match tabFirst s.groups (fun _ g => g.uid == uid && g.index == i) with
  | some (_, g) => (match g.st with | .saved k | .swapped k => BitVec.ofNat 32 k | _ => 0xFFFFFFFF)
  | none => 0xFFFFFFFF

/-- The unit frame up to the allocations (R415). -/
def unitHead (s : State) (uid : Nat) (u : UnitS) : List Byte :=
  ((List.range 16).flatMap (fun k => barrierBytes (barOf u k))) ++ w32 u.unit ++ w32 (BitVec.ofNat 32 u.nGroups) ++
  ((List.range 32).flatMap (fun i => w32 (frameOfGroup s uid i))) ++ List.replicate 3704 0

/-- The bytes of an allocation. -/
def allocBytes (u : UnitS) (vault : Bool) : List Byte :=
  (List.range (if vault then u.vaultSize else u.scratchSize)).map (fun o =>
    (tabFind (if vault then u.vault else u.scratch) o).getD (Config.allocByte u.tag (if vault then 1 else 0) o))

/-- What a saved unit leaves behind on its core: nothing. -/
def unitAway (u : UnitS) (k : Nat) : UnitS :=
  { u with resident := false, frame := k, scratch := [], vault := [], rslots := [], oslots := [], aslots := [], opool := [], apool := [] }

/-- The unit's frame is written and its resources are released. -/
def saveUnit (s : State) (uid k : Nat) : Dev State :=
  let ids := (groupsOf s uid).map (·.1)
  let u := unitOf s uid
  if isPoison s .scratch uid 0 u.scratchSize || isPoison s .vault uid 0 u.vaultSize then .error (0x3E#6, mcheck s 2 0 u.ctx u.core 0)
  else match saveGroups ids s with
  | .error c => .error c
  | .ok s =>
    let u := unitOf s uid
    let c := ctxOf s u.ctx
    let w := device u.ctx false c.secure
    let base := unitFrameAddr c k
    match frameWrite w 2 s base (unitHead s uid u) with
    | .error e => .error e
    | .ok s => match frameWrite w 8 s (base + 0x1000) (allocBytes u false) with
      | .error e => .error e
      | .ok s => match frameWrite w 80 s (base + 0x41000) (allocBytes u true) with
        | .error e => .error e
        | .ok s =>
          let s := mapUnit s uid (fun u => unitAway u k)
          let s := mapCtx s u.ctx (fun c => { c with uframes := k :: c.uframes })
          .ok (bump (dropTag s uid))

/-- Free swap frames for the groups that need one. -/
def framesCover (s : State) (uid : Nat) (c : Context) : Bool :=
  decide (((groupsOf s uid).filter (fun e => e.2.st == .running)).length ≤ c.sfcount - c.sframes.length)

/-- UNIT_SAVE: a quiescent unit of a draining context is saved; a frame that cannot be written halts its groups (R405). -/
def execUnitSave (uid : Nat) (s : State) : Out :=
  match tabFind s.units uid with
  | none => .next s
  | some u =>
    let c := ctxOf s u.ctx
    match freeFrame c.uframes c.ufcount with
    | none => .next s
    | some k =>
      if !(c.st == .draining) || !u.resident || !quiescent s uid || !framesCover s uid c then .next s
      else match saveUnit s uid k with
      | .ok s => .next s
      | .error (e, s) => .next ((groupsOf s uid).foldl (fun s x => haltGroup s x.1 e) s)

/-! ### Contexts (R411–R413, R416, R417) -/

/-- CTXSTAT.CTX names the context last named in CTXCTL. -/
def nameCtx (s : State) (ctx : Nat) : State :=
  hregSet s 0x43028 ((hregGet s 0x43028 &&& 4#64) ||| (BitVec.ofNat 64 (ctx % 256) <<< 8))
def ctxErr (s : State) : State := hregSet s 0x43028 (hregGet s 0x43028 ||| 4#64)

/-- A STOP reaches one group: HELD splits are examined at once, a group HELD for a page with them. -/
def stopGroup (g : Group) : Group :=
  { g with stopDue := true, splits := g.splits.map (fun e => if e.2.st = .held then (e.1, { e.2 with st := .ready }) else e),
           st := if g.st = .waiting ∧ !g.sys then .running else g.st }

/-- CTXCTL_STOP. -/
def execCtxctlStop (ctx : Nat) (s : State) : Out :=
  if !s.ready then .next s else
  let s := nameCtx s ctx
  let s := { s with groups := s.groups.map (fun (e : Nat × Group) => if e.2.ctx = ctx then (e.1, stopGroup e.2) else e) }
  .next ((s.groups.filter (fun e => e.2.ctx == ctx)).foldl (fun s e => exitingTrap s e.1 0x35#6) s)

/-- CTXCTL_PREEMPT. -/
def execCtxctlPreempt (ctx : Nat) (s : State) : Out :=
  if !s.ready then .next s else
  let s := nameCtx s ctx
  let c := ctxOf s ctx
  if c.st = .running then
    .next (mapCtx s ctx (fun c => { c with st := .draining, expires := some (s.clk + BitVec.ofNat 64 (1000 * (if c.deadline = 0 then 2000 else c.deadline))) }))
  else .next (ctxErr s)

/-- CTXCTL_RESUME. -/
def execCtxctlResume (ctx : Nat) (s : State) : Out :=
  if !s.ready then .next s else
  .next (bump (mapCtx (nameCtx s ctx) ctx (fun c => { c with st := .running, expires := none })))

/-- CTXCTL_INVALID. -/
def execCtxctlInvalid (ctx : Nat) (s : State) : Out := .next (if s.ready then ctxErr (nameCtx s ctx) else s)

/-- The last acts on a context (R413): fold, drop translations. -/
def closeContext (s : State) (ctx : Nat) (st : CtxSt) : State :=
  let s := foldContext s ctx
  mapCtx (tlbDrop s (fun e => e.ctx == ctx)) ctx (fun c => { c with st := st, expires := none })

/-- CONTEXT_OFF. -/
def execContextOff (ctx : Nat) (s : State) : Out :=
  if (ctxOf s ctx).st = .draining ∧ !(s.units.any (fun u => u.2.ctx == ctx && u.2.resident)) then .next (closeContext s ctx .off)
  else .next s

/-- A context is reset by force: everything of it ends with DEADLINE (R417). -/
def forceReset (s : State) (ctx : Nat) : State :=
  let roots := (s.levels.filter (fun e => e.2.ctx == ctx && e.2.parent.isNone)).map (·.1)
  let s := roots.foldl (fun s l => cancelAll s l 0x3B#6) s
  let s := { s with levels := s.levels.map (fun e => if e.2.ctx = ctx then (e.1, { e.2 with closed := true, last := e.2.last || e.2.kind == .phase }) else e),
                    queues := s.queues.map (fun e =>
                      if (e.2.job.map (fun j => (levelOf s j).ctx)) = some ctx then
                        (e.1, { e.2 with job := none, phase := none, graph := none, skip := true }) else e) }
  let s := mapCtx s ctx (fun c => { c with sframes := [], uframes := [], waitingAsk := [] })
  bump (closeContext s ctx .reset)

/-- PREEMPT_DEADLINE_EXPIRY. -/
def execPreemptDeadlineExpiry (ctx : Nat) (s : State) : Out :=
  match (ctxOf s ctx).expires with
  | none => .next s
  | some v => .next (if (ctxOf s ctx).st = .draining ∧ v.toNat ≤ s.clk.toNat then forceReset s ctx else s)

/-! ### The failure of a core (R452–R455, R458) -/

/-- A unit resident on a failed core: to be run again, or complete with MACHINE_CHECK. -/
def failUnit (s : State) (e : Nat × UnitS) : State :=
  let uid := e.1
  let s := endGroups s uid
  if (levelOf s e.2.lid).pkt.restart then
    dropTag (mapUnit s uid (fun u => { unitAway u 0 with rerun := true })) uid
  else endUnit (mapLevel s e.2.lid (fun v => setCause v 0x3E#6)) uid

/-- The failed core's entry takes an unused spare position, or goes off line. -/
def remapCore (s : State) (core : Nat) : State :=
  let k := core / 48
  let n := tabGet 0 s.spares k
  let fresh (c : CoreS) : CoreS := { c with odata := [], oscale := [], adata := [], cc := [] }
  if n < 2 then
    mapCore { s with spares := tabPut s.spares k (n + 1) } core (fun c => { fresh c with phys := some (sparePos k n) })
  else mapCore s core (fun c => { fresh c with failed := true })

/-- CORE_FAILURE. -/
def execCoreFailure (core : Nat) (s : State) : Out :=
  let us := unitsOn s core
  let s := us.foldl failUnit s
  let s := remapCore s core
  .next (countUp (mcheck s 5 0 0 core 0) 0x60028)

end Sys2Proof.Machine
end

