-- ==== Sys2Proof/Machine/Raster.lean ====
section
/-! DEFINITION. Sys2Proof/Machine/Raster.lean: the Rasteriser: triangles, coverage, depth, sample updates, attribute tasks, the end of a draw
(R329, R342–R348). -/

namespace Sys2Proof.Machine

open Sys2Proof

/-! ### The triangle (R343, R344) -/

/-- A triangle task: three vertices, identifier, flags. -/
structure Tri where
  x : List Num
  y : List Num
  z : List Num
  id : Double
  cullb : Bool
  cullf : Bool
  emit : Bool

def triOf (w : List Word) : Tri :=
  let f (k : Nat) : Num := fpv (w.getD k 0)
  { x := [f 0, f 3, f 6], y := [f 1, f 4, f 7], z := [f 2, f 5, f 8], id := pairVal (w.getD 9 0) (w.getD 10 0),
    cullb := bit (w.getD 11 0) 0, cullf := bit (w.getD 11 0) 1, emit := bit (w.getD 11 0) 2 }

/-- A nonzero zero field, or the identifier that means no primitive. -/
def triReserved (w : List Word) : Bool :=
  w.getD 11 0 >>> 3 != 0 || [12, 13, 14, 15].any (fun k => w.getD k 0 != 0) || pairVal (w.getD 9 0) (w.getD 10 0) == BitVec.allOnes 64

def numSign (a : Num) : Int := if a.isZero then 0 else if a.sign then -1 else 1
def zeroN : Num := .fin false 0 0
def nth (l : List Num) (k : Nat) : Num := l.getD k zeroN

/-- (b − a) × (p − a): the edge function over a → b at a point. -/
def edgeFn (ax ay bx bj px py : Num) : Num :=
  subN (mulN [subN bx ax, subN py ay]) (mulN [subN bj ay, subN px ax])

/-- Edge i runs 1 → 2, 2 → 0, 0 → 1. -/
def edgeAt (t : Tri) (i : Nat) (px py : Num) : Num :=
  let a := (i + 1) % 3
  let b := (i + 2) % 3
  edgeFn (nth t.x a) (nth t.y a) (nth t.x b) (nth t.y b) px py

/-- A of R344. -/
def triArea (t : Tri) : Num := edgeFn (nth t.x 0) (nth t.y 0) (nth t.x 1) (nth t.y 1) (nth t.x 2) (nth t.y 2)

/-- Edge i is top-left. -/
def topLeft (t : Tri) (sg : Int) (i : Nat) : Bool :=
  let a := (i + 1) % 3
  let b := (i + 2) % 3
  let dy := numSign (subN (nth t.y b) (nth t.y a)) * sg
  let dx := numSign (subN (nth t.x b) (nth t.x a)) * sg
  decide (dy < 0) || (decide (dy = 0) && decide (dx > 0))

/-- A coordinate is NaN or infinite, the area is zero, or the face is culled. -/
def triEmpty (t : Tri) : Bool :=
  (t.x ++ t.y ++ t.z).any (fun n => n.isNan || n.isInf) ||
  (let sg := numSign (triArea t); sg == 0 || (decide (sg > 0) && t.cullf) || (decide (sg < 0) && t.cullb))

/-- Sample positions in sixteenths of a pixel. -/
def samplePos (ls s : Nat) : Nat × Nat :=
  (match ls with
   | 0 => [(8, 8)]
   | 1 => [(5, 11), (11, 5)]
   | 2 => [(3, 6), (10, 3), (13, 10), (6, 13)]
   | _ => [(7, 3), (11, 7), (3, 9), (13, 13), (1, 5), (9, 1), (5, 15), (15, 11)]).getD s (8, 8)

/-- Sixteenths as an exact value. -/
def sixteenths (n : Nat) : Num := .fin false n (-4)

/-- The sample is covered. -/
def covers (t : Tri) (sg : Int) (px py : Num) : Bool :=
  [0, 1, 2].all (fun i =>
    let e := numSign (edgeAt t i px py) * sg
    decide (e > 0) || (decide (e = 0) && topLeft t sg i))

/-- Depth at a sample (R345). -/
def depthAt (t : Tri) (px py : Num) : Word :=
  divW (addN ([0, 1, 2].map (fun i => mulN [edgeAt t i px py, nth t.z i]))) (triArea t)

/-- z < 0, z > 1 or NaN. -/
def depthOut (z : Word) : Bool := isNanW z || ltW z 0 || ltW 0x3F800000 z

/-! ### The pixels of a triangle (R346) -/

def floorN (a : Num) : Int := a.dy.floor
def minZ (l : List Int) : Int := l.foldl min (l.headD 0)
def maxZ (l : List Int) : Int := l.foldl max (l.headD 0)
def clampNat (lo hi : Nat) (x : Int) : Nat := min hi (max lo x.toNat)

/-- Even bits of a Morton number. -/
def evenBits : Nat → Nat → Nat
  | 0, _ => 0
  | f + 1, m => m % 2 + 2 * evenBits f (m / 4)
/-- Points of a rectangle of a grid, in Morton order. -/
def mortonIn (x0 y0 x1 y1 : Nat) : List (Nat × Nat) :=
  let k := Nat.log2 (max x1 y1 + 1) + 1
  (List.range (4 ^ k)).filterMap (fun m =>
    let x := evenBits 16 m
    let y := evenBits 16 (m / 2)
    if x0 ≤ x ∧ x < x1 ∧ y0 ≤ y ∧ y < y1 then some (x, y) else none)

/-- Pixels of a triangle's bounding box inside the scissor and the buffer, in the Rasteriser's order. -/
def triPixels (d : Draw) (t : Tri) : List (Nat × Nat) :=
  let xs := t.x.map floorN
  let ys := t.y.map floorN
  let hx := min d.x1 d.wv
  let hy := min d.y1 d.hv
  let x0 := clampNat d.x0 hx (minZ xs)
  let y0 := clampNat d.y0 hy (minZ ys)
  let x1 := clampNat x0 hx (maxZ xs + 1)
  let y1 := clampNat y0 hy (maxZ ys + 1)
  (mortonIn (x0 / 16) (y0 / 16) ((x1 + 15) / 16) ((y1 + 15) / 16)).flatMap (fun b =>
    (mortonIn 0 0 16 16).filterMap (fun p =>
      let x := 16 * b.1 + p.1
      let y := 16 * b.2 + p.2
      if x0 ≤ x ∧ x < x1 ∧ y0 ≤ y ∧ y < y1 then some (x, y) else none))

/-! ### Sample updates (R345) -/

/-- What a triangle's walk has found so far: pixels covered, pixels written, as (x, y). -/
structure Walked where
  cover : List (Nat × Nat) := []
  pass : List (Nat × Nat) := []

/-- How a step of the walk ends. -/
inductive Ras where
  | ok (w : Walked) (s : State)
  | bad (c : BitVec 6) (s : State)
  | wait (va : Double)

/-- One sample: the record is replaced when the new depth and identifier are smaller. -/
def sampleUpdate (s : State) (d : Draw) (ctx : Nat) (t : Tri) (x y k : Nat) (z : Word) (w : Walked) : Ras :=
  let va := d.base + BitVec.ofNat 64 (vbufOff d.wv (2 ^ d.ls) x y k)
  let who := device ctx true d.secure
  match jobRead s d.job who (some d.cluster) va 16 with
  | .wait _ => .wait va
  | .bad c s => .bad c s
  | .ok bs s =>
    let id : Double := ofBytes 64 (bs.take 8)
    let dep : Word := ofBytes 32 ((bs.drop 8).take 4)
    if ltW z dep || ((fpv z).cmp (fpv dep) == .eq && !isNanW dep && decide (t.id.toNat < id.toNat)) then
      match jobWrite s d.job who (some d.cluster) va (w64 t.id ++ w32 z) with
      | .ok _ s => .ok { w with pass := (x, y) :: w.pass } s
      | .bad c s => .bad c s
      | .wait _ => .wait va
    else .ok w s

def walkSamples (d : Draw) (ctx : Nat) (t : Tri) (sg : Int) (x y : Nat) : List Nat → Walked → State → Ras
  | [], w, s => .ok w s
  | k :: r, w, s =>
    let p := samplePos d.ls k
    let px := sixteenths (16 * x + p.1)
    let py := sixteenths (16 * y + p.2)
    if covers t sg px py then
      let w := { w with cover := (x, y) :: w.cover }
      let z := depthAt t px py
      if depthOut z then walkSamples d ctx t sg x y r w s
      else match sampleUpdate s d ctx t x y k z w with
      | .ok w s => walkSamples d ctx t sg x y r w s
      | o => o
    else walkSamples d ctx t sg x y r w s

def walkPixels (d : Draw) (ctx : Nat) (t : Tri) (sg : Int) : List (Nat × Nat) → Walked → State → Ras
  | [], w, s => .ok w s
  | (x, y) :: r, w, s => match walkSamples d ctx t sg x y (List.range (2 ^ d.ls)) w s with
    | .ok w s => walkPixels d ctx t sg r w s
    | o => o

/-! ### Attribute tasks (R346, R347) -/

/-- The 8 × 8 mask of a region over a list of pixels. -/
def regionMask (rx ry : Nat) (ps : List (Nat × Nat)) : Double :=
  ps.foldl (fun m p => if p.1 / 8 = rx ∧ p.2 / 8 = ry then setBit m (8 * (p.2 % 8) + p.1 % 8) true else m) 0

def dedup : List (Nat × Nat) → List (Nat × Nat)
  | [] => []
  | x :: r => x :: (dedup r).filter (fun y => y != x)

/-- One attribute task, and the SEQ of its KEY advanced. -/
def attrTask (d : Draw) (id : Double) (w : Walked) (r : Nat × Nat) : Draw :=
  let key := (r.2 * ((d.wv + 7) / 8) + r.1) % 65536
  let seq : Word := tabGet 0 d.seqs key
  let c := regionMask r.1 r.2 w.cover
  let p := regionMask r.1 r.2 w.pass
  let ws : List Word := [bits id 0 32, bits id 32 32, BitVec.ofNat 32 (r.1 + 65536 * r.2), BitVec.ofNat 32 key, seq, d.drawid,
    bits c 0 32, bits c 32 32, bits p 0 32, bits p 32 32, 0, 0, 0, 0, 0, 0]
  { d with tasks := d.tasks ++ [ws], seqs := tabPut d.seqs key (seq + 1) }

/-- The tasks of a triangle: covered regions in the order the walk met them. -/
def attrTasks (d : Draw) (t : Tri) (w : Walked) : Draw :=
  if !t.emit || d.aq == 255 then d
  else (dedup (w.cover.reverse.map (fun p => (p.1 / 8, p.2 / 8)))).foldl (fun d r => attrTask d t.id w r) d

/-! ### The steps of a draw -/

def drawError (s : State) (lid : Nat) (c : BitVec 6) : State :=
  mapLevel s lid (fun v => if v.drawErr = 0 then { v with drawErr := c } else v)

/-- The draw is over: AQ closes and its job completes (R348). -/
def endDraw (s : State) (lid : Nat) (d : Draw) : State :=
  let s := if d.aq = 255 then s else closeChan s lid d.aq
  endJob { s with draws := tabDel s.draws lid } d.job

/-- RASTER_TASK: the next triangle of RQ; an earlier triangle's tasks go first. -/
def execRasterTask (lid : Nat) (s : State) : Out :=
  match tabFind s.draws lid with
  | none => .next s
  | some d =>
    let ch := chanOf s lid d.rq
    match ch.queue with
    | [] => .next s
    | (ws, _) :: rest =>
      if !d.tasks.isEmpty || (match jobOf s d.job with | some j => j.heldW | none => false) then .next s
      else
        let take (s : State) : State := bump (setChan s lid d.rq { chanOf s lid d.rq with queue := rest, rd := ch.rd + 1 })
        if triReserved ws then .next (drawError (take s) lid 0x02#6)
        else
          let t := triOf ws
          if triEmpty t then .next (take s)
          else match walkPixels d (levelOf s lid).ctx t (numSign (triArea t)) (triPixels d t) {} s with
          | .ok w s => .next { take s with draws := tabPut s.draws lid (attrTasks d t w) }
          | .bad c s' => .next (endDraw (drawError (take s') lid c) lid d)
          | .wait va => .next (requestPage s (levelOf s lid).ctx va .read true)

/-- ATTRIBUTE_TASK_SEND: the oldest task goes to AQ when it has room; a closed AQ drops it with CHANNEL_CLOSED. -/
def execAttributeTaskSend (lid : Nat) (s : State) : Out :=
  match tabFind s.draws lid with
  | none => .next s
  | some d => match d.tasks with
    | [] => .next s
    | ws :: r =>
      let ch := chanOf s lid d.aq
      let s' := { s with draws := tabPut s.draws lid { d with tasks := r } }
      if ch.closed then .next (drawError s' lid 0x38#6)
      else if ch.queue.length ≥ ch.slots then .next s
      else .next (bump (fillSlot s' lid d.aq ws []))

/-- DRAW_END. -/
def execDrawEnd (lid : Nat) (s : State) : Out :=
  match tabFind s.draws lid with
  | none => .next s
  | some d =>
    let ch := chanOf s lid d.rq
    .next (if ch.closed ∧ ch.queue.isEmpty ∧ d.tasks.isEmpty then endDraw s lid d else s)

end Sys2Proof.Machine
end

