-- ==== Sys2Proof/Machine/Bte.lean ====
section
/-! DEFINITION. Sys2Proof/Machine/Bte.lean: the jobs of the block-transfer engine and its record cache
(R298–R304). -/

namespace Sys2Proof.Machine

open Sys2Proof

/-! ### The record and its cache (R300, R302) -/

def recKey (ctx h die : Nat) : Nat := (ctx * 4096 + h) * 2 + die

/-- The physical words of a run of bytes. -/
def wordsOf (ps : List (Nat × Nat)) : List Nat := ps.flatMap (fun p => (List.range (p.2 / 8)).map (fun i => p.1 / 8 + i))

/-- The values that an aligned 8-byte part may be read with: what memory holds, what the cache holds, what it has held since the last
rflush. -/
def partValues (s : State) (cached : Option (List Byte)) (i w : Nat) : List (List Byte) :=
  physRead s (8 * w) 8 :: ((cached.map (fun c => (c.drop (8 * i)).take 8)).toList ++ (tabGet [] s.past w).map (bytesOf 8))

/-- The record as the channel's die reads it, each part for itself; what it read stays in the cache. -/
def throughCache (s : State) (key : Nat) (ps : List (Nat × Nat)) : List Byte × State :=
  let r := (wordsOf ps).zipIdx.flatMap (fun e =>
    let vs := partValues s (tabFind s.recs key) e.2 e.1
    vs.getD (Config.choice (s.free + e.2) % vs.length) [])
  (r, { s with recs := tabPut s.recs key r, free := s.free + 24 })

/-- Region k of a record. -/
def recRegion (b : List Byte) (k : Nat) : Range := ⟨leNat b (96 + 12 * k) 7, leNat b (103 + 12 * k) 5, none⟩
def regionsOf (b : List Byte) (ks : List Nat) : List Range := (ks.map (recRegion b)).filter (fun r => decide (0 < r.len))

/-- Every field is within R300's limits. -/
def recordOk (b : List Byte) : Bool :=
  [16, 20, 24, 28].all (fun o => decide (1 ≤ leNat b o 4) && decide (leNat b o 4 ≤ 2 ^ 30)) && leNat b 80 8 % 4 == 0 &&
  decide (leNat b 88 4 < 2 ^ 30) && (leNat b 92 4 == 1 || leNat b 92 4 == 2)

/-! ### The copy (R301) -/

/-- The rows of a record: source and destination. -/
def bteRows (b : List Byte) : List (Double × Double) :=
  let d (o : Nat) : Double := BitVec.ofNat 64 (leNat b o 8)
  (List.range (leNat b 28 4)).flatMap (fun i3 => (List.range (leNat b 24 4)).flatMap (fun i2 =>
    (List.range (leNat b 20 4)).map (fun i1 =>
      let at_ (base s1 s2 s3 : Double) : Double := base + BitVec.ofNat 64 i1 * s1 + BitVec.ofNat 64 i2 * s2 + BitVec.ofNat 64 i3 * s3
      (at_ (d 0) (d 32) (d 40) (d 48), at_ (d 8) (d 56) (d 64) (d 72)))))

def inRegions (rs : List Range) (va n : Nat) : Bool := rs.any (fun r => decide (r.va ≤ va) && decide (va + n ≤ r.va + r.len))
/-- Every byte of a run lies in some region. -/
def allInRegions (rs : List Range) (va n : Nat) : Bool :=
  inRegions rs va n || (List.range n).all (fun i => rs.any (fun r => decide (r.va ≤ va + i) && decide (va + i < r.va + r.len)))

/-- The job also reads this destination byte: its final value is not promised. -/
def readToo (rows : List (Double × Double)) (n va : Nat) : Bool := rows.any (fun r => decide (r.1.toNat ≤ va) && decide (va < r.1.toNat + n))

/-- How a job's copy ends. -/
inductive BteRes where
  | ok (s : State)
  | bad (c : BitVec 6) (s : State)
  | wait (va : Double) (n : Need)

/-- A page of the rows that is not resident, before any byte moves. -/
def absentRow (s : State) (w : Who) (n : Nat) : List (Double × Double) → Option (Double × Need)
  | [] => none
  | (a, d) :: r =>
    let miss (need : Need) (va : Double) : Option (Double × Need) :=
      (pieces va n).findSome? (fun p => match translate s w need p.1 with | .absent => some (p.1, need) | _ => none)
    match miss .read a, miss .write d with
    | some x, _ => some x
    | none, some x => some x
    | none, none => absentRow s w n r

/-- Copy row after row; a row outside the regions or that faults ends the job. -/
def copyRows (jid : Nat) (w : Who) (n : Nat) (b : List Byte) (rows : List (Double × Double)) : List (Double × Double) → State → BteRes
  | [], s => .ok s
  | (a, d) :: r, s =>
    if !allInRegions (regionsOf b [0, 1, 2, 3]) a.toNat n || !allInRegions (regionsOf b [4, 5, 6, 7]) d.toNat n then .bad 0x1A#6 s
    else match jobRead s jid w none a n with
    | .bad c s => .bad c s
    | .wait _ => .wait a .read
    | .ok bs s =>
      let f := s.free
      let bs := (List.range n).map (fun i =>
        if readToo rows n (d.toNat + i) then Config.allocByte f 3 i else bs.getD i 0)
      match jobWrite { s with free := f + 1 } jid w none d bs with
      | .bad c s => .bad c s
      | .wait _ => .wait d .write
      | .ok _ s => copyRows jid w n b rows r s

/-! ### The steps of a channel (R299, R301) -/

def bteWho (s : State) (j : Job) : Who := device j.ctx j.user (ctxOf s j.ctx).secure

/-- The handle of a job. -/
def handleOf (j : Job) : Nat := match j.kind with | .bte _ h => h | _ => 0

/-- The Yard reads a job's record and knows its footprint; edges bind it and later jobs (R303, R304). -/
def loadRecord (s : State) (ch jid : Nat) (j : Job) : State :=
  let va := (ctxOf s j.ctx).recbase + BitVec.ofNat 64 (192 * handleOf j)
  let fail (s : State) (c : BitVec 6) : State := learnJob (mapJob s jid (fun j => { j with err := c, layout := some [] })) jid [] []
  match xlateAll s jid (device j.ctx false (ctxOf s j.ctx).secure) .read (pieces va 192) [] with
  | .wait s => s
  | .bad c s => fail s c
  | .ok ps s => match peekAll s jid ps [] with
    | .ok _ s =>
      let (b, s) := throughCache s (recKey j.ctx (handleOf j) (ch / 16)) ps
      learnJob (mapJob s jid (fun j => { j with layout := some b })) jid (regionsOf b [0, 1, 2, 3]) (regionsOf b [4, 5, 6, 7])
    | .bad c s => fail s c
    | .wait s => s

/-- A job of a channel completes. -/
def endBte (s : State) (ch jid : Nat) : State :=
  let b := bteOf s ch
  endJob { s with bte := tabPut s.bte ch { b with running := none, donecnt := b.donecnt + 1 } } jid

/-- SCOPE of a record (R300): device or system. -/
def recScope (b : List Byte) : Nat := if leNat b 92 4 % 4 = 2 then 6 else 5

/-- A DONE store at a scope: a release of the job, recorded as one (R301, R305, R318, R320). -/
def putDone (s : State) (jid scope : Nat) (va : Double) (pa : Nat) (x : Word) : State :=
  match jobOf s jid with
  | none => s
  | some j =>
    recordAll (memStore s pa (w32 x)) (partyOfJob jid j none) 0 0 [scope]
      [{ va := va, pa := pa, n := 4, rd := false, wr := true, kind := .sync scope }]

/-- The end of a BTE job: its DONE store; a fault sets STAT.ERR and the value is lost. -/
def storeDone (s : State) (ch jid : Nat) (w : Who) (b : List Byte) (va : Double) (x : Word) : State :=
  if va.toNat % 4 ≠ 0 then endBte (bteErr s ch) ch jid
  else match engXlate s jid w .write va with
  | .wait s => s
  | .bad _ s => endBte (bteErr s ch) ch jid
  | .ok pa s => endBte (putDone s jid (recScope b) va pa x) ch jid

def doneCause (c : BitVec 6) : Word := 0xC0000000#32 + c.setWidth 32

/-- The running job moves its bytes and stores DONE. -/
def runBte (s : State) (ch jid : Nat) (j : Job) (b : List Byte) : State :=
  let w := bteWho s j
  let done : Double := BitVec.ofNat 64 (leNat b 80 8)
  let stop (s : State) (c : BitVec 6) : State := storeDone s ch jid w b done (doneCause c)
  if j.err ≠ 0 ∧ b.isEmpty then endBte (bteErr s ch) ch jid
  else if !recordOk b then stop s 0x02#6
  else
    let n := leNat b 16 4
    let rows := bteRows b
    match absentRow s w n rows with
    | some (va, need) => requestPage s j.ctx va need true
    | none => match translate s w .write done with
      | .absent => requestPage s j.ctx done .write true
      | _ => match copyRows jid w n b rows rows s with
        | .ok s => storeDone s ch jid w b done (BitVec.ofNat 32 (leNat b 88 4))
        | .bad c s => stop s c
        | .wait va need => requestPage s j.ctx va need true

/-- BTE_JOB: a channel reads the records of the jobs it has accepted, starts the next one, runs it. -/
def execBteJob (ch : Nat) (s : State) : Out :=
  let b := bteOf s ch
  let ids := b.running.toList ++ b.queue
  match ids.findSome? (fun k => match jobOf s k with
      | some j => if j.layout.isNone then some (k, j) else none
      | none => none) with
  | some (k, j) => .next (loadRecord s ch k j)
  | none =>
    match b.running with
    | none => (match b.queue with
      | [] => .next s
      | k :: r => .next { s with bte := tabPut s.bte ch { b with queue := r, running := some k } })
    | some k => match jobOf s k with
      | none => .next { s with bte := tabPut s.bte ch { b with running := none } }
      | some j => if j.heldR || j.heldW then .next s else .next (runBte s ch k j (j.layout.getD []))

end Sys2Proof.Machine
end

