-- ==== Sys2Proof/Machine/FloatArith.lean ====
section
/-! DEFINITION. Sys2Proof/Machine/FloatArith.lean: the FP32 arithmetic words (R125–R129). -/

namespace Sys2Proof.Machine

open Sys2Proof

/-- A code and its flags as a lane's result. -/
def codeRes (x : Nat × FFlags) : LaneRes := resNat x.1 x.2

/-- fadd: a + b, rounded once (R125). -/
def execFadd (w : FrWord) (s : State) : Out :=
  runLanes (.fadd w) s (.reg w.d) (fun c l => codeRes (laneFadd .fp32 w.ds w.clamp (rndOf w.sel c.t.fmt) (srcF c.g w.a l w.nA w.aA) (srcF c.g w.b l w.nB w.aB)))

/-- fmul: a × b, rounded once (R125). -/
def execFmul (w : FrWord) (s : State) : Out :=
  runLanes (.fmul w) s (.reg w.d) (fun c l => codeRes (laneFmul .fp32 w.ds w.clamp (rndOf w.sel c.t.fmt) (srcF c.g w.a l w.nA w.aA) (srcF c.g w.b l w.nB w.aB)))

/-- ffma: a × b + c, rounded once (R125). -/
def execFfma (w : FrWord) (s : State) : Out :=
  runLanes (.ffma w) s (.reg w.d) (fun c l => codeRes (laneFfma .fp32 w.ds w.clamp (rndOf w.sel c.t.fmt) (srcF c.g w.a l w.nA w.aA) (srcF c.g w.b l w.nB w.aB) (srcF c.g w.c l w.nC w.aC)))

/-- fscale: a × 2^B (R125). -/
def execFscale (w : FrWord) (s : State) : Out :=
  runLanes (.fscale w) s (.reg w.d) (fun c l => codeRes (laneFscale w.ds w.clamp (rndOf w.sel c.t.fmt) (srcF c.g w.a l w.nA w.aA) (srcW c.g w.b l).toInt))

/-- fminmax: SEL 0 min, 1 max, 2 min.nan, 3 max.nan (R126). -/
def execFminmax (w : FrWord) (s : State) : Out :=
  runLanes (.fminmax w) s (.reg w.d) (fun c l => codeRes (minMaxCode .fp32 (bit w.sel 0) (bit w.sel 1) (srcF c.g w.a l w.nA w.aA) (srcF c.g w.b l w.nB w.aB)))

/-- fcmp: the comparison and PS (R127). -/
def execFcmp (w : FrWord) (s : State) : Out :=
  runLanes (.fcmp w) s (.pred w.d) (fun c l => 
    let x := laneFcmp w.sel (srcF c.g w.a l w.nA w.aA) (srcF c.g w.b l w.nB w.aB)
    resBool (x.1 && psGet c.g w.c l) x.2)

/-- frnd: the integral value nearest in the mode (R128). -/
def execFrnd (w : FrWord) (s : State) : Out :=
  runLanes (.frnd w) s (.reg w.d) (fun c l => codeRes (laneFrnd (rndOf w.sel c.t.fmt) (srcF c.g w.a l w.nA w.aA)))

/-- fclass: the class code of each element (R129). -/
def execFclass (w : FrWord) (s : State) : Out :=
  runLanes (.fclass w) s (.reg w.d) (fun c l => laneFclass w.typ (src c.g w.a l))

end Sys2Proof.Machine
end

