-- ==== Sys2Proof/Machine/Convert.lean ====
section
/-! DEFINITION. Sys2Proof/Machine/Convert.lean: conversion, packed arithmetic and the quantiser (R132–R134). -/

namespace Sys2Proof.Machine

open Sys2Proof

/-- The destination of cvt: one element of D, the others kept (R132). -/
def cvtPut (td : BitVec 4) (e : Nat) (d : Double) (x : Nat) : Double :=
  let w := tyWidth td
  if w ≥ 32 then BitVec.ofNat 64 x else BitVec.ofNat 64 (d.toNat - elem d e w * 2 ^ (e * w) + x % 2 ^ w * 2 ^ (e * w))

/-- cvt in one lane (R132). -/
def laneCvtFull (c : Go) (w : FrWord) (l : Nat) : LaneRes :=
  let ts : BitVec 4 := bits w.c 0 4
  let e := (bits w.c 4 3 : BitVec 3).toNat
  let a := if tyWidth ts = 64 then src2 c.g w.a l else src c.g w.a l
  let x := laneCvt w.typ ts w.ds w.clamp (rndOf w.sel c.t.fmt) a (if tyWidth ts < 32 then e else 0) w.nA w.aA
  ⟨cvtPut w.typ e (src c.g w.d l) x.1, x.2⟩

/-- hop2 on both halves (R133). -/
def laneHalves (c : Go) (w : FrWord) (op l : Nat) : LaneRes :=
  let f := tyFmt w.typ
  let m (neg abs : Bool) (r : BitVec 8) (i : Nat) : Nat := fMod f neg abs (elem (src c.g r l) i 16)
  codeRes (packElems 16 2 (fun i => laneHop2 w.typ op w.clamp (rndOf w.sel c.t.fmt) (m w.nA w.aA w.a i) (m w.nB w.aB w.b i)
    (m w.nC w.aC w.c i)))

/-- The quantiser's format of a TYPE (R64, R134). -/
def quantFmt (t : BitVec 4) : QFmt := if t = 6 then .i8 else if t = 7 then .i4 else .flt (tyFmt t)

/-- The block of qscale: A in the active lanes, +0 in the others. -/
def quantBlock (c : Go) (w : FrWord) : QResult :=
  quantise (quantFmt w.typ) (lanes.map (fun l => if c.act.getLsbD l then f32 (srcW c.g w.a l).toNat else f32 0))

/-- cvt: one element converted (R132). -/
def execCvt (w : FrWord) (s : State) : Out :=
  runLanes (.cvt w) s (if tyWidth w.typ = 64 then .pair w.d else .reg w.d) (fun c l => laneCvtFull c w l)

/-- hop2.add: both halves (R133). -/
def execHop2Add (w : FrWord) (s : State) : Out :=
  runLanes (.hop2Add w) s (.reg w.d) (fun c l => laneHalves c w 0 l)

/-- hop2.mul: both halves (R133). -/
def execHop2Mul (w : FrWord) (s : State) : Out :=
  runLanes (.hop2Mul w) s (.reg w.d) (fun c l => laneHalves c w 1 l)

/-- hop2.fma: both halves (R133). -/
def execHop2Fma (w : FrWord) (s : State) : Out :=
  runLanes (.hop2Fma w) s (.reg w.d) (fun c l => laneHalves c w 2 l)

/-- qscale: scale code × 2⁸ + element code (R134, R64). -/
def execQscale (w : FrWord) (s : State) : Out :=
  runLanes (.qscale w) s (.reg w.d) (fun c l => 
    let q := quantBlock c w
    resNat (q.scale * 256 + q.codes.getD l 0) (flIf (q.sat.getD l false) flSAT ||| flIf (q.nx.getD l false) flNX ||| flIf q.iv flIV))

end Sys2Proof.Machine
end

