-- ==== Sys2Proof/Machine/HostQueues.lean ====
section
/-! DEFINITION. Sys2Proof/Machine/HostQueues.lean: submission queues, completion rings, the event ring, BAR2
(R419–R426, R465, R368, R370). -/

namespace Sys2Proof.Machine

open Sys2Proof

/-! ### The queue registers (R421) -/

def sqReg (q off : Nat) : Nat := 0x10000 + 0x40 * q + off
def sqGet (s : State) (q off : Nat) : Nat := (hregGet s (sqReg q off)).toNat
def sqSet (s : State) (q off v : Nat) : State := hregSet s (sqReg q off) (BitVec.ofNat 64 v)
def sqEn (s : State) (q : Nat) : Bool := ofBit (sqGet s q 8) 16
def sqCtx (s : State) (q : Nat) : Nat := sqGet s q 8 % 256
/-- log₂ of the entries of a ring: a LSIZE below 4 acts as 4, above a bound as the bound. -/
def ringLog (v hi : Nat) : Nat := min hi (max v 4)
def sqSize (s : State) (q : Nat) : Nat := 2 ^ ringLog (sqGet s q 8 / 256 % 16) 15
def cqSize (s : State) (q : Nat) : Nat := 2 ^ ringLog (sqGet s q 0x20 % 32) 15
def cqFull (s : State) (q : Nat) : Bool := decide ((sqGet s q 0x28 + 65536 - sqGet s q 0x24) % 65536 = cqSize s q)

/-- BUSY. -/
def sqBusy (s : State) (q : Nat) : Bool :=
  sqEn s q || !(queueOf s q).recs.isEmpty ||
  s.levels.any (fun e => e.2.kind == .phase && e.2.queue == some q && !e.2.done)

/-- Write bytes of host memory. -/
def hostWriteMem (s : State) (a : Nat) (bs : List Byte) : State := { s with host := memWrite s.host a bs }

/-! ### MSI-X (R419) -/

/-- The table entry of a vector: message address, message data, vector control; its bit of the pending-bit array. -/
def msixEntry (v : Nat) : Nat := 0x20000 + 16 * v
def msixAddr (s : State) (v : Nat) : Nat :=
  (hregGet s (msixEntry v)).toNat % 2 ^ 32 / 4 * 4 + 2 ^ 32 * ((hregGet s (msixEntry v + 4)).toNat % 2 ^ 32)
def msixMasked (s : State) (v : Nat) : Bool := bit (hregGet s (msixEntry v + 12)) 0
def msixPba (v : Nat) : Nat := 0x21000 + 4 * (v / 32)
def setPending (s : State) (v : Nat) (on : Bool) : State := hregSet s (msixPba v) (setBit (hregGet s (msixPba v)) (v % 32) on)

/-- The MSI-X write of a vector: its data word at its address. -/
def sendMsi (s : State) (v : Nat) : State :=
  hostWriteMem { s with msi := tabSet 0 s.msi v (tabGet 0 s.msi v + 1) } (msixAddr s v) (bytesOf 4 (hregGet s (msixEntry v + 8)))

/-- Raise an MSI-X vector: its write, or its pending bit while it is masked (PCI Express; log entry 26). -/
def raiseMsi (s : State) (v : Nat) : State := if msixMasked s v then setPending s v true else sendMsi s v

/-- After a write of a vector's control: a pending vector that is no longer masked is sent. -/
def unmaskMsi (s : State) (o : Nat) : State :=
  let v := (o - 0x20000) / 16
  if 0x20000 ≤ o ∧ o < 0x20410 ∧ o % 16 = 12 ∧ !msixMasked s v ∧ bit (hregGet s (msixPba v)) (v % 32) then
    sendMsi (setPending s v false) v
  else s

/-! ### Enable and disable (R421, R422) -/

/-- SQCFG_ENABLE: ignored while BUSY. -/
def execSqcfgEnable (q : Nat) (s : State) : Out :=
  if !s.ready || sqBusy s q then .next s
  else
    let s := sqSet (sqSet (sqSet s q 0x14 0) q 0x28 0) q 8 (sqGet s q 8 + 65536)
    .next (bump (mapQueue s q (fun x => { x with tail := 0, job := none, phase := none, graph := none, skip := false })))

/-- Close an open level. -/
def closeLevel (s : State) (l : Option Nat) (f : Level → Level) : State :=
  match l with
  | none => s
  | some k => mapLevel s k (fun v => f { v with closed := true })

/-- The last phase of a job that has not completed. -/
def lastPhase (s : State) (job : Nat) : Option Nat :=
  (s.levels.filter (fun e => e.2.parent == some job && !e.2.done)).foldl (fun m e => match m with
    | none => some e.1
    | some k => some (max k e.1)) none

/-- SQCFG_DISABLE: packet reads stop, and any open job closes with TRUNC on its last phase. -/
def execSqcfgDisable (q : Nat) (s : State) : Out :=
  if !s.ready || !sqEn s q then .next s
  else
    let x := queueOf s q
    let s := sqSet s q 8 (sqGet s q 8 - 65536)
    let s := closeLevel (closeLevel (closeLevel s x.graph id) x.phase id) x.job id
    let s := match x.job with
      | none => s
      | some j => match lastPhase s j with
        | some k => mapLevel s k (fun v => { v with last := true, trunc := true })
        | none => s
    .next (bump (mapQueue s q (fun x => { x with job := none, phase := none, graph := none, skip := false })))

/-- SQTAIL_NOTIFY: entries up to a new tail may be read. -/
def execSqtailNotify (q tail : Nat) (s : State) : Out :=
  .next (if s.ready then mapQueue s q (fun x => { x with tail := BitVec.ofNat 16 tail }) else s)

/-! ### Copying an entry (R370, R375, R422, R425) -/

/-- The copy of the entry at HEAD: its bytes, and the cause of a read that meets poison (R374, R456). -/
def ringEntry (s : State) (q : Nat) : List Byte × BitVec 6 × State :=
  let b := sqGet s q 0
  let a := b / 128 * 128 + 128 * (sqGet s q 0x14 % sqSize s q)
  if b % 2 = 1 then
    let bad := isPoison s .mem 0 a 128
    let x := memLoad (if bad then mcheck s 3 (poisonAddr s a 128) (sqCtx s q) 0 0 else s) a 128
    (x.1, if bad then 0x3E else 0, x.2)
  else (memBytes s.host a 128, 0, s)

/-- The whole ring lies in secure regions of package memory: every entry is secure (R464, R465). -/
def ringSecure (s : State) (q : Nat) : Bool :=
  let b := sqGet s q 0
  decide (b % 2 = 1) && (List.range (sqSize s q)).all (fun k => secureAddr s (b / 128 * 128 + 128 * k))

def putLevel (s : State) (v : Level) : Nat × State := (s.nextId, { s with levels := tabPut s.levels s.nextId v, nextId := s.nextId + 1 })

/-- A member joins a level: cancelled from the start when the level is cancelled or has stopped (R375, R376), and counted once it is
accepted (R368). -/
def joinLevel (s : State) (up : Nat) (v : Level) : Nat × State :=
  let u := levelOf s up
  let dead := u.cancelled || u.stop
  let v := { v with parent := some up, ctx := u.ctx, cancelled := v.cancelled || dead, cause := if dead then 0x3D else v.cause }
  putLevel s v

/-- The open job of a queue, or a new one. -/
def openJob (s : State) (q : Nat) : Nat × State :=
  match (queueOf s q).job with
  | some j => (j, s)
  | none =>
    let n := (queueOf s q).next
    let marked := (queueOf s q).marks.contains n
    let (j, s) := putLevel s { kind := .job, ctx := sqCtx s q, jobSeq := n, queue := some q, cancelled := marked,
                               cause := if marked then 0x3D else 0 }
    (j, mapQueue s q (fun x => { x with job := some j, next := if n + 1 = 0 then 1 else n + 1, marks := x.marks.filter (fun m => m != n),
                                        skip := marked }))

/-- The open phase of a job, or a new one. -/
def openPhase (s : State) (q j : Nat) : Nat × State :=
  match (queueOf s q).phase with
  | some p => (p, s)
  | none =>
    let idx := (s.levels.filter (fun e => e.2.parent == some j)).length
    let (p, s) := joinLevel s j { kind := .phase, index := idx, queue := some q }
    (p, mapQueue s q (fun x => { x with phase := some p }))

/-- The open graph of a phase, or a new one. -/
def openGraph (s : State) (q p : Nat) : Nat × State :=
  match (queueOf s q).graph with
  | some g => (g, s)
  | none =>
    let (g, s) := joinLevel s p { kind := .graph }
    (g, mapQueue s q (fun x => { x with graph := some g }))

/-- The launch of a packet joins its graph; one that must not run is complete at once, cancelled. -/
def joinLaunch (s : State) (q g : Nat) (b : List Byte) (err : BitVec 6) : State :=
  let v : Level := { kind := .launch, raw := b, copyErr := err, pkt := packetOf b, ring := ringSecure s q }
  let gr := levelOf s g
  let dead := gr.cancelled || (v.pkt.depMask &&& gr.failed) != 0
  let v := if dead then { v with cancelled := true, cause := 0x3D, placed := v.pkt.nUnits } else v
  let s := (joinLevel s g v).2
  if dead then mapLevel s g (fun u => { u with failed := u.failed ||| (1#64 <<< v.pkt.node) }) else s

/-- The marks of a packet close what they end; PEND closes the graph, JEND the phase and the graph. -/
def closeMarks (s : State) (q : Nat) (p : Packet) : State :=
  let x := queueOf s q
  let g := p.gend || p.pend || p.jend
  let h := p.pend || p.jend
  let s := if g then closeLevel s x.graph id else s
  let s := if h then closeLevel s x.phase (fun v => { v with last := v.last || p.jend }) else s
  let s := if p.jend then closeLevel s x.job id else s
  mapQueue s q (fun x => { x with graph := if g then none else x.graph, phase := if h then none else x.phase,
                                  job := if p.jend then none else x.job })

/-- The first packet of a job marked cancelled: the job is complete, with one record. -/
def dropJob (s : State) (q j : Nat) : State :=
  let (p, s) := joinLevel s j { kind := .phase, queue := some q, last := true, cancelled := true }
  closeLevel (closeLevel s (some p) id) (some j) id

/-- SQ_ENTRY_COPY: the Yard copies the entry at HEAD. -/
def execSqEntryCopy (q : Nat) (s : State) : Out :=
  let x := queueOf s q
  let head := sqGet s q 0x14
  if !s.ready || !sqEn s q || head == x.tail.toNat || cqFull s q then .next s
  else
    let (b, err, s) := ringEntry s q
    let p := packetOf b
    let s := sqSet s q 0x14 ((head + 1) % 65536)
    if x.skip then .next (bump (if p.jend then mapQueue s q (fun x => { x with skip := false, job := none }) else s))
    else
      let (j, s) := openJob s q
      if (queueOf s q).skip then
        .next (bump (mapQueue (dropJob s q j) q (fun x => { x with skip := !p.jend, job := none })))
      else
        let (ph, s) := openPhase s q j
        let (g, s) := openGraph s q ph
        .next (bump (closeMarks (joinLaunch s q g b err) q p))

/-! ### Completion records (R424) -/

/-- PH: 1 on odd passes through a ring, the first pass being 1. -/
def phBit (tail size : Nat) : Bool := tail / size % 2 == 0

/-- CQ_RECORD_WRITE: the oldest waiting record, CQTAIL, then the vector. -/
def execCqRecordWrite (q : Nat) (s : State) : Out :=
  match (queueOf s q).recs with
  | [] => .next s
  | r :: rest =>
    if cqFull s q then .next s
    else
      let tail := sqGet s q 0x28
      let size := cqSize s q
      let r := r.set 6 (setBit (r.getD 6 0) 7 (phBit tail size))
      let s := hostWriteMem s (sqGet s q 0x18 / 64 * 64 + 16 * (tail % size)) r
      let s := sqSet s q 0x28 ((tail + 1) % 65536)
      let s := if ofBit (sqGet s q 0x20) 8 then raiseMsi s q else s
      .next (bump (markReady (mapQueue s q (fun x => { x with recs := rest }))))

/-! ### SQCANCEL (R425) -/

/-- SQCANCEL: a job that is accepted is cancelled, one that has not begun is marked. -/
def execSqcancel (q n : Nat) (s : State) : Out :=
  let w : Word := BitVec.ofNat 32 n
  if !s.ready || w = 0 then .next s
  else match tabFirst s.levels (fun _ v => v.kind == .job && v.queue == some q && v.jobSeq == w && !v.done) with
  | some (j, _) => .next (cancelLevel s j 0x3D)
  | none =>
    if (w - (queueOf s q).next).toNat < 2 ^ 31 then
      .next (mapQueue s q (fun x => { x with marks := if x.marks.contains w then x.marks else w :: x.marks }))
    else .next s

/-! ### The event ring (R426) -/

def evGet (s : State) (off : Nat) : Nat := (hregGet s (0x11000 + off)).toNat

def eventBytes (e : EventRec) (ph : Bool) : List Byte :=
  [BitVec.ofNat 8 e.typ, BitVec.ofNat 8 e.ctx, e.cause.setWidth 8, if ph then 0x80 else 0] ++ bytesOf 2 (BitVec.ofNat 16 e.core) ++
  [BitVec.ofNat 8 e.slot, 0] ++ w64 e.addr

/-- EVENT_RECORD_POST: the oldest event is written, or dropped and counted when the ring is full. -/
def execEventRecordPost (s : State) : Out :=
  match s.events with
  | [] => .next s
  | e :: r =>
    let s := { s with events := r }
    let size := 2 ^ ringLog (evGet s 8 % 32) 15
    let tail := evGet s 0x10
    if (tail + 65536 - evGet s 0xC) % 65536 = size then .next (countUp s 0x11014)
    else
      let s := hostWriteMem s (evGet s 0 / 16 * 16 + 16 * (tail % size)) (eventBytes e (phBit tail size))
      let s := hregSet s 0x11010 (BitVec.ofNat 64 ((tail + 1) % 65536))
      .next (if ofBit (evGet s 8) 8 then raiseMsi s 64 else s)

/-! ### BAR2 (R420) -/

/-- The package address of a BAR2 offset. -/
def bar2Addr (s : State) (off : Nat) : Nat := (hregGet s 0x44000).toNat / 2 ^ 36 * 2 ^ 36 + off
/-- Some byte of a request is secure. -/
def bar2Secure (s : State) (pa n : Nat) : Bool := (List.range n).any (fun i => secureAddr s (pa + i))

/-- What a BAR2 read of `n` bytes returns: memory with the Trough folded, zeros where nothing backs it or where it is refused; of the
BTE aperture what a load there returns (log entry 94). -/
def bar2Read (s : State) (off n : Nat) : List Byte :=
  let pa := bar2Addr s off
  if !s.ready || bar2Secure s pa n then List.replicate n 0
  else if inAperture pa then bteRead s pa n
  else viewRead s pa n

/-- BAR2_ACCESS: a host request of `n` bytes at an offset; `data` are the bytes of a write, none for a read, whose bytes `bar2Read` gives. -/
def execBar2Access (off n : Nat) (data : Option (List Byte)) (s : State) : Out :=
  let pa := bar2Addr s off
  if !s.ready then .next s
  else if bar2Secure s pa n then .next (countUp s cSecdrop)
  else match data with
    | some bs => .next (bump (memStore s pa (bs.take n)))
    | none => .next (memTouch s pa n)

end Sys2Proof.Machine
end

