-- ==== Sys2Proof/Machine/Links.lean ====
section
/-! DEFINITION. Sys2Proof/Machine/Links.lean: the Vartur Link: flits, replay, link command rings, PUT, the compositing collectives, lanes
and ports (R430–R438, R462). -/

namespace Sys2Proof.Machine

open Sys2Proof

/-! ### Ports and flits (R430–R432) -/

def portOf (s : State) (p : Nat) : Port := tabGet {} s.ports p
def mapPort (s : State) (p : Nat) (f : Port → Port) : State := { s with ports := tabPut s.ports p (f (portOf s p)) }
def portReg (p off : Nat) : Nat := 0x51000 + 0x20 * p + off
def portUp (s : State) (p : Nat) : Bool := bit (hregGet s (portReg p 0)) 31

/-- A flit: SEQ, ACK, then bytes 4–251, then the CRC. -/
def flitOf (seq ack : BitVec 16) (body : List Byte) : List Byte :=
  let b := bytesOf 2 seq ++ bytesOf 2 ack ++ (body ++ List.replicate 248 0).take 248
  b ++ w32 (crc32 b)

/-- Bytes 4–251 of a flit: TYPE, class, payload. -/
def flitBody (typ cls : Nat) (pay : List Byte) : List Byte :=
  [BitVec.ofNat 8 typ, BitVec.ofNat 8 cls] ++ bytesOf 2 (BitVec.ofNat 16 pay.length) ++ pay

/-- The highest number delivered in order. -/
def ackNo (p : Port) : BitVec 16 := p.expect - 1

/-- Retransmit one flit named in a NAK or by the timer. -/
def resend (s : State) (p : Nat) : State :=
  let x := portOf s p
  match x.again with
  | [] => s
  | n :: r => match x.unacked.find? (fun u => u.1 == n) with
    | none => mapPort s p (fun x => { x with again := r })
    | some u =>
      mapPort (countUp s (portReg p 8)) p (fun x =>
        { x with again := r, line := flitOf n (ackNo x) u.2.2,
                 unacked := x.unacked.map (fun y => if y.1 = n then (y.1, s.clk, y.2.2) else y) })

/-- LINK_FLIT_SEND: a retransmission first, else a new data flit within the replay window. -/
def execLinkFlitSend (p : Nat) (s : State) : Out :=
  let x := portOf s p
  if !portUp s p then .next s
  else if !x.again.isEmpty then .next (resend s p)
  else match x.txq with
  | [] => .next s
  | (cls, pay) :: r =>
    let oldest := (x.unacked.head?.map (·.1)).getD x.next
    if (x.next - oldest).toNat ≥ 512 then .next s
    else
      let body := flitBody 1 cls pay
      .next (mapPort s p (fun x => { x with txq := r, next := x.next + 1, unacked := x.unacked ++ [(x.next, s.clk, body)],
                                            line := flitOf x.next (ackNo x) body }))

/-- Forget the flits that an ACK covers. -/
def takeAck (x : Port) (a : BitVec 16) : Port :=
  let keep (n : BitVec 16) : Bool := decide ((a - n).toNat ≥ 2 ^ 15)
  { x with unacked := x.unacked.filter (fun u => keep u.1), again := x.again.filter keep }

/-- Deliver, in order, what is held. -/
def deliverHeld : Nat → Port → Port
  | 0, x => x
  | n + 1, x => match x.held.find? (fun h => h.1 == x.expect) with
    | none => x
    | some h => deliverHeld n { x with expect := x.expect + 1, held := x.held.filter (fun y => y.1 != h.1),
                                       named := x.named.filter (fun y => y != h.1), inbox := x.inbox ++ [(h.2.1, h.2.2)] }

/-- Control flits carry the number the sender uses next. -/
def sendControl (x : Port) (typ : Nat) (pay : List Byte) : Port := { x with line := flitOf x.next (ackNo x) (flitBody typ 0 pay) }

/-- The numbers a NAK names: expected, not held, not named before; at most eight. -/
def nakList (x : Port) (d : Nat) : List (BitVec 16) :=
  (((List.range d).map (fun i => x.expect + BitVec.ofNat 16 i)).filter (fun n =>
    !x.named.contains n && !(x.held.any (fun h => h.1 == n)))).take 8

/-- A data flit arrives. -/
def takeData (x : Port) (m : BitVec 16) (cls : Nat) (pay : List Byte) : Port :=
  let d := (m - x.expect).toNat
  if d = 0 then
    sendControl (deliverHeld 513 { x with expect := x.expect + 1, named := x.named.filter (fun y => y != m),
                                          inbox := x.inbox ++ [(cls, pay)] }) 0 []
  else if d < 512 then
    let x := if x.held.any (fun h => h.1 == m) then x else { x with held := x.held ++ [(m, cls, pay)] }
    let ns := nakList x d
    if ns.isEmpty then x else sendControl { x with named := x.named ++ ns } 2 (ns.flatMap (bytesOf 2))
  else sendControl x 0 []

/-- The numbers a NAK asks for again. -/
def takeNak (x : Port) (pay : List Byte) : Port :=
  let ns := (List.range (min 8 (pay.length / 2))).map (fun i => BitVec.ofNat 16 (leNat pay (2 * i) 2))
  { x with again := ns.foldl (fun l n => if l.contains n || !(x.unacked.any (fun u => u.1 == n)) then l else l ++ [n]) x.again }

/-- LINK_FLIT_RECEIVE: 256 bytes arrive at a port. -/
def execLinkFlitReceive (p : Nat) (bs : List Byte) (s : State) : Out :=
  if !portUp s p then .next s
  else if bs.length ≠ 256 ∨ crc32 (bs.take 252) ≠ nat32 bs 252 ∨ leNat bs 4 1 ≥ 3 then .next (countUp s (portReg p 4))
  else
    let pay := (bs.drop 8).take (min 244 (leNat bs 6 2))
    let m : BitVec 16 := BitVec.ofNat 16 (leNat bs 0 2)
    .next (bump (mapPort s p (fun x =>
      let x := takeAck x (BitVec.ofNat 16 (leNat bs 2 2))
      match leNat bs 4 1 with
      | 1 => takeData x m (leNat bs 5 1 % 4) pay
      | 2 => takeNak x pay
      | _ => x)))

/-- LINK_REPLAY_TIMEOUT: the oldest flit has stayed unacknowledged for 4 µs. -/
def execLinkReplayTimeout (p : Nat) (s : State) : Out :=
  match (portOf s p).unacked with
  | [] => .next s
  | (n, t, _) :: _ =>
    if s.clk.toNat < t.toNat + 4000 ∨ (portOf s p).again.contains n then .next s
    else .next (resend (mapPort (countUp s (portReg p 0xC)) p (fun x => { x with again := n :: x.again })) p)

/-! ### The command rings (R433) -/

def lqReg (r off : Nat) : Nat := 0x50000 + 0x20 * r + off
def lqGet (s : State) (r off : Nat) : Nat := (hregGet s (lqReg r off)).toNat
def lqSet (s : State) (r off v : Nat) : State := hregSet s (lqReg r off) (BitVec.ofNat 64 v)
def lqEn (s : State) (r : Nat) : Bool := ofBit (lqGet s r 8) 16
def lqCtx (s : State) (r : Nat) : Nat := lqGet s r 8 % 256
def lringOf (s : State) (r : Nat) : LinkRing := tabGet {} s.lrings r
def mapLring (s : State) (r : Nat) (f : LinkRing → LinkRing) : State := { s with lrings := tabPut s.lrings r (f (lringOf s r)) }
/-- A command uses the addresses of its job's context. -/
def cmdWho (s : State) (k : LinkCmd) : Who := device k.ctx true (ctxOf s k.ctx).secure

def lqError (s : State) (k : LinkCmd) (c : BitVec 6) : State := pushEvent s { typ := 5, ctx := k.ctx, cause := c }

/-- The DONE store of a command that has ended, once its page is resident; then its job completes (R301, R433). -/
def cmdDone (s : State) (r : Nat) (k : LinkCmd) (c : BitVec 6) : State :=
  let va : Double := BitVec.ofNat 64 (leNat k.bytes 56 8)
  let x : Word := if c = 0 then BitVec.ofNat 32 (leNat k.bytes 52 4) else doneCause c
  let finish (s : State) : State := endJob (mapLring s r (fun l => { l with cmd := none, coll := [] })) k.job
  if va.toNat % 4 ≠ 0 then finish (lqError s k 0x14#6)
  else match engXlate s k.job (cmdWho s k) .write va with
  | .wait s => s
  | .bad e s => finish (lqError s k e)
  | .ok pa s => finish (putDone s k.job 6 va pa x)

/-- The running command ends with a cause: the event of an error, then its DONE store. -/
def endCmd (s : State) (r : Nat) (k : LinkCmd) (c : BitVec 6) : State :=
  let s := if c = 0 ∨ c = 0x3D then s else lqError s k c
  let k := { k with ended := some c }
  cmdDone (mapLring s r (fun l => { l with cmd := some k })) r k c

/-- LQCFG_ENABLE: the head and the tail return to 0. -/
def execLqcfgEnable (r : Nat) (s : State) : Out :=
  if !s.ready || lqEn s r then .next s
  else .next (mapLring (lqSet (lqSet s r 0x10 0) r 8 (lqGet s r 8 + 65536)) r (fun l => { l with tail := 0 }))

/-- LQCFG_DISABLE: the running command stops with CANCELLED, the rest are discarded. -/
def execLqcfgDisable (r : Nat) (s : State) : Out :=
  if !s.ready || !lqEn s r then .next s
  else
    let s := lqSet s r 8 (lqGet s r 8 - 65536)
    let s := match (lringOf s r).cmd with
      | some k => if k.ended.isSome then s else endCmd s r k 0x3D
      | none => s
    .next (bump (mapLring s r (fun l => { l with tail := BitVec.ofNat 16 (lqGet s r 0x10) })))

/-- LQTAIL_NOTIFY: new commands may be taken. -/
def execLqtailNotify (r tail : Nat) (s : State) : Out :=
  .next (if s.ready then mapLring s r (fun l => { l with tail := BitVec.ofNat 16 tail }) else s)

/-- The command at the head of a ring, when there is one. LQBASE is a package physical address: the device reads the ring itself, and no
region check applies to that read, also where the ring lies in a secure region and CTX is non-secure (DESIGN CHOICE, log entry 102). -/
def headAddr (s : State) (r : Nat) : Nat := lqGet s r 0 + 64 * (lqGet s r 0x10 % 2 ^ ringLog (lqGet s r 8 / 256 % 16) 12)
def headCmd (s : State) (r : Nat) : Option (List Byte) :=
  if !lqEn s r || lqGet s r 0x10 == (lringOf s r).tail.toNat then none
  else some (viewRead s (headAddr s r) 64)

def tileSide (code : Nat) : Nat := 4 * 2 ^ code
def shards (b : List Byte) : Nat := leNat b 2 1
def tilesOf (b : List Byte) : Nat := leNat b 4 4
/-- Bytes of a tile's records. -/
def tileBytes (b : List Byte) : Nat := 16 * tileSide (leNat b 3 1 % 4) ^ 2

/-- The footprint of a command (R435, R437). -/
def cmdReads (b : List Byte) : List Range :=
  if leNat b 0 1 = 1 then [⟨leNat b 8 8, leNat b 4 4, none⟩]
  else [⟨leNat b 8 8, tilesOf b * tileBytes b, none⟩, ⟨leNat b 16 8, shards b * tilesOf b, none⟩, ⟨leNat b 32 8, shards b, none⟩] ++
    (if leNat b 0 1 = 3 then [⟨leNat b 40 8, tilesOf b * tileBytes b, none⟩] else [])
def cmdWrites (b : List Byte) : List Range := if leNat b 0 1 = 1 then [] else [⟨leNat b 24 8, tilesOf b * tileBytes b, none⟩]

/-- Take the command at the head: it becomes the running one, an engine job of the ring's context. -/
def takeCmd (s : State) (r : Nat) (b : List Byte) : State :=
  let s := lqSet s r 0x10 ((lqGet s r 0x10 + 1) % 65536)
  let (jid, s) := acceptJob s { kind := .link r, ctx := lqCtx s r, reads := cmdReads b, writes := cmdWrites b }
  mapLring s r (fun l => { l with cmd := some { bytes := b, job := jid, ctx := lqCtx s r, at_ := s.clk } })

/-- What stops a command before it does anything (R434, R435). -/
def cmdCause (s : State) (b : List Byte) : Option (BitVec 6) :=
  let op := leNat b 0 1
  if op = 0 ∨ op ≥ 4 then some 0x01#6
  else if !(if op = 1 then zeroBytes b 2 2 && zeroBytes b 24 28 else if op = 2 then leNat b 3 1 / 4 == 0 && zeroBytes b 40 8 else leNat b 3 1 / 4 == 0) ||
      decide (leNat b 52 4 ≥ 2 ^ 30) then some 0x02#6
  else if op = 1 then
    (if leNat b 1 1 > 5 ∨ leNat b 4 4 = 0 ∨ leNat b 4 4 > 2 ^ 30 then some 0x02#6
     else if !portUp s (leNat b 1 1) then some 0x3E#6 else none)
  else if leNat b 1 1 > 63 ∨ shards b = 0 ∨ shards b > 64 ∨ leNat b 3 1 % 4 = 3 ∨ tilesOf b = 0 ∨ tilesOf b > 2 ^ 20 then some 0x02#6
  else none

/-- The command that a ring runs, or the next one taken; then what it does. -/
def withCmd (s : State) (r : Nat) (mine : Nat → Bool) (k : State → LinkCmd → Out) : Out :=
  match (lringOf s r).cmd with
  | some c => match c.ended with
    | some e => .next (cmdDone s r c e)
    | none => if mine (leNat c.bytes 0 1) then k s c else .next s
  | none => match headCmd s r with
    | none => .next s
    | some b =>
      if !mine (leNat b 0 1) then .next s
      else
        let bad := isPoison s .mem 0 (headAddr s r) 64
        let s := if bad then mcheck s 3 (poisonAddr s (headAddr s r) 64) (lqCtx s r) 0 0 else s
        let s := takeCmd (memTouch s (headAddr s r) 64) r b
        match (if bad then some 0x3E#6 else cmdCause s b), (lringOf s r).cmd with
        | some c, some k => .next (endCmd (if c = 0x3E ∧ !bad then mcheck s 6 0 (lqCtx s r) 0 0 else s) r k c)
        | _, _ => .next s

/-! ### PUT (R435) -/

/-- Payloads of a PUT; `t` names the PUT, and its acknowledgements repeat it. -/
def putPays (t dst : Nat) : Nat → List Byte → Nat → List (Nat × List Byte)
  | 0, _, _ => []
  | f + 1, bs, off =>
    let n := max (min Config.putChunk 244) 1
    if bs.isEmpty then []
    else (0, Config.putPayload t (dst + off) (bs.take n)) :: putPays t dst f (bs.drop n) (off + n)

/-- The name of a PUT: its ring and its job. -/
def putTag (r : Nat) (k : LinkCmd) : Nat := 8 * k.job + r % 8
/-- An acknowledgement counts down the PUT that it names, and no later one of the ring. -/
def takePutAck (t : Nat) (c : BitVec 6) (l : LinkRing) : LinkRing :=
  { l with cmd := l.cmd.map (fun k =>
      if k.job = t / 8 then { k with left := k.left - 1, err := if k.err = 0 then c else k.err } else k) }

/-- A job held by an edge. -/
def jobHeld (s : State) (jid : Nat) : Bool := match jobOf s jid with | some j => j.heldR || j.heldW | none => false

/-- PUT: the next command of a ring is taken; its bytes are read and queued on the port; when every payload is acknowledged the
command ends. A command with no OP of its own is taken here too. -/
def execPut (r : Nat) (s : State) : Out :=
  withCmd s r (fun op => op != 2 && op != 3) (fun s k =>
    let p := leNat k.bytes 1 1
    if k.err ≠ 0 ∧ k.left = 0 then .next (endCmd s r k k.err)
    else match jobOf s k.job with
    | none => .next s
    | some j =>
      if j.readDone then .next (if k.left = 0 then endCmd s r k k.err else s)
      else if jobHeld s k.job then .next s
      else match jobRead s k.job (cmdWho s k) none (BitVec.ofNat 64 (leNat k.bytes 8 8)) (leNat k.bytes 4 4) with
      | .wait s => .next s
      | .bad c s => .next (endCmd s r k c)
      | .ok bs s =>
        let ps := putPays (putTag r k) (leNat k.bytes 16 8) bs.length bs 0
        let s := mapPort s p (fun x => { x with txq := x.txq ++ ps })
        let s := mapJob s k.job (fun j => { j with readDone := true })
        .next (bump (mapLring s r (fun l => { l with cmd := some { k with left := ps.length } }))))

/-- The first refusal of the bytes of an arriving PUT, and the bytes that may be written (R435, R464). -/
def putRefusal (s : State) (p a : Nat) : Option (BitVec 6) :=
  let base := (hregGet s (portReg p 0x10)).toNat
  let lim := (hregGet s (portReg p 0x18)).toNat
  if a < base ∨ lim ≤ a then some 0x12#6 else if secureAddr s a then some 0x13#6 else none

/-- A collective flit goes to its rank: to the ring whose collective it is, on by the port that ROUTE names, or it waits until the
collective is posted here (R437). One that no port of a trained link takes is lost, as LTMO then shows. -/
def routeColl (s : State) (pay : List Byte) : State :=
  let (coll, _, dst) := Config.collOf pay
  match (List.range 8).find? (fun r => match (lringOf s r).route with | some x => x.1 == coll | none => false) with
  | none => { s with collHeld := s.collHeld ++ [pay] }
  | some r => match (lringOf s r).route with
    | none => s
    | some (_, rank, route) =>
      if dst = rank then mapLring s r (fun l => { l with coll := l.coll ++ [pay] })
      else if portUp s (leNat route dst 1) then mapPort s (leNat route dst 1) (fun x => { x with txq := x.txq ++ [(2, pay)] })
      else s

/-- PUT_ARRIVAL: the oldest delivered payload of a port: a request writes the accepted bytes and is acknowledged; a response
counts down the PUT it answers; a collective flit is taken or forwarded. -/
def execPutArrival (p : Nat) (s : State) : Out :=
  match (portOf s p).inbox with
  | [] => .next s
  | (cls, pay) :: rest =>
    let s := mapPort s p (fun x => { x with inbox := rest })
    match cls with
    | 0 =>
      let (tag, dst, bs) := Config.putOf pay
      let bad := (List.range bs.length).filterMap (fun i => putRefusal s p (dst + i))
      let ok := (List.range bs.length).filter (fun i => (putRefusal s p (dst + i)).isNone)
      let s := if bad.contains 0x13#6 then countUp s cSecdrop else s
      let s := if ok.any (fun i => !backed s (dst + i) && !inAperture (dst + i)) then countUp s cUnback else s
      let s := ok.foldl (fun s i => memPut (foldRange s (dst + i) 1) (dst + i) [bs.getD i 0]) s
      .next (bump (mapPort s p (fun x => { x with txq := x.txq ++ [(1, Config.ackPayload tag (bad.headD 0))] })))
    | 1 =>
      let (tag, c) := Config.ackOf pay
      .next (bump (mapLring s (tag % 8) (takePutAck tag c)))
    | 2 => .next (bump (routeColl s pay))
    | _ => .next s

/-! ### The compositing collectives (R436–R438) -/

/-- A partial record: three colours and T. -/
abbrev Part := List Word
def laidOn (a b : Part) : Part :=
  let ch (k : Nat) : Word := rne (addN [fpv (a.getD k 0), mulN [fpv (a.getD 3 0), fpv (b.getD k 0)]])
  [ch 0, ch 1, ch 2, rne (mulN [fpv (a.getD 3 0), fpv (b.getD 3 0)])]

/-- Some full binary tree over the records in their order; the device chooses the shape. -/
def overTree : Nat → Nat → List Part → Part
  | 0, _, l => l.headD [0, 0, 0, 0x3F800000]
  | f + 1, c, l =>
    match l with
    | [] => [0, 0, 0, 0x3F800000]
    | [x] => x
    | _ =>
      let k := 1 + Config.choice c % (l.length - 1)
      laidOn (overTree f (2 * c + 1) (l.take k)) (overTree f (2 * c + 2) (l.drop k))

/-- A rank's view of the collective, its own or another's. -/
def selfPeer (b part order grad route : List Byte) : Peer :=
  { rank := leNat b 1 1, op := leNat b 0 1, shards := shards b, tiles := tilesOf b, tile := leNat b 3 1 % 4, coll := leNat b 48 4,
    part := part, order := order, grad := grad, route := route }

def recordAt (bs : List Byte) (k : Nat) : Part := (List.range 4).map (fun i => nat32 bs (16 * k + 4 * i))
def orderRow (p : Peer) (t : Nat) : List Nat := (List.range p.shards).map (fun i => leNat p.order (p.shards * t + i) 1)
/-- Every ORDER row is a permutation of 0 … S − 1, and the ROUTE byte of the rank itself is 0xFF. -/
def rowsOk (p : Peer) : Bool :=
  leNat p.route p.rank 1 == 255 && (List.range p.tiles).all (fun t => (List.range p.shards).all (fun r => (orderRow p t).contains r))
def sameHeader (a b : Peer) : Bool := a.op == b.op && a.shards == b.shards && a.tiles == b.tiles && a.tile == b.tile

/-- The partial of rank `r` for a pixel. -/
def partOf (ps : List Peer) (r k : Nat) : Part := match ps.find? (fun p => p.rank == r) with | some p => recordAt p.part k | none => []

/-- What this rank writes for pixel k of tile t; nothing for COMP away from the home rank. -/
def compPixel (me : Peer) (ps : List Peer) (f t k : Nat) : Option Part :=
  let home := t % me.shards
  let row := match ps.find? (fun p => p.rank == home) with | some p => orderRow p t | none => []
  if me.op = 2 then
    (if me.rank = home then some (overTree (row.length + 1) (f + k) (row.map (fun r => partOf ps r k))) else none)
  else
    let j := (row.findIdx? (fun r => r == me.rank)).getD 0
    let back := (row.drop (j + 1)).map (fun r => partOf ps r k)
    let front := (row.take j).map (fun r => partOf ps r k)
    let c := if back.isEmpty then [0, 0, 0] else (overTree (back.length + 1) (f + 2 * k) back).take 3
    some (c ++ [(overTree (front.length + 1) (f + 2 * k + 1) front).getD 3 0x3F800000])

/-- Write the pixels of the results in order. -/
def compWrite (r : Nat) (c : LinkCmd) (me : Peer) (ps : List Peer) (f : Nat) : List (Nat × Nat) → State → BteRes
  | [], s => .ok s
  | (t, k) :: rest, s =>
    match compPixel me ps f t k with
    | none => compWrite r c me ps f rest s
    | some ws =>
      let va : Double := BitVec.ofNat 64 (leNat c.bytes 24 8 + 16 * k)
      match jobWrite s c.job (cmdWho s c) none va (ws.flatMap w32) with
      | .ok _ s => compWrite r c me ps f rest s
      | .bad e s => .bad e s
      | .wait _ => .wait va .write

/-- The local inputs of a collective. -/
def compInputs (s : State) (c : LinkCmd) : EngRes Peer :=
  let b := c.bytes
  let w := cmdWho s c
  let rd (s : State) (off n : Nat) : EngRes (List Byte) := jobRead s c.job w none (BitVec.ofNat 64 (leNat b off 8)) n
  match rd s 8 (tilesOf b * tileBytes b) with
  | .bad e s => .bad e s
  | .wait s => .wait s
  | .ok part s => match rd s 16 (shards b * tilesOf b) with
    | .bad e s => .bad e s
    | .wait s => .wait s
    | .ok order s => match rd s 32 (shards b) with
      | .bad e s => .bad e s
      | .wait s => .wait s
      | .ok route s => match (if leNat b 0 1 = 3 then rd s 40 (tilesOf b * tileBytes b) else .ok [] s) with
        | .bad e s => .bad e s
        | .wait s => .wait s
        | .ok grad s => .ok (selfPeer b part order grad route) s

/-- The pixels of the command: tile and record number. -/
def compPixels (b : List Byte) : List (Nat × Nat) :=
  (List.range (tilesOf b)).flatMap (fun t => (List.range (tileBytes b / 16)).map (fun i => (t, tileBytes b / 16 * t + i)))

/-- The ports that a collective sends on: those toward the other ranks. -/
def compPorts (me : Peer) : List Nat :=
  ((List.range me.shards).filter (fun q => q != me.rank)).map (fun q => leNat me.route q 1)

/-- A collective sends its header and data to every other rank, and what has waited for it here is taken or forwarded (R437). -/
def sendColl (s : State) (r : Nat) (c : LinkCmd) (me : Peer) : State :=
  let head := [me.rank, me.op, me.shards, me.tiles, me.tile, me.coll]
  let held := s.collHeld
  let s := mapLring { s with collHeld := [] } r (fun l =>
    { l with cmd := some { c with sent := true }, route := some (me.coll, me.rank, me.route), coll := [] })
  let s := ((List.range me.shards).filter (fun q => q != me.rank)).foldl (fun s q =>
    mapPort s (leNat me.route q 1) (fun x =>
      { x with txq := x.txq ++ (Config.collFlits q head [me.part, me.order, me.grad, me.route]).map (fun p => (2, p)) })) s
  bump (held.foldl routeColl s)

/-- What the flits that have come from one rank say. -/
def peerFrom (ps : List (List Byte)) (src : Nat) : Option Peer :=
  (Config.collPeer (ps.filter (fun p => (Config.collOf p).2.1 == src))).map (fun x =>
    { rank := x.1.getD 0 0, op := x.1.getD 1 0, shards := x.1.getD 2 0, tiles := x.1.getD 3 0, tile := x.1.getD 4 0, coll := x.1.getD 5 0,
      part := x.2.getD 0 [], order := x.2.getD 1 [], grad := x.2.getD 2 [], route := x.2.getD 3 [] })
/-- The ranks whose flits have all come. -/
def peersHere (s : State) (r : Nat) : List Peer :=
  let ps := (lringOf s r).coll
  ((ps.map (fun p => (Config.collOf p).2.1)).eraseDups).filterMap (peerFrom ps)

/-- A collective takes its command, sends what it has, waits for every other rank, and writes. What the other ranks say comes in flits;
`peers` are ranks of which the outside says it at once (log entry 13). A command one of whose ports is down stops (R435, R462). -/
def collective (op r : Nat) (peers : List Peer) (s : State) : Out :=
  withCmd s r (fun x => x == op) (fun s c =>
    if jobHeld s c.job then .next s
    else match compInputs s c with
    | .wait s => .next s
    | .bad e s => .next (endCmd s r c e)
    | .ok me s' =>
      if (compPorts me).any (fun p => !portUp s' p) then .next (endCmd (mcheck s' 6 0 c.ctx 0 0) r c 0x3E#6) else
      if !c.sent && me.shards != 1 then .next (sendColl s' r c me) else
      let others := (peersHere s' r ++ peers).filter (fun p => p.coll == me.coll)
      if others.any (fun p => !sameHeader me p) || dupNat (me.rank :: others.map (·.rank)) ||
          (me :: others).any (fun p => !rowsOk p) then .next (endCmd s' r c 0x15#6)
      else if others.length + 1 < me.shards then .next s
      else
        let f := s'.free
        match compWrite r c me (me :: others) f (compPixels c.bytes) { s' with free := f + 4 * (compPixels c.bytes).length + 4 } with
        | .ok s => .next (endCmd s r c 0)
        | .bad e s => .next (endCmd s r c e)
        | .wait va n => .next (requestPage s c.ctx va n true))

/-- COMP. -/
def execComp (r : Nat) (peers : List Peer) (s : State) : Out := collective 2 r peers s
/-- COMPB. -/
def execCompb (r : Nat) (peers : List Peer) (s : State) : Out := collective 3 r peers s

/-- COLLECTIVE_TIMEOUT: a collective is not complete within LTMO. -/
def execCollectiveTimeout (r : Nat) (s : State) : Out :=
  match (lringOf s r).cmd with
  | none => .next s
  | some c =>
    let us := max (hregGet s 0x50F04).toNat 1
    if c.ended.isSome ∨ leNat c.bytes 0 1 = 1 ∨ s.clk.toNat < c.at_.toNat + 1000 * us then .next s else .next (endCmd s r c 0x3B#6)

/-! ### Lanes and ports (R462) -/

/-- LINK_LANE_SPARE: the spare replaces a lane, once. -/
def execLinkLaneSpare (lane : Nat) (s : State) : Out :=
  if bit (hregGet s 0x50F08) 31 then .next s
  else .next (countUp (hregSet s 0x50F08 (BitVec.ofNat 64 (2 ^ 31 + lane % 32))) cRepair)

/-- The command uses the port: a PUT its own, a collective those of the ROUTE that it has read; one that has not read it yet meets the
port when it does. -/
def usesPort (l : LinkRing) (p : Nat) (c : LinkCmd) : Bool :=
  if leNat c.bytes 0 1 = 1 then leNat c.bytes 1 1 == p
  else c.sent && match l.route with
    | some (_, rank, route) => (List.range (shards c.bytes)).any (fun q => q != rank && leNat route q 1 == p)
    | none => false

/-- A port goes down: its event, its commands stop with MACHINE_CHECK. -/
def portDown (s : State) (p : Nat) : State :=
  if !portUp s p then s
  else
    let s := hregSet s (portReg p 0) (hregGet s (portReg p 0) &&& 0xFFFF#64)
    let s := mcheck (pushEvent s { typ := 4, ctx := p, cause := 0x3E }) 6 0 0 0 0
    (List.range 8).foldl (fun s r => match (lringOf s r).cmd with
      | some c => if c.ended.isNone && usesPort (lringOf s r) p c then endCmd s r c 0x3E else s
      | none => s) (mapPort s p (fun _ => {}))

/-- LINK_PORT_DOWN: a second lane fails while the spare is in use. -/
def execLinkPortDown (p : Nat) (s : State) : Out :=
  .next (if bit (hregGet s 0x50F08) 31 then portDown s p else s)

end Sys2Proof.Machine
end

