-- ==== Sys2Proof/Machine/Platform.lean ====
section
/-! DEFINITION. Sys2Proof/Machine/Platform.lean: errors and repair of the memories, attestation, firmware, reset, rails and bring-up
(R296, R428, R429, R452–R461, R468–R480). -/

namespace Sys2Proof.Machine

open Sys2Proof

/-! ### Errors in storage and repair (R296, R429, R456, R460, R461) -/

/-- Mark a 64-bit word poisoned. -/
def poisonWord (s : State) (st : Store) (owner w : Nat) : State :=
  if s.poison.contains ⟨st, owner, w⟩ then s else { s with poison := ⟨st, owner, w⟩ :: s.poison }

/-- Mark the aligned run of `n` words that holds word `w` poisoned. -/
def poisonRun (s : State) (w n : Nat) : State :=
  (List.range n).foldl (fun s i => poisonWord s .mem 0 (w / n * n + i)) s

/-- SECOND_TIER_ERROR: the device returns poison for an address, or does not answer. -/
def execSecondTierError (pa : Nat) (s : State) : Out :=
  .next (if t2Base ≤ pa ∧ pa < t2Base + t2Extent s then poisonWord s .mem 0 (pa / 8) else s)

/-- SECOND_TIER_PORT_DOWN. -/
def t2PortDown (s : State) (port : Nat) : State :=
  if s.t2down.contains port ∨ 6 ≤ port then s else { s with t2down := port :: s.t2down }
def execSecondTierPortDown (port : Nat) (s : State) : Out := .next (t2PortDown s port)

/-- PATROL_SCRUB: a protected word is read and corrected where that is possible, else marked poisoned. -/
def execPatrolScrub (st : Store) (owner w : Nat) (f : Finding) (s : State) : Out :=
  .next (match f with
    | .sound => s
    | .corrected => countUp s (if st = .mem then cHbmce else cSramce)
    | .lost => if st = .mem then countUp (poisonRun s w 32) cHbmue else countUp (poisonWord s st owner w) cSramue
    | .lostClean => countUp s cSramce
    | .lostDirty => countUp (poisonRun s w 16) cSramue
    | .parity => countUp (mcheck (poisonRun s w 32) 7 (256 * (w / 32)) 0 0 0) 0x60024
    | .entry _ false => s
    | .entry yard true => mcheck s (if yard then 8 else 2) 0 0 0 0)

/-- HBM_CHANNEL_SPARE: the controller copies a channel to the spare of its stack and redirects it; once in a stack. -/
def execHbmChannelSpare (stack ch : Nat) (s : State) : Out :=
  if (tabFind s.spared stack).isSome then .next { s with refused := s.refused + 1 }
  else .next (countUp { s with spared := tabPut s.spared stack ch } cRepair)

/-- HBM_SOFT_ROW_REPAIR: a row is served from a spare row; a bank has eight. -/
def execHbmSoftRowRepair (bank row : Nat) (s : State) : Out :=
  let n := ((s.softRows ++ s.hardRows).filter (fun e => e.1 == bank)).length
  if 8 ≤ n then .next s else .next (countUp { s with softRows := s.softRows ++ [(bank, row)] } cRepair)

/-! ### The Vartur ports train (R433, R479) -/

/-- VARTUR_PORT_TRAIN: once PKGID is written, a port trains with the package at its other end. -/
def execVarturPortTrain (p peer : Nat) (s : State) : Out :=
  if !s.ready || decide (6 ≤ p) || hregGet s 0x50F00 == 0 || portUp s p then .next s
  else .next (mapPort (hregSet s (portReg p 0) (BitVec.ofNat 64 (2 ^ 31 + peer % 65536))) p (fun _ => {}))

/-! ### Attestation (R470) -/

/-- A byte string cut or padded with zeros to a length. -/
def fitTo (n : Nat) (bs : List Byte) : List Byte := bs.take n ++ List.replicate (n - bs.length) 0

/-- The value of LPMAP for a logical core (R452). -/
def lpmap (s : State) (core : Nat) : Word :=
  BitVec.ofNat 32 ((if (coreOf s core).failed then 2 ^ 31 else 0) + posOf s core)
def lpmapBytes (s : State) : List Byte := (List.range 192).flatMap (fun k => w32 (lpmap s k))

/-- The byte of a cluster in a report: spare positions used, logical cores off line. -/
def clusterByte (s : State) (k : Nat) : Byte :=
  let off := ((List.range 48).filter (fun i => (coreOf s (48 * k + i)).failed)).length
  BitVec.ofNat 8 (tabGet 0 s.spares k + 4 * off)

/-- The 4,096-byte report. -/
def reportOf (s : State) (nonce : List Byte) : List Byte :=
  let b := fitTo 0x300 (w32 1 ++ w32 4096 ++ w64 Config.serial ++ w64 (BitVec.ofNat 64 s.firm.version) ++
    w64 (BitVec.ofNat 64 s.firm.rollback) ++ fitTo 64 nonce ++ (List.range 8).flatMap (measOf s) ++
    (List.range 4).map (clusterByte s))
  fitTo 4096 (b ++ fitTo 3309 (Config.identitySign b))

/-- The certificate, 8 KiB. -/
def certificate : List Byte :=
  let b := w64 Config.serial ++ fitTo 1952 Config.identityKey
  fitTo 8192 (b ++ fitTo 3309 (Config.vendorSign b))

/-- What is wrong with a request at an address, as ATTSTAT.ERR. -/
def attError (s : State) (a : Nat) : Option Nat :=
  let b := physRead s a 128
  let op := leNat b 0 4
  let out := leNat b 8 8
  if !backed s a || !backed s (a + 127) || isPoison s .mem 0 a 128 then some 3
  else if !(op == 1 || op == 2) || ((b.drop 4).take 4 ++ (b.drop 16).take 48).any (fun x => x != 0) then some 2
  else if out % (4096 * op) ≠ 0 ∨ (List.range (4096 * op / 4096)).any (fun i => secureAddr s (out + 4096 * i)) then some 1
  else none

/-- Write ATTSTAT: the error, BUSY as the request stands. -/
def attStat (s : State) (err : Nat) (done busy : Bool) : State :=
  hregSet s 0x61008 (BitVec.ofNat 64 (256 * err + (if done then 2 else 0) + (if busy then 1 else 0)))

/-- A write of ATTREQ starts a request. -/
def startAtt (s : State) (v : Double) : State :=
  let a := (bits v 7 45 : BitVec 45).toNat * 128
  let done := bit (hregGet s 0x61008) 1
  if s.att.isSome then attStat s 4 done true
  else
    let s := memTouch s a 128
    let s := if isPoison s .mem 0 a 128 then mcheck s 3 (poisonAddr s a 128) 0 0 0 else s
    match attError s a with
    | some e => attStat s e done false
    | none => attStat { s with att := some (physRead s a 128) } 0 done true

/-- The output of the request in progress is performed, and DONE set. -/
def answerAtt (op : Nat) (out : List Byte → List Byte) (s : State) : Out :=
  match s.att with
  | none => .next s
  | some b =>
    if leNat b 0 4 ≠ op then .next s
    else
      let a := leNat b 8 8
      let o := out b
      .next (bump (attStat { memStore s a o with att := none } ((hregGet s 0x61008).toNat / 256 % 256) true false))

/-- ATTESTATION_REPORT. -/
def execAttestationReport (s : State) : Out := answerAtt 1 (fun b => reportOf s (b.drop 64)) s
/-- ATTESTATION_CERTIFICATE. -/
def execAttestationCertificate (s : State) : Out := answerAtt 2 (fun _ => certificate) s

/-! ### Firmware images (R468, R471) -/

/-- The header of the image that starts a set, its signature, its body and what follows. -/
def imageHead (b : List Byte) : List Byte := fitTo 256 b
def imageLen (b : List Byte) : Nat := leNat b 4 4
def imageBody (b : List Byte) : List Byte := fitTo (imageLen b) (b.drop (256 + 3309))
def imageRest (b : List Byte) : List Byte := b.drop (256 + 3309 + imageLen b)
def imageVersion (b : List Byte) : Nat := leNat b 8 8
def imageDigest (b : List Byte) : List Byte := fitTo 64 (b.drop 16)

/-- Why the verification of an image fails, as BOOTSTAT.FWERR. -/
def imageError (rollback : Nat) (b : List Byte) : Option Nat :=
  if !Config.vendorSigned (imageHead b) (fitTo 3309 (b.drop 256)) then some 1
  else if shake256 (imageBody b) 64 ≠ imageDigest b then some 2
  else if imageVersion b < rollback then some 3
  else none

/-- The first error of the `n` images of a set. -/
def setError (rollback : Nat) : Nat → List Byte → Option Nat
  | 0, _ => none
  | n + 1, b => match imageError rollback b with
    | some e => some e
    | none => setError rollback n (imageRest b)

/-- The image set of a bank. -/
def bankSet (f : Firmware) (k : Nat) : List Byte := (f.banks.getD k none).getD (Config.factory k)

/-- Bytes of a staged set: three images one after the other. -/
def stagedLen (s : State) : Nat → Nat → Nat
  | 0, _ => 0
  | n + 1, a => let k := 256 + 3309 + leNat (viewRead s (a + 4) 4) 0 4
    k + stagedLen s n (a + k)

def setFwerr (s : State) (e : Nat) : State := hregSet s 0x61020 (BitVec.ofNat 64 (65536 * e))

/-- A write of FWCMD: a stage or a commit is in progress, unless one is already (R471). -/
def startFwcmd (s : State) (v : Double) : State :=
  let op := (bits v 0 2 : BitVec 2).toNat
  if s.firm.busy = 0 ∧ (op = 1 ∨ op = 2) then { s with firm := { s.firm with busy := op } } else s

/-- FWCMD_STAGE: verify three images and write them to the inactive bank, which runs from the next reset. It ends the stage in progress,
or is one from its write to its end; it is none while a commit is in progress. -/
def execFwcmdStage (flashOk : Bool) (s : State) : Out :=
  if (!s.ready && !s.firm.recovery) || s.firm.busy == 2 then .next s
  else
  let s := { s with firm := { s.firm with busy := 0 } }
  let a := (hregGet s 0x61010).toNat / 4096 * 4096 % 2 ^ 52
  let n := stagedLen s 3 a
  let s := memTouch s a n
  let b := physRead s a n
  if isPoison s .mem 0 a n then .next (setFwerr (mcheck s 3 (poisonAddr s a n) 0 0 0) 2)
  else match setError s.firm.rollback 3 b with
  | some e => .next (setFwerr s e)
  | none =>
    if !flashOk then .next (setFwerr s 4)
    else
      let k := 1 - s.firm.active
      .next (setFwerr { s with firm := { s.firm with
        banks := s.firm.banks.set k (some b), active := k, broken := s.firm.broken.filter (fun x => x != k) } } 0)

/-- FWCMD_COMMIT: the rollback counter is raised to the running version. -/
def execFwcmdCommit (s : State) : Out :=
  if (!s.ready && !s.firm.recovery) || s.firm.busy == 1 then .next s
  else .next { s with firm := { s.firm with rollback := max s.firm.rollback s.firm.version, busy := 0 } }

/-! ### Reset and bring-up (R468, R478–R480) -/

/-- RSTSTAT: CAUSE, STEP, READY. -/
def setRststat (s : State) (cause step : Nat) : State :=
  hregSet { s with ready := step == 7 } 0x6200C (BitVec.ofNat 64 (16 * cause + 2 * step + (if step = 7 then 1 else 0)))

/-- Verify the stages of a set in order, each measured before it runs (R468, R469): the state, and whether every stage verified. -/
def bootStages : List Nat → State → List Byte → Bool × State
  | [], s, _ => (true, s)
  | i :: r, s, b => match imageError s.firm.rollback b with
    | some _ => (false, s)
    | none => bootStages r (extendMeas s i (imageDigest b)) (imageRest b)

/-- Boot a bank. -/
def runBank (s : State) (k : Nat) : Bool × State :=
  if s.firm.broken.contains k then (false, s) else bootStages [0, 1, 2] s (bankSet s.firm k)
def booted (s : State) (k : Nat) : State :=
  { s with firm := { s.firm with booted := k, active := k, version := imageVersion (bankSet s.firm k), recovery := false } }

/-- The boot ROM: the active bank, then the other, then recovery. What a bank that fails has measured stands (DEDUCED, log entry 18). -/
def bootRom (s : State) : State :=
  let a := s.firm.active
  match runBank s a with
  | (true, s) => booted s a
  | (false, s) => match runBank s (1 - a) with
    | (true, s) => booted s (1 - a)
    | (false, s) => { s with firm := { s.firm with recovery := true, version := 0 } }

/-- USED from the ports present (R428). -/
def usedPorts (ps : List Nat) : List Nat := if ps.length = 3 ∨ ps.length = 4 ∨ ps.length = 5 then ps.take 3 else ps

/-- The populated extent in GiB: the ways times the smallest capacity (R428). -/
def extentGib (b : BringUp) (used : List Nat) : Nat :=
  let caps := used.map (fun p => ((b.ports.find? (fun e => e.1 == p)).getD (0, 0)).2)
  match caps with
  | [] => 0
  | c :: r => min 4096 (used.length * r.foldl min c / 2 ^ 30)

def portBits (ps : List Nat) : Nat := (ps.map (2 ^ ·)).sum

/-- The second-tier ports are trained and the interleave fixed. -/
def trainSecondTier (s : State) (b : BringUp) : State :=
  let present := (List.range 6).filter (fun p => b.ports.any (fun e => e.1 == p))
  let used := usedPorts present
  hregSet (hregSet s 0x45000 (BitVec.ofNat 64 (256 * portBits used + portBits present))) 0x45004
    (BitVec.ofNat 64 (extentGib b used))

/-- A core that fails its self-test (R453). -/
def failTest (s : State) (core : Nat) : State := countUp (mcheck (remapCore s core) 5 0 0 core 0) cCorefail

/-- Bring-up: self-test and remap, MEAS4, the boot ROM, the second tier, READY; a device in recovery stops after step 3. -/
def bringUp (s : State) (cause : Nat) (b : BringUp) : State :=
  let s := (b.bad.filter (fun k => decide (k < 192))).foldl failTest s
  let s := extendMeas s 4 (shake256 (lpmapBytes s) 64)
  let s := bootRom s
  if s.firm.recovery then setRststat s cause 3 else setRststat (trainSecondTier s b) cause 7

/-- A stage that a reset interrupts leaves the inactive bank failing verification (R480). -/
def haltFirm (f : Firmware) : Firmware :=
  { f with busy := 0, broken := if f.busy = 1 then (1 - f.active) :: f.broken else f.broken }

/-- Every rail is up (R473). -/
def powered (s : State) : Bool := s.rails == railOrder

/-- The thermal readings, which last until power-off (R476). -/
def thermstat (s : State) : Tab Double := if hregGet s 0x62000 = 0 then [] else [(0x62000, hregGet s 0x62000)]

/-- The machine with everything that a reset clears cleared: what stays is the firmware flash and fuses, the rails, the thermal readings, the
record of the last shutdown, host memory and what the outside has asked for. -/
def cleared (s : State) : State :=
  { State.reset with free := s.free, agenda := s.agenda, nextId := s.nextId, changes := s.changes, host := s.host, firm := haltFirm s.firm,
                     hardRows := s.hardRows, rails := s.rails, locked := s.locked, shutdown := s.shutdown, hreg := thermstat s }

/-- A device reset: every state under it is cleared, soft row repairs are fused, and bring-up runs when the clocks hold lock. -/
def resetWith (cause : Nat) (b : BringUp) (s : State) : Out :=
  if !powered s then .next s
  else
    let s := cleared { s with hardRows := s.hardRows ++ s.softRows }
    .next (if s.locked then bringUp s cause b else setRststat s cause 0)

/-- DEVICE_RESET, by a source's code. -/
def execDeviceReset (cause : BitVec 4) (b : BringUp) (s : State) : Out := resetWith cause.toNat b s
/-- PERST. -/
def execPerst (b : BringUp) (s : State) : Out := resetWith 1 b s
/-- FUNCTION_LEVEL_RESET. -/
def execFunctionLevelReset (b : BringUp) (s : State) : Out := resetWith 2 b s
/-- RSTCTL: only KEY 0x5A5A resets; the register answers once bring-up is complete. -/
def execRstctl (v : Word) (b : BringUp) (s : State) : Out :=
  if s.ready ∧ (bits v 0 16 : BitVec 16) = 0x5A5A then resetWith 3 b s else .next s

/-- The rails go down one after another, the last to come up first, until `keep` are left (R473). -/
def railsDown (keep : Nat) : Nat → List Rail → List Rail
  | 0, rs => rs
  | n + 1, rs => if rs.length ≤ keep then rs else railsDown keep n rs.dropLast

/-- The device without power: the rails but VAUX are removed in reverse order, and with them every state that lasts until power-off, the
thermal readings and the recovery that the boot ROM found among it. -/
def railsOff (s : State) (record : BitVec 4) : State :=
  let s := cleared s
  { s with rails := railsDown 1 5 s.rails, shutdown := record, hreg := [], firm := { s.firm with recovery := false } }

/-- POWER_ON: the rails come up in their order; one that misses its power-good window takes them down again, with RAIL recorded (R474).
CAUSE is the record of the last shutdown, which then is spent. -/
def execPowerOn (b : BringUp) (s : State) : Out :=
  match b.miss with
  | some n => .next (railsOff { s with rails := railOrder.take (max n 1) } 4)
  | none => resetWith s.shutdown.toNat b { s with rails := railOrder, locked := true, shutdown := 0 }

/-- RAIL_FAULT. -/
def execRailFault (s : State) : Out := .next (if powered s then railsOff s 4 else s)
/-- THERMAL_SHUTDOWN. -/
def execThermalShutdown (s : State) : Out := .next (if powered s then railsOff s 5 else s)
/-- POWER_OFF: the board removes the supply, or the standby too, and with standby VAUX and the record. -/
def execPowerOff (standby : Bool) (s : State) : Out :=
  let t := railsOff s (if standby || powered s then 0 else s.shutdown)
  .next (if standby then { t with rails := [] } else t)

/-- BUDGET_REFRESH: the readings of the 32 sensors, in sixteenths of a degree, those of the cluster and Loft dies (0–19) and the rest, and the
estimated draw in W are the device's measures. Where a sensor reads 110 °C or more, or reports nothing, the device shuts down (R383, R476). -/
def execBudgetRefresh (dies rest : List (Option Int)) (draw : Nat) (s : State) : Out :=
  let t := hottest (sensors dies rest)
  .next (if !powered s then s else if 1760 ≤ t.1 then railsOff s 5 else refreshLimits t.1 t.2 draw s)

/-- The secure monitor extends one of MEAS5–MEAS7 as secure software has asked (R469). -/
def monitorStep (s : State) (i : Nat) (d : List Byte) : State :=
  if 5 ≤ i ∧ i ≤ 7 then extendMeas s i (fitTo 64 d) else s

/-- PLL_LOCK_LOSS: the device is held in device reset. -/
def execPllLockLoss (s : State) : Out :=
  if !powered s then .next s
  else .next (setRststat (cleared { s with hardRows := s.hardRows ++ s.softRows, locked := false }) 6 0)

/-- PLL_RELOCK: the device leaves the reset that it was held in; CAUSE is the latest source. -/
def execPllRelock (b : BringUp) (s : State) : Out :=
  if s.locked || !powered s then .next s
  else .next (bringUp { s with locked := true } ((hregGet s 0x6200C).toNat / 16 % 16) b)

/-- SERDES_REFERENCE_LOSS: the ports that the reference serves go down: the Vartur Link's and the second tier's. -/
def execSerdesReferenceLoss (s : State) : Out :=
  .next ((List.range 6).foldl (fun s p => t2PortDown (portDown s p) p) s)

end Sys2Proof.Machine
end

