-- ==== Sys2Proof/Machine/HostRegs.lean ====
section
/-! DEFINITION. Sys2Proof/Machine/HostRegs.lean: the registers of BAR0: which bits a write stores, what a read returns, what a read
clears (R8, R9, R419–R426, R433, R452, R458, R459, R470, R471, R476, R478). -/

namespace Sys2Proof.Machine

open Sys2Proof

/-! ### The register map -/

/-- A host register: its size in bytes, its RW bits, its W1C bits, its RC bits. -/
structure HostReg where
  size : Nat := 4
  rw : Double := 0
  w1c : Double := 0
  rc : Double := 0
deriving DecidableEq, Repr

/-- The registers of a submission queue, by offset (R421). -/
def sqMap (o : Nat) : Option HostReg :=
  match o with
  | 0x00 => some { size := 8, rw := 0xFFFFFFFFFFFFFF81 }
  | 0x08 => some { rw := 0x10FFF }
  | 0x10 | 0x14 | 0x28 | 0x2C | 0x30 => some {}
  | 0x18 => some { size := 8, rw := 0xFFFFFFFFFFFFFFC0 }
  | 0x20 => some { rw := 0x11F }
  | 0x24 => some { rw := 0xFFFF }
  | _ => none

/-- The registers of a link command ring (R433). -/
def lqMap (o : Nat) : Option HostReg :=
  match o with
  | 0x00 => some { size := 8, rw := 0xFFFFFFFFFFFC0 }
  | 0x08 => some { rw := 0x10FFF }
  | 0x0C | 0x10 => some {}
  | _ => none

/-- The registers of a Vartur port (R433). -/
def portMap (o : Nat) : Option HostReg :=
  match o with
  | 0x00 => some {}
  | 0x04 | 0x08 | 0x0C => some { rc := 0xFFFFFFFF }
  | 0x10 | 0x18 => some { size := 8, rw := 0xFFFFFFFFF0000 }
  | _ => none

/-- The other registers. -/
def soleMap (off : Nat) : Option HostReg :=
  match off with
  | 0x11000 => some { size := 8, rw := 0xFFFFFFFFFFFFFFF0 }     -- EVBASE
  | 0x11008 => some { rw := 0x11F }                               -- EVCFG
  | 0x1100C => some { rw := 0xFFFF }                              -- EVHEAD
  | 0x11010 => some {}                                            -- EVTAIL
  | 0x11014 => some { rc := 0xFFFFFFFF }                          -- EVLOST
  | 0x41000 => some { rw := 0xF }                                 -- L2PART
  | 0x42000 => some { rw := 0xFFF }                               -- PLIMIT
  | 0x42004 | 0x42008 => some {}                                  -- PSTAT, PCOMMIT
  | 0x43000 => some { size := 8, rw := 0xFFFFFFFFF0000 }         -- CTXTAB
  | 0x43008 | 0x43018 | 0x43020 => some { size := 8 }             -- TLBINV, PGDONE, CTXCTL
  | 0x43010 => some { size := 8, w1c := 2 }                       -- TLBSTAT
  | 0x43028 => some { size := 8, w1c := 4 }                       -- CTXSTAT
  | 0x44000 => some { size := 8, rw := 0xFFFF000000000 }         -- B2BASE
  | 0x45000 | 0x45004 => some {}                                  -- T2CFG, T2EXT
  | 0x50F00 => some { rw := 0xFFFF }                              -- PKGID
  | 0x50F04 => some { rw := 0xFFFFFFFF }                          -- LTMO
  | 0x50F08 => some {}                                            -- LSPARE
  | 0x60040 => some { size := 8, rc := 0xFF0FFFFFFFFFFFFF }      -- MCLOG
  | 0x61000 => some { size := 8 }                                 -- ATTREQ
  | 0x61008 => some { w1c := 2 }                                  -- ATTSTAT
  | 0x61010 => some { size := 8, rw := 0xFFFFFFFFFF000 }         -- FWADDR
  | 0x61018 | 0x61020 => some {}                                  -- FWCMD, BOOTSTAT
  | 0x62000 => some { rc := 0xFF0000 }                            -- THERMSTAT
  | 0x62008 | 0x6200C => some {}                                  -- RSTCTL, RSTSTAT
  | _ => none

/-- The register at an offset of BAR0; the fields of the MSI-X table are those of PCI Express (log entry 26). -/
def hostReg (off : Nat) : Option HostReg :=
  if 0x10000 ≤ off ∧ off < 0x11000 then sqMap (off % 0x40)
  else if 0x20000 ≤ off ∧ off < 0x20410 ∧ off % 4 = 0 then
    some { rw := if off % 16 = 0 then 0xFFFFFFFC else if off % 16 = 12 then 1 else 0xFFFFFFFF }
  else if 0x21000 ≤ off ∧ off < 0x21010 ∧ off % 4 = 0 then some {}
  else if 0x50000 ≤ off ∧ off < 0x50100 then lqMap (off % 0x20)
  else if 0x51000 ≤ off ∧ off < 0x510C0 then portMap (off % 0x20)
  else if 0x60000 ≤ off ∧ off < 0x60030 ∧ off % 4 = 0 then some { rc := 0xFFFFFFFF }
  else if 0x60100 ≤ off ∧ off < 0x60400 ∧ off % 4 = 0 then some {}
  else soleMap off

/-- In recovery only BOOTSTAT and FWCMD answer, before bring-up is complete nothing does (R468, R479). -/
def answers (s : State) (off : Nat) : Bool := s.ready || (powered s && s.firm.recovery && (off == 0x61018 || off == 0x61020))

/-! ### What a read returns -/

/-- PCOMMIT: committed power in quarter watts, saturating (R382). -/
def pcommit (s : State) : Nat := min (commitPower s) 0xFFFFFF

/-- SAVED: units of a context in frames (R412). -/
def savedUnits (s : State) (ctx : Nat) : Nat := (s.units.filter (fun e => e.2.ctx == ctx && !e.2.resident && !e.2.rerun)).length

def stCode : CtxSt → Nat
  | .running => 0
  | .draining => 1
  | .off => 2
  | .reset => 3

/-- The bits of a register that the machine computes or that only it holds. -/
def hostBits (s : State) (off : Nat) : Double :=
  if 0x10000 ≤ off ∧ off < 0x11000 then
    let q := (off - 0x10000) / 0x40
    (if off % 0x40 = 8 then (if sqBusy s q then 0x20000 else 0)
     else if off % 0x40 = 0x30 then (queueOf s q).next.setWidth 64 else 0)
  else if 0x60100 ≤ off ∧ off < 0x60400 then (lpmap s ((off - 0x60100) / 4)).setWidth 64
  else match off with
  | 0x42004 => BitVec.ofNat 64 (s.level * 2 ^ 24 + s.therm * 4096 + s.allow)
  | 0x42008 => BitVec.ofNat 64 (pcommit s)
  | 0x43010 => if s.inval.isSome then 1 else 0
  | 0x43028 =>
    let ctx := (hregGet s off).toNat / 256 % 256
    BitVec.ofNat 64 (savedUnits s ctx * 65536 + stCode (ctxOf s ctx).st)
  | 0x61020 => (if s.firm.busy = 0 then 0 else 0x80) ||| (if s.firm.recovery then 2 else 0) ||| BitVec.ofNat 64 (s.firm.booted % 2)
  | _ => 0

/-- A whole register as a read returns it. -/
def regRead (s : State) (off : Nat) : Double := hregGet s off ||| hostBits s off

/-- The register that holds a 4-byte offset, and which half. -/
def regAt (off : Nat) : Option (Nat × HostReg) :=
  match hostReg off with
  | some r => some (off, r)
  | none => if off % 8 = 4 then (match hostReg (off - 4) with
      | some r => if r.size = 8 then some (off - 4, r) else none
      | none => none) else none

/-- Four bytes at an offset, as a read returns them; an offset with no register reads as zero. -/
def wordRead (s : State) (off : Nat) : Word :=
  match regAt off with
  | some (o, _) => if answers s o then bits (regRead s o) (8 * (off - o)) 32 else 0
  | none => 0

/-- A read of 4 or 8 bytes of BAR0, aligned; any other read returns zero (R420). -/
def bar0Read (s : State) (off n : Nat) : Double :=
  if n = 4 ∧ off % 4 = 0 then (wordRead s off).setWidth 64
  else if n = 8 ∧ off % 8 = 0 then wordRead s (off + 4) ++ wordRead s off
  else 0

/-- RC_REGISTER_READ: what a read of `n` bytes clears: the RC bits that it returned. -/
def clearRc (s : State) (off n : Nat) : State :=
  match regAt off with
  | none => s
  | some (o, r) =>
    let m : Double := if n = 8 then r.rc else r.rc &&& (0xFFFFFFFF#64 <<< (8 * (off - o)))
    if answers s o then hregSet s o (hregGet s o &&& ~~~m) else s

def execRcRegisterRead (off n : Nat) (s : State) : Out :=
  if n = 4 ∧ off % 4 = 0 then .next (clearRc s off 4)
  else if n = 8 ∧ off % 8 = 0 then
    .next (match hostReg off with
      | some r => if r.size = 8 then clearRc s off 8 else clearRc (clearRc s off 4) (off + 4) 4
      | none => clearRc s (off + 4) 4)
  else .next s

/-! ### What a write does -/

/-- The value a register holds after a write of the bits under `m`. -/
def merged (r : HostReg) (old v m : Double) : Double :=
  (old &&& ~~~(r.rw &&& m) &&& ~~~(r.w1c &&& v &&& m)) ||| (v &&& r.rw &&& m)

/-- The RW bits of a queue's registers that a write may not change now (R421). -/
def sqLock (s : State) (q o : Nat) : Double :=
  if o = 0x00 then (if sqEn s q then 0xFFFFFFFFFFFFFFFF else 0)
  else if o = 0x08 then (if sqEn s q then 0xFFF else 0)
  else if o = 0x18 then (if sqBusy s q then 0xFFFFFFFFFFFFFFFF else 0)
  else if o = 0x20 then (if sqBusy s q then 0x1F else 0)
  else 0

/-- A write of SQCFG: its fields, then the change of EN. -/
def writeSqcfg (s : State) (q : Nat) (v m : Double) : Out :=
  let was := sqEn s q
  if bit m 16 && bit v 16 && !was && sqBusy s q then .next s
  else
  let s' := sqSet s q 8 (merged { rw := 0xFFF } (hregGet s (sqReg q 8)) v (m &&& ~~~sqLock s q 8)).toNat
  if !bit m 16 ∨ bit v 16 = was then .next s'
  else if bit v 16 then execSqcfgEnable q s' else execSqcfgDisable q s'

/-- A write of LQCFG. -/
def writeLqcfg (s : State) (r : Nat) (v m : Double) : Out :=
  let was := lqEn s r
  let s' := lqSet s r 8 (merged { rw := 0xFFF } (hregGet s (lqReg r 8)) v m).toNat
  if !bit m 16 ∨ bit v 16 = was then .next s'
  else if bit v 16 then execLqcfgEnable r s' else execLqcfgDisable r s'

/-- A write of TLBINV (R412). -/
def writeTlbinv (s : State) (v : Double) : Out :=
  let ctx := (bits v 0 8 : BitVec 8).toNat
  let va := (bits v 16 40 : BitVec 40).toNat * 65536
  match (bits v 8 2 : BitVec 2) with
  | 0 => execTlbinvPage ctx va (bit v 15) s
  | 1 => execTlbinvRange ctx va (bits v 10 5 : BitVec 5).toNat (bit v 15) s
  | 2 => execTlbinvContext ctx (bit v 15) s
  | _ => execTlbinvAll (bit v 15) s

/-- A write of CTXCTL (R412). -/
def writeCtxctl (s : State) (v : Double) : Out :=
  let ctx := (bits v 0 8 : BitVec 8).toNat
  match (bits v 8 3 : BitVec 3) with
  | 1 => execCtxctlStop ctx s
  | 2 => execCtxctlPreempt ctx s
  | 3 => execCtxctlResume ctx s
  | _ => execCtxctlInvalid ctx s

/-- A write of a register whose write starts something. RSTCTL has a step of its own; what FWCMD starts, FWCMD_STAGE and FWCMD_COMMIT
end. -/
def writeAct (s : State) (o : Nat) (v m : Double) : Option Out :=
  let lo := (bits v 0 16 : BitVec 16).toNat
  if 0x10000 ≤ o ∧ o < 0x11000 then
    let q := (o - 0x10000) / 0x40
    (match o % 0x40 with
      | 0x08 => some (writeSqcfg s q v m)
      | 0x10 => some (execSqtailNotify q lo s)
      | 0x2C => some (execSqcancel q (bits v 0 32 : Word).toNat s)
      | _ => none)
  else if 0x50000 ≤ o ∧ o < 0x50100 then
    let r := (o - 0x50000) / 0x20
    (match o % 0x20 with
      | 0x08 => some (writeLqcfg s r v m)
      | 0x0C => some (execLqtailNotify r lo s)
      | _ => none)
  else match o with
  | 0x43008 => some (writeTlbinv s v)
  | 0x43018 => some (execPgdone (bits v 0 8 : BitVec 8).toNat ((bits v 16 40 : BitVec 40).toNat * 65536) s)
  | 0x43020 => some (writeCtxctl s v)
  | 0x61000 => some (.next (startAtt s v))
  | 0x61018 => some (.next (startFwcmd s v))
  | _ => none

/-- A write of the bits under `m` of the register at `o`. Four bytes written to one half of an 8-byte command register start the command
with the other half as zero (DESIGN CHOICE, log entry 93). -/
def writeReg (s : State) (o : Nat) (r : HostReg) (v m : Double) : Out :=
  if !answers s o then .next s
  else match writeAct s o v m with
    | some x => x
    | none =>
      let lock := if 0x10000 ≤ o ∧ o < 0x11000 then sqLock s ((o - 0x10000) / 0x40) (o % 0x40) else 0
      .next (unmaskMsi (hregSet s o (merged r (hregGet s o) v (m &&& ~~~lock))) o)

/-- A write of four bytes at an offset; one with no register is ignored. -/
def writeWord (s : State) (off : Nat) (v : Word) : Out :=
  match regAt off with
  | none => .next s
  | some (o, r) => writeReg s o r (v.setWidth 64 <<< (8 * (off - o))) (0xFFFFFFFF#64 <<< (8 * (off - o)))

/-- REGISTER_WRITE: a host write of 4 or 8 bytes of BAR0, aligned; any other write is ignored (R420). -/
def execRegisterWrite (off n : Nat) (v : Double) (s : State) : Out :=
  if n = 4 ∧ off % 4 = 0 then writeWord s off (bits v 0 32)
  else if n = 8 ∧ off % 8 = 0 then
    match hostReg off with
    | some r =>
      if r.size = 8 then writeReg s off r v 0xFFFFFFFFFFFFFFFF
      else match writeWord s off (bits v 0 32) with
        | .next t => writeWord t (off + 4) (bits v 32 32)
        | o => o
    | none => writeWord s (off + 4) (bits v 32 32)
  else .next s

end Sys2Proof.Machine
end

