-- ==== Sys2Proof/Machine/IntArith.lean ====
section
/-! DEFINITION. Sys2Proof/Machine/IntArith.lean: the integer arithmetic words (R115, R116, R120). -/

namespace Sys2Proof.Machine

open Sys2Proof

/-- iadd: a + b per element, clamped or modulo 2^w (R120). -/
def execIadd (w : FrWord) (s : State) : Out :=
  runLanes (.iadd w) s (.reg w.d) (fun c l => packedInt w.typ w.clamp (· + ·) (src c.g w.a l) (src c.g w.b l) w.nA w.aA w.nB w.aB)

/-- isub: a − b per element, clamped or modulo 2^w (R120). -/
def execIsub (w : FrWord) (s : State) : Out :=
  runLanes (.isub w) s (.reg w.d) (fun c l => packedInt w.typ w.clamp (· - ·) (src c.g w.a l) (src c.g w.b l) w.nA w.aA w.nB w.aB)

/-- imul: a × b per element, clamped or modulo 2^w (R120). -/
def execImul (w : FrWord) (s : State) : Out :=
  runLanes (.imul w) s (.reg w.d) (fun c l => packedInt w.typ w.clamp (· * ·) (src c.g w.a l) (src c.g w.b l) w.nA w.aA w.nB w.aB)

/-- imulhi: bits [63:32] of the exact product (R120). -/
def execImulhi (w : FrWord) (s : State) : Out :=
  runLanes (.imulhi w) s (.reg w.d) (fun c l => laneMulhi w.typ (src c.g w.a l) (src c.g w.b l) w.nA w.aA w.nB w.aB)

/-- imad: a × b + c (R120). -/
def execImad (w : FrWord) (s : State) : Out :=
  runLanes (.imad w) s (.reg w.d) (fun c l => laneMad w.typ w.clamp (src c.g w.a l) (src c.g w.b l) (src c.g w.c l) w.nA w.aA w.nB w.aB w.nC w.aC)

/-- imadw: a × b + c64 into a pair (R120). -/
def execImadw (w : FrWord) (s : State) : Out :=
  runLanes (.imadw w) s (.pair w.d) (fun c l => laneMadw w.typ w.clamp (src c.g w.a l) (src c.g w.b l) (src2 c.g w.c l) w.nA w.aA w.nB w.aB w.nC w.aC)

/-- iminmax.min: the smaller element (R120). -/
def execIminmaxMin (w : FrWord) (s : State) : Out :=
  runLanes (.iminmaxMin w) s (.reg w.d) (fun c l => packedInt w.typ false (fun x y => if x ≤ y then x else y) (src c.g w.a l) (src c.g w.b l) w.nA w.aA w.nB w.aB)

/-- iminmax.max: the larger element (R120). -/
def execIminmaxMax (w : FrWord) (s : State) : Out :=
  runLanes (.iminmaxMax w) s (.reg w.d) (fun c l => packedInt w.typ false (fun x y => if x ≤ y then y else x) (src c.g w.a l) (src c.g w.b l) w.nA w.aA w.nB w.aB)

/-- isad: |a − b| + c, or the sum over four bytes (R120). -/
def execIsad (w : FrWord) (s : State) : Out :=
  runLanes (.isad w) s (.reg w.d) (fun c l => laneSad w.typ w.clamp (src c.g w.a l) (src c.g w.b l) (src c.g w.c l) w.nA w.aA w.nB w.aB w.nC w.aC)

end Sys2Proof.Machine
end

