-- ==== Sys2Proof/Machine/Lane.lean ====
section
/-! DEFINITION. Sys2Proof/Machine/Lane.lean: lane exchange and vote (R123). -/

namespace Sys2Proof.Machine

open Sys2Proof

/-- A source register of the lowest active lane. -/
def firstW (c : Go) (f : BitVec 8) : Word := match lowBit c.act with | some l => srcW c.g f l | none => 0

/-- The source lane of shfl, if it is inside the segment (R123). -/
def shflLane (op k d l : Nat) : Option Nat :=
  let w := 2 ^ k
  let base := l - l % w
  if op = 0 then some (base + d % w)
  else if op = 1 then (if l < base + d then none else some (l - d))
  else if op = 2 then (if l + d < base + w then some (l + d) else none)
  else some (Nat.xor l (d % w))

/-- shfl in one lane: the source lane's value if it is active, else its own. -/
def laneShfl (c : Go) (w : FrWord) (l : Nat) : Word :=
  match shflLane w.sel.toNat (bits w.c 0 3 : BitVec 3).toNat (bits (srcW c.g w.b l) 0 5 : BitVec 5).toNat l with
  | some j => if c.act.getLsbD j then srcW c.g w.a j else srcW c.g w.a l
  | none => srcW c.g w.a l

/-- The mask of vote: active lanes with PS true (R123). -/
def voteMask (c : Go) (f : BitVec 8) : Mask := c.act &&& psMask c.g f

/-- lanex.first: the lowest active lane’s value in every active lane (R123). -/
def execLanexFirst (w : FrWord) (s : State) : Out :=
  runLanes (.lanexFirst w) s (.reg w.d) (fun c _ => res32 (firstW c w.a))

/-- lanex.idx: the value of lane B[4:0], or 0 when it is not active (R123). -/
def execLanexIdx (w : FrWord) (s : State) : Out :=
  runLanes (.lanexIdx w) s (.reg w.d) (fun c _ => 
    let n := (bits (firstW c w.b) 0 5 : BitVec 5).toNat
    res32 (if c.act.getLsbD n then srcW c.g w.a n else 0))

/-- shfl: exchange within segments (R123). -/
def execShfl (w : FrWord) (s : State) : Out :=
  runLanes (.shfl w) s (.reg w.d) (fun c l => res32 (laneShfl c w l))

/-- vote.ballot: the mask of active lanes with PS true (R123). -/
def execVoteBallot (w : FrWord) (s : State) : Out :=
  runLanes (.voteBallot w) s (.reg w.d) (fun c _ => res32 (voteMask c w.a))

/-- vote.all (R123). -/
def execVoteAll (w : FrWord) (s : State) : Out :=
  runLanes (.voteAll w) s (.pred w.d) (fun c _ => resBool (voteMask c w.a == c.act))

/-- vote.any (R123). -/
def execVoteAny (w : FrWord) (s : State) : Out :=
  runLanes (.voteAny w) s (.pred w.d) (fun c _ => resBool (voteMask c w.a != 0))

/-- vote.uni (R123). -/
def execVoteUni (w : FrWord) (s : State) : Out :=
  runLanes (.voteUni w) s (.pred w.d) (fun c _ => resBool (voteMask c w.a == c.act || voteMask c w.a == 0))

/-- vote.count (R123). -/
def execVoteCount (w : FrWord) (s : State) : Out :=
  runLanes (.voteCount w) s (.reg w.d) (fun c _ => resNat (popcount (voteMask c w.a)))

end Sys2Proof.Machine
end

