-- ==== Sys2Proof/Machine/Logic.lean ====
section
/-! DEFINITION. Sys2Proof/Machine/Logic.lean: the logic, shift, bit-field and permute words (R121). -/

namespace Sys2Proof.Machine

open Sys2Proof

/-- An operand of and, or, xor: its bitwise complement under nX (R121). -/
def cmplIf (neg : Bool) (x : Word) : Word := if neg then ~~~ x else x

/-- and of A′ and B′ (R121). -/
def execAndB (w : FrWord) (s : State) : Out :=
  runLanes (.andB w) s (.reg w.d) (fun c l => res32 (cmplIf w.nA (srcW c.g w.a l) &&& cmplIf w.nB (srcW c.g w.b l)))

/-- or of A′ and B′ (R121). -/
def execOrB (w : FrWord) (s : State) : Out :=
  runLanes (.orB w) s (.reg w.d) (fun c l => res32 (cmplIf w.nA (srcW c.g w.a l) ||| cmplIf w.nB (srcW c.g w.b l)))

/-- xor of A′ and B′ (R121). -/
def execXorB (w : FrWord) (s : State) : Out :=
  runLanes (.xorB w) s (.reg w.d) (fun c l => res32 (cmplIf w.nA (srcW c.g w.a l) ^^^ cmplIf w.nB (srcW c.g w.b l)))

/-- lop3: bit k of D is the table entry of A[k], B[k], C[k] (R121). -/
def execLop3 (w : FrWord) (s : State) : Out :=
  runLanes (.lop3 w) s (.reg w.d) (fun c l => res32 (laneLop3 (srcW c.g w.a l) (srcW c.g w.b l) (srcW c.g w.c l) w.lut))

/-- shl: shift left by B[7:0] (R121). -/
def execShl (w : FrWord) (s : State) : Out :=
  runLanes (.shl w) s (.reg w.d) (fun c l => res32 (laneShl (srcW c.g w.a l) (srcW c.g w.b l)))

/-- shr: shift right by B[7:0], arithmetic for .i32 (R121). -/
def execShr (w : FrWord) (s : State) : Out :=
  runLanes (.shr w) s (.reg w.d) (fun c l => res32 (laneShr (w.typ == 8) (srcW c.g w.a l) (srcW c.g w.b l)))

/-- shf.r: funnel shift right (R121). -/
def execShfR (w : FrWord) (s : State) : Out :=
  runLanes (.shfR w) s (.reg w.d) (fun c l => res32 (laneShf false (srcW c.g w.a l) (srcW c.g w.b l) (srcW c.g w.c l)))

/-- shf.l: funnel shift left (R121). -/
def execShfL (w : FrWord) (s : State) : Out :=
  runLanes (.shfL w) s (.reg w.d) (fun c l => res32 (laneShf true (srcW c.g w.a l) (srcW c.g w.b l) (srcW c.g w.c l)))

/-- bfx: bit-field extract (R121). -/
def execBfx (w : FrWord) (s : State) : Out :=
  runLanes (.bfx w) s (.reg w.d) (fun c l => res32 (laneBfx (w.typ == 8) (srcW c.g w.a l) (srcW c.g w.b l) (srcW c.g w.c l)))

/-- bfi: bit-field insert (R121). -/
def execBfi (w : FrWord) (s : State) : Out :=
  runLanes (.bfi w) s (.reg w.d) (fun c l => res32 (laneBfi (srcW c.g w.a l) (srcW c.g w.b l) (srcW c.g w.c l)))

/-- popc: the number of 1 bits (R121). -/
def execPopc (w : FrWord) (s : State) : Out :=
  runLanes (.popc w) s (.reg w.d) (fun c l => resNat (popcount (srcW c.g w.a l)))

/-- bitop.clz: leading zeros (R121). -/
def execBitopClz (w : FrWord) (s : State) : Out :=
  runLanes (.bitopClz w) s (.reg w.d) (fun c l => resNat (clz32 (srcW c.g w.a l)))

/-- bitop.ctz: trailing zeros (R121). -/
def execBitopCtz (w : FrWord) (s : State) : Out :=
  runLanes (.bitopCtz w) s (.reg w.d) (fun c l => resNat (ctz32 (srcW c.g w.a l)))

/-- bitop.brev: bit reverse (R121). -/
def execBitopBrev (w : FrWord) (s : State) : Out :=
  runLanes (.bitopBrev w) s (.reg w.d) (fun c l => res32 (brev32 (srcW c.g w.a l)))

/-- perm: byte permute (R121). -/
def execPerm (w : FrWord) (s : State) : Out :=
  runLanes (.perm w) s (.reg w.d) (fun c l => res32 (lanePerm (srcW c.g w.a l) (srcW c.g w.b l) (srcW c.g w.c l)))

end Sys2Proof.Machine
end

