-- ==== Sys2Proof/Machine/Moves.lean ====
section
/-! DEFINITION. Sys2Proof/Machine/Moves.lean: the compare, select, move and 64-bit words (R122). -/

namespace Sys2Proof.Machine

open Sys2Proof

/-- icmp: the comparison and PS (R122). -/
def execIcmp (w : FrWord) (s : State) : Out :=
  runLanes (.icmp w) s (.pred w.d) (fun c l => resBool (compareInt w.sel (srcInt w.typ (src c.g w.a l) 0 w.nA w.aA) (srcInt w.typ (src c.g w.b l) 0 w.nB w.aB) && psGet c.g w.c l))

/-- sel: A if PS, else B (R122). -/
def execSel (w : FrWord) (s : State) : Out :=
  runLanes (.sel w) s (.reg w.d) (fun c l => res32 (if psGet c.g w.c l then (srcW c.g w.a l) else (srcW c.g w.b l)))

/-- mov: A; under .f32 with the sign modifiers on bit 31 (R122). -/
def execMov (w : FrWord) (s : State) : Out :=
  runLanes (.mov w) s (.reg w.d) (fun c l => res32 (BitVec.ofNat 32 (srcF c.g w.a l w.nA w.aA)))

/-- movi: the immediate (R122). -/
def execMovi (w : FiWord) (s : State) : Out :=
  runLanes (.movi w) s (.reg w.d) (fun _ _ => res32 w.imm)

/-- movi.i64: the sign-extended immediate into a pair (R122). -/
def execMoviI64 (w : FiWord) (s : State) : Out :=
  runLanes (.moviI64 w) s (.pair w.d) (fun _ _ => res64 (w.imm.signExtend 64))

/-- lea: A pair + Ext(B) × 2^s modulo 2⁶⁴ (R122). -/
def execLea (w : FrWord) (s : State) : Out :=
  runLanes (.lea w) s (.pair w.d) (fun c l => laneLea w.typ w.sel (src2 c.g w.a l) (src c.g w.b l) false false)

/-- add64: the sum of two pairs (R122). -/
def execAdd64 (w : FrWord) (s : State) : Out :=
  runLanes (.add64 w) s (.pair w.d) (fun c l => laneAdd64 w.typ false w.clamp (src2 c.g w.a l) (src2 c.g w.b l) w.nA w.aA w.nB w.aB)

/-- add64.sub: the difference of two pairs (R122). -/
def execAdd64Sub (w : FrWord) (s : State) : Out :=
  runLanes (.add64Sub w) s (.pair w.d) (fun c l => laneAdd64 w.typ true w.clamp (src2 c.g w.a l) (src2 c.g w.b l) w.nA w.aA w.nB w.aB)

/-- cmp64: the comparison of two pairs and PS (R122). -/
def execCmp64 (w : FrWord) (s : State) : Out :=
  runLanes (.cmp64 w) s (.pred w.d) (fun c l => resBool (compareInt w.sel (srcInt w.typ (src2 c.g w.a l) 0 w.nA w.aA) (srcInt w.typ (src2 c.g w.b l) 0 w.nB w.aB) && psGet c.g w.c l))

end Sys2Proof.Machine
end

