-- ==== Sys2Proof/Machine/Predicate.lean ====
section
/-! DEFINITION. Sys2Proof/Machine/Predicate.lean: predicate logic and moves (R138, R139). -/

namespace Sys2Proof.Machine

open Sys2Proof

/-- Bit i of D is predicate lo + i of the lane. -/
def packPreds (g : Group) (lo n l : Nat) : Nat := (List.range n).foldl (fun x i => x + (predGet g (lo + i) l).toNat * 2 ^ i) 0

/-- pi := bit i of A in the active lanes, for n predicates from lo. -/
def unpackPreds (c : Go) (f : BitVec 8) (lo n : Nat) : Group :=
  (List.range n).foldl (fun g i => predSet g (lo + i) c.act (maskOf (fun l => bit (srcW c.g f l) i))) c.g

/-- plop: three-input predicate logic (R138). -/
def execPlop (w : FrWord) (s : State) : Out :=
  runLanes (.plop w) s (.pred w.d) (fun c l => resBool (lutBit w.lut (psGet c.g w.a l) (psGet c.g w.b l) (psGet c.g w.c l)))

/-- pmov.pack: p0–p31 (R139). -/
def execPmovPack (w : FrWord) (s : State) : Out :=
  runLanes (.pmovPack w) s (.reg w.d) (fun c l => resNat (packPreds c.g 0 32 l))

/-- pmov.packhi: p32–p47, and zero above (R139). -/
def execPmovPackhi (w : FrWord) (s : State) : Out :=
  runLanes (.pmovPackhi w) s (.reg w.d) (fun c l => resNat (packPreds c.g 32 16 l))

/-- pmov.unpack: p0–p31 from A (R139). -/
def execPmovUnpack (w : FrWord) (s : State) : Out :=
  runGroup (.pmovUnpack w) s (fun c => unpackPreds c w.a 0 32)

/-- pmov.unpackhi: p32–p46 from A (R139). -/
def execPmovUnpackhi (w : FrWord) (s : State) : Out :=
  runGroup (.pmovUnpackhi w) s (fun c => unpackPreds c w.a 32 15)

/-- pmov: one predicate to another (R139). -/
def execPmov (w : FrWord) (s : State) : Out :=
  runLanes (.pmov w) s (.pred w.d) (fun c l => resBool (psGet c.g w.a l))

end Sys2Proof.Machine
end

