-- ==== Sys2Proof/Machine/Reduce.lean ====
section
/-! DEFINITION. Sys2Proof/Machine/Reduce.lean: dot products, reductions and scans (R136, R137). -/

namespace Sys2Proof.Machine

open Sys2Proof

/-- A dot product in one lane (R136): the integer forms take clamp only. -/
def laneDot (c : Go) (w : FrWord) (l : Nat) : LaneRes :=
  let pc := if w.typ = 1 then src c.g w.c l else src2 c.g w.c l
  if tyInt w.typ then laneDotInt w.typ w.clamp (src c.g w.a l) (src c.g w.b l) (src c.g w.c l)
  else laneDotFloat w.typ w.ds w.clamp (rndOf w.sel c.t.fmt) (src c.g w.a l) (src c.g w.b l) pc
    w.nA w.aA w.nB w.aB w.nC w.aC

/-- A lane's input of vred and vscan (R137). -/
def redInput (c : Go) (w : FrWord) (op l : Nat) : Word :=
  if c.act.getLsbD l then
    (if w.typ = 0 then BitVec.ofNat 32 (srcF c.g w.a l w.nA w.aA)
     else if w.typ = 8 then wrap 32 (srcInt w.typ (src c.g w.a l) 0 w.nA w.aA) else srcW c.g w.a l)
  else identOf w.typ op

/-- The operation of a reduction: B[2:0]. -/
def redOp (w : FrWord) : Nat := (bits w.b 0 3 : BitVec 3).toNat
def redFn (c : Go) (w : FrWord) : Word → Word → Word × FFlags := combine w.typ (redOp w) w.clamp (rndOf w.sel c.t.fmt)

/-- The reduction's value and flags. -/
def redValue (c : Go) (w : FrWord) : Word × FFlags := redTree (redFn c w) 5 (lanes.map (redInput c w (redOp w)))
/-- The inclusive scan's values and flags. -/
def scanValue (c : Go) (w : FrWord) : List Word × FFlags :=
  scanSteps (redFn c w) [1, 2, 4, 8, 16] (lanes.map (redInput c w (redOp w)))
/-- Lane L of a scan: the exclusive form gives lane L − 1's, and IDENT in lane 0 (R71). -/
def scanLane (c : Go) (w : FrWord) (l : Nat) : Word :=
  if bit w.b 3 then (if l = 0 then identOf w.typ (redOp w) else (scanValue c w).1.getD (l - 1) 0)
  else (scanValue c w).1.getD l 0

/-- dp4: the exact dot product and addend (R136). -/
def execDp4 (w : FrWord) (s : State) : Out :=
  runLanes (.dp4 w) s (.reg w.d) (fun c l => laneDot c w l)

/-- dp8: the exact dot product and addend (R136). -/
def execDp8 (w : FrWord) (s : State) : Out :=
  runLanes (.dp8 w) s (.reg w.d) (fun c l => laneDot c w l)

/-- dp2: the exact dot product and addend (R136). -/
def execDp2 (w : FrWord) (s : State) : Out :=
  runLanes (.dp2 w) s (.reg w.d) (fun c l => laneDot c w l)

/-- vred: the tree of R70, its result in every active lane (R137). -/
def execVred (w : FrWord) (s : State) : Out :=
  runLanes (.vred w) s (.reg w.d) (fun c _ => res32 (redValue c w).1 (redValue c w).2)

/-- vscan: the scan of R71 (R137). -/
def execVscan (w : FrWord) (s : State) : Out :=
  runLanes (.vscan w) s (.reg w.d) (fun c l => res32 (scanLane c w l) (scanValue c w).2)

end Sys2Proof.Machine
end

