-- ==== Sys2Proof/Machine/Special.lean ====
section
/-! DEFINITION. Sys2Proof/Machine/Special.lean: the approximated functions and fsqrt (R130, R131). -/

namespace Sys2Proof.Machine

open Sys2Proof

/-- frcp: 1/a within the bound of R130. -/
def execFrcp (w : FrWord) (s : State) : Out :=
  runLanes (.frcp w) s (.reg w.d) (fun c l => codeRes (laneFrcp (srcF c.g w.a l w.nA w.aA)))

/-- frsq: 1/√a within the bound of R130. -/
def execFrsq (w : FrWord) (s : State) : Out :=
  runLanes (.frsq w) s (.reg w.d) (fun c l => codeRes (laneFrsq (srcF c.g w.a l w.nA w.aA)))

/-- fsqrt: √a, correctly rounded (R130). -/
def execFsqrt (w : FrWord) (s : State) : Out :=
  runLanes (.fsqrt w) s (.reg w.d) (fun c l => codeRes (laneFsqrt w.ds w.clamp (rndOf w.sel c.t.fmt) (srcF c.g w.a l w.nA w.aA)))

/-- fex2: 2^a within the bound of R130. -/
def execFex2 (w : FrWord) (s : State) : Out :=
  runLanes (.fex2 w) s (.reg w.d) (fun c l => codeRes (laneFex2 (srcF c.g w.a l w.nA w.aA)))

/-- flg2: log₂ a within the bound of R130. -/
def execFlg2 (w : FrWord) (s : State) : Out :=
  runLanes (.flg2 w) s (.reg w.d) (fun c l => codeRes (laneFlg2 (srcF c.g w.a l w.nA w.aA)))

/-- fsincos: sin(π·a) and cos(π·a) into a pair (R130). -/
def execFsincos (w : FrWord) (s : State) : Out :=
  runLanes (.fsincos w) s (.pair w.d) (fun c l => 
    let x := laneFsincos (srcF c.g w.a l w.nA w.aA)
    res64 (pairVal (BitVec.ofNat 32 x.1.1) (BitVec.ofNat 32 x.2.1)) (x.1.2 ||| x.2.2))

/-- fact: the activation function fn of a (R131). -/
def execFact (w : FrWord) (s : State) : Out :=
  runLanes (.fact w) s (.reg w.d) (fun c l => codeRes (laneFact (bits w.b 0 3 : BitVec 3).toNat (srcF c.g w.a l w.nA w.aA)))

/-- fdact: the derivative of fn at a times b (R131). -/
def execFdact (w : FrWord) (s : State) : Out :=
  runLanes (.fdact w) s (.reg w.d) (fun c l => codeRes (laneFdact (bits w.c 0 3 : BitVec 3).toNat (srcF c.g w.a l w.nA w.aA) (srcF c.g w.b l w.nB w.aB)))

end Sys2Proof.Machine
end

