-- ==== Sys2Proof/Machine/Wake.lean ====
section
/-! DEFINITION. Sys2Proof/Machine/Wake.lean: the waking of a sleeping split: its word, which has issued, goes on to its effect, and the
split is READY on its next word (R269, R276). -/

namespace Sys2Proof.Machine

open Sys2Proof

/-- The condition that a sleeping split waits for holds; a word that closes the region waits for the group's checks as well (R156). -/
def wakeNow (s : State) (gid : Nat) (g : Group) (w : Sleep) : Bool :=
  match w with
  | .phase k seq => (barOf (unitOf s g.uid) k).seq != seq
  | .join _ => false
  | .clk v => decide (v.toNat ≤ s.clk.toNat)
  | .rosec base key ticket => rosecNext s base key == BitVec.ofNat 32 ticket && !unchecked s gid
  | .count l => (levelOf s l).done || (tabFind s.levels l).isNone
  | .room k => let ch := chanOf s g.lid k; ch.closed || (decide (ch.queue.length < ch.slots) && !accessPending s gid)
  | .recv k oid => let ch := chanOf s g.lid k
    (ch.waiting.head? == some oid && !ch.queue.isEmpty || (ch.closed && ch.queue.isEmpty)) && !unchecked s gid
  | .granules w => (windowFits s g w || mayMove s g w) && !unchecked s gid
  | .queue => decide (launchesOut s gid < 16) && !accessPending s gid

/-- The word that a split slept in goes on. -/
def wakeWord (s : State) (c : Go) (w : Sleep) : Instr → Out
  | .send x => sendNow s x c
  | .recv x => match w with
    | .recv k oid => .next (recvWake s x c k oid)
    | _ => .next s
  | .claim x => claimNow s x c
  | .rswitch x => switchNow s (.rswitch x) c (c.t.role.getD 0)
  | .rswitchHint x => switchNow s (.rswitchHint x) c (c.t.role.getD 0)
  | .rosecEnter x => .next (enterSection s c (regGet c.g x.a.toNat 0) (regGet c.g (x.a.toNat + 1) 0))
  | .cntWait _ => match w with
    | .count l => .next (retireSame (childWaited s c l) c)
    | _ => .next (retireSame s c)
  | .barSync x | .barWait x => .next (retireSame (passBar s c x.barK) c)
  | .launchAcc x => launchNow s (.launchAcc x) x false c
  | .launchDone x => launchNow s (.launchDone x) x true c
  | _ => .next (retireSame s c)

/-- SPLIT_WAKE. -/
def execSplitWake (gid sp : Nat) (s : State) : Out :=
  match grp s gid, sleepingWord s gid sp with
  | some g, some (i, c) => match c.t.st with
    | .asleep w => if g.st == .running && wakeNow s gid g w then wakeWord s c w i else .next s
    | _ => .next s
  | _, _ => .next s

end Sys2Proof.Machine
end

