-- ==== Sys2Proof/Machine/Dispatch.lean ====
section
/-! DEFINITION. Sys2Proof/Machine/Dispatch.lean: one arm per instruction word and device step, each a direct call of its meaning. -/

namespace Sys2Proof.Machine

open Sys2Proof

def exec (i : Instr) (s : State) : Host.Outcome State Fault Refusal :=
  match i with
  | .clauseHeader h => Sys2Proof.Machine.execClauseHeader h s
  | .clauseWaitResume gid sp => Sys2Proof.Machine.execClauseWaitResume gid sp s
  | .flagCompletion oid => Sys2Proof.Machine.execFlagCompletion oid s
  | .issueCycle core quarter bad => Sys2Proof.Machine.execIssueCycle core quarter bad s
  | .groupDue gid => Sys2Proof.Machine.execGroupDue gid s
  | .pairedWord a b low => Sys2Proof.Machine.execPairedWord a b low s
  | .nop => Sys2Proof.Machine.execNop s
  | .iadd w => Sys2Proof.Machine.execIadd w s
  | .isub w => Sys2Proof.Machine.execIsub w s
  | .imul w => Sys2Proof.Machine.execImul w s
  | .imulhi w => Sys2Proof.Machine.execImulhi w s
  | .imad w => Sys2Proof.Machine.execImad w s
  | .imadw w => Sys2Proof.Machine.execImadw w s
  | .iminmaxMin w => Sys2Proof.Machine.execIminmaxMin w s
  | .iminmaxMax w => Sys2Proof.Machine.execIminmaxMax w s
  | .isad w => Sys2Proof.Machine.execIsad w s
  | .andB w => Sys2Proof.Machine.execAndB w s
  | .orB w => Sys2Proof.Machine.execOrB w s
  | .xorB w => Sys2Proof.Machine.execXorB w s
  | .lop3 w => Sys2Proof.Machine.execLop3 w s
  | .shl w => Sys2Proof.Machine.execShl w s
  | .shr w => Sys2Proof.Machine.execShr w s
  | .shfR w => Sys2Proof.Machine.execShfR w s
  | .shfL w => Sys2Proof.Machine.execShfL w s
  | .bfx w => Sys2Proof.Machine.execBfx w s
  | .bfi w => Sys2Proof.Machine.execBfi w s
  | .popc w => Sys2Proof.Machine.execPopc w s
  | .bitopClz w => Sys2Proof.Machine.execBitopClz w s
  | .bitopCtz w => Sys2Proof.Machine.execBitopCtz w s
  | .bitopBrev w => Sys2Proof.Machine.execBitopBrev w s
  | .perm w => Sys2Proof.Machine.execPerm w s
  | .icmp w => Sys2Proof.Machine.execIcmp w s
  | .sel w => Sys2Proof.Machine.execSel w s
  | .mov w => Sys2Proof.Machine.execMov w s
  | .movi w => Sys2Proof.Machine.execMovi w s
  | .moviI64 w => Sys2Proof.Machine.execMoviI64 w s
  | .lea w => Sys2Proof.Machine.execLea w s
  | .add64 w => Sys2Proof.Machine.execAdd64 w s
  | .add64Sub w => Sys2Proof.Machine.execAdd64Sub w s
  | .cmp64 w => Sys2Proof.Machine.execCmp64 w s
  | .lanexFirst w => Sys2Proof.Machine.execLanexFirst w s
  | .lanexIdx w => Sys2Proof.Machine.execLanexIdx w s
  | .shfl w => Sys2Proof.Machine.execShfl w s
  | .voteBallot w => Sys2Proof.Machine.execVoteBallot w s
  | .voteAll w => Sys2Proof.Machine.execVoteAll w s
  | .voteAny w => Sys2Proof.Machine.execVoteAny w s
  | .voteUni w => Sys2Proof.Machine.execVoteUni w s
  | .voteCount w => Sys2Proof.Machine.execVoteCount w s
  | .mrd w => Sys2Proof.Machine.execMrd w s
  | .mwr w => Sys2Proof.Machine.execMwr w s
  | .coreWorldApply core => Sys2Proof.Machine.execCoreWorldApply core s
  | .fadd w => Sys2Proof.Machine.execFadd w s
  | .fmul w => Sys2Proof.Machine.execFmul w s
  | .ffma w => Sys2Proof.Machine.execFfma w s
  | .fscale w => Sys2Proof.Machine.execFscale w s
  | .fminmax w => Sys2Proof.Machine.execFminmax w s
  | .fcmp w => Sys2Proof.Machine.execFcmp w s
  | .frnd w => Sys2Proof.Machine.execFrnd w s
  | .frcp w => Sys2Proof.Machine.execFrcp w s
  | .frsq w => Sys2Proof.Machine.execFrsq w s
  | .fsqrt w => Sys2Proof.Machine.execFsqrt w s
  | .fex2 w => Sys2Proof.Machine.execFex2 w s
  | .flg2 w => Sys2Proof.Machine.execFlg2 w s
  | .fsincos w => Sys2Proof.Machine.execFsincos w s
  | .fact w => Sys2Proof.Machine.execFact w s
  | .fdact w => Sys2Proof.Machine.execFdact w s
  | .fclass w => Sys2Proof.Machine.execFclass w s
  | .cvt w => Sys2Proof.Machine.execCvt w s
  | .hop2Add w => Sys2Proof.Machine.execHop2Add w s
  | .hop2Mul w => Sys2Proof.Machine.execHop2Mul w s
  | .hop2Fma w => Sys2Proof.Machine.execHop2Fma w s
  | .qscale w => Sys2Proof.Machine.execQscale w s
  | .setfmt w => Sys2Proof.Machine.execSetfmt w s
  | .setfmtM w => Sys2Proof.Machine.execSetfmtM w s
  | .dp4 w => Sys2Proof.Machine.execDp4 w s
  | .dp8 w => Sys2Proof.Machine.execDp8 w s
  | .dp2 w => Sys2Proof.Machine.execDp2 w s
  | .vred w => Sys2Proof.Machine.execVred w s
  | .vscan w => Sys2Proof.Machine.execVscan w s
  | .plop w => Sys2Proof.Machine.execPlop w s
  | .pmovPack w => Sys2Proof.Machine.execPmovPack w s
  | .pmovPackhi w => Sys2Proof.Machine.execPmovPackhi w s
  | .pmovUnpack w => Sys2Proof.Machine.execPmovUnpack w s
  | .pmovUnpackhi w => Sys2Proof.Machine.execPmovUnpackhi w s
  | .pmov w => Sys2Proof.Machine.execPmov w s
  | .bra w => Sys2Proof.Machine.execBra w s
  | .brx w => Sys2Proof.Machine.execBrx w s
  | .call w => Sys2Proof.Machine.execCall w s
  | .ret w => Sys2Proof.Machine.execRet w s
  | .join w => Sys2Proof.Machine.execJoin w s
  | .reconvRefill gid sp => Sys2Proof.Machine.execReconvRefill gid sp s
  | .pathStart gid => Sys2Proof.Machine.execPathStart gid s
  | .exit w => Sys2Proof.Machine.execExit w s
  | .groupEnd gid => Sys2Proof.Machine.execGroupEnd gid s
  | .rolejmp w => Sys2Proof.Machine.execRolejmp w s
  | .rolejmpCur w => Sys2Proof.Machine.execRolejmpCur w s
  | .rswitch w => Sys2Proof.Machine.execRswitch w s
  | .rswitchHint w => Sys2Proof.Machine.execRswitchHint w s
  | .claim w => Sys2Proof.Machine.execClaim w s
  | .claimTry w => Sys2Proof.Machine.execClaimTry w s
  | .giveback w => Sys2Proof.Machine.execGiveback w s
  | .yield w => Sys2Proof.Machine.execYield w s
  | .ld w => Sys2Proof.Machine.execLd w s
  | .st w => Sys2Proof.Machine.execSt w s
  | .lds w => Sys2Proof.Machine.execLds w s
  | .sts w => Sys2Proof.Machine.execSts w s
  | .ldv w => Sys2Proof.Machine.execLdv w s
  | .stv w => Sys2Proof.Machine.execStv w s
  | .atom w => Sys2Proof.Machine.execAtom w s
  | .atoms w => Sys2Proof.Machine.execAtoms w s
  | .red w => Sys2Proof.Machine.execRed w s
  | .confEq w => Sys2Proof.Machine.execConfEq w s
  | .confLt w => Sys2Proof.Machine.execConfLt w s
  | .confBank w => Sys2Proof.Machine.execConfBank w s
  | .gather w => Sys2Proof.Machine.execGather w s
  | .gatherBnd w => Sys2Proof.Machine.execGatherBnd w s
  | .ldc w => Sys2Proof.Machine.execLdc w s
  | .cachectlPf w => Sys2Proof.Machine.execCachectlPf w s
  | .cachectlWb w => Sys2Proof.Machine.execCachectlWb w s
  | .cachectlEvict w => Sys2Proof.Machine.execCachectlEvict w s
  | .cachectlCinv w => Sys2Proof.Machine.execCachectlCinv w s
  | .fence w => Sys2Proof.Machine.execFence w s
  | .barSync w => Sys2Proof.Machine.execBarSync w s
  | .barArrive w => Sys2Proof.Machine.execBarArrive w s
  | .barWait w => Sys2Proof.Machine.execBarWait w s
  | .barInit w => Sys2Proof.Machine.execBarInit w s
  | .barRows w => Sys2Proof.Machine.execBarRows w s
  | .splitWake gid sp => Sys2Proof.Machine.execSplitWake gid sp s
  | .fwait w => Sys2Proof.Machine.execFwait w s
  | .bwait w => Sys2Proof.Machine.execBwait w s
  | .cpy w => Sys2Proof.Machine.execCpy w s
  | .cpyRowLanded oid row => Sys2Proof.Machine.execCpyRowLanded oid row s
  | .cpySourceFree oid => Sys2Proof.Machine.execCpySourceFree oid s
  | .cpyVisible oid => Sys2Proof.Machine.execCpyVisible oid s
  | .cpyRowFault oid row => Sys2Proof.Machine.execCpyRowFault oid row s
  | .cpybatch w => Sys2Proof.Machine.execCpybatch w s
  | .send w => Sys2Proof.Machine.execSend w s
  | .sendClose w => Sys2Proof.Machine.execSendClose w s
  | .recv w => Sys2Proof.Machine.execRecv w s
  | .mcastTeam w => Sys2Proof.Machine.execMcastTeam w s
  | .mcastCluster w => Sys2Proof.Machine.execMcastCluster w s
  | .mcastDelivery oid k => Sys2Proof.Machine.execMcastDelivery oid k s
  | .rflush w => Sys2Proof.Machine.execRflush w s
  | .talloc w => Sys2Proof.Machine.execTalloc w s
  | .tfree w => Sys2Proof.Machine.execTfree w s
  | .thand w => Sys2Proof.Machine.execThand w s
  | .tload w => Sys2Proof.Machine.execTload w s
  | .tloadT w => Sys2Proof.Machine.execTloadT w s
  | .tloadSc w => Sys2Proof.Machine.execTloadSc w s
  | .tstore w => Sys2Proof.Machine.execTstore w s
  | .tstoreT w => Sys2Proof.Machine.execTstoreT w s
  | .tstoreQ w => Sys2Proof.Machine.execTstoreQ w s
  | .mma w => Sys2Proof.Machine.execMma w s
  | .mmaSa w => Sys2Proof.Machine.execMmaSa w s
  | .mmaSb w => Sys2Proof.Machine.execMmaSb w s
  | .mmaSab w => Sys2Proof.Machine.execMmaSab w s
  | .mmaTeam w => Sys2Proof.Machine.execMmaTeam w s
  | .jointOperation team tag => Sys2Proof.Machine.execJointOperation team tag s
  | .jointOperationTimeout team tag => Sys2Proof.Machine.execJointOperationTimeout team tag s
  | .mmbDa w => Sys2Proof.Machine.execMmbDa w s
  | .mmbDb w => Sys2Proof.Machine.execMmbDb w s
  | .svr w => Sys2Proof.Machine.execSvr w s
  | .travStart w => Sys2Proof.Machine.execTravStart w s
  | .travResume w => Sys2Proof.Machine.execTravResume w s
  | .travDrop w => Sys2Proof.Machine.execTravDrop w s
  | .rayEnd key => Sys2Proof.Machine.execRayEnd key s
  | .rayPageArrival key => Sys2Proof.Machine.execRayPageArrival key s
  | .tres w => Sys2Proof.Machine.execTres w s
  | .skey w => Sys2Proof.Machine.execSkey w s
  | .skeyAt w => Sys2Proof.Machine.execSkeyAt w s
  | .sort w => Sys2Proof.Machine.execSort w s
  | .sortJob oid => Sys2Proof.Machine.execSortJob oid s
  | .blend w => Sys2Proof.Machine.execBlend w s
  | .bgrad w => Sys2Proof.Machine.execBgrad w s
  | .vbufZ w => Sys2Proof.Machine.execVbufZ w s
  | .vbufId w => Sys2Proof.Machine.execVbufId w s
  | .vbufAll w => Sys2Proof.Machine.execVbufAll w s
  | .vbufZmax w => Sys2Proof.Machine.execVbufZmax w s
  | .rosecEnter w => Sys2Proof.Machine.execRosecEnter w s
  | .rosecLeave w => Sys2Proof.Machine.execRosecLeave w s
  | .rosecTimeout gid => Sys2Proof.Machine.execRosecTimeout gid s
  | .softwareTrap w => Sys2Proof.Machine.execSoftwareTrap w s
  | .brkSet w => Sys2Proof.Machine.execBrkSet w s
  | .brkClr w => Sys2Proof.Machine.execBrkClr w s
  | .sret w => Sys2Proof.Machine.execSret w s
  | .sretPass w => Sys2Proof.Machine.execSretPass w s
  | .launchAcc w => Sys2Proof.Machine.execLaunchAcc w s
  | .launchDone w => Sys2Proof.Machine.execLaunchDone w s
  | .cntRd w => Sys2Proof.Machine.execCntRd w s
  | .cntWait w => Sys2Proof.Machine.execCntWait w s
  | .cntCancel w => Sys2Proof.Machine.execCntCancel w s
  | .clkRd w => Sys2Proof.Machine.execClkRd w s
  | .clkUntil w => Sys2Proof.Machine.execClkUntil w s
  | .clkUntilExpiry gid sp => Sys2Proof.Machine.execClkUntilExpiry gid sp s
  | .packetValidation lid => Sys2Proof.Machine.execPacketValidation lid s
  | .dispatchDecision cluster => Sys2Proof.Machine.execDispatchDecision cluster s
  | .levelCompletion lid => Sys2Proof.Machine.execLevelCompletion lid s
  | .roleHintEvaluation => Sys2Proof.Machine.execRoleHintEvaluation s
  | .budgetRefresh dies rest draw => Sys2Proof.Machine.execBudgetRefresh dies rest draw s
  | .translationWalk ctx va => Sys2Proof.Machine.execTranslationWalk ctx va s
  | .groupRestore gid => Sys2Proof.Machine.execGroupRestore gid s
  | .storePressureEvict core => Sys2Proof.Machine.execStorePressureEvict core s
  | .unitSave uid => Sys2Proof.Machine.execUnitSave uid s
  | .contextOff ctx => Sys2Proof.Machine.execContextOff ctx s
  | .preemptDeadlineExpiry ctx => Sys2Proof.Machine.execPreemptDeadlineExpiry ctx s
  | .ctxctlStop ctx => Sys2Proof.Machine.execCtxctlStop ctx s
  | .ctxctlPreempt ctx => Sys2Proof.Machine.execCtxctlPreempt ctx s
  | .ctxctlResume ctx => Sys2Proof.Machine.execCtxctlResume ctx s
  | .ctxctlInvalid ctx => Sys2Proof.Machine.execCtxctlInvalid ctx s
  | .tlbinvPage ctx va wb => Sys2Proof.Machine.execTlbinvPage ctx va wb s
  | .tlbinvRange ctx va n wb => Sys2Proof.Machine.execTlbinvRange ctx va n wb s
  | .tlbinvContext ctx wb => Sys2Proof.Machine.execTlbinvContext ctx wb s
  | .tlbinvAll wb => Sys2Proof.Machine.execTlbinvAll wb s
  | .tlbinvComplete => Sys2Proof.Machine.execTlbinvComplete s
  | .pgdone ctx va => Sys2Proof.Machine.execPgdone ctx va s
  | .troughMerge oid => Sys2Proof.Machine.execTroughMerge oid s
  | .homeSliceAccess oid => Sys2Proof.Machine.execHomeSliceAccess oid s
  | .meshFlitHop key => Sys2Proof.Machine.execMeshFlitHop key s
  | .bteCommand oid => Sys2Proof.Machine.execBteCommand oid s
  | .bteJob ch => Sys2Proof.Machine.execBteJob ch s
  | .engineFootprintRelease jid => Sys2Proof.Machine.execEngineFootprintRelease jid s
  | .rasterTask lid => Sys2Proof.Machine.execRasterTask lid s
  | .attributeTaskSend lid => Sys2Proof.Machine.execAttributeTaskSend lid s
  | .drawEnd lid => Sys2Proof.Machine.execDrawEnd lid s
  | .sqcfgEnable q => Sys2Proof.Machine.execSqcfgEnable q s
  | .sqcfgDisable q => Sys2Proof.Machine.execSqcfgDisable q s
  | .sqtailNotify q tail => Sys2Proof.Machine.execSqtailNotify q tail s
  | .sqEntryCopy q => Sys2Proof.Machine.execSqEntryCopy q s
  | .cqRecordWrite q => Sys2Proof.Machine.execCqRecordWrite q s
  | .sqcancel q n => Sys2Proof.Machine.execSqcancel q n s
  | .eventRecordPost => Sys2Proof.Machine.execEventRecordPost s
  | .bar2Access off n data => Sys2Proof.Machine.execBar2Access off n data s
  | .registerWrite off n v => Sys2Proof.Machine.execRegisterWrite off n v s
  | .rcRegisterRead off n => Sys2Proof.Machine.execRcRegisterRead off n s
  | .secondTierError pa => Sys2Proof.Machine.execSecondTierError pa s
  | .linkFlitSend p => Sys2Proof.Machine.execLinkFlitSend p s
  | .linkFlitReceive p bs => Sys2Proof.Machine.execLinkFlitReceive p bs s
  | .linkReplayTimeout p => Sys2Proof.Machine.execLinkReplayTimeout p s
  | .lqcfgEnable r => Sys2Proof.Machine.execLqcfgEnable r s
  | .lqcfgDisable r => Sys2Proof.Machine.execLqcfgDisable r s
  | .lqtailNotify r tail => Sys2Proof.Machine.execLqtailNotify r tail s
  | .put r => Sys2Proof.Machine.execPut r s
  | .putArrival p => Sys2Proof.Machine.execPutArrival p s
  | .comp r peers => Sys2Proof.Machine.execComp r peers s
  | .compb r peers => Sys2Proof.Machine.execCompb r peers s
  | .collectiveTimeout r => Sys2Proof.Machine.execCollectiveTimeout r s
  | .linkLaneSpare lane => Sys2Proof.Machine.execLinkLaneSpare lane s
  | .linkPortDown p => Sys2Proof.Machine.execLinkPortDown p s
  | .varturPortTrain p peer => Sys2Proof.Machine.execVarturPortTrain p peer s
  | .coreFailure core => Sys2Proof.Machine.execCoreFailure core s
  | .patrolScrub st owner w f => Sys2Proof.Machine.execPatrolScrub st owner w f s
  | .hbmChannelSpare stack ch => Sys2Proof.Machine.execHbmChannelSpare stack ch s
  | .hbmSoftRowRepair bank row => Sys2Proof.Machine.execHbmSoftRowRepair bank row s
  | .attestationReport => Sys2Proof.Machine.execAttestationReport s
  | .attestationCertificate => Sys2Proof.Machine.execAttestationCertificate s
  | .fwcmdStage flashOk => Sys2Proof.Machine.execFwcmdStage flashOk s
  | .fwcmdCommit => Sys2Proof.Machine.execFwcmdCommit s
  | .deviceReset cause b => Sys2Proof.Machine.execDeviceReset cause b s
  | .powerOn b => Sys2Proof.Machine.execPowerOn b s
  | .perst b => Sys2Proof.Machine.execPerst b s
  | .functionLevelReset b => Sys2Proof.Machine.execFunctionLevelReset b s
  | .rstctl v b => Sys2Proof.Machine.execRstctl v b s
  | .railFault => Sys2Proof.Machine.execRailFault s
  | .thermalShutdown => Sys2Proof.Machine.execThermalShutdown s
  | .pllLockLoss => Sys2Proof.Machine.execPllLockLoss s
  | .serdesReferenceLoss => Sys2Proof.Machine.execSerdesReferenceLoss s
  | .powerOff standby => Sys2Proof.Machine.execPowerOff standby s
  | .pllRelock b => Sys2Proof.Machine.execPllRelock b s
  | .secondTierPortDown port => Sys2Proof.Machine.execSecondTierPortDown port s

end Sys2Proof.Machine
end

