-- ==== Sys2Proof/Machine/Events.lean ====
section
/-! DEFINITION. Sys2Proof/Machine/Events.lean: what the machine does between words: the device's own steps that the state may call for,
and the choice among them; the passing of the clock; how a program is placed for the host's question. -/

namespace Sys2Proof.Machine

open Sys2Proof

/-! ### The steps the device may take by itself -/

def splitEvents (gid : Nat) (e : Nat × Split) : List Instr :=
  match e.2.st with
  | .ready => []
  | .held => [.reconvRefill gid e.1, .clauseWaitResume gid e.1]
  | .asleep (.clk _) => [.clkUntilExpiry gid e.1]
  | .asleep _ => [.splitWake gid e.1]

def groupEvents (e : Nat × Group) : List Instr :=
  .rosecTimeout e.1 :: .pathStart e.1 :: e.2.splits.flatMap (splitEvents e.1) ++ [.groupEnd e.1, .groupRestore e.1, .groupDue e.1]

/-- The team and tag of an operation that waits for its team. -/
def teamEvents (s : State) (o : Op) : List Instr :=
  match o.instr with
  | .mmaTeam _ => if o.engine then [.jointOperation (opCore s o / 4) o.tag, .jointOperationTimeout (opCore s o / 4) o.tag] else []
  | _ => []

def opEvents (s : State) (e : Nat × Op) : List Instr :=
  teamEvents s e.2 ++ [.homeSliceAccess e.1, .troughMerge e.1, .bteCommand e.1, .flagCompletion e.1]

def copyEvents (e : Nat × Copy) : List Instr :=
  e.2.left.flatMap (fun i => [.cpyRowFault e.1 i]) ++ .cpySourceFree e.1 :: e.2.left.map (fun i => .cpyRowLanded e.1 i) ++ [.cpyVisible e.1]

def levelEvents (e : Nat × Level) : List Instr := [.packetValidation e.1, .levelCompletion e.1]

def ctxEvents (s : State) (e : Nat × Context) : List Instr :=
  (e.2.waitingAsk.filter (fun a => walk s e.1 a == .absent)).map (fun a => .translationWalk e.1 a) ++ [.preemptDeadlineExpiry e.1, .contextOff e.1]

def portEvents (p : Nat) : List Instr := [.putArrival p, .linkReplayTimeout p, .linkFlitSend p]

/-- The quarters that hold a ready group, the one whose turn it is first. -/
def issueEvents (s : State) : List Instr :=
  let ks := (List.range 768).filter (fun k => s.groups.any (fun e => 4 * e.2.core + e.2.quarter == k && groupReady e.2))
  (ks.filter (fun k => decide (s.turn ≤ k)) ++ ks.filter (fun k => decide (k < s.turn))).map (fun k => .issueCycle (k / 4) (k % 4) none)

/-- Every step that the state may call for, in the order in which the model looks. -/
def deviceEvents (s : State) : List Instr :=
  s.ops.flatMap (opEvents s) ++ s.copies.flatMap copyEvents ++
  s.casts.flatMap (fun e => e.2.left.map (fun k => .mcastDelivery e.1 k)) ++ s.sorts.map (fun e => .sortJob e.1) ++
  s.rays.flatMap (fun e => [.rayPageArrival e.1, .rayEnd e.1]) ++ s.jobs.map (fun e => .engineFootprintRelease e.1) ++
  s.bte.map (fun e => .bteJob e.1) ++ s.flits.map (fun e => .meshFlitHop e.1) ++
  s.draws.flatMap (fun e => [.rasterTask e.1, .attributeTaskSend e.1, .drawEnd e.1]) ++
  s.groups.flatMap groupEvents ++ s.queues.flatMap (fun e => [.cqRecordWrite e.1, .sqEntryCopy e.1]) ++
  s.levels.flatMap levelEvents ++ (List.range 4).map (fun k => .dispatchDecision k) ++
  s.cworld.map (fun e => .coreWorldApply e.1) ++ s.units.map (fun e => .storePressureEvict e.2.core) ++
  s.units.map (fun e => .unitSave e.1) ++ s.ctxs.flatMap (ctxEvents s) ++
  [.eventRecordPost, .tlbinvComplete, .attestationReport, .attestationCertificate] ++
  s.ports.flatMap (fun e => portEvents e.1) ++ s.lrings.flatMap (fun e => [.collectiveTimeout e.1, .put e.1, .comp e.1 [], .compb e.1 []])

/-- The step changes the state. -/
def changes (s : State) (i : Instr) : Bool :=
  match exec i s with
  | .next t => decide (t ≠ s)
  | _ => false

/-- The device's next step: the first that changes the state, a word's issue last. -/
def nextEvent (s : State) : Option Instr := (deviceEvents s ++ issueEvents s).find? (changes s)

/-- The word that a ready split would issue now ends HELD: the split's next word cannot issue this clk (R269). -/
def wouldHold (s : State) (gid sp : Nat) : Bool :=
  let s := issueTick { s with cur := some (gid, sp) } gid
  match boundary s gid sp with
  | .gone _ => false
  | .word i => match exec i s with
    | .next t => (grp t gid).any (fun g => g.st == .running && (splitAt g sp).st == .held)
    | _ => false

/-- The ready splits of a quarter. -/
def readySplits (s : State) (core quarter : Nat) : List (Nat × Nat) :=
  (s.groups.filter (fun e => e.2.core == core && e.2.quarter == quarter && groupReady e.2)).flatMap (fun e =>
    (e.2.splits.filter (fun p => splitReady p.2)).map (fun p => (e.1, p.1)))

/-- Before a quarter chooses, each split whose next word cannot issue is HELD: it makes its group neither ready nor older (R269, R271). -/
def examined (s : State) : Instr → State
  | .issueCycle core quarter _ =>
    if s.cur.isSome then s
    else (readySplits s core quarter).foldl (fun x e => if wouldHold s e.1 e.2 then holdSplit x e.1 e.2 else x) s
  | _ => s

/-- A device step, outside the words. -/
def deviceStep (s : State) (i : Instr) : Out := exec i (examined s i)

/-- The step that comes next between words: a request to the secure monitor, a step the outside has asked for, else the device's own. -/
def between (s : State) : Out :=
  match s.monitor, s.agenda with
  | (k, d) :: r, _ => .next (monitorStep { s with monitor := r } k d)
  | [], i :: r => deviceStep { s with agenda := r } i
  | [], [] => match nextEvent s with
    | some i => deviceStep s i
    | none => .next s

/-- The clock passes; by how much is open (R271), but for the next word of a bracket, which it does not pass (R353). -/
def tick (s : State) : State :=
  let next := clkAdd s.clk (Config.clkStep s.free)
  let cap := clockCap s none
  { s with clk := if cap.toNat < next.toNat then clkMax s.clk cap else next, free := s.free + 1 }

/-! ### A program placed where the next step issues -/

/-- A context, a launch, a unit and one group, as a placement would leave them, with a split that issues the word at VA 0x10000
(physical 0x10000): at a clause header when the word is one, else at the last word of an open clause. -/
def placeProbe (s : State) (hdr : Bool) : State :=
  let t : Split := { pc := 0x10000, mask := 0xFFFFFFFF, left := if hdr then 0 else 1, hdr := if hdr then 0x10000 else 0xFFF8,
                     first := !hdr }
  let g : Group := { uid := 2, lid := 1, w := 24, splits := [(0, t)] }
  { s with ready := true, cur := some (3, 0), agenda := [], nextId := max s.nextId 4
           ctxs := tabPut s.ctxs 0 { valid := true }
           levels := tabPut s.levels 1 { ctx := 0, valid := true, placed := 1, count := 1, pkt := { code := 0x10000, regs := 24 } }
           units := tabPut s.units 2 { lid := 1 }
           groups := tabPut s.groups 3 g
           tlb := [(0, [{ ctx := 0, va := 0x10000, bits := 16, pa := 0x10000, r := true, w := true, x := true, sys := false,
                          priv := false }])] }

end Sys2Proof.Machine
end

