-- ==== Sys2Proof/Machine/Step.lean ====
section
/-! DEFINITION. Sys2Proof/Machine/Step.lean: one step of the machine, and the placement of a word for the next step. -/

namespace Sys2Proof.Machine

open Sys2Proof

/-- One step: the clock passes; then the word being issued is fetched and acts, or, where no word is being issued, the step that comes
next between words. -/
def step (s : State) : Host.Outcome State Fault Refusal :=
  let s := tick s
  match s.cur with
  | some (gid, sp) =>
    let s := issueTick s gid
    match boundary s gid sp with
    | .word i =>
      let s := wordFetched s gid sp
      issued s gid sp (exec i s)
    | .gone t => .next (endBrackets t (fun k _ => k == gid))
  | none => between s

/-- A state whose next step fetches and runs the word `w`. -/
def State.withFetchWord (s : State) (_nbits w : Nat) : State :=
  let x : IWord := BitVec.ofNat 64 w
  let s := placeProbe s (wordIsHeader x)
  { s with mem := memWrite s.mem 0x10000 (bytesOf 8 x) }

end Sys2Proof.Machine
end

