-- ==== Sys2Proof/Safety.lean ====
section
/-! DEFINITION. Sys2Proof/Safety.lean: what a safe run is, and what an instruction word leaves changed and unchanged, in the terms the
statements use. -/

namespace Sys2Proof.Safety

open Sys2Proof Sys2Proof.Machine

/-! ### Runs -/

/-- The memory keeps the canonical form: addresses rising, no entry equal to what an unlisted address reads as. -/
def MemOk (s : State) : Prop := memWf s.mem = true

/-- A step goes on: it neither faults nor refuses. -/
def GoesOn (s : State) : Prop := ∃ t, step s = .next t

/-- The state after n steps, while every step goes on. -/
def runs : Nat → State → Option State
  | 0, s => some s
  | n + 1, s => match step s with
    | .next t => runs n t
    | _ => none

/-- A safe run: no step of any length stops. -/
def SafeFrom (s : State) : Prop := ∀ n, (runs n s).isSome = true

/-! ### The frame of a word -/

/-- From `s` to `s'` only one group has changed, and no word is being issued: every other group, every byte of memory and everything
else is as before. -/
structure OnlyGroup (s s' : State) (gid : Nat) (g' : Group) : Prop where
  rest : s' = { s with groups := s'.groups, cur := none }
  group : grp s' gid = some g'
  others : ∀ k, k ≠ gid → grp s' k = grp s k
  memory : ∀ a, memByte s'.mem a = memByte s.mem a

/-- The split after a word that is not a transfer: at the next word of its clause, ready (R96, R97). -/
def nextSplit (c : Go) (t : Split) : Split :=
  { t with pc := t.pc + 8, left := t.left - 1, first := false, waitHalf := false, sleeps := none, role := none, st := .ready,
           relScope := if c.global then 0 else t.relScope }

/-- A match suppressed at the word's address for its split has been passed (R253, R410). -/
def passedAt (c : Go) : Option (Double × BitVec 2 × Mask) := if suppressed c.g c.t.pc c.t.mask then none else c.g.suppress

/-- The word of `c` has acted and its group is now `g'`: the split at the next word, no other split changed. -/
structure Retired (s s' : State) (c : Go) (g' : Group) : Prop extends OnlyGroup s s' c.gid g' where
  here : tabFind g'.splits c.sp = some (nextSplit c c.t)
  there : ∀ k, k ≠ c.sp → tabFind g'.splits k = tabFind c.g.splits k
  passed : g'.suppress = passedAt c

/-! ### Registers, predicates and flags after a word -/

/-- What field `f` of lane `l` reads after a word wrote `w` to field `r`: each active lane of a vector register, the lowest active
lane's value in a scalar one, nothing in s63 (R13, R14). -/
def written (c : Go) (r : Nat) (w : Nat → Word) (f l : Nat) : Word :=
  if f ≠ r ∨ r = 255 then regGet c.g f l
  else if r < 192 then (if c.act.getLsbD l then w l else regGet c.g f l)
  else match lowBit c.act with
    | some k => w k
    | none => regGet c.g f l

/-- What field `f` of lane `l` reads after a word wrote `v` to its destination (R13, R14, R16). -/
def regAfter (c : Go) (d : Dst) (v : Nat → Double) (f l : Nat) : Word :=
  match d with
  | .reg r => written c r.toNat (fun k => bits (v k) 0 32) f l
  | .pair r => if f = r.toNat + 1 then written c (r.toNat + 1) (fun k => bits (v k) 32 32) f l
      else written c r.toNat (fun k => bits (v k) 0 32) f l
  | .pred _ => regGet c.g f l

/-- What predicate `p` of lane `l` reads after a word wrote `v` to its destination (R20). -/
def predAfter (c : Go) (d : Dst) (v : Nat → Double) (p l : Nat) : Bool :=
  match d with
  | .pred r => if p = r.toNat % 64 ∧ p < 47 ∧ c.act.getLsbD l then bit (v l) 0 else predGet c.g p l
  | _ => predGet c.g p l

/-- FFLAGS of lane `l` after a word that raised `fl` (R35). -/
def flagsAfter (c : Go) (fl : Nat → FFlags) (l : Nat) : FFlags :=
  tabGet 0 c.g.ff l ||| (if c.act.getLsbD l then fl l else 0)

/-- All that a word of the vector and scalar pipes does: its destination, FFLAGS, the next word; nothing else of its group. -/
structure LaneEffect (s s' : State) (c : Go) (d : Dst) (v : Nat → Double) (fl : Nat → FFlags) (g' : Group) : Prop
    extends Retired s s' c g' where
  regs : ∀ f l, f < 256 → l < 32 → regGet g' f l = regAfter c d v f l
  preds : ∀ p l, p < 64 → l < 32 → predGet g' p l = predAfter c d v p l
  flags : ∀ l, l < 32 → tabGet 0 g'.ff l = flagsAfter c fl l
  same : g' = { c.g with v := g'.v, s := g'.s, p := g'.p, ff := g'.ff, splits := g'.splits, suppress := g'.suppress,
                         written := g'.written }

/-- The word completes with that effect. -/
def LaneDone (i : Instr) (s : State) (c : Go) (d : Dst) (v : Nat → Double) (fl : Nat → FFlags) : Prop :=
  ∃ s' g', exec i s = .next s' ∧ LaneEffect s s' c d v fl g'

/-- No active lane raised a flag that FPEN enables (R36). -/
def NoFpTrap (c : Go) (fl : Nat → FFlags) : Prop :=
  ∀ l, l < 32 → c.act.getLsbD l = true → (fl l).setWidth 5 &&& c.g.fpen = 0

/-- The word does nothing but move its split to the next word: no register, predicate, flag or byte of memory changes. -/
def OnlyAdvances (i : Instr) (s : State) (c : Go) : Prop :=
  ∃ s' g', exec i s = .next s' ∧ Retired s s' c g' ∧
    g' = { c.g with splits := g'.splits, suppress := g'.suppress, written := g'.written }

/-! ### Transfers and operations issued -/

/-- The address may be the target of a transfer: aligned, fetched, a clause header (R74, R98). -/
def HeaderAt (s : State) (g : Group) (pc : Double) : Prop :=
  pc.toNat % 8 = 0 ∧ ∃ x, fetch s g pc = .word x ∧ wordIsHeader x = true

/-- The split of `c` has gone to the clause header at `pc`, and its group is now `g'`; no other split changed. -/
structure Moved (s s' : State) (c : Go) (pc : Double) (g' : Group) : Prop extends OnlyGroup s s' c.gid g' where
  here : tabFind g'.splits c.sp = some (jumpSplit pc c.t)
  there : ∀ k, k ≠ c.sp → tabFind g'.splits k = tabFind c.g.splits k
  passed : g'.suppress = passedAt c

/-- The word does nothing but take its split to `pc`, whose header word is fetched. -/
def OnlyMoves (i : Instr) (s : State) (c : Go) (pc : Double) : Prop :=
  ∃ s' g', exec i s = .next s' ∧ Moved (fetchTouch s c.g pc) s' c pc g' ∧ g' = { c.g with splits := g'.splits, suppress := g'.suppress }

/-- The operation `o` as its word puts it in flight: with the region it belongs to, and the releases that its group has issued before it. -/
def opOf (s : State) (c : Go) (o : Op) : Op := { o with epoch := issueEpoch s c.g c.gid, no := (syncOf s c.gid).no }

/-- A long-latency word has issued: the operation `o` is in flight under the next number, the flags it takes count it, the split is at
the next word; no register, predicate or byte of memory has changed (R21, R100); one that releases is a release of its group (R311). -/
structure InFlight (s s' : State) (c : Go) (i : Instr) (o : Op) (g' : Group) : Prop where
  rest : s' = { s with groups := s'.groups, ops := s'.ops, nextId := s.nextId + 1, cur := none,
                       sync := if o.rel then (newRelease s c.gid).sync else s.sync }
  group : grp s' c.gid = some g'
  others : ∀ k, k ≠ c.gid → grp s' k = grp s k
  op : tabFind s'.ops s.nextId = some (opOf s c o)
  ops : ∀ k, k ≠ s.nextId → tabFind s'.ops k = tabFind s.ops k
  count : ∀ f, flagOf g' f = { flagOf c.g f with
    cnt := (flagOf c.g f).cnt + (if flagFor i c.t = some f then 1 else 0) + (if flag2For i c.t = some f then 1 else 0) }
  here : tabFind g'.splits c.sp = some { nextSplit c c.t with
    taken := c.t.taken + (if isStoreCopy i then 2 else if takesHeaderFlag i then 1 else 0), long := c.t.long || isLong i }
  there : ∀ k, k ≠ c.sp → tabFind g'.splits k = tabFind c.g.splits k
  same : g' = { c.g with flags := g'.flags, splits := g'.splits, suppress := g'.suppress, written := g'.written }

/-- The word issues the operation `o` from the state `s1`. -/
def IssuesFrom (i : Instr) (s s1 : State) (c : Go) (o : Op) : Prop :=
  ∃ s' g', exec i s = .next s' ∧ InFlight s1 s' c i o g'

/-- The word issues the operation `o`. -/
def Issues (i : Instr) (s : State) (c : Go) (o : Op) : Prop := IssuesFrom i s s c o

/-- With no active lane a long-latency word issues an operation that has nothing to do (R100). -/
def IssuesNothing (i : Instr) (s : State) (c : Go) : Prop := Issues i s c { newOp i c with done := true, dst := [] }

/-- The word issues the operation `o`, whose checks will close the region at the state after the word (R154, R156). -/
def IssuesCloser (i : Instr) (s : State) (c : Go) (o : Op) : Prop :=
  ∃ s' g', exec i s = .next s' ∧ InFlight s s' c i { o with closer := some (ckptOf g' c.sp) } g'

/-- Every active lane's address of `n` bytes is aligned and translates for the access (R151, R155); no watchpoint matches (R410). -/
structure Reaches (s : State) (c : Go) (need watch : Need) (n : Nat) (addr : Nat → Double) (pa : Nat → Nat) (priv : Nat → Bool) :
    Prop where
  aligned : ∀ l, l < 32 → c.act.getLsbD l = true → (addr l).toNat % n = 0
  maps : ∀ l, l < 32 → c.act.getLsbD l = true → translate s (whoOf c.g) need (addr l) = .ok (pa l) (priv l)
  unwatched : ∀ k l, k < 2 → l < 32 → c.act.getLsbD l = true → watchMatch (ctxOf s c.g.ctx) k watch n (addr l) = false

/-- The access of lane `l` of such a word. -/
def laneAccess (addr : Nat → Double) (pa : Nat → Nat) (priv : Nat → Bool) (n : Nat) (wr : Bool) (data : Nat → BitVec 128) (l : Nat) :
    Access :=
  { va := addr l, pa := pa l, n := n, lanes := [l], data := [data l], write := wr, priv := priv l }

/-- The word closes the region: its group's checkpoint is the state just after it (R399). -/
structure Closed (s' : State) (c : Go) (g' : Group) : Prop where
  group : grp s' c.gid = some g'
  here : tabFind g'.splits c.sp = some (nextSplit c c.t)
  there : ∀ k, k ≠ c.sp → tabFind g'.splits k = tabFind c.g.splits k
  ckpt : g'.ckpt = ckptOf g' c.sp
  epoch : g'.epoch = c.g.epoch + 1

/-- Every active lane's address names `n` bytes of a unit's scratchpad or vault: aligned, in range, the unit present, and none of them
poisoned (R152, R153, R155). -/
structure Holds (s : State) (c : Go) (vault : Bool) (n : Nat) (addr : Nat → Double) (uid off : Nat → Nat) : Prop where
  aligned : ∀ l, l < 32 → c.act.getLsbD l = true → (addr l).toNat % n = 0
  place : ∀ l, l < 32 → c.act.getLsbD l = true → ∃ p, placeOf (if vault then 22 else 18)
    (if vault then (unitOf s c.g.uid).vaultSize else (unitOf s c.g.uid).scratchSize) n (addr l) = some p ∧
    placeUnit s c.g vault p = some (uid l) ∧ p.off = off l
  present : ∀ l, l < 32 → c.act.getLsbD l = true → (tabFind s.units (uid l)).isSome = true
  sound : ∀ l, l < 32 → c.act.getLsbD l = true → isPoison s (spaceStore vault) (uid l) (off l) n = false

/-- What field `f` of lane `l` reads after a load of `n` bytes a lane to the registers from `d` (R14, R157). -/
def loadedAfter (c : Go) (d n : Nat) (val : Nat → List Byte) (f l : Nat) : Word :=
  if d ≤ f ∧ f < d + regsOf n then written c f (fun k => nat32 (val k) (4 * (f - d))) f l else regGet c.g f l

/-- Active lane `l` is the last of its word to write byte `i` of its place (R157). -/
def lastWriter (c : Go) (n : Nat) (uid off : Nat → Nat) (l i : Nat) : Prop :=
  ∀ k, k < 32 → l < k → c.act.getLsbD k = true → uid k = uid l → off l + i < off k ∨ off k + n ≤ off l + i

/-- No record, partial sum or poison stands at any home slice, and every second-tier port answers. -/
structure Clear (s : State) : Prop where
  races : s.races = []
  scopes : s.scopes = []
  trough : s.trough = []
  poison : s.poison = []
  ports : s.t2down = []

/-- The slot a name's write goes to: the provisional one it has, else the lowest free one of the unit's pool (R189). -/
def writeTo (s : State) (g : Group) (i : Nat) : Option Nat :=
  match (nameOf g i).pslot with
  | some p => some p.1
  | none => (if isAccName i then (unitOf s g.uid).apool else (unitOf s g.uid).opool).head?

/-- What the words on handle names require: a flag with room, an active lane, names bound, of the right kind and of the present generation,
no pending operation on them (R193, R196). -/
structure NamesReady (i : Instr) (s : State) (c : Go) (names : List (Nat × Option Bool)) (rds wrs : List Nat) (chain : Instr → Bool) :
    Prop where
  room : flagFull i c = false
  lanes : c.act ≠ 0
  bound : namesBad s c.g names = none
  idle : namesBusy s c.gid rds wrs chain = false
  checked : closerPending s c.gid = false

/-- Every part of the rows that a tile word names passes its checks, and `xs` is where they lie (R203, R207). -/
structure SpotsReady (s : State) (c : Go) (space : Nat) (wr : Bool) (rows : List (Double × Nat)) (xs : List Spot) : Prop where
  found : spotsOf s c space (if wr then .write else .read) (partsOf rows) [] = .ok xs
  unwatched : ∀ k, k < 2 → (tabGet 0x300 (ctxOf s c.g.ctx).wctl k).setWidth 2 = (0 : BitVec 2)
  clear : Clear s
  backed : ∀ va pa n p, Spot.mem va pa n p ∈ xs → backed s pa = true ∧ inAperture pa = false
  free : xs.any (spotWaits s c.gid) = false

/-- A tile or matrix word has issued: its operation is complete but for its flag, its split is at the next word, no register has changed. Of
another group, nothing but a bracket of clk.rds may have ended (R353). -/
structure TileDone (s s' : State) (c : Go) (i : Instr) (rds wrs : List Nat) (g' : Group) : Prop where
  group : grp s' c.gid = some g'
  op : tabFind s'.ops s.nextId = some (opOf s c { newOp i c with done := true, dst := [], hrd := rds, hwr := wrs })
  count : ∀ f, flagOf g' f = { flagOf c.g f with cnt := (flagOf c.g f).cnt + (if flagFor i c.t = some f then 1 else 0) }
  here : tabFind g'.splits c.sp = some { nextSplit c c.t with
    taken := c.t.taken + (if takesHeaderFlag i then 1 else 0), long := c.t.long || isLong i }
  there : ∀ k, k ≠ c.sp → tabFind g'.splits k = tabFind c.g.splits k
  regs : g'.v = c.g.v ∧ g'.p = c.g.p ∧ g'.ff = c.g.ff
  others : ∀ k, k ≠ c.gid → grp s' k = grp s k ∨ ∃ h, grp s k = some h ∧ grp s' k = some { h with bracket := none }

/-- A product completes into the accumulator named by HD: element (i, j) of each active row takes the groups `terms i j` in order, the other
rows stay (R65, R67, R208). -/
def MatDone (i : Instr) (s : State) (c : Go) (w : FtWord) (slot : Nat) (terms : Nat → Nat → List (List (Factor × Factor))) : Prop :=
  ∃ s' g', exec i s = .next s' ∧ TileDone s s' c i [w.ha.toNat, w.hb.toNat] [w.hd.toNat] g' ∧ g'.s = c.g.s ∧ s'.mem = s.mem ∧
    (∀ k, k ≠ c.gid → grp s' k = grp s k) ∧
    (curSlot (nameOf g' w.hd.toNat)).map (·.1) = some slot ∧
    ∀ r j, r < 32 → j < 32 → accElem s' c.g.core slot r j =
      if c.act.getLsbD r then
        (applyGroups (fmtAcc c.t.fmt == 1) (fmtRnd c.t.fmt) (terms r j) (accElem s c.g.core (slotOf c.g w.hd.toNat) r j) 0).1
      else accElem s c.g.core (slotOf c.g w.hd.toNat) r j

end Sys2Proof.Safety
end

