-- ==== Sys2Proof/Certificates/Slice0/Obligations.lean ====
section
/-! DEFINITION. Sys2Proof/Certificates/Slice0/Obligations.lean: the statements for the provers, and the few words they are said in. -/

open Sys2Proof Sys2Proof.Machine Sys2Proof.Safety

/-! ### Words of the statements -/

namespace Sys2Proof.Claims

/-- The elements of a word's register operands (R116): element `i` of the result of lane `l`, before it is delivered, under `op`. -/
def elemOp (c : Go) (w : FrWord) (op : Int → Int → Int) (l i : Nat) : Int :=
  op (srcInt w.typ (src c.g w.a l) i w.nA w.aA) (srcInt w.typ (src c.g w.b l) i w.nB w.aB)

/-- An elementwise integer word of R120 completes: element i of every active lane of D is `op` of the elements i of A′ and B′, clamped
with SAT or modulo 2^w (R115, R116). -/
def ElementDone (i : Instr) (s : State) (c : Go) (w : FrWord) (clamp : Bool) (op : Int → Int → Int) : Prop :=
  ∃ v fl, LaneDone i s c (.reg w.d) v fl ∧ ∀ l, l < 32 →
    (∀ k, k < 32 / tyWidth w.typ →
      elem (v l) k (tyWidth w.typ) = (deliverInt (tySigned w.typ) (tyWidth w.typ) clamp (elemOp c w op l k)).1) ∧
    (fl l = 0 ∨ fl l = flSAT) ∧
    (fl l = flSAT ↔ ∃ k, k < 32 / tyWidth w.typ ∧
      (deliverInt (tySigned w.typ) (tyWidth w.typ) clamp (elemOp c w op l k)).2 = flSAT)

/-- A lane word of a 32-bit result and no flags completes with the value `v` in each active lane. -/
def Done32 (i : Instr) (s : State) (c : Go) (d : BitVec 8) (v : Nat → Word) : Prop :=
  LaneDone i s c (.reg d) (fun l => (v l).setWidth 64) (fun _ => 0)

/-- A lane word of a predicate and no flags completes with the bit `v` in each active lane. -/
def DonePred (i : Instr) (s : State) (c : Go) (d : BitVec 8) (v : Nat → Bool) : Prop :=
  LaneDone i s c (.pred d) (fun l => bOf (v l)) (fun _ => 0)

/-- A lane word of a 64-bit result and no flags completes with the value `v` in each active lane. -/
def Done64 (i : Instr) (s : State) (c : Go) (d : BitVec 8) (v : Nat → Double) : Prop :=
  LaneDone i s c (.pair d) v (fun _ => 0)

/-- A lane word of the FP32 pipes completes with the code and flags `f` of each active lane, unless FPEN enables one of the flags. -/
def FloatDone (i : Instr) (s : State) (c : Go) (d : BitVec 8) (f : Nat → Nat × FFlags) : Prop :=
  NoFpTrap c (fun l => (f l).2) → LaneDone i s c (.reg d) (fun l => BitVec.ofNat 64 (f l).1) (fun l => (f l).2)

/-- A delivered FP32 code is within `bd` of the exact value `y`, or is the correctly rounded one, unless it overflows (R59, R130). -/
def Near (r : Nat × FFlags) (y bd : Dy) : Prop :=
  r.2 &&& flOF = 0 → ((f32 r.1).dy.sub y).abs.le bd = true ∨ r.1 = (roundFin .fp32 .ne (decide (y.n < 0)) y.n.natAbs y.e).1
/-- A delivered FP32 code is the exact value, with no flag. -/
def Exact (r : Nat × FFlags) (y : Dy) : Prop := r.2 = 0 ∧ (f32 r.1).dy.eq y = true

/-- The pairwise tree of R70 over 32 values: its value, and the OR of the flags of its combinations. -/
def TreeOf (f : Word → Word → Word × FFlags) (x : Nat → Word) (r : Word × FFlags) : Prop :=
  ∃ y : Nat → Nat → Word, (∀ l, l < 32 → y 0 l = x l) ∧
    (∀ k i, k < 5 → i < 16 / 2 ^ k → y (k + 1) i = (f (y k (2 * i)) (y k (2 * i + 1))).1) ∧ r.1 = y 5 0 ∧
    ∀ b, r.2.getLsbD b = true ↔ ∃ k i, k < 5 ∧ i < 16 / 2 ^ k ∧ (f (y k (2 * i)) (y k (2 * i + 1))).2.getLsbD b = true

/-- The five steps of R71 over 32 values, each of distance 2^k: the values, and the OR of the flags of its combinations. -/
def ScanOf (f : Word → Word → Word × FFlags) (x : Nat → Word) (r : List Word × FFlags) : Prop :=
  ∃ y : Nat → Nat → Word, (∀ l, l < 32 → y 0 l = x l) ∧
    (∀ k l, k < 5 → l < 32 → y (k + 1) l = if 2 ^ k ≤ l then (f (y k (l - 2 ^ k)) (y k l)).1 else y k l) ∧
    (∀ l, l < 32 → r.1.getD l 0 = y 5 l) ∧
    ∀ b, r.2.getLsbD b = true ↔ ∃ k l, k < 5 ∧ l < 32 ∧ 2 ^ k ≤ l ∧ (f (y k (l - 2 ^ k)) (y k l)).2.getLsbD b = true

/-- The word does nothing but move its split to the next word, once the state has become `s1`. -/
def AdvancesFrom (i : Instr) (s s1 : State) (c : Go) : Prop :=
  ∃ s' g', exec i s = .next s' ∧ Retired s1 s' c g' ∧
    g' = { c.g with splits := g'.splits, suppress := g'.suppress, written := g'.written }

/-- Of the groups but `gid`, nothing has changed but that a bracket of clk.rds may have ended (R353). -/
def BracketsMayEnd (s s' : State) (gid : Nat) : Prop :=
  ∀ k, k ≠ gid → (grp s' k).map (fun g => { g with bracket := none }) = (grp s k).map (fun g => { g with bracket := none })
/-- Of the operations, nothing has changed but what a pending release releases (R310). -/
def ClocksMayJoin (s s' : State) : Prop :=
  ∀ k, (tabFind s'.ops k).map (fun o => { o with clock := none }) = (tabFind s.ops k).map (fun o => { o with clock := none })

/-- An exact result finished once (scale, rounding, clamp), with the flags met before. -/
def finishOf (w : FrWord) (m : Rnd) (x : Sys2Proof.Machine.Num × FFlags) (fl : FFlags) : Nat × FFlags :=
  let y := finish x.1 w.ds w.clamp .fp32 m
  (y.1, fl ||| x.2 ||| y.2)

end Sys2Proof.Claims

open Sys2Proof.Claims

/-! ### The machine as a whole -/

/-- A step that finds a word being issued runs the instruction that the decoder reads at the split's PC: the clock passes, the word is
fetched, exec acts, and the issue cycle is counted. -/
def Obligations.StepRunsDecodedWord : Prop :=
  ∀ (s : State) (gid sp : Nat) (g : Group) (t : Split) (x : IWord) (i : Instr),
    let s1 := issueTick (tick s) gid
    let sf := fetchTouch s1 g t.pc
    let s2 := wordFetched s1 gid sp
    s.cur = some (gid, sp) → grp s gid = some g → tabFind g.splits sp = some t → t.unread = false →
    dueTrap s1 gid sp g t = none → fetch s1 g t.pc = .word x → brkHit sf g t (brkSlots x) = none →
    joinCheck sf g t x = none → decodeWord x = .ok i →
    step s = issued s2 gid sp (exec i s2)

/-- A word that a program placed in memory by `withFetchWord` is what the very next step runs, as the first instruction after reset. -/
def Obligations.PlacedWordRuns : Prop :=
  ∀ (x : IWord) (i : Instr), decodeWord x = .ok i →
    let s := tick (State.reset.withFetchWord 64 x.toNat)
    step (State.reset.withFetchWord 64 x.toNat) = issued s 3 0 (exec i s)

/-- Every well-formed instruction word is read back by the decoder from the word that the encoder gives it, with every operand. -/
def Obligations.DecodeEncode : Prop :=
  ∀ i, WellFormed i = true → ∃ x, encode i = some x ∧ decodeWord x = .ok i

/-- Sample words written out from the encoding tables decode to the instructions they stand for. -/
def Obligations.SampleWordsDecode : Prop :=
  -- nop; iadd.i32 v3, v1, s5 (major 0x01, guard always, TYPE 8)
  decodeWord 0#64 = .ok .nop ∧
  decodeWord (0#1 ++ 0x01#7 ++ 0#1 ++ 63#6 ++ 3#8 ++ 1#8 ++ 197#8 ++ 0#8 ++ 0#10 ++ 8#4 ++ 0#3) =
    .ok (.iadd ⟨⟨false, 63#6⟩, 3, 1, 197, 0, 0, 8, 0⟩) ∧
  -- movi s11, 3 (major 0x18)
  decodeWord (0#1 ++ 0x18#7 ++ 0#1 ++ 63#6 ++ 203#8 ++ 0#8 ++ 3#32 ++ 0#1) = .ok (.movi ⟨⟨false, 63#6⟩, 203, 0, 3, 0⟩)

/-- The unassigned majors trap with ILLEGAL_OPCODE whatever their other bits hold; major 0 is nop only as the all-zero word, and nop changes no
state; a header with a reserved field, or of sixteen words, traps (R88, R89, R97). The decoder refuses each such word with its cause, and the
step that fetches it takes that trap. -/
def Obligations.DecodeTraps : Prop :=
  (∀ x : IWord, bit x 63 = false →
    let m := (bits x 56 7 : BitVec 7).toNat
    let set1 := (bits x 36 4 : BitVec 4).toNat
    let set2 := (bits x 32 4 : BitVec 4).toNat
    let reserved : Prop := (bits x 0 30 : BitVec 30) ≠ 0 ∨ (12 ≤ set1 ∧ set1 ≤ 14) ∨ (12 ≤ set2 ∧ set2 ≤ 14) ∨ (set1 = 15 ∧ set2 ≠ 15) ∨
      (set1 = set2 ∧ set1 ≠ 15)
    let traps (e : BitVec 6) : Prop := decodeWord x = .error e ∧ ∀ (s : State) (gid sp : Nat) (g : Group) (t : Split),
      let s1 := issueTick (tick s) gid
      let sf := fetchTouch s1 g t.pc
      let s2 := wordFetched s1 gid sp
      s.cur = some (gid, sp) → grp s gid = some g → tabFind g.splits sp = some t → t.unread = false → dueTrap s1 gid sp g t = none →
      fetch s1 g t.pc = .word x → brkHit sf g t [0] = none → joinCheck sf g t x = none → closing sf gid = false → closing s2 gid = false →
      ∃ i : TrapInfo, i.cause = e ∧ i.pc = t.pc ∧ i.split = t.mask ∧ (step s = .next (endBrackets (takeTrap sf gid i) (fun k _ => k == gid)) ∨
        step s = .next (afterWord s2 gid sp (takeTrap s2 gid i)))
    (m ∈ [0x39, 0x3A, 0x3B, 0x3C, 0x3D, 0x3E, 0x3F, 0x4D, 0x4E, 0x4F, 0x5E, 0x5F, 0x7E] → traps 0x01) ∧
    (m = 0 → x ≠ 0 → traps 0x02) ∧ (m = 0x7F → reserved → traps 0x02) ∧
    (m = 0x7F → ¬reserved → (bits x 52 4 : BitVec 4) = 15 → traps 0x04) ∧
    (m = 0x7F → ¬reserved → (bits x 52 4 : BitVec 4) ≠ 15 → decodeWord x = .ok (.clauseHeader (headerOf x)))) ∧
  decodeWord 0 = .ok .nop ∧ takesHeaderFlag .nop = false ∧ isStoreCopy .nop = false ∧ ∀ s c, pre .nop s = .go c → OnlyAdvances .nop s c

/-- Memory keeps its canonical form in every step that goes on, from every state. -/
def Obligations.StepKeepsMemoryCanonical : Prop := ∀ s s', MemOk s → step s = .next s' → MemOk s'

/-- Reset leaves memory in its canonical form, and the registers at the values the spec gives.

That no group, unit, level, operation, job, context's translation or event exists after reset and before bring-up, that cores and CLK start
empty and at 0, and that bring-up is not complete, is the model's choice (log entries 14 and 15). -/
def Obligations.ResetState : Prop :=
  (MemOk State.reset) ∧
  (let s := State.reset
  s.groups = [] ∧ s.units = [] ∧ s.levels = [] ∧ s.ops = [] ∧ s.jobs = [] ∧ s.cur = none ∧ s.tlb = [] ∧ s.events = [] ∧
  (∀ q, q < 64 → sqGet s q 0x08 = 0x400 ∧ sqGet s q 0x20 = 4 ∧ sqGet s q 0x14 = 0 ∧ sqGet s q 0x28 = 0 ∧ regRead s (sqReg q 0x30) = 1) ∧
  hregGet s 0x11008 = 4 ∧ hregGet s 0x42000 = 3000 ∧ (regRead s 0x42004).toNat % 4096 = 2100 ∧ (regRead s 0x42004).toNat / 4096 % 4096 = 3000 ∧
  (regRead s 0x42004).toNat / 2 ^ 24 = 0 ∧ regRead s 0x42008 = 0 ∧ regRead s 0x43000 = 0 ∧ regRead s 0x43010 = 0 ∧ regRead s 0x43028 = 0 ∧
  hregGet s 0x44000 = 0 ∧ (∀ r, r < 8 → lqGet s r 0x08 = 0x400) ∧ hregGet s 0x50F04 = 1000000 ∧ hregGet s 0x50F08 = 0 ∧ hregGet s 0x60040 = 0 ∧
  (∀ k, k < 12 → hregGet s (0x60000 + 4 * k) = 0) ∧ s.rgnsel = 0 ∧ s.cwsel = 0 ∧ (∀ n, coreOf s n = {}) ∧ s.clk = 0 ∧ s.ready = false)

/-! ### Words of the lanes -/

/-- s63 reads as zero and a write to it is discarded; a scalar destination takes the lowest active lane's value; p47 and "always" are
true and a write to them is discarded (R13, R14, R20).

A group starts with one split at the code's first word, its lanes, its arguments in s0 and s1, zeros elsewhere, the launch's window and
number-format word, role 0, an empty stack and free names. -/
def Obligations.RegistersAndStart : Prop :=
  ((∀ g l, regGet g 255 l = 0) ∧ (∀ g k x, regSet g 255 k x = g) ∧
  (∀ g l, predGet g 47 l = decide (l < 32)) ∧ (∀ g a x, predSet g 47 a x = g) ∧
  (∀ (g : Group) (f : Nat) (m : Mask) (w : Nat → Word) (k : Nat), 192 ≤ f → f < 255 → lowBit m = some k → k < 32 →
    ∀ l, regGet (lanesSet g f (lanesOf m) w) f l = w k) ∧
  (∀ (g : Group) (f : Nat) (w : Nat → Word), lanesSet g f (lanesOf 0) w = g)) ∧
  (∀ (v : Level) (secure : Bool) (uid lid : Nat) (u : UnitS) (i slot : Nat),
  let g := newGroup v secure uid lid u i slot
  let m : Mask := if i + 1 = v.pkt.groups ∧ u.unit.toNat + 1 = v.pkt.nUnits then v.pkt.lastMask else 0xFFFFFFFF
  regGet g 192 0 = bits v.pkt.args 0 32 ∧ regGet g 193 0 = bits v.pkt.args 32 32 ∧
  (∀ f l, f < 192 ∨ 194 ≤ f → f < 256 → regGet g f l = 0) ∧ (∀ k l, k < 47 → predGet g k l = false) ∧ (∀ l, l < 32 → predGet g 47 l = true) ∧
  g.splits = [(0, { pc := v.pkt.code, fmt := v.pkt.fmt, mask := m })] ∧
  g.stack = [] ∧ g.role = 0 ∧ g.w = v.pkt.regs ∧ g.sys = false ∧ g.live = (splitAt g 0).mask ∧ (∀ f, flagOf g f = {}) ∧
  (∀ k, nameOf g k = {}) ∧ g.quarter = slot / 16 ∧ g.index = i ∧ g.ckpt.repc = v.pkt.code)

/-- iadd, isub, imul and iminmax deliver, element by element, the sum, difference, product, smaller and larger of A′ and B′.

imulhi, imad, imadw and isad: the high half of the exact product, product plus addend in 32 and in 64 bits, and the sum of absolute
differences; the last three modulo 2^w or clamped with SAT. -/
def Obligations.IntegerWords : Prop :=
  (∀ (w : FrWord) (s : State) (c : Go),
  (pre (.iadd w) s = .go c → ElementDone (.iadd w) s c w w.clamp (· + ·)) ∧
  (pre (.isub w) s = .go c → ElementDone (.isub w) s c w w.clamp (· - ·)) ∧
  (pre (.imul w) s = .go c → ElementDone (.imul w) s c w w.clamp (· * ·)) ∧
  (pre (.iminmaxMin w) s = .go c → ElementDone (.iminmaxMin w) s c w false min) ∧
  (pre (.iminmaxMax w) s = .go c → ElementDone (.iminmaxMax w) s c w false max)) ∧
  (∀ (w : FrWord) (s : State) (c : Go),
  let a (l : Nat) := srcInt w.typ (src c.g w.a l) 0 w.nA w.aA
  let b (l : Nat) := srcInt w.typ (src c.g w.b l) 0 w.nB w.aB
  (pre (.imulhi w) s = .go c → Done32 (.imulhi w) s c w.d (fun l => BitVec.ofInt 32 (a l * b l / 2 ^ 32))) ∧
  (pre (.imad w) s = .go c →
    let x (l : Nat) := deliverInt (tySigned w.typ) 32 w.clamp (a l * b l + srcInt w.typ (src c.g w.c l) 0 w.nC w.aC)
    LaneDone (.imad w) s c (.reg w.d) (fun l => BitVec.ofNat 64 (x l).1) (fun l => (x l).2)) ∧
  (pre (.imadw w) s = .go c →
    let sg := tySigned w.typ
    let x (l : Nat) := deliverInt sg 64 w.clamp (a l * b l + iMod sg 64 w.nC w.aC (extTy sg 64 (src2 c.g w.c l).toNat))
    LaneDone (.imadw w) s c (.pair w.d) (fun l => BitVec.ofNat 64 (x l).1) (fun l => (x l).2)) ∧
  (pre (.isad w) s = .go c → w.typ ≠ 12 →
    let x (l : Nat) := deliverInt false 32 w.clamp (((a l - b l).natAbs : Int) + srcInt w.typ (src c.g w.c l) 0 w.nC w.aC)
    LaneDone (.isad w) s c (.reg w.d) (fun l => BitVec.ofNat 64 (x l).1) (fun l => (x l).2)) ∧
  (pre (.isad w) s = .go c → w.typ = 12 →
    let e (l i : Nat) := (srcInt w.typ (src c.g w.a l) i w.nA w.aA - srcInt w.typ (src c.g w.b l) i w.nB w.aB).natAbs
    let x (l : Nat) := deliverInt false 32 w.clamp ((e l 0 + e l 1 + e l 2 + e l 3 + (srcW c.g w.c l).toNat : Nat) : Int)
    LaneDone (.isad w) s c (.reg w.d) (fun l => BitVec.ofNat 64 (x l).1) (fun l => (x l).2)))

/-- and, or, xor with complemented operands; lop3 bit by bit; the shifts by B[7:0] and the funnel shifts by C[4:0].

bfx and bfi move a field whose place and width are clipped to the word; popc, clz, ctz and brev count and reverse; perm picks bytes.

A word of these that decodes has the TYPE and SEL of its row, its fields not named zero, and no modifier but nA and nB of and, or and xor and the
table of lop3. -/
def Obligations.LogicShiftsFields : Prop :=
  (∀ (w : FrWord) (s : State) (c : Go),
  let a (l : Nat) := srcW c.g w.a l
  let b (l : Nat) := srcW c.g w.b l
  let k (l : Nat) := srcW c.g w.c l
  let inv (n : Bool) (x : Word) : Word := if n then ~~~x else x
  (pre (.andB w) s = .go c → Done32 (.andB w) s c w.d (fun l => inv w.nA (a l) &&& inv w.nB (b l))) ∧
  (pre (.orB w) s = .go c → Done32 (.orB w) s c w.d (fun l => inv w.nA (a l) ||| inv w.nB (b l))) ∧
  (pre (.xorB w) s = .go c → Done32 (.xorB w) s c w.d (fun l => inv w.nA (a l) ^^^ inv w.nB (b l))) ∧
  (pre (.lop3 w) s = .go c → ∃ v, Done32 (.lop3 w) s c w.d v ∧ ∀ l i, i < 32 →
    (v l).getLsbD i = w.lut.getLsbD (((a l).getLsbD i).toNat + 2 * ((b l).getLsbD i).toNat + 4 * ((k l).getLsbD i).toNat)) ∧
  (pre (.shl w) s = .go c → Done32 (.shl w) s c w.d (fun l => a l <<< ((b l).toNat % 256))) ∧
  (pre (.shr w) s = .go c → w.typ ≠ 8 → Done32 (.shr w) s c w.d (fun l => a l >>> ((b l).toNat % 256))) ∧
  (pre (.shr w) s = .go c → w.typ = 8 → Done32 (.shr w) s c w.d (fun l => (a l).sshiftRight ((b l).toNat % 256))) ∧
  (pre (.shfR w) s = .go c → Done32 (.shfR w) s c w.d (fun l =>
    BitVec.ofNat 32 (((b l).toNat * 2 ^ 32 + (a l).toNat) / 2 ^ ((k l).toNat % 32)))) ∧
  (pre (.shfL w) s = .go c → Done32 (.shfL w) s c w.d (fun l =>
    BitVec.ofNat 32 (((b l).toNat * 2 ^ 32 + (a l).toNat) * 2 ^ ((k l).toNat % 32) / 2 ^ 32)))) ∧
  (∀ (w : FrWord) (s : State) (c : Go),
  let a (l : Nat) := srcW c.g w.a l
  let b (l : Nat) := srcW c.g w.b l
  let k (l : Nat) := srcW c.g w.c l
  (pre (.bfx w) s = .go c → w.typ ≠ 8 → ∃ v, Done32 (.bfx w) s c w.d v ∧ ∀ l,
    (v l).toNat = (if (b l).toNat % 256 < 32 then
      (a l).toNat / 2 ^ ((b l).toNat % 256) % 2 ^ (min ((k l).toNat % 256) (32 - (b l).toNat % 256)) else 0)) ∧
  (pre (.bfx w) s = .go c → w.typ = 8 → ∃ v, Done32 (.bfx w) s c w.d v ∧ ∀ l,
    let n := min ((k l).toNat % 256) (32 - (b l).toNat % 256)
    ((b l).toNat % 256 < 32 → 0 < n → (v l).toInt = signedOf n ((a l).toNat / 2 ^ ((b l).toNat % 256))) ∧
    (32 ≤ (b l).toNat % 256 ∨ n = 0 → v l = 0)) ∧
  (pre (.bfi w) s = .go c → ∃ v, Done32 (.bfi w) s c w.d v ∧ ∀ l i, i < 32 →
    let p := (k l).toNat % 256
    let n := (k l).toNat / 256 % 256
    (v l).getLsbD i = (if p ≤ i ∧ i < p + n then (b l).getLsbD (i - p) else (a l).getLsbD i)) ∧
  (pre (.popc w) s = .go c → Done32 (.popc w) s c w.d (fun l =>
    BitVec.ofNat 32 ((List.range 32).filter (fun i => (a l).getLsbD i)).length)) ∧
  (pre (.bitopClz w) s = .go c → ∃ v, Done32 (.bitopClz w) s c w.d v ∧ ∀ l,
    (v l).toNat ≤ 32 ∧ (a l).toNat < 2 ^ (32 - (v l).toNat) ∧ (a l ≠ 0 → (a l).getLsbD (31 - (v l).toNat) = true) ∧
    (a l = 0 → (v l).toNat = 32)) ∧
  (pre (.bitopCtz w) s = .go c → ∃ v, Done32 (.bitopCtz w) s c w.d v ∧ ∀ l,
    (v l).toNat ≤ 32 ∧ (∀ i, i < (v l).toNat → (a l).getLsbD i = false) ∧ (a l ≠ 0 → (a l).getLsbD (v l).toNat = true) ∧
    (a l = 0 → (v l).toNat = 32)) ∧
  (pre (.bitopBrev w) s = .go c → ∃ v, Done32 (.bitopBrev w) s c w.d v ∧ ∀ l i, i < 32 →
    (v l).getLsbD i = (a l).getLsbD (31 - i)) ∧
  (pre (.perm w) s = .go c → ∃ v, Done32 (.perm w) s c w.d v ∧ ∀ l i, i < 4 →
    let sel := (k l).toNat / 16 ^ i % 16
    let y := (((b l).toNat * 2 ^ 32 + (a l).toNat) / 256 ^ (sel % 8)) % 256
    (v l).toNat / 256 ^ i % 256 = (if sel < 8 then y else if 128 ≤ y then 255 else 0))) ∧
  (∀ (x : IWord) (i : Instr) (w : FrWord), decodeWord x = .ok i →
  let row (typ sel : Nat) : Prop := w.typ.toNat = typ ∧ w.sel.toNat = sel
  (i = .andB w ∨ i = .orB w ∨ i = .xorB w → row 15 0 ∧ w.c = 0 ∧ w.aA = false ∧ w.aB = false ∧ w.nC = false ∧ w.aC = false ∧ w.clamp = false ∧
    w.ds = 0) ∧
  (i = .lop3 w → row 15 0 ∧ w.mid.toNat < 256) ∧ (i = .shl w → row 15 0 ∧ w.c = 0 ∧ w.mid = 0) ∧
  (i = .shr w → (row 8 0 ∨ row 9 0) ∧ w.c = 0 ∧ w.mid = 0) ∧ (i = .shfR w → row 15 0 ∧ w.mid = 0) ∧ (i = .shfL w → row 15 1 ∧ w.mid = 0) ∧
  (i = .bfx w → (row 8 0 ∨ row 9 0) ∧ w.mid = 0) ∧ (i = .bfi w → row 15 0 ∧ w.mid = 0) ∧
  (i = .popc w → row 15 0 ∧ w.b = 0 ∧ w.c = 0 ∧ w.mid = 0) ∧ (i = .bitopClz w → row 15 0 ∧ w.b = 0 ∧ w.c = 0 ∧ w.mid = 0) ∧
  (i = .bitopCtz w → row 15 1 ∧ w.b = 0 ∧ w.c = 0 ∧ w.mid = 0) ∧ (i = .bitopBrev w → row 15 2 ∧ w.b = 0 ∧ w.c = 0 ∧ w.mid = 0) ∧
  (i = .perm w → row 15 0 ∧ w.mid = 0)) ∧
  decodeWord 0x0C7E140204065678 = .ok (.lop3 ⟨⟨false, 63#6⟩, 10, 1, 2, 3, 0x0AC, 15, 0⟩)

/-- icmp, sel, mov, movi and its 64-bit form.

lea, add64, add64.sub and cmp64 on pairs. -/
def Obligations.ComparesAndMoves : Prop :=
  (∀ (w : FrWord) (k : FiWord) (s : State) (c : Go),
  let a (l : Nat) := srcInt w.typ (src c.g w.a l) 0 w.nA w.aA
  let b (l : Nat) := srcInt w.typ (src c.g w.b l) 0 w.nB w.aB
  let cc (l : Nat) : Bool := match w.sel.toNat with
    | 0 => decide (a l = b l)
    | 1 => decide (a l ≠ b l)
    | 2 => decide (a l < b l)
    | 3 => decide (a l ≤ b l)
    | 4 => decide (b l < a l)
    | _ => decide (b l ≤ a l)
  (pre (.icmp w) s = .go c → DonePred (.icmp w) s c w.d (fun l => cc l && psGet c.g w.c l)) ∧
  (pre (.sel w) s = .go c → Done32 (.sel w) s c w.d (fun l => if psGet c.g w.c l then srcW c.g w.a l else srcW c.g w.b l)) ∧
  (pre (.mov w) s = .go c → w.nA = false → w.aA = false → Done32 (.mov w) s c w.d (fun l => srcW c.g w.a l)) ∧
  (pre (.mov w) s = .go c → Done32 (.mov w) s c w.d (fun l =>
    let x := if w.aA then srcW c.g w.a l &&& 0x7FFFFFFF else srcW c.g w.a l
    if w.nA then x ^^^ 0x80000000 else x)) ∧
  (pre (.movi k) s = .go c → Done32 (.movi k) s c k.d (fun _ => k.imm)) ∧
  (pre (.moviI64 k) s = .go c → Done64 (.moviI64 k) s c k.d (fun _ => k.imm.signExtend 64))) ∧
  (∀ (w : FrWord) (s : State) (c : Go),
  let a (l : Nat) := srcInt w.typ (src2 c.g w.a l) 0 w.nA w.aA
  let b (l : Nat) := srcInt w.typ (src2 c.g w.b l) 0 w.nB w.aB
  (pre (.lea w) s = .go c → Done64 (.lea w) s c w.d (fun l =>
    src2 c.g w.a l + BitVec.ofInt 64 (srcInt w.typ (src c.g w.b l) 0 false false * 2 ^ w.sel.toNat))) ∧
  (pre (.add64 w) s = .go c → w.clamp = false → Done64 (.add64 w) s c w.d (fun l => BitVec.ofInt 64 (a l + b l))) ∧
  (pre (.add64Sub w) s = .go c → w.clamp = false → Done64 (.add64Sub w) s c w.d (fun l => BitVec.ofInt 64 (a l - b l))) ∧
  (pre (.add64 w) s = .go c → w.clamp = true →
    let x (l : Nat) := satInt (tySigned w.typ) 64 (a l + b l)
    LaneDone (.add64 w) s c (.pair w.d) (fun l => BitVec.ofInt 64 (x l).1) (fun l => if (x l).2 then flSAT else 0)) ∧
  (pre (.add64Sub w) s = .go c → w.clamp = true →
    let x (l : Nat) := satInt (tySigned w.typ) 64 (a l - b l)
    LaneDone (.add64Sub w) s c (.pair w.d) (fun l => BitVec.ofInt 64 (x l).1) (fun l => if (x l).2 then flSAT else 0)) ∧
  (pre (.cmp64 w) s = .go c → DonePred (.cmp64 w) s c w.d (fun l => compareInt w.sel (a l) (b l) && psGet c.g w.c l)))

/-- lanex, shfl and vote: the value of the source lane if it is active, and the mask of active lanes whose PS is true.

conf.eq, conf.lt and conf.bank compare the active lanes' units of access.

plop looks its three inputs up in the table; pmov copies a predicate; pack and unpack move predicates to and from a register. -/
def Obligations.ExchangesAndPredicates : Prop :=
  (∀ (w : FrWord) (s : State) (c : Go),
  let n := ((srcW c.g w.b ((lowBit c.act).getD 0)).toNat) % 32
  let yes (l : Nat) : Bool := c.act.getLsbD l && psGet c.g w.a l
  (pre (.lanexFirst w) s = .go c → ∀ k, lowBit c.act = some k → Done32 (.lanexFirst w) s c w.d (fun _ => srcW c.g w.a k)) ∧
  (pre (.lanexIdx w) s = .go c → c.act ≠ 0 →
    Done32 (.lanexIdx w) s c w.d (fun _ => if c.act.getLsbD n then srcW c.g w.a n else 0)) ∧
  (pre (.shfl w) s = .go c → ∃ v, Done32 (.shfl w) s c w.d v ∧ ∀ l, l < 32 →
    let size := 2 ^ (w.c.toNat % 8)
    let delta := (srcW c.g w.b l).toNat % 32
    let base := l - l % size
    let from_ : Option Nat := match w.sel.toNat with
      | 0 => some (base + delta % size)
      | 1 => if base + delta ≤ l then some (l - delta) else none
      | 2 => if l + delta < base + size then some (l + delta) else none
      | _ => some (l ^^^ (delta % size))
    v l = match from_ with
      | some j => if c.act.getLsbD j then srcW c.g w.a j else srcW c.g w.a l
      | none => srcW c.g w.a l) ∧
  (pre (.voteBallot w) s = .go c → ∃ m : Word, Done32 (.voteBallot w) s c w.d (fun _ => m) ∧ ∀ l, l < 32 → m.getLsbD l = yes l) ∧
  (pre (.voteAll w) s = .go c → ∃ b, DonePred (.voteAll w) s c w.d (fun _ => b) ∧
    (b = true ↔ ∀ l, l < 32 → c.act.getLsbD l = true → psGet c.g w.a l = true)) ∧
  (pre (.voteAny w) s = .go c → ∃ b, DonePred (.voteAny w) s c w.d (fun _ => b) ∧ (b = true ↔ ∃ l, l < 32 ∧ yes l = true)) ∧
  (pre (.voteUni w) s = .go c → ∃ b, DonePred (.voteUni w) s c w.d (fun _ => b) ∧
    (b = true ↔ ∃ x, ∀ l, l < 32 → c.act.getLsbD l = true → psGet c.g w.a l = x)) ∧
  (pre (.voteCount w) s = .go c → Done32 (.voteCount w) s c w.d (fun _ => BitVec.ofNat 32 ((List.range 32).filter yes).length))) ∧
  (∀ (w : FmWord) (s : State) (c : Go),
  let u (l : Nat) := (src2 c.g w.base l + (srcW c.g w.idx l).signExtend 64 + w.off.signExtend 64).toNat / 2 ^ w.size
  let conf (i : Instr) (rel : Nat → Nat → Prop) : Prop := pre i s = .go c → ∃ v, Done32 i s c w.d v ∧
    ∀ l m, l < 32 → m < 32 → ((v l).getLsbD m = true ↔ c.act.getLsbD m = true ∧ rel l m)
  conf (.confEq w) (fun l m => u m = u l) ∧ conf (.confLt w) (fun l m => m < l ∧ u m = u l) ∧
  conf (.confBank w) (fun l m => u m % 32 = u l % 32 ∧ u m ≠ u l)) ∧
  (∀ (w : FrWord) (s : State) (c : Go),
  (pre (.plop w) s = .go c → DonePred (.plop w) s c w.d (fun l =>
    w.lut.getLsbD ((psGet c.g w.a l).toNat + 2 * (psGet c.g w.b l).toNat + 4 * (psGet c.g w.c l).toNat))) ∧
  (pre (.pmov w) s = .go c → DonePred (.pmov w) s c w.d (fun l => psGet c.g w.a l)) ∧
  (pre (.pmovPack w) s = .go c → ∃ v, Done32 (.pmovPack w) s c w.d v ∧ ∀ l i, i < 32 → (v l).getLsbD i = predGet c.g i l) ∧
  (pre (.pmovPackhi w) s = .go c → ∃ v, Done32 (.pmovPackhi w) s c w.d v ∧ ∀ l i, i < 32 →
    (v l).getLsbD i = (decide (i < 16) && predGet c.g (32 + i) l)) ∧
  (pre (.pmovUnpack w) s = .go c → ∃ s' g', exec (.pmovUnpack w) s = .next s' ∧ Retired s s' c g' ∧
    (∀ p l, p < 64 → l < 32 → predGet g' p l =
      if p < 32 ∧ c.act.getLsbD l then (srcW c.g w.a l).getLsbD p else predGet c.g p l) ∧
    g' = { c.g with p := g'.p, splits := g'.splits, suppress := g'.suppress, written := g'.written }) ∧
  (pre (.pmovUnpackhi w) s = .go c → ∃ s' g', exec (.pmovUnpackhi w) s = .next s' ∧ Retired s s' c g' ∧
    (∀ p l, p < 64 → l < 32 → predGet g' p l =
      if 32 ≤ p ∧ p < 47 ∧ c.act.getLsbD l then (srcW c.g w.a l).getLsbD (p - 32) else predGet c.g p l) ∧
    g' = { c.g with p := g'.p, splits := g'.splits, suppress := g'.suppress, written := g'.written }))

/-- mrd: the 32-bit form returns bits [31:0], the pair form all 64, of the register's value in each lane; what each selector reads. A
selector of 0x80 or above traps with PERMISSION in user mode, and with RESERVED_ENCODING in system mode where no register has it.

mwr takes the lowest active lane's value. FMT is written for its split alone, FFLAGS in every active lane, FPEN, MXCOUNT (with the
staged counts cleared); a one written to an error of FLAGST clears it with its cause; a write to a read-only register is ignored; a value
that FMT may not hold traps with FORMAT_INVALID, a nonzero reserved bit with RESERVED_ENCODING, SPSTEP and REGENTRY in user mode with
PERMISSION.

In system mode SPSTEP, REGENTRY and DBGCTL are written, the watchpoints of the context, and in the secure world the region descriptor
selected, until it is locked (setting LOCK extends MEAS3), and the world of the core selected. A 32-bit mwr of a 64-bit register
zero-extends, CWORLD reads the value last written, and with no active lane nothing is done (the model's reading, log entry 33).

setfmt writes FMT of its split alone: the immediate, or the bits under the mask; a reserved value traps and FMT is unchanged.

A written CWORLD takes effect on a core that holds no resident unit, and only then. -/
def Obligations.SpecialRegisters : Prop :=
  (∀ (w : FiWord) (s : State) (c : Go), pre (.mrd w) s = .go c → c.act ≠ 0 →
  (selCause c.g w.sel w.pairForm = none →
    (w.pairForm = false → LaneDone (.mrd w) s c (.reg w.d) (sprGet s c w.sel) (fun _ => 0)) ∧
    (w.pairForm = true → LaneDone (.mrd w) s c (.pair w.d) (sprGet s c w.sel) (fun _ => 0))) ∧
  (0x80 ≤ w.sel → c.g.sys = false → closing s c.gid = false → exec (.mrd w) s = .next (takeTrap s c.gid (infoAt 0x12#6 c.t c.act))) ∧
  (0x80 ≤ w.sel → c.g.sys = true → sysSelOk w.sel = false → closing s c.gid = false →
    exec (.mrd w) s = .next (takeTrap s c.gid (infoAt 0x02#6 c.t c.act))) ∧
  (0xC0 ≤ w.sel → c.g.sys = true → c.g.secure = false → sysSelOk w.sel = true → closing s c.gid = false →
    exec (.mrd w) s = .next (takeTrap s c.gid (infoAt 0x12#6 c.t c.act)))) ∧
  (∀ (s : State) (c : Go) (l : Nat), l < 32 →
  let rd (k : Nat) : Double := sprGet s c k l
  let cx := ctxOf s c.g.ctx
  rd 0x00 = BitVec.ofNat 64 l ∧
  rd 0x01 = (BitVec.ofNat 32 (c.g.slot * 2 ^ 16 + c.g.quarter * 2 ^ 8 + c.g.index)).setWidth 64 ∧
  rd 0x02 = c.g.unit.setWidth 64 ∧
  rd 0x03 = (BitVec.ofNat 32 (c.g.core / 48 * 2 ^ 16 + c.g.core / 4 * 2 ^ 8 + c.g.core)).setWidth 64 ∧
  (rd 0x04).toNat = (if c.g.hintV then 2 ^ 16 else 0) + c.g.hint.toNat * 2 ^ 8 + c.g.role.toNat ∧
  rd 0x05 = c.t.mask.setWidth 64 ∧ rd 0x06 = BitVec.ofNat 64 (4 * c.g.splits.length + c.sp) ∧
  (rd 0x07).toNat = (if c.g.secure then 2 else 0) + (if c.g.sys then 1 else 0) ∧
  rd 0x08 = c.t.fmt.setWidth 64 ∧ rd 0x09 = (tabGet 0 c.g.ff l).setWidth 64 ∧ rd 0x0A = c.g.fpen.setWidth 64 ∧
  rd 0x0B = c.g.mxcount.setWidth 64 ∧ rd 0x0C = c.g.spstep.setWidth 64 ∧ rd 0x0D = c.g.regentry.setWidth 64 ∧
  rd 0x0E = BitVec.ofNat 64 c.g.w ∧
  (∀ i, (rd 0x0F).getLsbD i = ((decide (i < 12) && decide ((flagOf c.g i).cnt ≠ 0)) ||
    (decide (16 ≤ i) && decide (i < 28) && (flagOf c.g (i - 16)).err))) ∧
  rd 0x10 = cx.tbase ∧ rd 0x11 = cx.tlimit ∧ rd 0x12 = cx.toffset ∧ rd 0x13 = s.clk ∧
  rd 0x80 = c.g.tframe ∧ rd 0x81 = c.g.tcause.setWidth 64 ∧ rd 0x82 = bOf c.g.sstep ∧
  rd 0x84 = tabGet 0 cx.waddr 0 ∧ rd 0x86 = tabGet 0 cx.waddr 1 ∧
  rd 0x85 = (tabGet 0x300 cx.wctl 0).setWidth 64 ∧ rd 0x87 = (tabGet 0x300 cx.wctl 1).setWidth 64 ∧
  rd 0xC0 = s.rgnsel.setWidth 64 ∧ rd 0xC1 = BitVec.ofNat 64 (rgnOf s).base ∧ rd 0xC2 = BitVec.ofNat 64 (rgnOf s).limit ∧
  (rd 0xC3).toNat = (if (rgnOf s).lock then 2 else 0) + (if (rgnOf s).en then 1 else 0) ∧
  rd 0xC4 = s.cwsel.setWidth 64 ∧ (192 ≤ s.cwsel.toNat → rd 0xC5 = 0) ∧
  (s.cwsel.toNat < 192 → rd 0xC5 = bOf ((tabFind s.cworld s.cwsel.toNat).getD (coreOf s s.cwsel.toNat).secure))) ∧
  (∀ (w : FiWord) (s : State) (c : Go) (l : Nat),
  pre (.mwr w) s = .go c → lowBit c.act = some l → w.pairForm = false →
  let v : Word := srcW c.g w.a l
  let wrote (g' : Group) : Prop := ∃ s', exec (.mwr w) s = .next s' ∧ Retired s s' c g'
  let wroteFmt (g' : Group) : Prop := ∃ s', exec (.mwr w) s = .next s' ∧ OnlyGroup s s' c.gid g' ∧
    tabFind g'.splits c.sp = some { nextSplit c c.t with fmt := v } ∧ ∀ k, k ≠ c.sp → tabFind g'.splits k = tabFind c.g.splits k
  (w.sel = 0x08 → v &&& 0xFFFFC000 = 0 → fmtBad v = false → ∃ g', wroteFmt g') ∧
  (w.sel = 0x08 → v &&& 0xFFFFC000 = 0 → fmtBad v = true → closing s c.gid = false →
    exec (.mwr w) s = .next (takeTrap s c.gid (infoAt 0x23#6 c.t c.act))) ∧
  (w.sel = 0x08 → v &&& 0xFFFFC000 ≠ 0 → closing s c.gid = false →
    exec (.mwr w) s = .next (takeTrap s c.gid (infoAt 0x02#6 c.t c.act))) ∧
  (w.sel = 0x09 → v &&& 0xFFFFFF80 = 0 → ∃ g', wrote g' ∧
    ∀ k, k < 32 → tabGet 0 g'.ff k = if c.act.getLsbD k then v.setWidth 7 else tabGet 0 c.g.ff k) ∧
  (w.sel = 0x0A → v &&& 0xFFFFFFE0 = 0 → ∃ g', wrote g' ∧ g'.fpen = v.setWidth 5) ∧
  (w.sel = 0x0B → ∃ g', wrote g' ∧ g'.mxcount = v ∧ g'.staged = [0, 0, 0, 0]) ∧
  (w.sel = 0x0F → v &&& 0xF000F000 = 0 → ∃ g', wrote g' ∧ ∀ i, i < 12 → flagOf g' i =
    if v.getLsbD (16 + i) then { flagOf c.g i with err := false, cause := 0 } else flagOf c.g i) ∧
  ((w.sel = 0x09 ∧ v &&& 0xFFFFFF80 ≠ 0 ∨ w.sel = 0x0A ∧ v &&& 0xFFFFFFE0 ≠ 0 ∨ w.sel = 0x0F ∧ v &&& 0xF000F000 ≠ 0) →
    closing s c.gid = false → exec (.mwr w) s = .next (takeTrap s c.gid (infoAt 0x02#6 c.t c.act))) ∧
  ((w.sel = 0x0C ∨ w.sel = 0x0D) → c.g.sys = false → closing s c.gid = false →
    exec (.mwr w) s = .next (takeTrap s c.gid (infoAt 0x12#6 c.t c.act))) ∧
  (c.g.sys = true → (w.sel = 0x0C → v &&& 0xFFFF0000 = 0 → ∃ g', wrote g' ∧ g'.spstep = v.setWidth 16) ∧
    (w.sel = 0x0D → ∃ g', wrote g' ∧ g'.regentry = v) ∧
    (w.sel = 0x82 → v &&& 0xFFFFFFFE = 0 → ∃ g', wrote g' ∧ g'.sstep = v.getLsbD 0))) ∧
  (∀ (w : FiWord) (s : State) (c : Go) (l : Nat), pre (.mwr w) s = .go c → lowBit c.act = some l →
  let x : Double := if w.pairForm then src2 c.g w.a l else src c.g w.a l
  let r := rgnOf s
  let stores (s1 : State) : Prop := ∃ s' g', exec (.mwr w) s = .next s' ∧ Retired s1 s' c g' ∧
    g' = { c.g with splits := g'.splits, suppress := g'.suppress, written := g'.written }
  let traps (e : BitVec 6) : Prop := closing s c.gid = false → exec (.mwr w) s = .next (takeTrap s c.gid (infoAt e c.t c.act))
  (w.sel ≤ 0x07 ∨ w.sel = 0x0E ∨ (0x10 ≤ w.sel ∧ w.sel ≤ 0x13) ∨
    (c.g.sys = true ∧ selCause c.g w.sel w.pairForm = none ∧ (w.sel = 0x80 ∨ w.sel = 0x81)) → stores s) ∧
  (0x80 ≤ w.sel → c.g.sys = false → traps 0x12#6) ∧ (0x80 ≤ w.sel → c.g.sys = true → sysSelOk w.sel = false → traps 0x02#6) ∧
  (0xC0 ≤ w.sel → c.g.sys = true → c.g.secure = false → sysSelOk w.sel = true → traps 0x12#6) ∧
  (c.g.sys = true → selCause c.g w.sel w.pairForm = none →
    (∀ k, k < 2 → w.sel = 0x84 + 2 * k → (x.toNat < 2 ^ 56 →
        stores (mapCtx s c.g.ctx (fun y => { y with waddr := tabSet 0 y.waddr k x }))) ∧ (2 ^ 56 ≤ x.toNat → traps 0x02#6)) ∧
    (∀ k, k < 2 → w.sel = 0x85 + 2 * k → let n := x.toNat / 256 % 32
      (x &&& 0xFFFFE0FC = 0 → 3 ≤ n → n ≤ 16 →
        stores (mapCtx s c.g.ctx (fun y => { y with wctl := tabSet 0x300 y.wctl k (bits x 0 32) }))) ∧
      (x &&& 0xFFFFE0FC ≠ 0 ∨ n < 3 ∨ 16 < n → traps 0x02#6)) ∧
    (w.sel = 0xC0 → x &&& 0xFFFFFFC0 = 0 → stores { s with rgnsel := bits x 0 6 }) ∧
    (0xC1 ≤ w.sel → w.sel ≤ 0xC3 → r.lock = true → traps 0x12#6) ∧
    (r.lock = false → x &&& 0xFFF000000000FFFF = 0 →
      (w.sel = 0xC1 → stores { s with rgns := tabPut s.rgns s.rgnsel.toNat { r with base := x.toNat } }) ∧
      (w.sel = 0xC2 → stores { s with rgns := tabPut s.rgns s.rgnsel.toNat { r with limit := x.toNat } })) ∧
    (w.sel = 0xC3 → r.lock = false → x &&& 0xFFFFFFFC = 0 → ∃ s1, stores s1 ∧ s1 = { s with rgns := s1.rgns, meas := s1.meas } ∧
      s1.rgns = tabPut s.rgns s.rgnsel.toNat { r with en := bit x 0, lock := bit x 1 } ∧ (∀ k, k ≠ 3 → measOf s1 k = measOf s k) ∧
      measOf s1 3 = if bit x 1 then shake256 (measOf s 3 ++ shake256 (lockRecord s x) 64) 64 else measOf s 3) ∧
    (w.sel = 0xC4 → x &&& 0xFFFFFF00 = 0 → stores { s with cwsel := bits x 0 8 }) ∧
    (w.sel = 0xC5 → x &&& 0xFFFFFFFE = 0 →
      (s.cwsel.toNat < 192 → stores { s with cworld := tabPut s.cworld s.cwsel.toNat (bit x 0) }) ∧
      (192 ≤ s.cwsel.toNat → stores s)))) ∧
  (∀ (w : FiWord) (s : State) (c : Go),
  let put (i : Instr) (x : Word) : Prop := ∃ s' g', exec i s = .next s' ∧ OnlyGroup s s' c.gid g' ∧
    tabFind g'.splits c.sp = some { nextSplit c c.t with fmt := x } ∧ (∀ k, k ≠ c.sp → tabFind g'.splits k = tabFind c.g.splits k) ∧
    g' = { c.g with splits := g'.splits, suppress := g'.suppress, written := g'.written }
  let m : Word := (w.imm >>> 16) &&& 0x3FFF
  let y : Word := (c.t.fmt &&& ~~~m) ||| (w.imm &&& 0x3FFF)
  (pre (.setfmt w) s = .go c → c.act ≠ 0 → w.imm &&& 0xFFFFC000 = 0 → fmtBad w.imm = false → put (.setfmt w) w.imm) ∧
  (pre (.setfmt w) s = .go c → c.act ≠ 0 → w.imm &&& 0xFFFFC000 = 0 → fmtBad w.imm = true → closing s c.gid = false →
    exec (.setfmt w) s = .next (takeTrap s c.gid (infoAt 0x23#6 c.t c.act))) ∧
  (pre (.setfmtM w) s = .go c → c.act ≠ 0 → y &&& 0xFFFFC000 = 0 → fmtBad y = false → put (.setfmtM w) y) ∧
  (pre (.setfmtM w) s = .go c → c.act ≠ 0 → y &&& 0xFFFFC000 = 0 → fmtBad y = true → closing s c.gid = false →
    exec (.setfmtM w) s = .next (takeTrap s c.gid (infoAt 0x23#6 c.t c.act)))) ∧
  (∀ (s : State) (core : Nat) (b : Bool), tabFind s.cworld core = some b →
  ((∀ u, u ∈ s.units → u.2.core = core → u.2.resident = false) →
    ∃ s', exec (.coreWorldApply core) s = .next s' ∧ (coreOf s' core).secure = b ∧ tabFind s'.cworld core = none ∧
      (∀ k, k ≠ core → coreOf s' k = coreOf s k) ∧ s'.groups = s.groups ∧ ∀ a, memByte s'.mem a = memByte s.mem a) ∧
  ((∃ u, u ∈ s.units ∧ u.2.core = core ∧ u.2.resident = true) → exec (.coreWorldApply core) s = .next s))

/-- fadd, fmul and ffma: the exact sum, product or product plus addend of A′, B′ and C′, finished once in the word's rounding mode; fscale
scales by a power of two.

fminmax, fcmp, frnd and fclass complete; what fminmax, fcmp and frnd deliver for NaNs, zeros, integral and other values.

The approximated functions and fsqrt complete; their special operands and exact cases; each other result is within the bound of its rule of
the function's value (which the model computes to some 150 bits), or the nearest code to it, and the nearest code lies within an ulp; the
square root rounded is the exact one with a sticky bit. -/
def Obligations.FloatWords : Prop :=
  (∀ (w : FrWord) (s : State) (c : Go),
  let m := rndOf w.sel c.t.fmt
  let a (l : Nat) := f32 (srcF c.g w.a l w.nA w.aA)
  let b (l : Nat) := f32 (srcF c.g w.b l w.nB w.aB)
  let k (l : Nat) := f32 (srcF c.g w.c l w.nC w.aC)
  (pre (.fadd w) s = .go c →
    FloatDone (.fadd w) s c w.d (fun l => finishOf w m (sumNum m [a l, b l]) (sigIV [a l, b l]))) ∧
  (pre (.fmul w) s = .go c → FloatDone (.fmul w) s c w.d (fun l => finishOf w m ((a l).mul (b l)) (sigIV [a l, b l]))) ∧
  (pre (.ffma w) s = .go c → FloatDone (.ffma w) s c w.d (fun l =>
    finishOf w m (sumNum m [((a l).mul (b l)).1, k l]) (sigIV [a l, b l, k l] ||| ((a l).mul (b l)).2))) ∧
  (pre (.fscale w) s = .go c → FloatDone (.fscale w) s c w.d (fun l =>
    finishOf w m (if (a l).isSig then Num.nan false else (a l).scale (srcW c.g w.b l).toInt, 0) (sigIV [a l])))) ∧
  (∀ (w : FrWord) (s : State) (c : Go),
  let a (l : Nat) := srcF c.g w.a l w.nA w.aA
  let b (l : Nat) := srcF c.g w.b l w.nB w.aB
  (pre (.fminmax w) s = .go c → FloatDone (.fminmax w) s c w.d (fun l => minMaxCode .fp32 (bit w.sel 0) (bit w.sel 1) (a l) (b l))) ∧
  (pre (.fcmp w) s = .go c → NoFpTrap c (fun l => (laneFcmp w.sel (a l) (b l)).2) →
    LaneDone (.fcmp w) s c (.pred w.d) (fun l => bOf ((laneFcmp w.sel (a l) (b l)).1 && psGet c.g w.c l))
      (fun l => (laneFcmp w.sel (a l) (b l)).2)) ∧
  (pre (.frnd w) s = .go c → FloatDone (.frnd w) s c w.d (fun l => laneFrnd (rndOf w.sel c.t.fmt) (a l))) ∧
  (pre (.fclass w) s = .go c → LaneDone (.fclass w) s c (.reg w.d) (fun l => (laneFclass w.typ (src c.g w.a l)).v) (fun _ => 0))) ∧
  (∀ (w : FrWord) (s : State) (c : Go),
  let a (l : Nat) := srcF c.g w.a l w.nA w.aA
  let b (l : Nat) := srcF c.g w.b l w.nB w.aB
  (pre (.frcp w) s = .go c → FloatDone (.frcp w) s c w.d (fun l => laneFrcp (a l))) ∧
  (pre (.frsq w) s = .go c → FloatDone (.frsq w) s c w.d (fun l => laneFrsq (a l))) ∧
  (pre (.fsqrt w) s = .go c → FloatDone (.fsqrt w) s c w.d (fun l => laneFsqrt w.ds w.clamp (rndOf w.sel c.t.fmt) (a l))) ∧
  (pre (.fex2 w) s = .go c → FloatDone (.fex2 w) s c w.d (fun l => laneFex2 (a l))) ∧
  (pre (.flg2 w) s = .go c → FloatDone (.flg2 w) s c w.d (fun l => laneFlg2 (a l))) ∧
  (pre (.fsincos w) s = .go c → NoFpTrap c (fun l => (laneFsincos (a l)).1.2 ||| (laneFsincos (a l)).2.2) →
    LaneDone (.fsincos w) s c (.pair w.d)
      (fun l => pairVal (BitVec.ofNat 32 (laneFsincos (a l)).1.1) (BitVec.ofNat 32 (laneFsincos (a l)).2.1))
      (fun l => (laneFsincos (a l)).1.2 ||| (laneFsincos (a l)).2.2)) ∧
  (pre (.fact w) s = .go c → FloatDone (.fact w) s c w.d (fun l => laneFact (w.b.toNat % 8) (a l))) ∧
  (pre (.fdact w) s = .go c → FloatDone (.fdact w) s c w.d (fun l => laneFdact (w.c.toNat % 8) (a l) (b l)))) ∧
  -- R126, R127, R128
  (∀ (a b : Nat) (mx nf : Bool) (cc : BitVec 3) (r : Rnd), a < 2 ^ 32 → b < 2 ^ 32 →
  let (x, y) := (f32 a, f32 b)
  let mm := minMaxCode .fp32 mx nf a b
  mm.2 = sigIV [x, y] ∧ (x.isNan = true → y.isNan = true → mm.1 = 0x7FC00000) ∧
  (x.isNan = true → y.isNan = false → mm.1 = if nf then 0x7FC00000 else b) ∧
  (x.isNan = false → y.isNan = true → mm.1 = if nf then 0x7FC00000 else a) ∧
  (x.isNan = false → y.isNan = false → (mm.1 = a ∨ mm.1 = b) ∧
    (x.cmp y = .lt → mm.1 = if mx then b else a) ∧ (x.cmp y = .gt → mm.1 = if mx then a else b)) ∧
  (laneFcmp cc a b).2 = sigIV [x, y] ∧
  ((x.isNan || y.isNan) = true → (laneFcmp cc a b).1 = decide (cc = 1 ∨ cc = 7)) ∧
  ((x.isNan || y.isNan) = false → (laneFcmp cc a b).1 = match cc.toNat with
    | 0 => x.cmp y == .eq
    | 1 => x.cmp y != .eq
    | 2 => x.cmp y == .lt
    | 3 => x.cmp y != .gt
    | 4 => x.cmp y == .gt
    | 5 => x.cmp y != .lt
    | 6 => true
    | _ => false) ∧
  (x.isZero = true → y.isZero = true → x.cmp y = .eq) ∧
  (∀ sg, x = .nan sg → laneFrnd r a = (0x7FC00000, flIf sg flIV)) ∧ (x.isInf = true → laneFrnd r a = (a, 0)) ∧
  (x.isNan = false → x.isInf = false → (laneFrnd r a).2 = 0 ∧ (f32 (laneFrnd r a).1).sign = x.sign ∧
    (f32 (laneFrnd r a).1).dy.eq (Dy.ofInt (x.toInt r).1) = true)) ∧
  -- R130: the special operands
  (laneFrcp 0 = (0x7F800000, flDZ) ∧ laneFrcp 0x80000000 = (0xFF800000, flDZ) ∧ laneFrcp 0x7F800000 = (0, 0) ∧
    laneFrcp 0xFF800000 = (0x80000000, 0) ∧ laneFrsq 0 = (0x7F800000, flDZ) ∧ laneFrsq 0x80000000 = (0xFF800000, flDZ) ∧
    laneFrsq 0x7F800000 = (0, 0) ∧ laneFex2 0 = (0x3F800000, 0) ∧ laneFex2 0x80000000 = (0x3F800000, 0) ∧
    laneFex2 0x7F800000 = (0x7F800000, 0) ∧ laneFex2 0xFF800000 = (0, 0) ∧ laneFlg2 0 = (0xFF800000, flDZ) ∧
    laneFlg2 0x80000000 = (0xFF800000, flDZ) ∧ laneFlg2 0x7F800000 = (0x7F800000, 0) ∧
    laneFsincos 0 = ((0, 0), (0x3F800000, 0)) ∧ laneFsincos 0x80000000 = ((0x80000000, 0), (0x3F800000, 0))) ∧
  (∀ (a : Nat) (r : Rnd), a < 2 ^ 32 →
  let iv : Nat × FFlags := (0x7FC00000, flIV)
  (∀ sg, f32 a = .nan sg → let q : Nat × FFlags := (0x7FC00000, flIf sg flIV)
    laneFrcp a = q ∧ laneFrsq a = q ∧ laneFsqrt 0 false r a = q ∧ laneFex2 a = q ∧ laneFlg2 a = q ∧ laneFsincos a = (q, q)) ∧
  ((f32 a).isInf = true → laneFsincos a = (iv, iv)) ∧
  ((f32 a).isZero = true → laneFsqrt 0 false r a = (a, 0)) ∧ (f32 a = .inf false → laneFsqrt 0 false r a = (a, 0)) ∧
  ((f32 a).isNan = false → (f32 a).isZero = false → (f32 a).sign = true →
    laneFrsq a = iv ∧ laneFsqrt 0 false r a = iv ∧ laneFlg2 a = iv)) ∧
  -- R130: the exact cases and the bounds
  (∀ (a : Nat) (neg : Bool) (m : Nat) (e : Int), a < 2 ^ 32 → f32 a = .fin neg m e → m ≠ 0 →
  let x := (f32 a).dy
  let k : Int := e + (Nat.log2 m : Int)
  (isPow2 m = true → -126 ≤ -k → -k ≤ 127 → Exact (laneFrcp a) ⟨if neg then -1 else 1, -k⟩) ∧
  (isPow2 m = false → Near (laneFrcp a) (dyDiv dyOne x) (ulp32 (dyDiv dyOne x)) ∧ (laneFrcp a).2 &&& flNX ≠ 0) ∧
  (neg = false → isPow2 m = true → k % 2 = 0 → Exact (laneFrsq a) ⟨1, -(k / 2)⟩) ∧
  (neg = false → (isPow2 m && k % 2 == 0) = false → let q := sqrtSticky (m * 2 ^ 128) (e - 128)
    Near (laneFrsq a) (dyDiv dyOne ⟨q.1, q.2⟩) ((ulp32 (dyDiv dyOne ⟨q.1, q.2⟩)).scale 1) ∧ (laneFrsq a).2 &&& flNX ≠ 0) ∧
  (x.eq (Dy.ofInt x.floor) = true → -149 ≤ x.floor → x.floor ≤ 127 → Exact (laneFex2 a) ⟨1, x.floor⟩) ∧
  (x.eq (Dy.ofInt x.floor) = false → Near (laneFex2 a) (dyExp2 x) ((ulp32 (dyExp2 x)).scale 1) ∧ (laneFex2 a).2 &&& flNX ≠ 0) ∧
  (neg = false → isPow2 m = true → Exact (laneFlg2 a) (Dy.ofInt k)) ∧
  (neg = false → isPow2 m = false → let y := dyDiv (dyLn x) dyLn2
    Near (laneFlg2 a) y (if (Dy.mk 1 (-1)).le x && x.le ⟨2, 0⟩ then ⟨1, -22⟩ else (ulp32 y).scale 1) ∧ (laneFlg2 a).2 &&& flNX ≠ 0) ∧
  (let t := x.sub (Dy.ofInt x.floor)
   let odd := x.floor % 2 != 0
   let up (y : Dy) : Dy := if odd then y.neg else y
   let one : Nat := 0x3F800000 + (if odd then 2 ^ 31 else 0)
   (t.isZero = true → laneFsincos a = ((if neg then 2 ^ 31 else 0, 0), (one, 0))) ∧
   (t.isZero = false → t.eq ⟨1, -1⟩ = true → laneFsincos a = ((one, 0), (0, 0))) ∧
   (t.isZero = false → t.eq ⟨1, -1⟩ = false → Near (laneFsincos a).1 (up (dySinPi t)) ⟨1, -22⟩ ∧
     Near (laneFsincos a).2 (up (dyCosPi t)) ⟨1, -22⟩ ∧ (laneFsincos a).1.2 &&& flNX ≠ 0 ∧ (laneFsincos a).2.2 &&& flNX ≠ 0))) ∧
  (∀ (m : Nat) (e : Int), m ≠ 0 → let q := sqrtSticky m e
    (Dy.mk (q.1 * q.1) (2 * q.2)).eq ⟨m, e⟩ = true ∨ (q.1 % 2 = 1 ∧
      (Dy.mk (((q.1 : Int) - 1) * (q.1 - 1)) (2 * q.2)).lt ⟨m, e⟩ = true ∧ (Dy.mk m e).lt ⟨(q.1 + 1) * (q.1 + 1), 2 * q.2⟩ = true)) ∧
  (∀ (y : Dy), let r := roundFin .fp32 .ne (decide (y.n < 0)) y.n.natAbs y.e
    r.2 &&& flOF = 0 → ((f32 r.1).dy.sub y).abs.le (ulp32 y) = true) ∧
  -- R131
  (∀ (fn a b : Nat), fn < 7 → a < 2 ^ 32 → b < 2 ^ 32 →
  let (x, y) := (f32 a, f32 b)
  (∀ sg, x = .nan sg → laneFact fn a = (0x7FC00000, flIf sg flIV)) ∧
  ((x.isNan || y.isNan) = true → laneFdact fn a b = (0x7FC00000, flIf (x.isSig || y.isSig) flIV)) ∧
  (x.isNan = false → x.isInf = false →
    (laneFact 0 a = if (Dy.mk 0 0).lt x.dy then (a, 0) else (0, 0)) ∧
    (fn ≠ 0 → Near (laneFact fn a) (factFn fn x.dy).1 (actBound (factFn fn x.dy).1 dyOne))) ∧
  (x.isNan = false → y.isNan = false →
    let pos : Bool := x == .inf false || (Dy.mk 0 0).lt x.dy
    laneFdact 0 a b = exactG pos b ∧ (pos = true → laneFdact 3 a b = exactG true b) ∧
    (x.isInf = false → y.isInf = false → fn ≠ 0 → ¬ (fn = 3 ∧ pos = true) → let r := y.dy.mul (fdactG fn x.dy).1
      Near (laneFdact fn a b) r (actBound r y.dy))))

/-- cvt converts one element and keeps the others; hop2 works on both halves; qscale quantises the active lanes as one block.

The dot products add exact products, scaled in the 8- and 4-bit floating-point forms, to the addend and finish once; vred puts the value of
the pairwise tree in every active lane; vscan's exclusive form is the inclusive form moved up one lane, with the identity in lane 0; every
active lane gets the OR of the flags of every combination. -/
def Obligations.ConversionsAndReductions : Prop :=
  (∀ (w : FrWord) (s : State) (c : Go),
  let half (op l : Nat) := laneHalves c w op l
  let f := tyFmt w.typ
  let m := rndOf w.sel c.t.fmt
  let at_ (r : BitVec 8) (n a : Bool) (l i : Nat) : Machine.Num := f.decode (fMod f n a (elem (src c.g r l) i 16))
  let a := at_ w.a w.nA w.aA
  let b := at_ w.b w.nB w.aB
  let k := at_ w.c w.nC w.aC
  let fin (x : Machine.Num × FFlags) (fl : FFlags) : Nat × FFlags := let y := finish x.1 0 w.clamp f m; (y.1, fl ||| x.2 ||| y.2)
  let both (op : Nat) (r : Nat → Nat → Nat × FFlags) : Prop := ∀ l, (∀ i, i < 2 → elem (half op l).v i 16 = (r l i).1 % 2 ^ 16) ∧
    (half op l).fl = (r l 0).2 ||| (r l 1).2
  (pre (.cvt w) s = .go c → tyWidth w.typ < 32 → NoFpTrap c (fun l => (laneCvtFull c w l).fl) →
    ∃ v, LaneDone (.cvt w) s c (.reg w.d) v (fun l => (laneCvtFull c w l).fl) ∧
      ∀ l e, e < 32 / tyWidth w.typ → e ≠ w.c.toNat / 16 % 8 →
        elem (v l) e (tyWidth w.typ) = elem (src c.g w.d l) e (tyWidth w.typ)) ∧
  (pre (.cvt w) s = .go c → tyWidth w.typ = 32 → NoFpTrap c (fun l => (laneCvtFull c w l).fl) →
    LaneDone (.cvt w) s c (.reg w.d) (fun l => (laneCvtFull c w l).v) (fun l => (laneCvtFull c w l).fl)) ∧
  (pre (.cvt w) s = .go c → tyWidth w.typ = 64 → NoFpTrap c (fun l => (laneCvtFull c w l).fl) →
    LaneDone (.cvt w) s c (.pair w.d) (fun l => (laneCvtFull c w l).v) (fun l => (laneCvtFull c w l).fl)) ∧
  (pre (.hop2Add w) s = .go c → NoFpTrap c (fun l => (half 0 l).fl) →
    LaneDone (.hop2Add w) s c (.reg w.d) (fun l => (half 0 l).v) (fun l => (half 0 l).fl)) ∧
  (pre (.hop2Mul w) s = .go c → NoFpTrap c (fun l => (half 1 l).fl) →
    LaneDone (.hop2Mul w) s c (.reg w.d) (fun l => (half 1 l).v) (fun l => (half 1 l).fl)) ∧
  (pre (.hop2Fma w) s = .go c → NoFpTrap c (fun l => (half 2 l).fl) →
    LaneDone (.hop2Fma w) s c (.reg w.d) (fun l => (half 2 l).v) (fun l => (half 2 l).fl)) ∧
  both 0 (fun l i => fin (sumNum m [a l i, b l i]) (sigIV [a l i, b l i])) ∧
  both 1 (fun l i => fin ((a l i).mul (b l i)) (sigIV [a l i, b l i])) ∧
  both 2 (fun l i => fin (sumNum m [((a l i).mul (b l i)).1, k l i]) (sigIV [a l i, b l i, k l i] ||| ((a l i).mul (b l i)).2)) ∧
  (pre (.qscale w) s = .go c →
    let q := quantBlock c w
    let fl (l : Nat) : FFlags := flIf (q.sat.getD l false) flSAT ||| flIf (q.nx.getD l false) flNX ||| flIf q.iv flIV
    NoFpTrap c fl → LaneDone (.qscale w) s c (.reg w.d) (fun l => BitVec.ofNat 64 (q.scale * 256 + q.codes.getD l 0)) fl)) ∧
  (∀ (w : FrWord) (s : State) (c : Go),
  let dot (i : Instr) : Prop := NoFpTrap c (fun l => (laneDot c w l).fl) →
    LaneDone i s c (.reg w.d) (fun l => (laneDot c w l).v) (fun l => (laneDot c w l).fl)
  (pre (.dp4 w) s = .go c → dot (.dp4 w)) ∧ (pre (.dp8 w) s = .go c → dot (.dp8 w)) ∧ (pre (.dp2 w) s = .go c → dot (.dp2 w)) ∧
  (∀ l, tyInt w.typ = true →
    let n := 32 / tyWidth w.typ
    let sg := w.typ != 12
    let e (r : BitVec 8) (i : Nat) : Int :=
      if w.typ = 7 then (readI4 (elem (src c.g r l) i 4)).1 else extTy sg (tyWidth w.typ) (elem (src c.g r l) i (tyWidth w.typ))
    let irc : Bool := decide (w.typ = 7) && (List.range 8).any (fun i => elem (src c.g w.a l) i 4 == 8 || elem (src c.g w.b l) i 4 == 8)
    let x := deliverInt sg 32 w.clamp (((List.range n).map (fun i => e w.a i * e w.b i)).sum + extTy sg 32 (src c.g w.c l).toNat)
    (laneDot c w l).v = BitVec.ofNat 64 x.1 ∧ (laneDot c w l).fl = x.2 ||| flIf irc flIRC) ∧
  (∀ l, tyInt w.typ = false →
    let m := rndOf w.sel c.t.fmt
    let f := tyFmt w.typ
    let n := 32 / tyWidth w.typ
    let z := if w.typ = 1 then src c.g w.c l else src2 c.g w.c l
    let e (r : BitVec 8) (ng ab : Bool) (i : Nat) : Machine.Num := f.decode (fMod f ng ab (elem (src c.g r l) i (tyWidth w.typ)))
    let (sa, sb) : Machine.Num × Machine.Num := if w.typ = 1 then (.fin false 1 0, .fin false 1 0) else (e8m0 (elem z 4 8), e8m0 (elem z 5 8))
    let terms := (List.range n).map (fun i => ((((e w.a w.nA w.aA i).mul (e w.b w.nB w.aB i)).1.mul sa).1.mul sb).1) ++
      [f32 (fMod .fp32 w.nC w.aC (elem z 0 32))]
    let bad := sa.isNan || sb.isNan
    (bad = false → (laneDot c w l).v = BitVec.ofNat 64 (finish (sumNum m terms).1 w.ds w.clamp .fp32 m).1) ∧
    (bad = true → (laneDot c w l).v = BitVec.ofNat 64 (finish (.nan false) w.ds w.clamp .fp32 m).1 ∧ (laneDot c w l).fl &&& flIV ≠ 0)) ∧
  (pre (.vred w) s = .go c → NoFpTrap c (fun _ => (redValue c w).2) →
    LaneDone (.vred w) s c (.reg w.d) (fun _ => (redValue c w).1.setWidth 64) (fun _ => (redValue c w).2)) ∧
  TreeOf (combine w.typ (w.b.toNat % 8) w.clamp (rndOf w.sel c.t.fmt)) (redInput c w (w.b.toNat % 8)) (redValue c w) ∧
  (pre (.vscan w) s = .go c → ∃ v : Nat → Word,
    (NoFpTrap c (fun _ => (scanValue c w).2) →
      LaneDone (.vscan w) s c (.reg w.d) (fun l => (v l).setWidth 64) (fun _ => (scanValue c w).2)) ∧
    (bit w.b 3 = true → v 0 = identOf w.typ (w.b.toNat % 8) ∧ ∀ l, l < 31 → v (l + 1) = (scanValue c w).1.getD l 0) ∧
    (bit w.b 3 = false → ∀ l, l < 32 → v l = (scanValue c w).1.getD l 0)) ∧
  ScanOf (combine w.typ (w.b.toNat % 8) w.clamp (rndOf w.sel c.t.fmt)) (redInput c w (w.b.toNat % 8)) (scanValue c w) ∧
  (w.typ ≠ 0 → w.b.toNat % 8 = 0 → w.clamp = false → (redValue c w).2 = 0 ∧
    (redValue c w).1 = (lanes.map (fun l => if c.act.getLsbD l then redInput c w 0 l else 0)).foldl (· + ·) 0))

/-- A lane word that raises a flag enabled in FPEN traps with FP_TRAP: each active lane keeps the flags it raised, no destination is
written; shown for the FP32 sum, product and comparison. -/
def Obligations.FpTrapWritesNothing : Prop := ∀ (w : FrWord) (s : State) (c : Go), closing s c.gid = false →
  let fl (f : Nat → Nat → FFlags) (l : Nat) : FFlags := f (srcF c.g w.a l w.nA w.aA) (srcF c.g w.b l w.nB w.aB)
  let trapped (i : Instr) (f : Nat → Nat → FFlags) : Prop := pre i s = .go c → ¬ NoFpTrap c (fl f) → ∃ g1,
    exec i s = .next (takeTrap (setGrp s c.gid g1) c.gid (infoAt 0x34#6 c.t c.act)) ∧ g1 = { c.g with ff := g1.ff } ∧
    ∀ l, l < 32 → tabGet 0 g1.ff l = flagsAfter c (fl f) l
  trapped (.fadd w) (fun a b => (laneFadd .fp32 w.ds w.clamp (rndOf w.sel c.t.fmt) a b).2) ∧
  trapped (.fmul w) (fun a b => (laneFmul .fp32 w.ds w.clamp (rndOf w.sel c.t.fmt) a b).2) ∧
  trapped (.fcmp w) (fun a b => (laneFcmp w.sel a b).2)

/-- Addition and multiplication of FP32 codes do not depend on the order of their operands, values and flags alike. -/
def Obligations.FloatOpsCommute : Prop := ∀ (ds : BitVec 3) (cl : Bool) (r : Rnd) (a b : Nat),
  laneFadd .fp32 ds cl r a b = laneFadd .fp32 ds cl r b a ∧ laneFmul .fp32 ds cl r a b = laneFmul .fp32 ds cl r b a

/-- nop only advances; yield sets the group's age to 0 and changes nothing else.

Both slots of a paired word read the values before the word; each writes its own destination in its own lanes. -/
def Obligations.PairedWordsAndYield : Prop :=
  (∀ (w : FsWord) (s : State) (c : Go),
  (pre .nop s = .go c → OnlyAdvances .nop s c) ∧
  (pre (.yield w) s = .go c → ∃ s' g', exec (.yield w) s = .next s' ∧ Retired s s' c g' ∧
    g' = { c.g with age := 0, due := false, splits := g'.splits, suppress := g'.suppress, written := g'.written })) ∧
  (∀ (a b : Half) (low : BitVec 1) (s : State) (c : Go),
  pre (.pairedWord a b low) s = .go c → brkHit s c.g c.t [2] = none →
  let m (h : Half) (l : Nat) : Bool := (halfMask c.g c.t h).getLsbD l
  let quiet (h : Half) : Prop := ∀ l, l < 32 → m h l = true → (halfLane c.g h l).fl.setWidth 5 &&& c.g.fpen = 0
  let reg (h : Half) (f l : Nat) (old : Word) : Word :=
    if h.hop = 0 ∨ halfCmp h.hop.toNat = true ∨ f ≠ h.d.toNat ∨ f = 255 then old
    else if f < 192 then (if m h l then bits (halfLane c.g h l).v 0 32 else old)
    else match lowBit (halfMask c.g c.t h) with
      | some k => bits (halfLane c.g h k).v 0 32
      | none => old
  let prd (h : Half) (p l : Nat) (old : Bool) : Bool :=
    if h.hop ≠ 0 ∧ halfCmp h.hop.toNat = true ∧ p = h.imm.toNat ∧ m h l = true then bit (halfLane c.g h l).v 0 else old
  quiet a → quiet b → ∃ s' g', exec (.pairedWord a b low) s = .next s' ∧ Retired s s' c g' ∧
    (∀ f l, f < 256 → l < 32 → regGet g' f l = reg b f l (reg a f l (regGet c.g f l))) ∧
    (∀ p l, p < 64 → l < 32 → predGet g' p l = prd b p l (prd a p l (predGet c.g p l))) ∧
    (∀ l, l < 32 → tabGet 0 g'.ff l = tabGet 0 c.g.ff l ||| (if m a l then (halfLane c.g a l).fl else 0) |||
      (if m b l then (halfLane c.g b l).fl else 0)) ∧
    g' = { c.g with v := g'.v, s := g'.s, p := g'.p, ff := g'.ff, splits := g'.splits, suppress := g'.suppress, written := g'.written })

/-! ### Control, roles, traps -/

/-- A header opens its clause when its flags are idle and without error; with REG it commits the region and counts it; busy flags hold
the split, and a completion lets it look again; an error of a flagless operation of its lanes traps there, and is then forgotten (which
header reports it is the model's choice, log entry 35).

A held split is ready again exactly when a completion has happened since it was held (the model's choice, log entry 40). -/
def Obligations.ClauseHeaders : Prop :=
  (∀ (h : Header) (s : State) (c : Go), pre (.clauseHeader h) s = .go c →
  (∀ k e, lateFor c.g c.t.mask = some (k, e) → closing s c.gid = false → exec (.clauseHeader h) s =
    .next (takeTrap (mapGrp s c.gid (fun g => { g with late := tabDel g.late k })) c.gid (infoAt e c.t c.act))) ∧
  (lateFor c.g c.t.mask = none → (∀ i, i < 12 → bit h.wait i = true → (flagOf c.g i).cnt = 0 ∧ (flagOf c.g i).err = false) → h.reg = false →
    ∃ s' g', exec (.clauseHeader h) s = .next s' ∧ OnlyGroup s s' c.gid g' ∧ tabFind g'.splits c.sp = some (enterClause h c.t) ∧
      (∀ k, k ≠ c.sp → tabFind g'.splits k = tabFind c.g.splits k) ∧
      g' = { c.g with splits := g'.splits, suppress := passedAt c, age := if h.yld then 0 else c.g.age, due := if h.yld then false else c.g.due }) ∧
  (lateFor c.g c.t.mask = none → (∀ i, i < 12 → bit h.wait i = true → (flagOf c.g i).cnt = 0 ∧ (flagOf c.g i).err = false) → h.reg = true →
    unchecked s c.gid = false → ∃ s' g', exec (.clauseHeader h) s = .next s' ∧ grp s' c.gid = some g' ∧
      tabFind g'.splits c.sp = some (enterClause h c.t) ∧ g'.regentry = c.g.regentry + 1 ∧ g'.ckpt = ckptOf c.g c.sp ∧
      g'.epoch = c.g.epoch + 1 ∧ g'.mxcount = addStaged c.g.mxcount c.g.staged ∧ g'.v = c.g.v ∧ g'.s = c.g.s ∧ g'.p = c.g.p ∧
      ∀ a, memByte s'.mem a = memByte s.mem a) ∧
  (lateFor c.g c.t.mask = none → (∃ i, i < 12 ∧ bit h.wait i = true ∧ (flagOf c.g i).cnt ≠ 0) → rayPage s (whoOf c.g) c.gid h.wait = none →
    exec (.clauseHeader h) s = .next (holdSplit s c.gid c.sp)) ∧
  (∀ f, lateFor c.g c.t.mask = none → anyBusy c.g h.wait = false → firstErr c.g h.wait = some f → closing s c.gid = false →
    exec (.clauseHeader h) s = .next (takeTrap s c.gid
      { infoAt (flagOf c.g f).cause c.t c.act with info := 0x8000#16 ||| BitVec.ofNat 16 f }))) ∧
  (∀ (s : State) (gid sp : Nat) (g : Group) (t : Split),
  grp s gid = some g → tabFind g.splits sp = some t →
  ∃ s' g', exec (.clauseWaitResume gid sp) s = .next s' ∧ s' = { s with groups := s'.groups } ∧ grp s' gid = some g' ∧
    (∀ k, k ≠ gid → grp s' k = grp s k) ∧ g' = { g with splits := g'.splits } ∧
    (∀ k, k ≠ sp → tabFind g'.splits k = tabFind g.splits k) ∧
    (t.st = .held → t.heldAt < s.changes → tabFind g'.splits sp = some { t with st := .ready }) ∧
    (t.st ≠ .held ∨ s.changes ≤ t.heldAt → tabFind g'.splits sp = some t))

/-- bra, brx, call and ret with every lane of the split to one target go there; with no active lane they only advance; call leaves the
address of the next word in s60, s61. -/
def Obligations.UniformTransfers : Prop := ∀ (w : FbWord) (x : FrWord) (r : FsWord) (s : State) (c : Go) (tgt : Double),
  (pre (.bra w) s = .go c → c.act = 0 → OnlyAdvances (.bra w) s c) ∧
  (pre (.bra w) s = .go c → c.act = c.t.mask → c.act ≠ 0 → HeaderAt s c.g (c.t.pc + 8 * w.toff.signExtend 64) →
    OnlyMoves (.bra w) s c (c.t.pc + 8 * w.toff.signExtend 64)) ∧
  (pre (.brx x) s = .go c → c.act = 0 → OnlyAdvances (.brx x) s c) ∧
  (pre (.brx x) s = .go c → c.act = c.t.mask → c.act ≠ 0 → (∀ l, l < 32 → c.act.getLsbD l = true → src2 c.g x.a l = tgt) →
    HeaderAt s c.g tgt → OnlyMoves (.brx x) s c tgt) ∧
  (pre (.call w) s = .go c → c.act = 0 → OnlyAdvances (.call w) s c) ∧
  (pre (.call w) s = .go c → c.act = c.t.mask → c.act ≠ 0 → HeaderAt s c.g (c.t.pc + 8 * w.toff.signExtend 64) →
    ∃ s' g', exec (.call w) s = .next s' ∧ Moved (fetchTouch s c.g (c.t.pc + 8 * w.toff.signExtend 64)) s' c
        (c.t.pc + 8 * w.toff.signExtend 64) g' ∧
      g' = { c.g with s := g'.s, splits := g'.splits, suppress := g'.suppress, written := g'.written } ∧ pairGet g' 252 0 = c.t.pc + 8 ∧
      252 ∈ g'.written ∧ 253 ∈ g'.written ∧ ∀ f l, f ≠ 252 → f ≠ 253 → regGet g' f l = regGet c.g f l) ∧
  (pre (.ret r) s = .go c → c.act = 0 → OnlyAdvances (.ret r) s c) ∧
  (pre (.ret r) s = .go c → c.act = c.t.mask → c.act ≠ 0 → HeaderAt s c.g (src2 c.g r.a 0) →
    OnlyMoves (.ret r) s c (src2 c.g r.a 0)) ∧
  (pre (.call w) s = .go c → c.act ≠ 0 → c.t.mask &&& ~~~c.act ≠ 0 → closing s c.gid = false →
    exec (.call w) s = .next (takeTrap s c.gid (infoAt 0x05#6 c.t c.act))) ∧
  (pre (.ret r) s = .go c → c.act ≠ 0 → c.t.mask &&& ~~~c.act ≠ 0 → closing s c.gid = false →
    exec (.ret r) s = .next (takeTrap s c.gid (infoAt 0x05#6 c.t c.act)))

/-- A divergence pushes a JOIN entry with the split's lanes; the split takes the first path; the other path starts on the lowest free
split identifier, or waits as a PATH entry when there is none or DH is set.

join: without an innermost entry for its header it only advances; the last path merges the lanes and goes on after the join; the
owner sleeps while others run, or takes a waiting path; another split ends; the identifier that became free takes the earliest waiting path.

A held join whose block is in the spill area gets its entries back from memory, and the block is free again; other bytes than those that the
spill wrote (whose values the model leaves open, log entry 7) trap with RECONV_SPILL_FAULT, poisoned ones with MACHINE_CHECK. -/
def Obligations.DivergenceAndJoin : Prop :=
  (∀ (w : FbWord) (x : FrWord) (s : State) (c : Go),
  let e := c.g.nextEid
  let divided (s1 : State) (i : Instr) (dh : Bool) (join : Double) (p q : Path) : Prop :=
    ∃ s' g', exec i s = .next s' ∧ OnlyGroup s1 s' c.gid g' ∧
    tabFind g'.stack e = some { join := true, mask := c.t.mask, pc := join, fmt := c.t.fmt, owner := c.sp, link := c.t.inner } ∧
    tabFind g'.splits c.sp = some (pathSplit p.mask p.pc c.t.fmt e) ∧
    (∀ k, dh = false → freeId c.g = some k → tabFind g'.splits k = some (pathSplit q.mask q.pc c.t.fmt e)) ∧
    (dh = true ∨ freeId c.g = none →
      tabFind g'.stack (e + 1) = some { join := false, mask := q.mask, pc := q.pc, fmt := c.t.fmt, owner := c.sp, link := some e }) ∧
    g' = { c.g with splits := g'.splits, stack := g'.stack, nextEid := g'.nextEid, suppress := passedAt c }
  (pre (.bra w) s = .go c → c.act ≠ 0 → c.t.mask &&& ~~~c.act ≠ 0 → w.joff ≠ 0 → c.g.stack.length ≤ 30 →
    HeaderAt s c.g (c.t.pc + 8 * w.toff.signExtend 64) →
    divided (fetchTouch s c.g (c.t.pc + 8 * w.toff.signExtend 64)) (.bra w) (w.dh == 1) (c.t.pc + 8 * w.joff.signExtend 64)
      ⟨c.act, c.t.pc + 8 * w.toff.signExtend 64⟩
      ⟨c.t.mask &&& ~~~c.act, c.t.pc + 8⟩) ∧
  (∀ t u : Double, pre (.brx x) s = .go c → c.act = c.t.mask → x.c ≠ 0xFF → c.g.stack.length ≤ 30 → t.toNat < u.toNat →
    HeaderAt s c.g t → HeaderAt (fetchTouch s c.g t) c.g u →
    (∀ l, l < 32 → c.act.getLsbD l = true → src2 c.g x.a l = t ∨ src2 c.g x.a l = u) →
    (∃ l, l < 32 ∧ c.act.getLsbD l = true ∧ src2 c.g x.a l = t) → (∃ l, l < 32 ∧ c.act.getLsbD l = true ∧ src2 c.g x.a l = u) →
    divided (fetchTouch (fetchTouch s c.g t) c.g u) (.brx x) false (src2 c.g x.c 0)
      ⟨maskOf (fun l => c.act.getLsbD l && src2 c.g x.a l == t), t⟩ ⟨maskOf (fun l => c.act.getLsbD l && src2 c.g x.a l == u), u⟩)) ∧
  (∀ (w : FsWord) (s : State) (c : Go),
  (pre (.join w) s = .go c → c.t.inner = none → OnlyAdvances (.join w) s c) ∧
  (∀ e x, pre (.join w) s = .go c → c.t.inner = some e → entryOf c.g e = some x → x.pc ≠ c.t.hdr → OnlyAdvances (.join w) s c) ∧
  (∀ e x, pre (.join w) s = .go c → c.t.inner = some e → entryOf c.g e = some x → x.pc = c.t.hdr → needsRefill false c.g c.sp = none →
    let g0 : Group := { c.g with stack := tabPut c.g.stack e { x with arrived := x.arrived ||| c.t.mask } }
    ∃ s' g', exec (.join w) s = .next s' ∧ grp s' c.gid = some g' ∧ (∀ k, k ≠ c.gid → grp s' k = grp s k) ∧ s'.mem = s.mem ∧
      g'.v = c.g.v ∧ g'.s = c.g.s ∧ g'.p = c.g.p ∧ g'.live = c.g.live ∧
      (pathsOf g0 e = [] → x.mask &&& ~~~(x.arrived ||| c.t.mask) = 0 → x.mask ≠ 0 → c.sp = x.owner →
        tabFind g'.stack e = none ∧ ∃ t, tabFind g'.splits c.sp = some t ∧ t.mask = x.mask ∧ t.fmt = x.fmt ∧ t.inner = x.link ∧
          t.pc = x.pc + 16 ∧ t.st = .ready) ∧
      (pathsOf g0 e = [] → x.mask &&& ~~~(x.arrived ||| c.t.mask) ≠ 0 → c.sp = x.owner →
        tabFind g'.splits c.sp = some { c.t with st := .asleep (.join e) }) ∧
      (∀ p r, pathsOf g0 e = p :: r → c.sp = x.owner →
        tabFind g'.splits c.sp = some (pathSplit p.2.mask p.2.pc p.2.fmt e) ∧ tabFind g'.stack p.1 = none) ∧
      (pathsOf g0 e ≠ [] ∨ x.mask &&& ~~~(x.arrived ||| c.t.mask) ≠ 0 → c.sp ≠ x.owner →
        tabFind g'.splits c.sp = none ∧ tabFind g'.stack e = some { x with arrived := x.arrived ||| c.t.mask })) ∧
  (∀ gid g i r p, grp s gid = some g → g.pathDue = i :: r → (onChip g).find? (fun x => !x.2.join) = some p →
    ∃ s' g', exec (.pathStart gid) s = .next s' ∧ grp s' gid = some g' ∧ tabFind g'.stack p.1 = none ∧
      tabFind g'.splits i = some (pathSplit p.2.mask p.2.pc p.2.fmt (p.2.link.getD 0)) ∧
      g' = { g with pathDue := r, stack := g'.stack, splits := g'.splits })) ∧
  (∀ (s : State) (gid sp b tok pa : Nat) (p : Bool) (g : Group),
  grp s gid = some g → (splitAt g sp).st = .held → refillDue s g sp (splitAt g sp) = some b →
  translate s (whoOf g) .read (spillAddr s g b) = .ok pa p → tabFind g.spills b = some tok →
  let va := spillAddr s g b
  let r := memLoad (walkFold s (whoOf g) va) pa 128
  let t := splitAt g sp
  (isPoison r.2 .mem 0 pa 128 = true → closing (mcheckG r.2 3 (poisonAddr r.2 pa 128) g) gid = false → closing r.2 gid = false →
    exec (.reconvRefill gid sp) s = .next (takeTrap (mcheckG r.2 3 (poisonAddr r.2 pa 128) g) gid
      { infoAt 0x3E#6 t t.mask with faddr := some va })) ∧
  (isPoison r.2 .mem 0 pa 128 = false → r.1 = (List.range 128).map (Config.spillByte tok) →
    ∃ s' g', exec (.reconvRefill gid sp) s = .next s' ∧ grp s' gid = some g' ∧ tabFind g'.spills b = none ∧
      (∀ e, e ∈ g'.stack → e.2.spilled ≠ some b) ∧ g' = { g with spills := g'.spills, stack := g'.stack } ∧ s'.mem = r.2.mem) ∧
  (isPoison r.2 .mem 0 pa 128 = false → r.1 ≠ (List.range 128).map (Config.spillByte tok) → closing r.2 gid = false →
    exec (.reconvRefill gid sp) s = .next (takeTrap r.2 gid (infoAt 0x3C#6 t t.mask))))

/-- exit takes its lanes out of the split and the group; with the last live lane the group waits for its operations at the exit; then
GROUP_END ends it, and with the last group its unit, which an engine job of the unit that is not complete holds back.

An exit of a split's last lanes while others live arrives at the split's innermost JOIN entry with no lane: where every remaining lane has
arrived, a split that waits goes on after the join; else the owner takes the next path or waits, and another split ends. -/
def Obligations.ExitEndsLanes : Prop := ∀ (w : FsWord) (s : State) (c : Go),
  (pre (.exit w) s = .go c → c.act = 0 → OnlyAdvances (.exit w) s c) ∧
  (pre (.exit w) s = .go c → c.act ≠ 0 → c.t.mask &&& ~~~c.act ≠ 0 → ∃ s' g', exec (.exit w) s = .next s' ∧
    OnlyGroup s s' c.gid g' ∧ tabFind g'.splits c.sp = some { nextSplit c c.t with mask := c.t.mask &&& ~~~c.act } ∧
    g'.live = c.g.live &&& ~~~c.act ∧ g'.v = c.g.v ∧ g'.s = c.g.s ∧ g'.p = c.g.p) ∧
  (pre (.exit w) s = .go c → c.act ≠ 0 → c.t.mask = c.act → c.g.live &&& ~~~c.act = 0 →
    ∃ s' g', exec (.exit w) s = .next s' ∧ grp s' c.gid = some g' ∧ g'.st = .exiting c.t.pc c.act ∧ g'.live = 0 ∧ g'.flags = c.g.flags ∧
      s'.ops = s.ops ∧ s'.mem = s.mem) ∧
  (pre (.exit w) s = .go c → c.act ≠ 0 → c.t.mask = c.act → c.g.live &&& ~~~c.act ≠ 0 → c.t.inner = none →
    ∃ s' g', exec (.exit w) s = .next s' ∧ grp s' c.gid = some g' ∧ tabFind g'.splits c.sp = none ∧ g'.live = c.g.live &&& ~~~c.act) ∧
  (∀ e x, pre (.exit w) s = .go c → c.act ≠ 0 → c.t.mask = c.act → c.g.live &&& ~~~c.act ≠ 0 → c.t.inner = some e →
    let g0 := dropLanes c.g c.sp c.act
    entryOf g0 e = some x → needsRefill true g0 c.sp = none →
    let m := mergedId g0 e x c.sp true
    ∃ s' g', exec (.exit w) s = .next s' ∧ grp s' c.gid = some g' ∧ g'.live = c.g.live &&& ~~~c.act ∧ g'.v = c.g.v ∧ g'.s = c.g.s ∧
      g'.p = c.g.p ∧ s'.mem = s.mem ∧
      (pathsOf g0 e = [] → x.mask &&& ~~~x.arrived = 0 → x.mask ≠ 0 → tabFind g'.stack e = none ∧
        (m ≠ c.sp → tabFind g'.splits c.sp = none) ∧ ∃ t, tabFind g'.splits m = some t ∧ t.mask = x.mask ∧ t.fmt = x.fmt ∧ t.inner = x.link ∧
          t.pc = x.pc + 16 ∧ t.st = .ready) ∧
      (pathsOf g0 e = [] → x.mask &&& ~~~x.arrived ≠ 0 → c.sp = x.owner →
        tabFind g'.splits c.sp = some { c.t with mask := 0, st := .asleep (.join e) }) ∧
      (∀ p r, pathsOf g0 e = p :: r → c.sp = x.owner →
        tabFind g'.splits c.sp = some (pathSplit p.2.mask p.2.pc p.2.fmt e) ∧ tabFind g'.stack p.1 = none) ∧
      (pathsOf g0 e ≠ [] ∨ x.mask &&& ~~~x.arrived ≠ 0 → c.sp ≠ x.owner → tabFind g'.splits c.sp = none)) ∧
  (∀ gid g pc m, grp s gid = some g → g.st = .exiting pc m → (∀ i, i < 12 → (flagOf g i).cnt = 0 ∧ (flagOf g i).err = false) →
    g.late = [] → opsOf s gid = [] → ∃ s', exec (.groupEnd gid) s = .next s' ∧ grp s' gid = none ∧ s'.mem = s.mem ∧
      ∀ u, tabFind s.units g.uid = some u →
        (u.left ≤ 1 → (∀ e, e ∈ s.jobs → jobOfUnit g.uid e.2 = false) → tabFind s'.units g.uid = none) ∧
        (u.left ≤ 1 → (∀ e, e ∈ s.rays → e.2.gid ≠ gid) → (∃ e, e ∈ s.jobs ∧ jobOfUnit g.uid e.2 = true) →
          ∃ u', tabFind s'.units g.uid = some u' ∧ u'.left = 0) ∧
        (1 < u.left → (unitOf s' g.uid).left = u.left - 1))

/-- rolejmp and rolejmp.cur go to the role's entry; rswitch and rswitch.hint also take its role, its window and commit there.

claim and claim.try widen the window by n granules, giveback removes the n highest, each closing the region; claim.try says in PD
whether it did. -/
def Obligations.RolesAndWindows : Prop :=
  (∀ (w : FiWord) (s : State) (c : Go),
  let n := w.imm.toNat % 16
  let moves (i : Instr) (n : Nat) : Prop := pre i s = .go c → c.act = c.t.mask → c.act ≠ 0 → (roleEntry s c.g n).1 ≠ 0 →
    HeaderAt s c.g (roleEntry s c.g n).1 → OnlyMoves i s c (roleEntry s c.g n).1
  let switches (i : Instr) (n : Nat) : Prop := pre i s = .go c → c.act = c.t.mask → c.act ≠ 0 → c.g.splits.length ≤ 1 → c.g.stack = [] →
    (roleEntry s c.g n).1 ≠ 0 → HeaderAt s c.g (roleEntry s c.g n).1 → regHeaderAt (fetchTouch s c.g (roleEntry s c.g n).1) c.g (roleEntry s c.g n).1 = true →
    anyBusy c.g 0xFFF = false → firstErr c.g 0xFFF = none → batchesDone c.g = true → unchecked s c.gid = false →
    let win := if (roleEntry s c.g n).2 = 0 then c.g.w else (roleEntry s c.g n).2
    win ≤ c.g.w + freeGranules s c.g.uid c.g.quarter →
    ∃ s' g', exec i s = .next s' ∧ grp s' c.gid = some g' ∧ g'.role = BitVec.ofNat 4 n ∧ g'.hintV = false ∧ g'.w = win ∧
      tabFind g'.splits c.sp = some (jumpSplit (roleEntry s c.g n).1 c.t) ∧ g'.ckpt.repc = (roleEntry s c.g n).1 ∧
      (∀ f l, f < 192 → l < 32 → regGet g' f l = if f < 8 * win then regGet c.g f l else 0) ∧
      (∀ f l, 192 ≤ f → regGet g' f l = regGet c.g f l) ∧ g'.p = c.g.p ∧ s'.mem = (fetchTouch s c.g (roleEntry s c.g n).1).mem
  (pre (.rolejmp w) s = .go c → c.act = 0 → OnlyAdvances (.rolejmp w) s c) ∧ moves (.rolejmp w) n ∧
  (pre (.rolejmpCur w) s = .go c → c.act = 0 → OnlyAdvances (.rolejmpCur w) s c) ∧ moves (.rolejmpCur w) c.g.role.toNat ∧
  (pre (.rswitch w) s = .go c → c.act = 0 → OnlyAdvances (.rswitch w) s c) ∧ switches (.rswitch w) n ∧
  (pre (.rswitchHint w) s = .go c → c.t.role = none → c.act = 0 ∨ c.g.hintV = false → OnlyAdvances (.rswitchHint w) s c) ∧
  (c.t.role = none → c.g.hintV = true → switches (.rswitchHint w) c.g.hint.toNat) ∧
  (∀ k, c.t.role = some k → switches (.rswitchHint w) k)) ∧
  (∀ (w : FiWord) (s : State) (c : Go),
  let n := w.imm.toNat % 32
  let resized (i : Instr) (m : Nat) (pd : Option Bool) : Prop := ∃ s' g', exec i s = .next s' ∧ Closed s' c g' ∧ g'.w = m ∧
    (∀ f l, f < 192 → l < 32 → regGet g' f l = if f < 8 * m then regGet c.g f l else 0) ∧
    (∀ f l, 192 ≤ f → regGet g' f l = regGet c.g f l) ∧
    (∀ p l, p < 64 → l < 32 → predGet g' p l = match pd with
      | some b => if p = w.d.toNat % 64 ∧ p < 47 ∧ c.act.getLsbD l then b else predGet c.g p l
      | none => predGet c.g p l) ∧ s'.mem = s.mem
  (pre (.claim w) s = .go c → c.act = 0 → OnlyAdvances (.claim w) s c) ∧
  (pre (.claim w) s = .go c → c.act ≠ 0 → c.g.w + n ≤ 24 → n ≤ (unitOf s c.g.uid).granules.getD c.g.quarter 0 - c.g.w →
    unchecked s c.gid = false → n ≤ freeGranules s c.g.uid c.g.quarter → resized (.claim w) (c.g.w + n) none) ∧
  (pre (.claim w) s = .go c → c.act ≠ 0 → 24 < c.g.w + n → closing s c.gid = false →
    exec (.claim w) s = .next (takeTrap s c.gid (infoAt 0x06#6 c.t c.act))) ∧
  (pre (.claimTry w) s = .go c → c.act = 0 → OnlyAdvances (.claimTry w) s c) ∧
  (pre (.claimTry w) s = .go c → c.act ≠ 0 → c.g.w + n ≤ 24 → unchecked s c.gid = false → n ≤ freeGranules s c.g.uid c.g.quarter →
    resized (.claimTry w) (c.g.w + n) (some true)) ∧
  (pre (.claimTry w) s = .go c → c.act ≠ 0 → c.g.w + n ≤ 24 → unchecked s c.gid = false → freeGranules s c.g.uid c.g.quarter < n →
    ∃ s' g', exec (.claimTry w) s = .next s' ∧ Closed s' c g' ∧ g'.w = c.g.w ∧ g'.v = c.g.v ∧ g'.s = c.g.s ∧ s'.mem = s.mem ∧
      ∀ p l, p < 64 → l < 32 → predGet g' p l = if p = w.d.toNat % 64 ∧ p < 47 ∧ c.act.getLsbD l then false else predGet c.g p l) ∧
  (pre (.giveback w) s = .go c → c.act = 0 → OnlyAdvances (.giveback w) s c) ∧
  (pre (.giveback w) s = .go c → c.act ≠ 0 → n < c.g.w → unchecked s c.gid = false →
    (∀ e, e ∈ s.ops → e.2.gid = c.gid → e.2.dst = []) → resized (.giveback w) (c.g.w - n) none))

/-- Taking a trap in user mode: the frame of the group as it stands after the discard is written at TFBASE + 64 KiB × (64·core + slot);
one split runs all live lanes at TVEC in system mode, with the frame's address in s0, s1 and the cause word in s2; no other register,
predicate or flag, no other group and no byte outside the frame changes, but for the partial sums that the write of the frame folds. While
work from before the last commit is in flight, the group is stopped instead and waits for it.

A trap of a group that is in system mode halts the group, posts an event to the host (behind that of a machine check, where the write of the
nested cause meets one) and touches no other group. -/
def Obligations.TrapsTaken : Prop :=
  (∀ (s : State) (gid pa : Nat) (p : Bool) (t : TrapInfo) (g g1 : Group),
  let d0 := discardRegion (settle { s with cur := none } gid) gid
  let d : State := { d0 with free := d0.free + 1 }
  let fa := trapFrameAddr d g1
  let df := memTouch (walkFold d (frameWho g1) fa) pa 0xB000
  grp s gid = some g → g.sys = false → committedBusy s gid g false = false → grp d gid = some g1 → fa.toNat % 65536 = 0 →
  translate d (frameWho g1) .write fa = .ok pa p → portFails d pa = false → backed df pa = true → inAperture pa = false →
  ∃ h, grp (takeTrap s gid t) gid = some h ∧ h.sys = true ∧ h.st = .running ∧
    h.splits = [(0, { pc := (ctxOf d g1.ctx).tvec, mask := g1.live })] ∧
    h.stack = [] ∧ h.fpen = 0 ∧ h.tframe = fa ∧ h.tcause = causeWord t false ∧ h.trap = some t ∧
    (∀ l, pairGet h 192 l = fa ∧ regGet h 194 l = causeWord t false) ∧
    (∀ f l, f ≠ 192 → f ≠ 193 → f ≠ 194 → regGet h f l = regGet g1 f l) ∧
    h.p = g1.p ∧ h.ff = g1.ff ∧ h.flags = g1.flags ∧ h.role = g1.role ∧ h.w = g1.w ∧ h.names = g1.names ∧ h.live = g1.live ∧
    h.mxcount = g1.mxcount ∧ (takeTrap s gid t).cur = none ∧ (∀ k, k ≠ gid → grp (takeTrap s gid t) k = grp d k) ∧
    (∀ i, i < 0x700 → memByte (takeTrap s gid t).mem (pa + i) = (frameHead g1 t).getD i 0) ∧
    (∀ a, a < pa ∨ pa + 0xB000 ≤ a → memByte (takeTrap s gid t).mem a = memByte df.mem a)) ∧
  (∀ (s : State) (gid : Nat) (t : TrapInfo) (g : Group), grp s gid = some g → g.sys = false → committedBusy s gid g false = true →
  grp (takeTrap s gid t) gid = some { g with st := .stopping (.trap t) } ∧ (takeTrap s gid t).mem = s.mem ∧
  (∀ k, k ≠ gid → grp (takeTrap s gid t) k = grp s k) ∧ (takeTrap s gid t).cur = none) ∧
  (∀ (s : State) (gid : Nat) (t : TrapInfo) (g : Group), grp s gid = some g → g.sys = true →
  grp (takeTrap s gid t) gid = some { g with st := .halted } ∧
  (∃ es, (takeTrap s gid t).events = s.events ++ es ++ [{ typ := 2, ctx := g.ctx, cause := t.cause, core := g.core, slot := g.slot }] ∧
    ∀ e, e ∈ es → e.typ = 3) ∧
  (∀ k, k ≠ gid → grp (takeTrap s gid t) k = grp s k) ∧ (takeTrap s gid t).cur = none)

/-- sret and sret.pass restore from the frame's bytes every register the frame holds, and the splits, stack and live lanes of the
checkpoint, in user mode, where the pages that its spilled blocks go back to are resident; sret.pass also suppresses the reported match once.
That the frame's checkpoint block must hold the bytes that the trap wrote is the model's choice (log entry 6); that the match is kept by its
address, slot and lanes is its reading (log entry 80).

trap n commits at the next word and traps with SOFTWARE_TRAP and n; brk.set and brk.clr change one breakpoint of the context in
system mode and trap with PERMISSION in user mode. -/
def Obligations.TrapsReturned : Prop :=
  (∀ (w : FsWord) (s s1 : State) (c : Go) (bs : List Byte) (tok : Nat) (k : Ckpt) (x : IWord),
  let returns (i : Instr) (sup : Option (Double × BitVec 2 × Mask)) : Prop := pre i s = .go c → c.g.sys = true → c.g.frameCkpt = some (tok, k) →
    vaRead s (frameWho c.g) c.g.tframe 0xB000 = .ok (bs, s1) → (bs.drop 0x700).take 2304 = ckptBytes tok →
    fetch s c.g k.rclause = .word x → wordIsHeader x = true → c.g.stopDue = false → c.g.rosecDue = false → c.g.kept = none → c.g.w ≤ 24 →
    spillAbsent s1 { c.g with sys := false, spills := k.spills } = none →
    ∃ s' g', exec i s = .next s' ∧ grp s' c.gid = some g' ∧ g'.sys = false ∧
      (∀ n l, n < 63 → regGet g' (192 + n) l = nat32 bs (0x500 + 4 * n)) ∧
      (∀ n l, n < 8 * c.g.w → l < 32 → regGet g' n l = nat32 bs (0x1000 + 128 * n + 4 * l)) ∧
      (∀ n, n < 47 → predMask g' n = nat32 bs (0x600 + 4 * n)) ∧
      (∀ l, l < 32 → tabGet 0 g'.ff l = (bs.getD (0x6C0 + l) 0).setWidth 7) ∧
      g'.fpen = (nat32 bs 0x84).setWidth 5 ∧ g'.mxcount = nat32 bs 0x88 ∧ g'.spstep = (nat32 bs 0x8C).setWidth 16 ∧
      g'.splits = k.splits.map (fun e => (e.1, resumeSplit e.2)) ∧ g'.stack = k.stack ∧ g'.live = k.live ∧ g'.suppress = sup ∧
      g'.flags = c.g.flags ∧ g'.names = c.g.names ∧ s'.cur = none ∧ (∀ n, n ≠ c.gid → grp s' n = grp s n) ∧
      (k.spills = [] → s'.mem = s1.mem)
  returns (.sret w) none ∧ returns (.sretPass w) (c.g.trap.map (fun t => (t.pc, t.slot, t.split))) ∧
  (pre (.sret w) s = .go c → c.g.sys = false → closing s c.gid = false →
    exec (.sret w) s = .next (takeTrap s c.gid (infoAt 0x12#6 c.t c.act)))) ∧
  (∀ (w : FsWord) (s : State) (c : Go),
  let n := w.imm.toNat % 4
  let a := src2 c.g w.a 0
  (pre (.softwareTrap w) s = .go c → c.act = 0 → OnlyAdvances (.softwareTrap w) s c) ∧
  (pre (.softwareTrap w) s = .go c → c.act ≠ 0 → unchecked s c.gid = false → closing s c.gid = false →
    exec (.softwareTrap w) s = .next (takeTrap (commitWith s c.gid (ckptOf (retireGrp c.g c) c.sp)) c.gid
      { infoAt 0x31#6 c.t c.act with info := w.imm })) ∧
  (pre (.brkSet w) s = .go c → c.g.sys = true → a.toNat % 8 = 0 → ∃ s' g', exec (.brkSet w) s = .next s' ∧
    OnlyGroup (mapCtx s c.g.ctx (fun x => { x with brks := tabPut x.brks n { addr := a, slot := bits w.imm 2 2 } })) s' c.gid g' ∧
    tabFind g'.splits c.sp = some (nextSplit c c.t)) ∧
  (pre (.brkClr w) s = .go c → c.g.sys = true → ∃ s' g', exec (.brkClr w) s = .next s' ∧
    OnlyGroup (mapCtx s c.g.ctx (fun x => { x with brks := tabDel x.brks n })) s' c.gid g' ∧
    tabFind g'.splits c.sp = some (nextSplit c c.t)) ∧
  (pre (.brkSet w) s = .go c → c.g.sys = false → closing s c.gid = false →
    exec (.brkSet w) s = .next (takeTrap s c.gid (infoAt 0x12#6 c.t c.act))) ∧
  (pre (.brkClr w) s = .go c → c.g.sys = false → closing s c.gid = false →
    exec (.brkClr w) s = .next (takeTrap s c.gid (infoAt 0x12#6 c.t c.act))) ∧
  (pre (.brkSet w) s = .go c → c.g.sys = true → a.toNat % 8 ≠ 0 → closing s c.gid = false →
    exec (.brkSet w) s = .next (takeTrap s c.gid (infoAt 0x14#6 c.t c.act))))

/-- clk.rd reads CLK once the group has nothing in flight and its data are written: CLK then stands at or after the clk in which the data of
the group's latest lds are written, and a bracket opens (R353; how CLK passes is the model's choice, log entry 1); clk.until goes on when
CLK has reached its value, else sleeps until it has.

SPLIT_WAKE lets the word of a sleeping split go on when what it waits for holds, and only then, and the split is READY on its next word:
a barrier's phase has changed, a level is complete, a channel has room or a slot or is closed, granules are free. -/
def Obligations.ClocksAndSleepers : Prop :=
  (∀ (w : FrWord) (s : State) (c : Go) (l : Nat),
  (pre (.clkRd w) s = .go c → c.act = 0 → OnlyAdvances (.clkRd w) s c) ∧
  (pre (.clkRd w) s = .go c → c.act ≠ 0 → anyBusy c.g 0xFFF = true ∨ opsOf s c.gid ≠ [] →
    exec (.clkRd w) s = .next (holdSplit s c.gid c.sp)) ∧
  (pre (.clkRd w) s = .go c → c.act ≠ 0 → anyBusy c.g 0xFFF = false → opsOf s c.gid = [] →
    let now := clkMax s.clk c.g.dataAt
    ∃ s' g', exec (.clkRd w) s = .next s' ∧
      LaneEffect { s with clk := now } s' { c with g := { c.g with bracket := some (c.sp, clkAdd now 1) } } (.pair w.d) (fun _ => now)
        (fun _ => 0) g') ∧
  (pre (.clkUntil w) s = .go c → c.act = 0 → OnlyAdvances (.clkUntil w) s c) ∧
  (pre (.clkUntil w) s = .go c → lowBit c.act = some l → (src2 c.g w.a l).toNat ≤ s.clk.toNat → OnlyAdvances (.clkUntil w) s c) ∧
  (pre (.clkUntil w) s = .go c → lowBit c.act = some l → s.clk.toNat < (src2 c.g w.a l).toNat →
    exec (.clkUntil w) s = .next (sleepSplit s (.clkUntil w) c (.clk (src2 c.g w.a l)))) ∧
  (∀ gid sp g t v i m, grp s gid = some g → tabFind g.splits sp = some t → t.st = .asleep (.clk v) → t.sleeps = some (i, m) →
    (v.toNat ≤ s.clk.toNat → g.st = .running → ∃ s' g', exec (.clkUntilExpiry gid sp) s = .next s' ∧
      Retired s s' ⟨gid, sp, g, t, m, writtenBy i, globalWord i⟩ g' ∧
      g' = { g with splits := g'.splits, suppress := g'.suppress, written := g'.written }) ∧
    (s.clk.toNat < v.toNat → exec (.clkUntilExpiry gid sp) s = .next s))) ∧
  (∀ (s : State) (gid sp : Nat) (g : Group) (t : Split) (x : Sleep) (i : Instr) (m : Mask) (v : Level),
  grp s gid = some g → tabFind g.splits sp = some t → t.st = .asleep x → t.sleeps = some (i, m) →
  let c : Go := ⟨gid, sp, g, t, m, writtenBy i, globalWord i⟩
  let advances (s1 : State → State) : Prop := g.st = .running → ∃ s' g', exec (.splitWake gid sp) s = .next s' ∧ Retired (s1 s') s' c g' ∧
    g' = { g with splits := g'.splits, suppress := g'.suppress, written := g'.written }
  let closes (f : State → Group → Prop) : Prop := g.st = .running → unchecked s gid = false →
    ∃ s' g', exec (.splitWake gid sp) s = .next s' ∧ Closed s' c g' ∧ s'.mem = s.mem ∧ f s' g'
  let stays : Prop := exec (.splitWake gid sp) s = .next s
  (g.st ≠ .running → stays) ∧ (∀ e, x = .join e → stays) ∧
  (∀ k n w, x = .phase k n → i = .barSync w ∨ i = .barWait w → ((barOf (unitOf s g.uid) k).seq ≠ n → advances (fun _ => passBar s c w.barK)) ∧
    ((barOf (unitOf s g.uid) k).seq = n → stays)) ∧
  (∀ l u w, x = .count l → i = .cntWait w → tabFind s.levels l = some u →
    (u.done = true → advances (fun _ => childWaited s c l)) ∧ (u.done = false → stays)) ∧
  (∀ w, x = .room w.minor.toNat → i = .send w → tabFind s.levels g.lid = some v → let ch := chanOf s g.lid w.minor.toNat
    (ch.closed = false → ch.queue.length < ch.slots → accessPending s gid = false → closes (fun s' _ => chanOf s' g.lid w.minor.toNat =
      { ch with queue := ch.queue ++ [((List.range 16).map (fun l => regGet g w.d.toNat l), clockOf s gid)], wr := ch.wr + 1 })) ∧
    (ch.closed = false → ch.slots ≤ ch.queue.length ∨ accessPending s gid = true → stays) ∧
    (ch.closed = true → g.st = .running → closing s gid = false →
      exec (.splitWake gid sp) s = .next (takeTrap s gid (infoAt 0x38#6 t m)))) ∧
  (∀ w o y, x = .recv w.minor.toNat o → i = .recv w → tabFind s.levels g.lid = some v → tabFind s.ops o = some y → y.rel = false →
    let ch := chanOf s g.lid w.minor.toNat
    let left := ch.waiting.filter (fun k => k != o)
    (∀ ws r, ch.queue = ws :: r → ch.waiting.head? = some o → closes (fun s' _ =>
      chanOf s' g.lid w.minor.toNat = { ch with queue := r, rd := ch.rd + 1, waiting := left } ∧
      tabFind s'.ops o = some { y with engine := false, done := true, wrs := slotWrs w.d.toNat ws.1 })) ∧
    (ch.queue = [] → ch.closed = true → closes (fun s' _ => chanOf s' g.lid w.minor.toNat = { ch with waiting := left } ∧
      tabFind s'.ops o = some { y with engine := false, done := true, err := 0x38 })) ∧
    (ch.queue = [] → ch.closed = false → stays)) ∧
  (∀ w, let n := w.imm.toNat % 32
    x = .granules (g.w + n) → i = .claim w → g.w + n ≤ 24 → n ≤ (unitOf s g.uid).granules.getD g.quarter 0 - g.w →
    n ≤ freeGranules s g.uid g.quarter → closes (fun _ g' => g'.w = g.w + n ∧
      ∀ f l, f < 192 → l < 32 → regGet g' f l = if f < 8 * (g.w + n) then regGet g f l else 0)) ∧
  (∀ n, x = .granules n → g.w + freeGranules s g.uid g.quarter < n →
    (∀ q, q < 4 → q ≠ g.quarter → freeGranules s g.uid q < n) → stays))

/-! ### Memory and synchronisation -/

/-- ld, gather and gather.bnd: every active lane's access is in flight to its own address; with no active lane nothing is; an index at or
beyond gather.bnd's bound traps with INDEX_RANGE. An ld has the acquire role that R317 gives it: its own .acq, or the fences after it in its
clause, as far as their guards are settled when it issues (log entry 47).

st: every active lane's bytes are in flight to its own address; unless all its pages are group-private the store closes the region when
its checks are done; atom likewise, with each lane's operands; red has one access for each location that an active lane names, whose data are
those lanes' combined in increasing lane order. -/
def Obligations.GlobalAccesses : Prop :=
  (∀ (w : FmWord) (s : State) (c : Go) (pa : Nat → Nat) (pv : Nat → Bool),
  let n := 2 ^ w.size
  let issues (i : Instr) (role : Nat × List (Double × Nat)) (addr : Nat → Double) : Prop := pre i s = .go c → flagFull i c = false →
    (c.act = 0 → IssuesNothing i s c) ∧
    (c.act ≠ 0 → Reaches s c .read .read n addr pa pv →
      Issues i s c (withAcq { newOp i c with accs := (lanesOf c.act).map (laneAccess addr pa pv n false (fun _ => 0)) } role))
  let index (l : Nat) := (srcW c.g w.idx l).toNat
  issues (.ld w) (if w.mod = 2 then (5, []) else pairedAcq s c)
    (fun l => src2 c.g w.base l + (srcW c.g w.idx l).signExtend 64 + w.off.signExtend 64) ∧
  issues (.gather w) (0, []) (fun l => src2 c.g w.base l + BitVec.ofNat 64 (index l * n) + w.off.signExtend 64) ∧
  ((∀ l, l < 32 → c.act.getLsbD l = true → index l < w.off.toNat) →
    issues (.gatherBnd w) (0, []) (fun l => src2 c.g w.base l + BitVec.ofNat 64 (index l * n) + 0)) ∧
  (∀ k, pre (.gatherBnd w) s = .go c → flagFull (.gatherBnd w) c = false → closing s c.gid = false → lowBit c.act = some k →
    (src2 c.g w.base k + BitVec.ofNat 64 (index k * n) + 0).toNat % n = 0 → w.off.toNat ≤ index k →
    ∃ m fa, exec (.gatherBnd w) s = .next (takeTrap s c.gid { infoAt 0x16#6 c.t c.act with flanes := m, faddr := some fa }) ∧
      m.getLsbD k = true)) ∧
  (∀ (w : FmWord) (s : State) (c : Go) (pa : Nat → Nat) (pv : Nat → Bool),
  let n := 2 ^ w.size
  let m := w.minor.toNat
  let addr (l : Nat) := src2 c.g w.base l + (srcW c.g w.idx l).signExtend 64 + w.off.signExtend 64
  let flat (l : Nat) := src2 c.g w.base l + 0 + w.off.signExtend 64
  let sc := if w.mod = 2 then 5 else c.t.relScope
  let stored : Op := { newOp (.st w) c with
    accs := (lanesOf c.act).map (laneAccess addr pa pv n true (fun l => ofBytes 128 (dataOf c.g w.d.toNat n l))), rel := decide (sc ≠ 0),
    relS := sc }
  -- the data of the lanes of a red that name one location
  let joined (ls : List Nat) : BitVec 128 := match ls with
    | [] => 0
    | l :: r => r.foldl (fun d k => (atomNew m (bits d 0 64) (bits (atomData c.g m w.d.toNat k) 0 64) 0).setWidth 128) (atomData c.g m w.d.toNat l)
  (pre (.st w) s = .go c → flagFull (.st w) c = false → c.act = 0 → IssuesNothing (.st w) s c) ∧
  (pre (.st w) s = .go c → flagFull (.st w) c = false → c.act ≠ 0 → Reaches s c .write .write n addr pa pv →
    (∀ l, l < 32 → c.act.getLsbD l = true → pv l = true) → Issues (.st w) s c stored) ∧
  (pre (.st w) s = .go c → flagFull (.st w) c = false → c.act ≠ 0 → Reaches s c .write .write n addr pa pv →
    (∃ l, l < 32 ∧ c.act.getLsbD l = true ∧ pv l = false) → unchecked s c.gid = false → IssuesCloser (.st w) s c stored) ∧
  (pre (.atom w) s = .go c → flagFull (.atom w) c = false → c.act = 0 → IssuesNothing (.atom w) s c) ∧
  (pre (.atom w) s = .go c → flagFull (.atom w) c = false → c.act ≠ 0 → Reaches s c .both .both (atomSize m) flat pa pv →
    unchecked s c.gid = false → IssuesCloser (.atom w) s c (withAcq { newOp (.atom w) c with
      rel := decide (c.t.relScope ≠ 0), relS := c.t.relScope,
      accs := (lanesOf c.act).map (laneAccess flat pa pv (atomSize m) true (atomData c.g m w.idx.toNat)) } (pairedAcq s c))) ∧
  (pre (.red w) s = .go c → flagFull (.red w) c = false → c.act = 0 → IssuesNothing (.red w) s c) ∧
  (pre (.red w) s = .go c → flagFull (.red w) c = false → c.act ≠ 0 → Reaches s c .both .write (atomSize m) addr pa pv →
    unchecked s c.gid = false → ∃ accs, IssuesCloser (.red w) s c { newOp (.red w) c with accs := accs } ∧
      (∀ l, l < 32 → c.act.getLsbD l = true → ∃ a, a ∈ accs ∧ a.pa = pa l ∧ l ∈ a.lanes) ∧
      (∀ a b, a ∈ accs → b ∈ accs → a.pa = b.pa → a = b) ∧
      (∀ a, a ∈ accs → ∃ l, l < 32 ∧ c.act.getLsbD l = true ∧ (let ls := (lanesOf c.act).filter (fun k => pa k == pa l)
        ls.head? = some l ∧ a = { laneAccess addr pa pv (atomSize m) true (fun _ => 0) l with lanes := ls, data := [joined ls] }))))

/-- lds and sts: each active lane reads or writes the bytes of its own place at issue; of two lanes that write one byte the higher stands;
sts closes the region; no byte of global memory changes.

ldv and stv: the vault's bytes are read, or written, at issue; the registers of ldv are written when its operation completes; stv closes
the region.

atoms: the lanes that name one location act on it one after another in increasing lane order; each gets the value before its own step.

That a vault's access acts at issue is the model's choice (log entry 43), as is when an lds writes its data where a lane reads another unit's
(log entry 1). -/
def Obligations.ScratchpadAndVault : Prop :=
  (∀ (w : FmWord) (s : State) (c : Go) (uid off : Nat → Nat),
  let n := 2 ^ w.size
  let addr (l : Nat) := src2 c.g w.base l + (srcW c.g w.idx l).signExtend 64 + w.off.signExtend 64
  Holds s c false n addr uid off →
  (pre (.lds w) s = .go c → mustWait s c.gid false (w.mod == 2) = false → ∃ s' g', exec (.lds w) s = .next s' ∧ grp s' c.gid = some g' ∧
    s' = { s with groups := s'.groups, ops := s'.ops, sync := s'.sync, changes := s'.changes, cur := none } ∧
    BracketsMayEnd s s' c.gid ∧ ClocksMayJoin s s' ∧ (w.mod ≠ 2 → s.rels = [] → s'.ops = s.ops ∧ s'.sync = s.sync) ∧
    tabFind g'.splits c.sp = some (nextSplit c c.t) ∧ (∀ k, k ≠ c.sp → tabFind g'.splits k = tabFind c.g.splits k) ∧ g'.suppress = passedAt c ∧
    (∀ f l, f < 256 → l < 32 → regGet g' f l = loadedAfter c w.d.toNat n (fun k => spaceBytes s false (uid k) (off k) n) f l) ∧
    g'.dataAt = clkMax c.g.dataAt (clkAdd s.clk (BitVec.ofNat 64 (23 + passesOf s n ((lanesOf c.act).map (fun l => ⟨l, uid l, off l⟩))))) ∧
    g' = { c.g with v := g'.v, s := g'.s, splits := g'.splits, suppress := g'.suppress, written := g'.written, dataAt := g'.dataAt,
                    bracket := g'.bracket }) ∧
  (pre (.sts w) s = .go c → c.act = 0 → OnlyAdvances (.sts w) s c) ∧
  (pre (.sts w) s = .go c → c.act ≠ 0 → mustWait s c.gid (w.mod == 2) false = false → unchecked s c.gid = false → ∃ s' g',
    exec (.sts w) s = .next s' ∧ Closed s' c g' ∧
    (∀ l i, l < 32 → c.act.getLsbD l = true → i < n → lastWriter c n uid off l i →
      spaceByte s' false (uid l) (off l + i) = (dataOf c.g w.d.toNat n l).getD i 0) ∧
    (∀ u o, (∀ l, l < 32 → c.act.getLsbD l = true → u = uid l → o < off l ∨ off l + n ≤ o) →
      spaceByte s' false u o = spaceByte s false u o) ∧
    (∀ a, memByte s'.mem a = memByte s.mem a) ∧ g'.v = c.g.v ∧ g'.s = c.g.s ∧ g'.p = c.g.p)) ∧
  (∀ (w : FmWord) (s : State) (c : Go) (uid off : Nat → Nat),
  let n := 2 ^ w.size
  let addr (l : Nat) := src2 c.g w.base l + (srcW c.g w.idx l).signExtend 64 + w.off.signExtend 64
  Holds s c true n addr uid off →
  (∀ l, l < 32 → c.act.getLsbD l = true → pendingCast s c.gid (uid l) (off l) n = false) →
  (pre (.ldv w) s = .go c → flagFull (.ldv w) c = false → mustWait s c.gid false (w.mod == 2) = false → c.act = 0 →
    IssuesNothing (.ldv w) s c) ∧
  (pre (.ldv w) s = .go c → flagFull (.ldv w) c = false → mustWait s c.gid false (w.mod == 2) = false → c.act ≠ 0 → ∃ t s' g',
    exec (.ldv w) s = .next s' ∧ s' = { t with flits := s'.flits, nextId := s'.nextId } ∧
    ((∀ l, l < 32 → c.act.getLsbD l = true → uid l = c.g.uid) → s' = t) ∧
    InFlight (spaceAcquire (vaultSync s c w) c true (w.mod == 2) n ((lanesOf c.act).map (fun l => ⟨l, uid l, off l⟩))) t c (.ldv w) { newOp (.ldv w) c with
      done := true, wrs := loadWrs w.d.toNat n ((lanesOf c.act).map (fun l => (l, spaceBytes s true (uid l) (off l) n))) } g') ∧
  (pre (.stv w) s = .go c → flagFull (.stv w) c = false → mustWait s c.gid (w.mod == 2) false = false → unchecked s c.gid = false →
    c.act = 0 → IssuesNothing (.stv w) s c) ∧
  (pre (.stv w) s = .go c → flagFull (.stv w) c = false → mustWait s c.gid (w.mod == 2) false = false → unchecked s c.gid = false →
    c.act ≠ 0 → ∃ s' g',
    exec (.stv w) s = .next s' ∧ grp s' c.gid = some g' ∧ g'.ckpt = ckptOf g' c.sp ∧ g'.epoch = c.g.epoch + 1 ∧
    tabFind s'.ops s.nextId = some { newOp (.stv w) c with
      done := true, epoch := issueEpoch s c.g c.gid, no := (syncOf s c.gid).no + (if w.mod = 2 then 1 else 0) } ∧
    (∀ l i, l < 32 → c.act.getLsbD l = true → i < n → lastWriter c n uid off l i →
      spaceByte s' true (uid l) (off l + i) = (dataOf c.g w.d.toNat n l).getD i 0) ∧
    (∀ u o, (∀ l, l < 32 → c.act.getLsbD l = true → u = uid l → o < off l ∨ off l + n ≤ o) →
      spaceByte s' true u o = spaceByte s true u o) ∧
    (∀ a, memByte s'.mem a = memByte s.mem a) ∧ g'.v = c.g.v ∧ g'.s = c.g.s ∧ g'.p = c.g.p)) ∧
  (∀ (w : FmWord) (s : State) (c : Go) (uid off : Nat → Nat),
  let m := w.minor.toNat
  let n := atomSize m
  let addr (l : Nat) := src2 c.g w.base l + 0 + w.off.signExtend 64
  let one (v : Double) (k : Nat) : Double := ofBytes 64 (bytesOf n (atomStep m v (atomData c.g m w.idx.toNat k)))
  let chain (l : Nat) (p : Nat → Bool) : Double :=
    ((lanesOf c.act).filter (fun k => p k && uid k == uid l && off k == off l)).foldl one (ofBytes 64 (spaceBytes s false (uid l) (off l) n))
  Holds s c false n addr uid off → (∀ l k, l < 32 → k < 32 → c.act.getLsbD l = true → c.act.getLsbD k = true → uid l = uid k →
    off l = off k ∨ off l + n ≤ off k ∨ off k + n ≤ off l) →
  (pre (.atoms w) s = .go c → c.act = 0 → OnlyAdvances (.atoms w) s c) ∧
  (pre (.atoms w) s = .go c → c.act ≠ 0 → mustWait s c.gid false false = false → unchecked s c.gid = false → ∃ s' g',
    exec (.atoms w) s = .next s' ∧ Closed s' c g' ∧
    (∀ l, l < 32 → c.act.getLsbD l = true → ofBytes 64 (spaceBytes s' false (uid l) (off l) n) = chain l (fun _ => true)) ∧
    (w.d = 0xFF → g'.v = c.g.v ∧ g'.s = c.g.s) ∧
    (w.d ≠ 0xFF → ∀ f l, f < 256 → l < 32 →
      regGet g' f l = loadedAfter c w.d.toNat n (fun l => bytesOf n (chain l (fun k => decide (k < l)))) f l) ∧
    (∀ a, memByte s'.mem a = memByte s.mem a)))

/-- HOME_SLICE_ACCESS performs a load, a store or an atomic whose checks pass: a load returns what memory holds and changes none
of it; a store writes exactly its bytes; an atomic returns the old value and stores its function of old and operand.

TROUGH_MERGE leaves memory as it is and holds the addend of an additive reduction for its location, added to the partial sum of its type
that stands there; a partial of another type that shares its bytes is folded into memory first. BTE_COMMAND queues the job a store to a channel
names, or records an error when the handle is out of range.

FLAG_COMPLETION: a performed operation without error writes its registers, releases its flag and is forgotten; one with an error writes
none and leaves its cause in the flag, unless a cause stands there already.

That all accesses of an operation are performed in one step is the model's choice (log entry 42). -/
def Obligations.OperationsPerform : Prop :=
  (∀ (s : State) (oid : Nat) (o : Op) (g : Group),
  tabFind s.keys oid = none → tabFind s.ops oid = some o → mayPerform s oid o = true → grp s o.gid = some g → Clear s →
  (∀ a, a ∈ o.accs → backed s a.pa = true ∧ inAperture a.pa = false) →
  (∀ w, o.instr = .ld w ∨ o.instr = .gather w ∨ o.instr = .gatherBnd w → o.closer = none →
    let r := loadWrs w.d.toNat (2 ^ w.size) (o.accs.flatMap (fun a => a.lanes.map (fun l => (l, physRead s a.pa a.n))))
    ∃ s' k, exec (.homeSliceAccess oid) s = .next s' ∧ s'.mem = s.mem ∧ s'.groups = s.groups ∧
      tabFind s'.ops oid = some { o with done := true, accs := [], wrs := o.wrs ++ r, clock := k }) ∧
  (∀ w a, o.instr = .st w → o.accs = [a] → ∃ s' o', exec (.homeSliceAccess oid) s = .next s' ∧
    (∀ k, memByte s'.mem k = if a.pa ≤ k ∧ k < a.pa + a.n then (bytesOf a.n (a.data.headD 0)).getD (k - a.pa) 0 else memByte s.mem k) ∧
    tabFind s'.ops oid = some o' ∧ o'.done = true ∧ o'.wrs = o.wrs) ∧
  (∀ w, o.instr = .st w → ∃ s', exec (.homeSliceAccess oid) s = .next s' ∧
    ∀ k, (∀ a, a ∈ o.accs → k < a.pa ∨ a.pa + a.n ≤ k) → memByte s'.mem k = memByte s.mem k) ∧
  (∀ w a l, o.instr = .atom w → merging o.instr = false → o.accs = [a] → a.lanes = [l] → a.n = atomSize w.minor.toNat →
    ∃ s' o', exec (.homeSliceAccess oid) s = .next s' ∧
      (∀ k, memByte s'.mem k = if a.pa ≤ k ∧ k < a.pa + a.n then
        (bytesOf a.n (atomStep w.minor.toNat (ofBytes 64 (physRead s a.pa a.n)) (a.data.headD 0))).getD (k - a.pa) 0 else memByte s.mem k) ∧
      tabFind s'.ops oid = some o' ∧ o'.done = true ∧
      (w.d ≠ 0xFF → o'.wrs = o.wrs ++ loadWrs w.d.toNat a.n [(l, physRead s a.pa a.n)]))) ∧
  (∀ (s : State) (oid : Nat) (o : Op) (g : Group) (a : Access) (w : FmWord),
  tabFind s.ops oid = some o → mayPerform s oid o = true → grp s o.gid = some g → Clear s → o.accs = [a] →
  (o.instr = .red w → w.minor.toNat ≤ 2 → backed s a.pa = true → inAperture a.pa = false → a.lanes ≠ [] →
    ∃ s' e, exec (.troughMerge oid) s = .next s' ∧ s'.mem = s.mem ∧ tabFind s'.trough (lineOf a.pa) = some e ∧
      tabFind e.words (a.pa % 128) = some (troughTyOf w.minor.toNat, bits (a.data.headD 0) 0 64)) ∧
  (o.instr = .st w → a.write = true → inAperture a.pa = true → bteOff a.pa = 0 → a.n = 8 → bteFull s o = false →
    let d := (bits (a.data.headD 0) 0 64 : Double).toNat
    ∃ s', exec (.bteCommand oid) s = .next s' ∧ s'.mem = s.mem ∧
      (d < 4096 → (bteOf s' (bteChan a.pa)).accepted = (bteOf s (bteChan a.pa)).accepted + 1 ∧
        (bteOf s' (bteChan a.pa)).queue = (bteOf s (bteChan a.pa)).queue ++ [s.nextId] ∧
        ∃ j, tabFind s'.jobs s.nextId = some j ∧ j.kind = .bte (bteChan a.pa) d ∧ j.gid = o.gid) ∧
      (4096 ≤ d → (bteOf s' (bteChan a.pa)).err = true ∧ (bteOf s' (bteChan a.pa)).queue = (bteOf s (bteChan a.pa)).queue))) ∧
  (∀ (s : State) (oid : Nat) (o : Op) (g : Group) (a : Access) (w : FmWord) (e : TroughEntry),
  let ty := troughTyOf w.minor.toNat
  let x : Double := bits (a.data.headD 0) 0 64
  let off := a.pa % 128
  let line := lineOf a.pa
  tabFind s.ops oid = some o → mayPerform s oid o = true → grp s o.gid = some g → o.accs = [a] → o.instr = .red w → w.minor.toNat ≤ 2 →
  a.lanes ≠ [] → backed s a.pa = true → inAperture a.pa = false → s.races = [] → s.scopes = [] → s.poison = [] → s.t2down = [] →
  walkFold s (whoOf g) a.va = s → tabFind s.trough line = some e →
  (∀ p, tabFind e.words off = some (ty, p) →
    (∀ y, y ∈ e.words → y = (off, ty, p) ∨ y.1 + troughSize y.2.1 ≤ off ∨ off + troughSize ty ≤ y.1) →
    ∃ s' e', exec (.troughMerge oid) s = .next s' ∧ s'.mem = s.mem ∧ tabFind s'.trough line = some e' ∧
      tabFind e'.words off = some (ty, troughAdd ty p x) ∧ ∀ k, k ≠ off → tabFind e'.words k = tabFind e.words k) ∧
  (∀ y : Nat × TroughTy × Double, e.words = [y] → y.2.1 ≠ ty → y.1 < off + troughSize ty → off < y.1 + troughSize y.2.1 →
    let at_ := 128 * line + y.1
    let n := troughSize y.2.1
    backed s at_ = true → inAperture at_ = false →
    ∃ s' e', exec (.troughMerge oid) s = .next s' ∧ tabFind s'.trough line = some e' ∧ e'.words = [(off, ty, x)] ∧
      ∀ k, memByte s'.mem k = if at_ ≤ k ∧ k < at_ + n then
        (bytesOf n (troughAdd y.2.1 (BitVec.ofNat 64 (physNat s at_ n)) y.2.2)).getD (k - at_) 0 else memByte s.mem k)) ∧
  (∀ (s : State) (oid : Nat) (o : Op) (g : Group) (f : Nat),
  tabFind s.ops oid = some o → o.done = true → o.engine = false → grp s o.gid = some g →
  (∀ w, g.st ≠ .stopping w) → o.flag = some f → o.flag2 = none → o.batch = none →
  ∃ s' g', exec (.flagCompletion oid) s = .next s' ∧ grp s' o.gid = some g' ∧ tabFind s'.ops oid = none ∧
    (∀ k, k ≠ oid → tabFind s'.ops k = tabFind s.ops k) ∧ (∀ k, k ≠ o.gid → grp s' k = grp s k) ∧ s'.mem = s.mem ∧
    s'.changes = s.changes + 1 ∧ (∀ k, k ≠ f → flagOf g' k = flagOf g k) ∧ g'.p = g.p ∧ g'.splits = g.splits ∧
    (o.err = 0 → flagOf g' f = { flagOf g f with cnt := (flagOf g f).cnt - 1 } ∧
      (∀ n l, l < 32 → (∀ x, x ∈ o.wrs → x.f ≠ n ∧ x.lane < 32) → regGet g' n l = regGet g n l) ∧
      (∀ x, o.wrs = [x] → x.f < 192 ∨ (x.f < 255 ∧ lowBit o.act = some x.lane) → x.lane < 32 → regGet g' x.f x.lane = x.v)) ∧
    (o.err ≠ 0 → (flagOf g' f).cnt = (flagOf g f).cnt - 1 ∧ (flagOf g' f).err = true ∧
      ((flagOf g f).err = false → (flagOf g' f).cause = o.err) ∧ ((flagOf g f).err = true → (flagOf g' f).cause = (flagOf g f).cause) ∧
      (writesAnyway o.instr = false → g'.v = g.v ∧ g'.s = g.s)))

/-- ldc gives every active lane the value at the lowest active lane's address, as the core's constant cache holds the line or else as memory
holds it; .pf does nothing; .wb folds and writes back the line of every active lane, and .evict evicts it, so that no partial sum of it, and for
.evict no record, is left; .cinv empties the core's constant cache. Each completes with its flag counted and no register of the group changed
at issue; where no partial sum is held no byte of memory changes. -/
def Obligations.ConstantLoadsAndCaches : Prop :=
  ∀ (w : FmWord) (s : State) (c : Go) (k q : Nat) (p : Bool)
    (pa : Nat → Nat) (pv : Nat → Bool),
  let n := 2 ^ w.size
  let flat := src2 c.g w.base k + 0 + w.off.signExtend 64
  let addr (l : Nat) := src2 c.g w.base l + (srcW c.g w.idx l).signExtend 64 + w.off.signExtend 64
  (pre (.ldc w) s = .go c → flagFull (.ldc w) c = false → mustWait s c.gid false false = false → c.act = 0 → IssuesNothing (.ldc w) s c) ∧
  (pre (.ldc w) s = .go c → flagFull (.ldc w) c = false → mustWait s c.gid false false = false → lowBit c.act = some k →
    flat.toNat % n = 0 → translate s (whoOf c.g) .read flat = .ok q p → (∀ j, j < 2 → watchMatch (ctxOf s c.g.ctx) j .read n flat = false) →
    isPoison s .mem 0 q n = false →
    let r := ccRead (countUnbacked (walkFold s (whoOf c.g) flat) q n) c.g.core c.g.lid q n
    IssuesFrom (.ldc w) s r.2 c { newOp (.ldc w) c with
      done := true, wrs := loadWrs w.d.toNat n ((lanesOf c.act).map (fun l => (l, r.1))) } ∧
    (s.trough = [] → r.2.mem = s.mem ∧ r.2.groups = s.groups ∧
      (q % n = 0 → ccFind s c.g.core c.g.lid (lineOf q) = none → r.1 = physRead s q n) ∧
      (q % n = 0 → ∀ bs, ccFind s c.g.core c.g.lid (lineOf q) = some bs → r.1 = physRead s q n ∨ r.1 = (bs.drop (q % 128)).take n))) ∧
  (pre (.cachectlPf w) s = .go c → flagFull (.cachectlPf w) c = false → IssuesNothing (.cachectlPf w) s c) ∧
  (pre (.cachectlWb w) s = .go c → flagFull (.cachectlWb w) c = false → c.act ≠ 0 → Reaches s c .read .fetch 1 addr pa pv →
    let s1 := (lanesOf c.act).foldl (fun s l => writeBackLine s (lineOf (pa l))) s
    IssuesFrom (.cachectlWb w) s s1 c { newOp (.cachectlWb w) c with done := true } ∧ s1.groups = s.groups ∧
      (∀ l, l < 32 → c.act.getLsbD l = true → tabFind s1.trough (lineOf (pa l)) = none) ∧ (s.trough = [] → s1.mem = s.mem)) ∧
  (pre (.cachectlEvict w) s = .go c → flagFull (.cachectlEvict w) c = false → c.act ≠ 0 → Reaches s c .read .fetch 1 addr pa pv →
    let s1 := (lanesOf c.act).foldl (fun s l => evictLine s (lineOf (pa l))) s
    IssuesFrom (.cachectlEvict w) s s1 c { newOp (.cachectlEvict w) c with done := true } ∧ s1.groups = s.groups ∧
      (∀ l, l < 32 → c.act.getLsbD l = true → tabFind s1.trough (lineOf (pa l)) = none ∧ tabFind s1.races (lineOf (pa l)) = none ∧
        tabFind s1.scopes (lineOf (pa l)) = none) ∧ (s.trough = [] → s1.mem = s.mem)) ∧
  (pre (.cachectlWb w) s = .go c → flagFull (.cachectlWb w) c = false → c.act = 0 → IssuesNothing (.cachectlWb w) s c) ∧
  (pre (.cachectlEvict w) s = .go c → flagFull (.cachectlEvict w) c = false → c.act = 0 → IssuesNothing (.cachectlEvict w) s c) ∧
  (pre (.cachectlCinv w) s = .go c → flagFull (.cachectlCinv w) c = false → c.act ≠ 0 →
    IssuesFrom (.cachectlCinv w) s (mapCore s c.g.core (fun k => { k with cc := [] })) c { newOp (.cachectlCinv w) c with done := true, dst := [] }) ∧
  (pre (.cachectlCinv w) s = .go c → flagFull (.cachectlCinv w) c = false → c.act = 0 → IssuesNothing (.cachectlCinv w) s c)

/-- bar.sync, bar.arrive, bar.wait, bar.init and bar.rows: arrivals are counted per group; the phase changes with the last participant's
arrival; a sync that is not the last sleeps; arriving twice traps; the other barriers of the unit and all of memory stay as they are.

fwait and bwait go on when what they name is complete without error, hold the split while it is not, and trap with a recorded cause; a batch
whose cause bwait reports is then without error.

fence waits for the accesses it orders and, unless it is a release, holds the group's later accesses behind those in flight, those of skey and
vbuf among them (DEDUCED, log entry 96); it decides the acquire role of the loads and atoms before it in its clause (R317).

cpybatch closes the open batch under the next number, returns the number and closes the region; rflush drops the layout record from every
record cache, and traps for a handle beyond 4095. -/
def Obligations.BarriersAndBatches : Prop :=
  (∀ (w : FiWord) (s : State) (c : Go) (u : UnitS),
  let k := w.imm.toNat % 16
  let b := barOf (unitOf s c.g.uid) k
  let one (s' : State) (x : Barrier) : Prop := barOf (unitOf s' c.g.uid) k = x ∧ s'.mem = s.mem ∧
    ∀ j, j ≠ k → barOf (unitOf s' c.g.uid) j = barOf (unitOf s c.g.uid) j
  let may : Prop := c.act ≠ 0 ∧ c.g.splits.length ≤ 1 ∧ bit b.arrived c.g.index = false ∧ b.rowMode = false ∧ accessPending s c.gid = false
  let acc := joinClock b.acc (clockOf s c.gid)
  let more : Barrier := { b with arrived := setBit b.arrived c.g.index true, count := b.count + 1, acc := acc }
  let next : Barrier := { b with seq := b.seq + 1, arrived := 0, count := 0, acc := [], out := joinClock b.out acc }
  tabFind s.units c.g.uid = some u →
  (pre (.barSync w) s = .go c → c.act = 0 → OnlyAdvances (.barSync w) s c) ∧
  (pre (.barSync w) s = .go c → may → c.t.waitHalf = false → b.count + 1 = b.part → ∃ s' g', exec (.barSync w) s = .next s' ∧ one s' next ∧
    grp s' c.gid = some g' ∧ tabFind g'.splits c.sp = some (nextSplit c c.t) ∧ g'.v = c.g.v ∧ g'.s = c.g.s ∧ g'.p = c.g.p) ∧
  (pre (.barSync w) s = .go c → may → c.t.waitHalf = false → b.count + 1 ≠ b.part → ∃ s' g', exec (.barSync w) s = .next s' ∧ one s' more ∧
    grp s' c.gid = some g' ∧
    tabFind g'.splits c.sp = some { c.t with waitHalf := true, st := .asleep (.phase k b.seq), sleeps := some (.barSync w, c.act) } ∧
    g'.v = c.g.v ∧ g'.s = c.g.s ∧ g'.p = c.g.p) ∧
  (pre (.barArrive w) s = .go c → c.act = 0 → OnlyAdvances (.barArrive w) s c) ∧
  (pre (.barArrive w) s = .go c → may → ∃ s' g', exec (.barArrive w) s = .next s' ∧ Closed s' c g' ∧
    one s' (if b.count + 1 = b.part then next else more) ∧ g'.v = c.g.v ∧ g'.s = c.g.s ∧ g'.p = c.g.p) ∧
  (pre (.barArrive w) s = .go c → c.act ≠ 0 → closing s c.gid = false → bit b.arrived c.g.index = true ∨ b.rowMode = true →
    exec (.barArrive w) s = .next (takeTrap s c.gid (infoAt 0x3A#6 c.t c.act))) ∧
  (pre (.barWait w) s = .go c → c.act = 0 → OnlyAdvances (.barWait w) s c) ∧
  (pre (.barWait w) s = .go c → c.act ≠ 0 → (b.rowMode = false ∧ bit b.arrived c.g.index = false) ∨
    (b.rowMode = true ∧ b.complete = true) → AdvancesFrom (.barWait w) s (learnNow s c.gid b.out) c) ∧
  (pre (.barWait w) s = .go c → c.act ≠ 0 → (b.rowMode = false ∧ bit b.arrived c.g.index = true) ∨
    (b.rowMode = true ∧ b.complete = false) → exec (.barWait w) s = .next (sleepSplit s (.barWait w) c (.phase k b.seq))) ∧
  (pre (.barInit w) s = .go c → c.act = 0 → OnlyAdvances (.barInit w) s c) ∧
  (pre (.barInit w) s = .go c → c.act ≠ 0 → b.count = 0 → w.imm.toNat / 256 % 32 + 1 ≤ u.left →
    (b.rowMode = true → b.armed = true → b.complete = true) → unchecked s c.gid = false → ∃ s' g', exec (.barInit w) s = .next s' ∧
    Closed s' c g' ∧ one s' { part := w.imm.toNat / 256 % 32 + 1, seq := b.seq }) ∧
  (pre (.barRows w) s = .go c → c.act = 0 → OnlyAdvances (.barRows w) s c) ∧
  (pre (.barRows w) s = .go c → c.act ≠ 0 → (b.rowMode = false → b.count = 0) → (b.rowMode = true → b.armed = true → b.complete = true) →
    unchecked s c.gid = false → ∃ s' g', exec (.barRows w) s = .next s' ∧ Closed s' c g' ∧
    one s' { part := b.part, seq := b.seq, rowMode := true, armed := true, rows := w.imm.toNat / 65536 })) ∧
  (∀ (w : FiWord) (s : State) (c : Go) (l : Nat),
  let m : BitVec 12 := bits w.imm 0 12
  let b := srcW c.g w.a l + w.imm
  (pre (.fwait w) s = .go c → c.act = 0 → OnlyAdvances (.fwait w) s c) ∧
  (pre (.fwait w) s = .go c → (∀ i, i < 12 → bit m i = true → (flagOf c.g i).cnt = 0 ∧ (flagOf c.g i).err = false) → OnlyAdvances (.fwait w) s c) ∧
  (pre (.fwait w) s = .go c → c.act ≠ 0 → (∃ i, i < 12 ∧ bit m i = true ∧ (flagOf c.g i).cnt ≠ 0) →
    rayPage s (whoOf c.g) c.gid m = none → exec (.fwait w) s = .next (holdSplit s c.gid c.sp)) ∧
  (∀ f, pre (.fwait w) s = .go c → c.act ≠ 0 → (∀ i, i < 12 → bit m i = true → (flagOf c.g i).cnt = 0) →
    (f < 12 ∧ bit m f = true ∧ (flagOf c.g f).err = true) → (∀ i, i < f → bit m i = true → (flagOf c.g i).err = false) →
    closing s c.gid = false → exec (.fwait w) s = .next (takeTrap s c.gid
      { infoAt (flagOf c.g f).cause c.t c.act with info := 0x8000#16 ||| BitVec.ofNat 16 f })) ∧
  (pre (.bwait w) s = .go c → c.act = 0 → OnlyAdvances (.bwait w) s c) ∧
  (pre (.bwait w) s = .go c → lowBit c.act = some l → b = 0 → OnlyAdvances (.bwait w) s c) ∧
  (pre (.bwait w) s = .go c → lowBit c.act = some l → b ≠ 0 → (c.g.bseq - b).toNat < 2 ^ 31 →
    (∀ e, e ∈ c.g.batches → e.2.pend = 0 ∧ e.2.err = false) → OnlyAdvances (.bwait w) s c) ∧
  (pre (.bwait w) s = .go c → lowBit c.act = some l → b ≠ 0 → 2 ^ 31 ≤ (c.g.bseq - b).toNat → closing s c.gid = false →
    exec (.bwait w) s = .next (takeTrap s c.gid (infoAt 0x15#6 c.t c.act))) ∧
  (∀ e, pre (.bwait w) s = .go c → lowBit c.act = some l → b ≠ 0 → (c.g.bseq - b).toNat < 2 ^ 31 →
    e ∈ batchesTo c.g b → e.2.pend ≠ 0 → exec (.bwait w) s = .next (holdSplit s c.gid c.sp)) ∧
  (∀ n x, pre (.bwait w) s = .go c → lowBit c.act = some l → b ≠ 0 → (c.g.bseq - b).toNat < 2 ^ 31 →
    (∀ e, e ∈ batchesTo c.g b → e.2.pend = 0) → (batchesTo c.g b).find? (fun e => e.2.err) = some (n, x) → closing s c.gid = false →
    exec (.bwait w) s = .next (takeTrap
      (mapGrp s c.gid (fun g => { g with batches := tabMap g.batches n.toNat (fun y => { y with err := false, cause := 0 }) }))
      c.gid { infoAt x.cause c.t c.act with info := 0xC000#16 ||| BitVec.ofNat 16 (n.toNat % 16) }))) ∧
  (∀ (f : FsWord) (s : State) (c : Go),
  let s1 := { s with ops := s.ops.map (fun e => (e.1, fenceDecides c.t.pc c.t.hdr c.gid c.sp (c.act != 0) e.2)) }
  (pre (.fence f) s = .go c → c.act = 0 → AdvancesFrom (.fence f) s s1 c) ∧
  (pre (.fence f) s = .go c → c.act ≠ 0 → fenceKind f = 1 ∨ accessPending s c.gid = false →
    ∃ s' g', exec (.fence f) s = .next s' ∧ grp s' c.gid = some g' ∧ s'.mem = s.mem ∧ g'.v = c.g.v ∧ g'.s = c.g.s ∧ g'.p = c.g.p ∧
      g'.flags = c.g.flags ∧ tabFind g'.splits c.sp = some { nextSplit c c.t with
        relScope := if fenceKind f = 1 then c.t.relScope else max c.t.relScope (fenceScope f) } ∧
      (fenceKind f ≠ 2 → ∀ k o, tabFind s'.ops k = some o → o.gid = c.gid → fenced o.instr = true → o.acq = true) ∧
      (fenceKind f = 2 → s'.ops = s1.ops)) ∧
  (pre (.fence f) s = .go c → c.act ≠ 0 → fenceKind f ≠ 1 → accessPending s c.gid = true →
    exec (.fence f) s = .next (holdSplit s1 c.gid c.sp))) ∧
  (∀ (w : FiWord) (s : State) (c : Go) (l : Nat),
  let n : Word := if c.g.bseq + 1 = 0 then 1 else c.g.bseq + 1
  let h := (srcW c.g w.a l + w.imm).toNat
  (pre (.cpybatch w) s = .go c → c.act = 0 → OnlyAdvances (.cpybatch w) s c) ∧
  (pre (.cpybatch w) s = .go c → c.act ≠ 0 → (c.g.batches.filter (fun b => b.2.pend != 0)).length < 16 → unchecked s c.gid = false →
    ∃ s' g', exec (.cpybatch w) s = .next s' ∧ Closed s' c g' ∧ g'.bseq = n ∧ s'.mem = s.mem ∧ g'.p = c.g.p ∧
      tabFind g'.batches n.toNat = some { c.g.openBatch with num := n } ∧ g'.openBatch.pend = 0 ∧ g'.openBatch.err = false ∧
      ∀ f l, f < 256 → l < 32 → regGet g' f l = written c w.d.toNat (fun _ => n) f l) ∧
  (pre (.rflush w) s = .go c → flagFull (.rflush w) c = false → c.act = 0 → IssuesNothing (.rflush w) s c) ∧
  (pre (.rflush w) s = .go c → flagFull (.rflush w) c = false → lowBit c.act = some l → h < 4096 → accessPending s c.gid = false →
    ∃ s1, IssuesFrom (.rflush w) s s1 c { newOp (.rflush w) c with done := true } ∧ s1.mem = s.mem ∧ s1.groups = s.groups ∧
      (∀ d, d < 2 → tabFind s1.recs ((c.g.ctx * 4096 + h) * 2 + d) = none) ∧
      (∀ k, k / 2 ≠ c.g.ctx * 4096 + h → tabFind s1.recs k = tabFind s.recs k)) ∧
  (pre (.rflush w) s = .go c → flagFull (.rflush w) c = false → lowBit c.act = some l → 4096 ≤ h → closing s c.gid = false →
    exec (.rflush w) s = .next (takeTrap s c.gid (infoAt 0x16#6 c.t c.act))))

/-- send puts lanes 0–15 of its register in the channel's next slot, or sleeps while there is none; recv takes the oldest slot, or sleeps in
the order of the recvs; send.close closes the channel; a channel that is closed, for recv closed and empty, traps with CHANNEL_CLOSED. -/
def Obligations.ChannelsKeepOrder : Prop := ∀ (w : FmWord) (s : State) (c : Go) (v : Level),
  let k := w.minor.toNat
  let ch := chanOf s c.g.lid k
  let ws := (List.range 16).map (fun l => regGet c.g w.d.toNat l)
  tabFind s.levels c.g.lid = some v →
  (pre (.send w) s = .go c → c.act = 0 → OnlyAdvances (.send w) s c) ∧
  (pre (.send w) s = .go c → c.act ≠ 0 → ch.closed = false → accessPending s c.gid = false → ch.queue.length < ch.slots →
    ∃ s' g', exec (.send w) s = .next s' ∧ Closed s' c g' ∧ s'.mem = s.mem ∧
      chanOf s' c.g.lid k = { ch with queue := ch.queue ++ [(ws, clockOf s c.gid)], wr := ch.wr + 1 }) ∧
  (pre (.send w) s = .go c → c.act ≠ 0 → ch.closed = false → accessPending s c.gid = false → ch.slots ≤ ch.queue.length →
    exec (.send w) s = .next (sleepSplit s (.send w) c (.room k))) ∧
  (pre (.send w) s = .go c → c.act ≠ 0 → ch.closed = true → closing s c.gid = false →
    exec (.send w) s = .next (takeTrap s c.gid (infoAt 0x38#6 c.t c.act))) ∧
  (pre (.sendClose w) s = .go c → c.act = 0 → OnlyAdvances (.sendClose w) s c) ∧
  (pre (.sendClose w) s = .go c → c.act ≠ 0 → ch.closed = false → accessPending s c.gid = false → ∃ s' g', exec (.sendClose w) s = .next s' ∧
    Closed s' c g' ∧ s'.mem = s.mem ∧ chanOf s' c.g.lid k = { ch with closed := true }) ∧
  (pre (.recv w) s = .go c → flagFull (.recv w) c = false → c.act = 0 → IssuesNothing (.recv w) s c) ∧
  (∀ x r, pre (.recv w) s = .go c → flagFull (.recv w) c = false → c.act ≠ 0 → unchecked s c.gid = false → ch.waiting = [] →
    ch.queue = x :: r →
    ∃ s' g', exec (.recv w) s = .next s' ∧ grp s' c.gid = some g' ∧ g'.ckpt = ckptOf g' c.sp ∧ g'.epoch = c.g.epoch + 1 ∧
      tabFind g'.splits c.sp = some { nextSplit c c.t with taken := c.t.taken + 1, long := true } ∧
      chanOf s' c.g.lid k = { ch with queue := r, rd := ch.rd + 1 } ∧ s'.mem = s.mem ∧
      tabFind s'.ops s.nextId = some { newOp (.recv w) c with
        done := true, wrs := slotWrs w.d.toNat x.1, epoch := issueEpoch s c.g c.gid, no := (syncOf s c.gid).no }) ∧
  (pre (.recv w) s = .go c → flagFull (.recv w) c = false → c.act ≠ 0 → unchecked s c.gid = false →
    (ch.queue = [] ∧ ch.closed = false) ∨ (ch.queue ≠ [] ∧ ch.waiting ≠ []) →
    ∃ s' g', exec (.recv w) s = .next s' ∧ grp s' c.gid = some g' ∧ s'.mem = s.mem ∧
      tabFind g'.splits c.sp = some { c.t with taken := c.t.taken + 1, long := true, st := .asleep (.recv k s.nextId),
                                               sleeps := some (.recv w, c.act) } ∧
      chanOf s' c.g.lid k = { ch with waiting := ch.waiting ++ [s.nextId] } ∧
      tabFind s'.ops s.nextId = some { newOp (.recv w) c with engine := true, epoch := issueEpoch s c.g c.gid, no := (syncOf s c.gid).no }) ∧
  (pre (.recv w) s = .go c → flagFull (.recv w) c = false → c.act ≠ 0 → ch.queue = [] → ch.closed = true → closing s c.gid = false →
    exec (.recv w) s = .next (takeTrap s c.gid (infoAt 0x38#6 c.t c.act)))

/-- cpy hands its rows to the core's Tile-Copy Engine: the copy, its job and its operation exist, the flags and the open batch count it; a word
that R177 faults traps with the cause and the address.

The rows of a copy: a load's row lands in the scratchpad and on its row barrier; a store's source is read whole before any row is written and
frees the first flag; the copy ends when no row is left, or at once, with the cause, at a row that faults; a copy that is not one of the
4 its engine runs moves no row.

mcast.team and mcast.cluster copy vault bytes to the landing offset of every other unit placed near; a target takes the data of one group's
multicasts to the same bytes in issue order.

The order of cpy's faults is read by inference (DEDUCED, log entry 48); that a store reads its source in one step, that an indexed store's rows
are written in lane order, and when a multicast takes its source and its targets, is the model's choice (log entry 49). -/
def Obligations.CopiesAndMulticasts : Prop :=
  (∀ (w : FmWord) (s : State) (c : Go),
  let k := cfgOf c.g w
  let ga := src2 c.g w.base 0 + w.off.signExtend 64
  pre (.cpy w) s = .go c → flagFull (.cpy w) c = false →
  (c.act = 0 → IssuesNothing (.cpy w) s c) ∧
  (c.act ≠ 0 → cpyFault s c w k ga = none → copiesHeld s c.g.core < 16 → jobsOf s c.g.ctx < 1024 → commandPending s c.gid = false →
    ∃ s' g' cp j,
    exec (.cpy w) s = .next s' ∧ grp s' c.gid = some g' ∧ s'.mem = s.mem ∧ s'.nextId = s.nextId + 2 ∧
    tabFind s'.ops (s.nextId + 1) = some (opOf s c { newOp (.cpy w) c with engine := true, batch := some (nextBatch c.g.bseq) }) ∧
    tabFind s'.copies (s.nextId + 1) = some cp ∧ cp.job = s.nextId ∧ cp.core = c.g.core ∧ cp.uid = c.g.uid ∧ cp.dir = w.dir ∧
    cp.g = ga ∧ cp.o = k.w2.toNat ∧ cp.r = k.r ∧ cp.step = k.w1 ∧ cp.dead = false ∧ cp.buf = [] ∧
    cp.left = (if w.kind = 2 then lanesOf c.act else List.range (if k.n = 0 then 2048 else k.n)) ∧
    cp.running = false ∧ tabFind s'.jobs s.nextId = some j ∧ j.kind = .cpy ∧ j.gid = c.gid ∧ j.readDone = false ∧ j.known = true ∧
    g'.openBatch.pend = c.g.openBatch.pend + 1 ∧
    (∀ f, (flagOf g' f).cnt = (flagOf c.g f).cnt + (if flagFor (.cpy w) c.t = some f then 1 else 0) +
      (if flag2For (.cpy w) c.t = some f then 1 else 0)) ∧ g'.v = c.g.v ∧ g'.s = c.g.s ∧ g'.p = c.g.p) ∧
  (∀ e fa, c.act ≠ 0 → cpyFault s c w k ga = some (e, fa) → closing s c.gid = false →
    exec (.cpy w) s = .next (takeTrap s c.gid { infoAt e c.t c.act with faddr := fa }))) ∧
  (∀ (s : State) (oid row : Nat) (c : Copy) (j : Job) (o : Op) (g : Group) (u : UnitS),
  let s0 := mapCopy s oid (fun c => { c with running := true })
  tabFind s.copies oid = some c → c.dead = false → tabFind s.jobs c.job = some j → tabFind s.ops oid = some o → grp s o.gid = some g →
  tabFind s.units c.uid = some u →
  (∀ bs s1, c.dir = false → row ∈ c.left → j.heldR = false → j.heldW = false → mayRun s c = true → loadRow s0 c row = .ok bs s1 →
    ∃ s' c', exec (.cpyRowLanded oid row) s = .next s' ∧ spaceBytes s' false c.uid (rowOff c row) bs.length = bs ∧
      tabFind s'.copies oid = some c' ∧ c'.left = c.left.filter (fun x => x != row) ∧ c'.running = true ∧ s'.mem = s1.mem ∧
      (∀ k, c.bar = some k → barOf (unitOf s' c.uid) k = rowLands (barOf (unitOf s c.uid) k))) ∧
  (∀ bs s1, c.dir = true → row ∈ c.left → c.kind ≠ 2 ∨ c.left.head? = some row → j.heldW = false → mayRun s c = true →
    tabFind c.buf row = some bs → jobWrite s0 c.job (copyWho s c) (some (clusterOf c.core)) (rowVa c row) bs = .ok () s1 →
    ∃ s' c', exec (.cpyRowLanded oid row) s = .next s' ∧ tabFind s'.copies oid = some c' ∧
      c'.left = c.left.filter (fun x => x != row) ∧ s'.mem = s1.mem) ∧
  (mayRun s c = false → exec (.cpyRowLanded oid row) s = .next s ∧ exec (.cpySourceFree oid) s = .next s) ∧
  (c.dir = true → c.buf = [] → j.heldR = false → mayRun s c = true → (∀ i, i ∈ c.left → isPoison s .scratch c.uid (rowOff c i) c.r = false) →
    ∃ s' c', exec (.cpySourceFree oid) s = .next s' ∧ tabFind s'.copies oid = some c' ∧
      c'.buf = c.left.map (fun i => (i, spaceBytes s false c.uid (rowOff c i) c.r)) ∧ s'.mem = s.mem ∧
      ∀ f, o.flag = some f → ∃ g', grp s' o.gid = some g' ∧ (flagOf g' f).cnt = (flagOf g f).cnt - 1) ∧
  (c.left = [] → (∀ w, g.st ≠ .stopping w) → ∃ s', exec (.cpyVisible oid) s = .next s' ∧ tabFind s'.copies oid = none ∧ tabFind s'.ops oid = none ∧
    tabFind s'.jobs c.job = none ∧ s'.mem = s.mem) ∧
  (c.left ≠ [] → exec (.cpyVisible oid) s = .next s) ∧
  (∀ e s1 f, row ∈ c.left → rowTurn c row = true → rowFree s c = true → rowFault s c row = some (e, s1) → e ≠ 0 → o.flag = some f →
    o.flag2 = none → o.batch = none → (∀ w, g.st ≠ .stopping w) → ∃ s' g', exec (.cpyRowFault oid row) s = .next s' ∧
      tabFind s'.copies oid = none ∧ tabFind s'.ops oid = none ∧ s'.mem = s1.mem ∧ grp s' o.gid = some g' ∧ (flagOf g' f).err = true ∧
      ((flagOf g f).err = false → (flagOf g' f).cause = e))) ∧
  (∀ (w : FmWord) (s : State) (c : Go),
  let src := (src2 c.g w.base 0 + w.off.signExtend 64).toNat
  let land := (srcW c.g w.d 0).toNat
  let len := srcW c.g w.idx 0
  let n := 64 * (len.toNat + 1)
  let casts (i : Instr) (cluster : Bool) : Prop := pre i s = .go c → flagFull i c = false → (c.act = 0 → IssuesNothing i s c) ∧
    (c.act ≠ 0 → len.toNat < 256 → src % 64 = 0 → land % 64 = 0 → src < 2 ^ 22 → src + n ≤ (unitOf s c.g.uid).vaultSize →
      land + n ≤ (unitOf s c.g.uid).vaultSize → isPoison s .vault c.g.uid src n = false → mustWait s c.gid false false = false →
      (castTargets s c cluster = [] → Issues i s c { newOp i c with engine := false, done := true }) ∧
      (castTargets s c cluster ≠ [] → ∃ s', exec i s = .next s' ∧ s'.mem = s.mem ∧
        tabFind s'.ops s.nextId = some (opOf s c { newOp i c with engine := true }) ∧
        tabFind s'.casts s.nextId = some { bytes := spaceBytes s true c.g.uid src n, landing := land, lid := c.g.lid,
                                           left := castTargets s c cluster }))
  casts (.mcastTeam w) false ∧ casts (.mcastCluster w) true ∧
  (∀ oid k x, tabFind s.casts oid = some x → earlierCast s oid k x = true → exec (.mcastDelivery oid k) s = .next s) ∧
  (∀ oid k x, tabFind s.casts oid = some x → k ∈ x.left → earlierCast s oid k x = false → ∃ s',
    exec (.mcastDelivery oid k) s = .next s' ∧ s'.mem = s.mem ∧
    (∀ uid u, unitAt s x.lid k = some (uid, u) → tabFind s.units uid = some u → u.resident = true →
      spaceBytes s' true uid x.landing x.bytes.length = x.bytes) ∧
    (∀ y, y ∈ x.left → y ≠ k → ∃ x', tabFind s'.casts oid = some x' ∧ x'.left = x.left.filter (fun y => y != k))))

/-! ### Matrix, traversal, splats -/

/-- talloc binds a name to the first free slot of the unit's pool, its contents zero and its scales 0x7F; tfree releases the slot, whose
generation advances, and leaves a rising pool rising; thand moves a binding to another group of the unit, where its NEW is 0 (of the two values
the spec gives, the model's choice: log entry 90); each kind of name keeps its own pool. The pool rises, so the first free slot is the lowest: that
talloc takes this one is the model's choice (log entry 41). -/
def Obligations.HandleWords : Prop := ∀ (w : FtWord) (s : State) (c : Go) (k : Nat) (r : List Nat),
  let i := w.hd.toNat
  let acc := isAccName i
  let u := unitOf s c.g.uid
  (pre (.talloc w) s = .go c → c.act = 0 → OnlyAdvances (.talloc w) s c) ∧
  (pre (.talloc w) s = .go c → c.act ≠ 0 → (nameOf c.g i).st = .free ∨ (nameOf c.g i).st = .given →
    namesBusy s c.gid [i] [i] noChain = false → closerPending s c.gid = false →
    boundNames s c.g.uid acc < (if acc then u.alimit else u.olimit) → (if acc then u.apool else u.opool) = k :: r →
    ∃ s' g', exec (.talloc w) s = .next s' ∧ grp s' c.gid = some g' ∧ s'.mem = s.mem ∧ g'.v = c.g.v ∧ g'.s = c.g.s ∧ g'.p = c.g.p ∧
      tabFind g'.splits c.sp = some (nextSplit c c.t) ∧
      nameOf g' i = { st := .bound, pslot := some (k, slotGen s c.g.core acc k), isNew := true } ∧
      (∀ j, j ≠ i → nameOf g' j = nameOf c.g j) ∧
      (if acc then (unitOf s' c.g.uid).apool else (unitOf s' c.g.uid).opool) = r ∧
      ((k :: r).Pairwise (· < ·) → r.Pairwise (· < ·) ∧ ∀ j, j ∈ r → k < j) ∧
      (acc = true → ∀ x y, x < 32 → y < 32 → accElem s' c.g.core k x y = 0) ∧
      (acc = false → (∀ o, o < 2048 → operandByte s' c.g.core k o = 0) ∧ ∀ o, o < 128 → scaleByte s' c.g.core k o = 0x7F)) ∧
  (pre (.talloc w) s = .go c → c.act ≠ 0 → (nameOf c.g i).st = .bound → closing s c.gid = false →
    exec (.talloc w) s = .next (takeTrap s c.gid (infoAt 0x20#6 c.t c.act))) ∧
  (pre (.tfree w) s = .go c → c.act = 0 → OnlyAdvances (.tfree w) s c) ∧
  (∀ gen, pre (.tfree w) s = .go c → c.act ≠ 0 → nameStale s c.g i = false → namesBusy s c.gid [i] [i] noChain = false →
    unchecked s c.gid = false → (∀ j, j < 64 → (nameOf c.g j).pslot = none ∧ (nameOf c.g j).isNew = false) →
    (nameOf c.g i).cslot = some (k, gen) → (tabFind s.units c.g.uid).isSome = true →
    ∃ s' g', exec (.tfree w) s = .next s' ∧ Closed s' c g' ∧ nameOf g' i = {} ∧ (∀ j, j ≠ i → j < 64 → nameOf g' j = nameOf c.g j) ∧
      slotGen s' c.g.core acc k = slotGen s c.g.core acc k + 1 ∧
      k ∈ (if acc then (unitOf s' c.g.uid).apool else (unitOf s' c.g.uid).opool) ∧ s'.mem = s.mem ∧
      ((if acc then u.apool else u.opool).Pairwise (· < ·) →
        (if acc then (unitOf s' c.g.uid).apool else (unitOf s' c.g.uid).opool).Pairwise (· < ·))) ∧
  (pre (.tfree w) s = .go c → c.act ≠ 0 → nameStale s c.g i = true → closing s c.gid = false →
    exec (.tfree w) s = .next (takeTrap s c.gid (infoAt 0x20#6 c.t c.act))) ∧
  (pre (.thand w) s = .go c → c.act = 0 → OnlyAdvances (.thand w) s c) ∧
  (∀ gen tid tg, pre (.thand w) s = .go c → c.act ≠ 0 → isAccName w.ha.toNat = isAccName w.hd.toNat →
    nameStale s c.g w.ha.toNat = false → (regGet c.g (192 + w.s6.toNat) 0).toNat < 32 →
    groupAt s c.g.uid (regGet c.g (192 + w.s6.toNat) 0).toNat = some (tid, tg) → grp s tid = some tg → tid ≠ c.gid →
    tg.st = .running → (nameOf tg w.hd.toNat).st = .free → namesBusy s c.gid [w.ha.toNat] [w.ha.toNat] noChain = false →
    unchecked s c.gid = false → (∀ j, j < 64 → (nameOf c.g j).pslot = none) → (nameOf c.g w.ha.toNat).cslot = some (k, gen) →
    ∃ s' g' tg', exec (.thand w) s = .next s' ∧ Closed s' c g' ∧ grp s' tid = some tg' ∧ s'.mem = s.mem ∧
      nameOf g' w.ha.toNat = { st := .given } ∧
      nameOf tg' w.hd.toNat = { st := .bound, cslot := some (k, gen) } ∧ tg' = { tg with names := tg'.names })

/-- tload, tload.t and tload.sc: an operand slot whole, the active rows of an accumulator with each element widened, an operand transposed, or
its scale field, from the bytes the rows name.

tstore, tstore.t and tstore.q write to the rows' places the slot's bytes, each accumulator row converted and packed, an operand
transposed, or each accumulator row quantised with its scale code; the slot itself does not change.

The bytes a tile word stores lie where its parts say: each part, when the parts keep apart, holds its share of the bytes in order; no byte of
memory, of a scratchpad or of a vault outside the parts changes.

That tstore writes all 32 rows whatever the mask is read by inference (DEDUCED, log entry 50); that a tile word reads and writes at issue is the
model's choice (log entry 43). -/
def Obligations.TilesMove : Prop :=
  (∀ (w : FtWord) (s : State) (c : Go) (xs : List Spot) (slot : Nat),
  let h := w.hd.toNat
  let base := pairGet c.g (192 + w.s6.toNat) 0
  let p := (srcW c.g w.v8 ((lowBit c.act).getD 0)).toNat
  let row (r : Nat) : Double := base + BitVec.ofNat 64 (r * p)
  let bs := xs.flatMap (spotRead s)
  let b := fmtWidth w.fmtc / 8
  let n := if w.fmtc = 0 then 128 else 64
  let ready (i : Instr) (kind : Option Bool) : Prop := pre i s = .go c ∧ NamesReady i s c [(h, kind)] [] [h] noChain ∧
    base.toNat % 16 = 0 ∧ pendingAcq s c.gid = false ∧ writeTo s c.g h = some slot
  let loaded (i : Instr) (eff : State → Prop) : Prop := ∃ s' g', exec i s = .next s' ∧ TileDone s s' c i [] [h] g' ∧
    (curSlot (nameOf g' h)).map (·.1) = some slot ∧ s'.mem = s.mem ∧ g'.s = c.g.s ∧ eff s'
  (ready (.tload w) none → p % 16 = 0 → isAccName h = false → 1 ≤ w.fmtc → w.fmtc ≤ 7 →
    SpotsReady s c w.space false (lanes.map (fun r => (row r, 64))) xs → (w.space ≠ 0 → xs.any (spotPoison s) = false) →
    loaded (.tload w) (fun s' => ∀ o, o < 2048 → operandByte s' c.g.core slot o = bs.getD o 0)) ∧
  (∀ rd : Nat → List Byte, ready (.tload w) none → p % 16 = 0 → isAccName h = true → w.fmtc ≤ 2 →
    SpotsReady s c w.space false ((lanesOf c.act).map (fun r => (row r, n))) xs → (w.space ≠ 0 → xs.any (spotPoison s) = false) →
    bs = (lanesOf c.act).flatMap rd → (∀ r, (rd r).length = n) →
    loaded (.tload w) (fun s' => ∀ r j, r < 32 → j < 32 → accElem s' c.g.core slot r j =
      if c.act.getLsbD r then ((accRow w.fmtc (rd r)).getD j (0, false)).1 else accElem s c.g.core (slotOf c.g h) r j)) ∧
  (ready (.tloadT w) (some false) → p % 16 = 0 → [1, 2, 3, 4, 6].contains w.fmtc = true →
    SpotsReady s c w.space false ((List.range (fmtK w.fmtc)).map (fun k => (row k, 32 * b))) xs →
    (w.space ≠ 0 → xs.any (spotPoison s) = false) →
    loaded (.tloadT w) (fun s' => ∀ r k x, r < 32 → k < fmtK w.fmtc → x < b →
      operandByte s' c.g.core slot (64 * r + b * k + x) = bs.getD (32 * b * k + b * r + x) 0)) ∧
  (ready (.tloadSc w) (some false) → SpotsReady s c w.space false [(base, 128)] xs → (w.space ≠ 0 → xs.any (spotPoison s) = false) →
    loaded (.tloadSc w) (fun s' => ∀ o, o < 128 → scaleByte s' c.g.core slot o = bs.getD o 0))) ∧
  (∀ (w : FtWord) (s : State) (c : Go) (xs : List Spot),
  let h := w.ha.toNat
  let slot := slotOf c.g h
  let base := pairGet c.g (192 + w.s6.toNat) 0
  let sbase := pairGet c.g (192 + w.s6.toNat + 2) 0
  let p := (srcW c.g w.v8 ((lowBit c.act).getD 0)).toNat
  let row (r : Nat) : Double := base + BitVec.ofNat 64 (r * p)
  let bs := operandBytes s c.g.core slot
  let b := fmtWidth w.fmtc / 8
  let elem (r j : Nat) := storeElem w.fmtc (bits c.t.fmt 8 2 == (1 : BitVec 2)) (Rnd.ofBits (bits c.t.fmt 12 2)) (accElem s c.g.core slot r j)
  let quant (r : Nat) := quantise (tileQuant w.fmtc) (lanes.map (fun j => Fmt.fp32.decode (accElem s c.g.core slot r j).toNat))
  let ready (i : Instr) (kind : Option Bool) : Prop := pre i s = .go c ∧ NamesReady i s c [(h, kind)] [h] [] noChain ∧
    base.toNat % 16 = 0 ∧ p % 16 = 0 ∧ pendingAcq s c.gid = false ∧ unchecked s c.gid = false ∧ slotPoison s c.g h = false
  let stored (i : Instr) (rows : List (Double × List Byte)) : Prop :=
    SpotsReady s c w.space true (rows.map (fun x => (x.1, x.2.length))) xs →
    ∃ s' g', exec i s = .next s' ∧ TileDone s s' c i [h] [] g' ∧ g'.s = c.g.s ∧
      s'.mem = (spotsWrite s xs (rows.flatMap (·.2))).mem ∧
      (∀ v u o, spaceByte s' v u o = spaceByte (spotsWrite s xs (rows.flatMap (·.2))) v u o) ∧
      (∀ k o, operandByte s' c.g.core k o = operandByte s c.g.core k o) ∧
      (∀ k i j, accElem s' c.g.core k i j = accElem s c.g.core k i j) ∧ (xs.all spotPriv = false → g'.ckpt = ckptOf g' c.sp)
  (ready (.tstore w) none → isAccName h = false → 1 ≤ w.fmtc → w.fmtc ≤ 7 →
    stored (.tstore w) (lanes.map (fun r => (row r, (bs.drop (64 * r)).take 64)))) ∧
  (ready (.tstore w) none → isAccName h = true → w.fmtc ≤ 7 →
    stored (.tstore w) (lanes.map (fun r => (row r, packCodes (fmtWidth w.fmtc) (lanes.map (fun j => (elem r j).1)))))) ∧
  (ready (.tstoreT w) (some false) → [1, 2, 3, 4, 6].contains w.fmtc = true →
    stored (.tstoreT w) ((List.range (fmtK w.fmtc)).map (fun k =>
      (row k, lanes.flatMap (fun r => (bs.drop (64 * r + b * k)).take b))))) ∧
  (ready (.tstoreQ w) (some true) → sbase.toNat % 16 = 0 → 3 ≤ w.fmtc → w.fmtc ≤ 7 → (bits c.t.fmt 8 2 : BitVec 2) = 0 →
    stored (.tstoreQ w) (lanes.flatMap (fun r =>
      [(row r, packCodes (fmtWidth w.fmtc) (quant r).codes), (sbase + BitVec.ofNat 64 r, [BitVec.ofNat 8 (quant r).scale])])))) ∧
  (∀ (s : State) (xs ys : List Spot) (va : Double) (pa n : Nat) (p : Bool) (pre_ bs post : List Byte),
  backed s pa = true → inAperture pa = false → bs.length = n → pre_.length = (xs.map spotSize).foldl (· + ·) 0 →
  (∀ v q m b, Spot.mem v q m b ∈ ys → q + m ≤ pa ∨ pa + n ≤ q) →
  ∀ i, i < n → memByte (spotsWrite s (xs ++ .mem va pa n p :: ys) (pre_ ++ bs ++ post)).mem (pa + i) = bs.getD i 0) ∧
  (∀ (s : State) (xs : List Spot) (bs : List Byte),
  (∀ k, (∀ va pa n p, Spot.mem va pa n p ∈ xs → k < pa ∨ pa + n ≤ k) → memByte (spotsWrite s xs bs).mem k = memByte s.mem k) ∧
  (∀ v u o, (∀ off n, Spot.sp v u off n ∈ xs → o < off ∨ off + n ≤ o) → spaceByte (spotsWrite s xs bs) v u o = spaceByte s v u o))

/-- mma and its sparse forms, mmb.da and mmb.db: each element of the active rows takes its groups of eight products in order, a chunk whose
bitmap bit is clear left out (DEDUCED, log entry 86); a format combination that R56 does not list traps.

svr reads its rows of the shared-value stream, applies each row's entries in order to the active lanes' elements of its columns, leaves the
address after the last token in its scalar pair, and closes the region; that it acts at issue is the model's choice (log entry 43).

mma.team waits for the other members of its team, from the CLK at which the first of them issued; when all four have issued with one FMT they
complete together: the member at position p takes, for h = 0 and 1 in an order that the team chooses, the partial product of the A operand of
member 2·(p div 2) + h and the B operand of member 2·(p mod 2) + h, each added once to its accumulator element; with differing FMT they end
with FORMAT_INVALID, after the watchdog interval with DEADLINE. -/
def Obligations.MatrixProducts : Prop :=
  (∀ (w : FtWord) (s : State) (c : Go) (slot : Nat),
  let fm := c.t.fmt
  let a := matOpOf s c.g.core (slotOf c.g w.ha.toNat) (fmtA fm) (fmtBsm fm == 1)
  let b := matOpOf s c.g.core (slotOf c.g w.hb.toNat) (fmtB fm) (fmtBsm fm == 1)
  let ok (i : Instr) (chain : Instr → Bool) : Prop := pre i s = .go c ∧ matFmtBad fm = false ∧ writeTo s c.g w.hd.toNat = some slot ∧
    NamesReady i s c [(w.hd.toNat, some true), (w.ha.toNat, some false), (w.hb.toNat, some false)] [w.ha.toNat, w.hb.toNat] [w.hd.toNat] chain ∧
    slotPoison s c.g w.hd.toNat = false ∧ slotPoison s c.g w.ha.toNat = false ∧ slotPoison s c.g w.hb.toNat = false
  let chunk (k : Nat) := k / (512 / matWidth (fmtA fm) / 32)
  let from_ (k : Nat) : Bool := decide (c.g.spstep.toNat ≤ chunk k)
  let va (i k : Nat) : Bool := bit (regGet c.g w.v8.toNat i) (chunk k)
  let vb (f j k : Nat) : Bool := bit (regGet c.g f j) (chunk k)
  (ok (.mma w) chainsFwd → MatDone (.mma w) s c w slot (mmaTerms a b (fun _ _ k => from_ k))) ∧
  (ok (.mmaSa w) chainsFwd → MatDone (.mmaSa w) s c w slot (mmaTerms a b (fun i _ k => from_ k && va i k))) ∧
  (ok (.mmaSb w) chainsFwd → MatDone (.mmaSb w) s c w slot (mmaTerms a b (fun _ j k => from_ k && vb w.v8.toNat j k))) ∧
  (ok (.mmaSab w) chainsFwd →
    MatDone (.mmaSab w) s c w slot (mmaTerms a b (fun i j k => from_ k && va i k && vb (w.v8.toNat + 1) j k))) ∧
  (ok (.mmbDa w) chainsBwd → w.q < 512 / matWidth (fmtA fm) / 32 → MatDone (.mmbDa w) s c w slot (mmbDaTerms a b w.q)) ∧
  (ok (.mmbDb w) chainsBwd → w.q < 512 / matWidth (fmtA fm) / 32 → MatDone (.mmbDb w) s c w slot (mmbDbTerms a b w.q)) ∧
  (pre (.mma w) s = .go c → flagFull (.mma w) c = false → c.act ≠ 0 → matFmtBad fm = true → closing s c.gid = false →
    namesBad s c.g [(w.hd.toNat, some true), (w.ha.toNat, some false), (w.hb.toNat, some false)] = none →
    exec (.mma w) s = .next (takeTrap s c.gid (infoAt 0x23#6 c.t c.act)))) ∧
  (∀ (w : FtWord) (s : State) (c : Go) (slot : Nat) (rows : List (List (Nat × List Nat)))
    (fin : Double) (ts : List Touch),
  let r (k : Nat) : Word := regGet c.g (192 + w.s6.toNat + k) 0
  let o := (r 2).toNat
  let nr := (r 3).toNat / 2 ^ 27 + 1
  let j0 := (r 3).toNat / 2 ^ 22 % 32
  let cols := (r 3).toNat % 2 ^ 17
  let fm := c.t.fmt
  let act (b p : Nat) : Nat × FFlags := ((if fmtB fm = 1 then Fmt.bf16 else Fmt.fp16).decode
    (ofBytes 16 (spaceBytes s false c.g.uid (o + 64 * p + 2 * b) 2)).toNat).deliver .fp32 .ne
  pre (.svr w) s = .go c → NamesReady (.svr w) s c [(w.hd.toNat, some true)] [] [w.hd.toNat] noChain → accessPending s c.gid = false →
  fmtA fm = 8 → fmtB fm = 1 ∨ fmtB fm = 2 → fmtAcc fm = 0 → fmtBsm fm = 0 → o % 4 = 0 → o < 2 ^ 18 →
  (r 3).toNat / 2 ^ 17 % 32 = 0 → j0 + nr ≤ 32 → 0 < cols → cols ≤ 0x10000 → (pairVal (r 0) (r 1)).toNat % 2 = 0 →
  o + 64 * cols ≤ (unitOf s c.g.uid).scratchSize → Clear s → writeTo s c.g w.hd.toNat = some slot →
  (∀ t, t ∈ ts → backed s t.pa = true) → w.s6.toNat % 4 = 0 →
  streamRows s c (partyOf s c.gid c.g) cols nr (pairVal (r 0) (r 1)) [] [] = .ok (rows, fin, ts) →
  ∃ s' g', exec (.svr w) s = .next s' ∧ grp s' c.gid = some g' ∧ s'.mem = s.mem ∧ g'.ckpt = ckptOf g' c.sp ∧ g'.epoch = c.g.epoch + 1 ∧
    pairGet g' (192 + w.s6.toNat) 0 = fin ∧ g'.v = c.g.v ∧ g'.p = c.g.p ∧
    tabFind s'.ops s.nextId = some (opOf s c { newOp (.svr w) c with done := true, dst := [], hrd := [], hwr := [w.hd.toNat] }) ∧
    ∀ b j, b < 32 → j < 32 → accElem s' c.g.core slot b j =
      let old := accElem s c.g.core (slotOf c.g w.hd.toNat) b j
      if c.act.getLsbD b ∧ j0 ≤ j ∧ j < j0 + nr then
        BitVec.ofNat 32 (svrRow (fmtRnd fm) (act b) (rows.getD (j - j0) []) old.toNat 0).1
      else old) ∧
  (∀ (w : FtWord) (s : State) (c : Go) (team tag : Nat),
  let t := (regGet c.g (192 + w.s6.toNat) 0).toNat % 65536
  let all : Prop := ∀ p, p < 4 → (memberAt s (members s team tag) p).isSome = true
  let ended (i : Instr) (err : BitVec 6) : Prop := ∃ s', exec i s = .next s' ∧
    ∀ e, e ∈ members s team tag → ∃ o, tabFind s'.ops e.1 = some o ∧ o.done = true ∧ o.engine = false ∧ o.err = err
  (pre (.mmaTeam w) s = .go c → c.act = 0 → flagFull (.mmaTeam w) c = false → IssuesNothing (.mmaTeam w) s c) ∧
  (pre (.mmaTeam w) s = .go c → (pktOf s c.g).teamop = true → matFmtBad c.t.fmt = false →
    NamesReady (.mmaTeam w) s c [(w.hd.toNat, some true), (w.ha.toNat, some false), (w.hb.toNat, some false)]
      [w.ha.toNat, w.hb.toNat] [w.hd.toNat] noChain →
    slotPoison s c.g w.hd.toNat = false → slotPoison s c.g w.ha.toNat = false → slotPoison s c.g w.hb.toNat = false →
    (∀ e, e ∈ members s (c.g.core / 4) t → opCore s e.2 ≠ c.g.core) →
    Issues (.mmaTeam w) s c { newOp (.mmaTeam w) c with dst := [], hrd := [w.ha.toNat, w.hb.toNat], hwr := [w.hd.toNat], tag := t,
                                                        fmt := c.t.fmt, at_ := gatherStart s (c.g.core / 4) t, engine := true }) ∧
  ((∀ e f, e ∈ s.ops → f ∈ s.ops → e.1 = f.1 → e = f) → all →
    (∀ e f, e ∈ members s team tag → f ∈ members s team tag → e.2.fmt = f.2.fmt) → ended (.jointOperation team tag) 0) ∧
  ((∀ e f, e ∈ s.ops → f ∈ s.ops → e.1 = f.1 → e = f) → all →
    (∃ e f, e ∈ members s team tag ∧ f ∈ members s team tag ∧ e.2.fmt ≠ f.2.fmt) → ended (.jointOperation team tag) 0x23#6) ∧
  ((∀ e f, e ∈ s.ops → f ∈ s.ops → e.1 = f.1 → e = f) → ¬ all →
    (∃ e, e ∈ members s team tag ∧ 1000 * (levelOf s e.2.lid).pkt.wdog ≤ (s.clk - e.2.at_).toNat) →
    ended (.jointOperationTimeout team tag) 0x3B#6) ∧
  (let ms := members s team tag
  (∀ e f, e ∈ s.ops → f ∈ s.ops → e.1 = f.1 → e = f) → all →
    (∀ e f ge gf, e ∈ ms → f ∈ ms → grp s e.2.gid = some ge → grp s f.2.gid = some gf → ge.core = gf.core ∨ ge.uid = gf.uid → e = f) →
    (∀ e f, e ∈ ms → f ∈ ms → e.2.fmt = f.2.fmt) →
    ∃ (s' : State) (swap : Bool), exec (.jointOperation team tag) s = .next s' ∧ s'.mem = s.mem ∧
      ∀ o g w slot, (∃ k, (k, o) ∈ ms) → grp s o.gid = some g → o.instr = .mmaTeam w →
        isAccName w.hd.toNat = true → (curSlot (nameOf g w.hd.toNat)).isSome = true →
        (if o.epoch < g.epoch then slot = slotOf g w.hd.toNat else writeTo s g w.hd.toNat = some slot) →
        let p := g.core % 4
        let part (h i j : Nat) : Word := (applyGroups (fmtAcc o.fmt == 1) (fmtRnd o.fmt) (mmaTerms (memberOp s ms (2 * (p / 2) + h) true o.fmt)
          (memberOp s ms (2 * (p % 2) + h) false o.fmt) (fun _ _ _ => true) i j) 0 0).1
        let add (x y : Word) : Word := (addPartial (fmtAcc o.fmt == 1) x y).1
        ∀ i j, i < 32 → j < 32 → accElem s' g.core slot i j =
          let old := accElem s g.core (slotOf g w.hd.toNat) i j
          if o.act.getLsbD i then add (add old (part (if swap then 1 else 0) i j)) (part (if swap then 0 else 1) i j) else old) ∧
  (all → exec (.jointOperationTimeout team tag) s = .next s) ∧ (¬ all → exec (.jointOperation team tag) s = .next s))

/-- trav.start gives each lane's ray the next lowest free slot with its origin, interval and root; a void ray misses at once; trav.resume walks a
suspended ray on from its block's interval and hit; trav.drop frees its slot; a block that names no held slot traps, a slot whose ray is walking
again among them (DESIGN CHOICE, log entry 105).

tres changes, in each active lane in state PROC whose candidate is accepted, the hit words of the block, and nothing else. A candidate is accepted
exactly when TMIN ≤ t ≤ TMAX and there is no hit yet, or t < TMAX, or t = TMAX with a smaller instance, or the same with a smaller primitive. -/
def Obligations.TraversalWords : Prop :=
  (∀ (w : FrWord) (s : State) (c : Go),
  let oid := s.nextId
  let rs := (lanesOf c.act).map (rayOf c w)
  let goes := rs.filter (fun r => !rayVoid r)
  let miss := (rs.filter rayVoid).flatMap (fun r => stateWrs w.d r.lane (rayWords r statMiss 0 0))
  let blk (l : Nat) := regsAt c.g w.a 16 l
  let common (i : Instr) (s' : State) (o : Op) : Prop := exec i s = .next s' ∧ tabFind s'.ops oid = some o ∧ o.gid = c.gid ∧ o.instr = i ∧
    s'.mem = s.mem ∧ ∃ g', grp s' c.gid = some g' ∧ g'.epoch = c.g.epoch + 1 ∧ g'.v = c.g.v ∧ g'.s = c.g.s
  (pre (.travStart w) s = .go c → flagFull (.travStart w) c = false → c.act = 0 → IssuesNothing (.travStart w) s c) ∧
  (pre (.travStart w) s = .go c → flagFull (.travStart w) c = false → c.act ≠ 0 → unchecked s c.gid = false →
    (∀ l, l < 32 → c.act.getLsbD l = true → regGet c.g w.c.toNat l &&& 0xFFFF00F8 = 0) →
    goes.length ≤ (freeRays s c.g.core).length → raysOf s oid = [] → ∃ s' o, common (.travStart w) s' o ∧ o.wrs = miss ∧
      (goes = [] → o.done = true ∧ o.engine = false) ∧ (goes ≠ [] → o.engine = true) ∧
      ∀ (k : Nat) (r : Ray), goes[k]? = some r → ∃ n j, (freeRays s c.g.core)[k]? = some n ∧
        tabFind s'.rays (rayKey c.g.core n) = some { r with op := some oid, job := j }) ∧
  (pre (.travResume w) s = .go c → flagFull (.travResume w) c = false → c.act = 0 → IssuesNothing (.travResume w) s c) ∧
  (pre (.travResume w) s = .go c → flagFull (.travResume w) c = false → c.act ≠ 0 → unchecked s c.gid = false →
    travBadLanes s c true (procLanes c w) = [] → raysOf s oid = [] → ∃ s' o, common (.travResume w) s' o ∧
      o.wrs = ((lanesOf c.act).filter (fun l => !isProc (blk l))).flatMap (fun l => stateWrs w.d l (blk l)) ∧
      ∀ l key r, l < 32 → c.act.getLsbD l = true → isProc (blk l) = true → heldRay s c (blk l) = some (key, r) → ∃ r',
        tabFind s'.rays key = some r' ∧ r'.op = some oid ∧ r'.lane = l ∧ r'.tmin = r.tmin ∧ r'.tmax = (blk l).getD 1 0 ∧
        r'.hitv = blkHit (blk l) ∧ r'.hprim = (blk l).getD 12 0 ∧ r'.hinst = (blk l).getD 13 0) ∧
  (pre (.travDrop w) s = .go c → flagFull (.travDrop w) c = false → c.act = 0 → IssuesNothing (.travDrop w) s c) ∧
  (pre (.travDrop w) s = .go c → flagFull (.travDrop w) c = false → c.act ≠ 0 → unchecked s c.gid = false →
    travBadLanes s c false (procLanes c w) = [] → ∃ s' o, common (.travDrop w) s' o ∧ o.done = true ∧
      ∀ l key r, l < 32 → c.act.getLsbD l = true → isProc (blk l) = true → heldRay s c (blk l) = some (key, r) →
        tabFind s'.rays key = none ∧ rayGen s' key = rayGen s key + 1) ∧
  (∀ l r, pre (.travResume w) s = .go c → flagFull (.travResume w) c = false → c.act ≠ 0 → closing s c.gid = false →
    travBadLanes s c true (procLanes c w) = l :: r → ∃ m, exec (.travResume w) s =
      .next (takeTrap s c.gid { infoAt 0x29#6 c.t c.act with flanes := m }))) ∧
  (∀ (w : FrWord) (s : State) (c : Go),
  let b (l : Nat) := regsAt c.g w.d 16 l
  let news (l : Nat) := tresLane (b l) (srcW c.g w.a l) (regGet c.g w.b.toNat l) (regGet c.g (w.b.toNat + 1) l)
  (pre (.tres w) s = .go c → w.d.toNat + 16 ≤ 192 → ∃ s' g', exec (.tres w) s = .next s' ∧ Retired s s' c g' ∧
    (∀ k l, k < 16 → l < 32 → regGet g' (w.d.toNat + k) l =
      if c.act.getLsbD l then (match (news l).find? (fun x => x.1 == k) with | some x => x.2 | none => regGet c.g (w.d.toNat + k) l)
      else regGet c.g (w.d.toNat + k) l) ∧
    (∀ f l, f < w.d.toNat ∨ w.d.toNat + 16 ≤ f → f < 256 → l < 32 → regGet g' f l = regGet c.g f l) ∧
    g' = { c.g with v := g'.v, s := g'.s, splits := g'.splits, suppress := g'.suppress, written := g'.written }) ∧
  (pre (.tres w) s = .go c → 192 ≤ w.d.toNat → ∃ s' g', exec (.tres w) s = .next s' ∧ Retired s s' c g' ∧
    (∀ k l, k < 16 → w.d.toNat + k < 255 → regGet g' (w.d.toNat + k) l = match lowBit c.act with
      | some m => (match (news m).find? (fun x => x.1 == k) with | some x => x.2 | none => regGet c.g (w.d.toNat + k) l)
      | none => regGet c.g (w.d.toNat + k) l) ∧ g'.v = c.g.v ∧ g'.p = c.g.p) ∧
  (∀ l, news l =
    let r : Ray := { tmin := (b l).getD 2 0, tmax := (b l).getD 1 0, hitv := blkHit (b l), hprim := (b l).getD 12 0, hinst := (b l).getD 13 0 }
    if isProc (b l) = true ∧ accepts r (srcW c.g w.a l) ((b l).getD 11 0) ((b l).getD 10 0) = true then
      [(0, ((b l).getD 0 0 &&& 0xFFFFFF0F) ||| 0x30), (1, srcW c.g w.a l), (12, (b l).getD 10 0), (13, (b l).getD 11 0),
       (14, regGet c.g w.b.toNat l), (15, regGet c.g (w.b.toNat + 1) l)]
    else []) ∧
  (∀ (r : Ray) (t inst prim : Word), accepts r t inst prim = true ↔ leW r.tmin t = true ∧ leW t r.tmax = true ∧
    (r.hitv = false ∨ ltW t r.tmax = true ∨ (leW r.tmax t = true ∧
      (inst.toNat < r.hinst.toNat ∨ (inst = r.hinst ∧ prim.toNat < r.hprim.toNat))))) ∧
  (∀ x y : Word, (isNanW x = true ∨ isNanW y = true → leW x y = false ∧ ltW x y = false) ∧
    (isNanW x = false → isNanW y = false → (ltW x y = true ↔ leW y x = false)) ∧
    (∀ a m e b n f, fpv x = .fin a m e → fpv y = .fin b n f → (leW x y = true ↔ (fpv x).dy.le (fpv y).dy = true))))

/-- RAY_END ends a ray with nothing left to visit: its lane's state words, its slot free with the next generation; a node that is not 128-byte
aligned faults; RAY_PAGE_ARRIVAL lets a ray go on once its page is resident. -/
def Obligations.RaysEnd : Prop := ∀ (s : State) (key oid : Nat) (r : Ray) (o : Op),
  tabFind s.rays key = some r → r.op = some oid → tabFind s.ops oid = some o →
  let stat := if r.hitv then statHit else statMiss
  let alone : Prop := ∀ e, e ∈ s.rays → e.1 ≠ key → e.2.op ≠ some oid
  let away : Prop := ∃ g k, grp s r.gid = some g ∧ g.st = .swapped k
  let ws := (stateWrs (travD o.instr) r.lane (rayWords r stat (key % 64) (rayGen s key).toNat)).filter (wrLands o)
  (r.page = none → r.todo = [] → ∃ s' o', exec (.rayEnd key) s = .next s' ∧ tabFind s'.rays key = none ∧ rayGen s' key = rayGen s key + 1 ∧
    tabFind s'.ops oid = some o' ∧ o'.wrs = o.wrs ++ ws ∧
    o'.err = o.err ∧ (alone → o'.done = true ∧ o'.engine = false) ∧ (¬ away → s'.mem = s.mem)) ∧
  (∀ a t, r.page = none → r.todo = .node a :: t → a % 128 ≠ 0 → ∃ s' o', exec (.rayEnd key) s = .next s' ∧ tabFind s'.rays key = none ∧
    tabFind s'.ops oid = some o' ∧ (o.err = 0 → o'.err = 0x14#6) ∧ (o.err ≠ 0 → o'.err = o.err)) ∧
  (r.page ≠ none → exec (.rayEnd key) s = .next s) ∧
  (∀ p, r.page = some p → translate s (rayWho s r) .read (BitVec.ofNat 64 (65536 * p)) = .absent →
    exec (.rayPageArrival key) s = .next s) ∧
  (∀ p, r.page = some p → translate s (rayWho s r) .read (BitVec.ofNat 64 (65536 * p)) ≠ .absent → ∃ s',
    exec (.rayPageArrival key) s = .next s' ∧ s' = { s with rays := s'.rays } ∧ tabFind s'.rays key = some { r with page := none })

/-- skey and skey.at queue the active lanes with the descriptor's address; the keys of a lane are those of the tiles of its rectangle inside the
grid, the tile above the depth; sort queues its command, and its order is a stable one.

SORT_JOB runs a cluster's commands oldest first: a record or descriptor that fails R236's checks ends the command with its cause, and more keys than
the capacity with SORT_OVERFLOW; a command behind another, or held by an edge, waits. Else it reads the pairs and, where two keys differ, writes
them sorted to KEYS and VALS, with free bytes in SCRATCH, and the range table where there is one; all in one event (DESIGN CHOICE, log entry 61).
A run of an engine within one page of ordinary memory is written byte by byte and nothing else is. -/
def Obligations.SplatKeysAndSort : Prop :=
  (∀ (w : FmWord) (s : State) (c : Go) (pa : Nat) (p : Bool),
  let va := src2 c.g w.base 0 + w.off.signExtend 64
  let seen (need : Need) (n : Nat) : Prop := va.toNat % n = 0 ∧ translate s (whoOf c.g) need va = .ok pa p ∧
    ∀ k, k < 2 → watchMatch (ctxOf s c.g.ctx) k need n va = false
  let lane (at_ : Bool) (l : Nat) : KeyLane :=
    { c0 := regGet c.g w.d.toNat l, c1 := regGet c.g (w.d.toNat + 1) l, depth := regGet c.g (w.d.toNat + 2) l,
      idx := regGet c.g (w.d.toNat + 3) l, pos := if at_ then (regGet c.g w.idx.toNat l).toNat else 0 }
  let queued (i : Instr) (at_ : Bool) : Prop := ∃ s' o, exec i s = .next s' ∧ s'.mem = s.mem ∧ tabFind s'.ops (s.nextId + 1) = some o ∧
    o.instr = i ∧ o.gid = c.gid ∧ o.done = false ∧
    tabFind s'.keys (s.nextId + 1) = some { job := s.nextId, desc := va, append := !at_, lanes := (lanesOf c.act).map (lane at_) }
  (pre (.skey w) s = .go c → flagFull (.skey w) c = false → c.act = 0 → IssuesNothing (.skey w) s c) ∧
  (pre (.skey w) s = .go c → flagFull (.skey w) c = false → c.act ≠ 0 → seen .both 32 → unchecked s c.gid = false →
    queued (.skey w) false) ∧
  (pre (.skeyAt w) s = .go c → flagFull (.skeyAt w) c = false → c.act = 0 → IssuesNothing (.skeyAt w) s c) ∧
  (pre (.skeyAt w) s = .go c → flagFull (.skeyAt w) c = false → c.act ≠ 0 → seen .read 32 → queued (.skeyAt w) true) ∧
  (∀ wd h k z key, 0 < wd → 0 < h → depthBits k.depth = some z → (key ∈ laneKeys wd h k ↔ ∃ tx ty,
    k.c0.toNat % 65536 ≤ tx ∧ tx ≤ min (k.c1.toNat % 65536) (wd - 1) ∧ k.c0.toNat / 65536 ≤ ty ∧ ty ≤ min (k.c1.toNat / 65536) (h - 1) ∧
    key = keyOf (ty * wd + tx) z)) ∧
  (pre (.sort w) s = .go c → flagFull (.sort w) c = false → c.act = 0 → IssuesNothing (.sort w) s c) ∧
  (pre (.sort w) s = .go c → flagFull (.sort w) c = false → c.act ≠ 0 → va.toNat % 64 = 0 → translate s (whoOf c.g) .read va = .ok pa p →
    jobsOf s c.g.ctx < 1024 → commandPending s c.gid = false → ∃ s' j,
    exec (.sort w) s = .next s' ∧ s'.mem = s.mem ∧
    tabFind s'.ops (s.nextId + 1) = some (opOf s c { newOp (.sort w) c with engine := true }) ∧
    tabFind s'.jobs s.nextId = some j ∧ j.kind = .sort ∧ j.known = false ∧
    tabFind s'.sorts (s.nextId + 1) = some { job := s.nextId, cluster := c.g.core / 48, va := va, user := !c.g.sys, secure := c.g.secure }) ∧
  (∀ l, (sortPairs l).Perm l ∧ (sortPairs l).Pairwise (fun a b => sortBits a.1 ≤ sortBits b.1) ∧
    ∀ n, (sortPairs l).filter (fun x => sortBits x.1 == n) = l.filter (fun x => sortBits x.1 == n))) ∧
  (∀ (s s1 s2 : State) (oid : Nat) (k : SortCmd) (j : Job) (o : Op) (r d : List Byte),
  tabFind s.sorts oid = some k → tabFind s.jobs k.job = some j → tabFind s.ops oid = some o →
  let first : Prop := ∀ e, e ∈ s.sorts → e.1 < oid → e.2.cluster ≠ k.cluster
  let ended (c : BitVec 6) : Prop := ∃ s' o', exec (.sortJob oid) s = .next s' ∧ tabFind s'.sorts oid = none ∧ tabFind s'.jobs k.job = none ∧
    tabFind s'.ops oid = some o' ∧ o'.done = true ∧ o'.engine = false ∧ o'.err = c
  (j.known = true → j.heldR = true ∨ j.heldW = true ∨ (∃ e, e ∈ s.sorts ∧ e.1 < oid ∧ e.2.cluster = k.cluster) →
    exec (.sortJob oid) s = .next s) ∧
  (j.known = false → jobPeek s k.job (sortWho s k) k.va 64 = .ok r s1 →
    jobPeek s1 k.job (sortWho s1 k) (ofBytes 64 (r.take 8)) 32 = .ok d s2 →
    ∃ s' j', exec (.sortJob oid) s = .next s' ∧ tabFind s'.sorts oid = some k ∧ tabFind s'.jobs k.job = some j' ∧ j'.known = true ∧
      j'.reads = (sortRanges k.va r d).1.map roundRange ∧ j'.writes = (sortRanges k.va r d).2.map roundRange) ∧
  (j.known = true → j.heldR = false → j.heldW = false → first → sortRead s k k.va 64 = .ok r s1 → sortRead s1 k (ofBytes 64 (r.take 8)) 32 = .ok d s2 →
    (∀ c, sortFault r d = some c → ended c) ∧ (sortFault r d = none → (nat32 d 16).toNat < (nat32 d 20).toNat → ended 0x2B#6)) ∧
  (∀ (s3 s4 s5 : State) (kb vb : List Byte),
    let n := (nat32 d 20).toNat
    let tiles := (nat32 d 24).toNat % 65536 * ((nat32 d 24).toNat / 65536)
    let keys : Double := ofBytes 64 (d.take 8)
    let vals : Double := ofBytes 64 ((d.drop 8).take 8)
    let tbl : Double := ofBytes 64 ((r.drop 16).take 8)
    let scr : Double := ofBytes 64 ((r.drop 8).take 8)
    let out := sortPairs (pairsOf kb vb n)
    j.known = true → j.heldR = false → j.heldW = false → first → sortRead s k k.va 64 = .ok r s1 →
    sortRead s1 k (ofBytes 64 (r.take 8)) 32 = .ok d s2 → sortFault r d = none → n ≤ (nat32 d 16).toNat →
    sortRead s2 k keys (8 * n) = .ok kb s3 → sortRead s3 k vals (4 * n) = .ok vb s4 →
    sortWrites k { s4 with free := s4.free + 1 }
      ((if sortPasses (pairsOf kb vb n) = true then
          [(scr, openBytes s4.free (12 * (nat32 d 16).toNat)), (keys, out.flatMap (fun x => bytesOf 8 x.1)),
           (vals, out.flatMap (fun x => bytesOf 4 x.2))] else []) ++
        (if tbl = 0 then [] else [(tbl, rangeTable tiles (out.map (·.1)))])) = .ok () s5 →
    ∃ s' o', exec (.sortJob oid) s = .next s' ∧ s'.mem = s5.mem ∧ tabFind s'.sorts oid = none ∧ tabFind s'.jobs k.job = none ∧
      tabFind s'.ops oid = some o' ∧ o'.done = true ∧ o'.engine = false ∧ o'.err = 0)) ∧
  (∀ l, sortPasses l = false → sortPairs l = l) ∧
  (∀ (l : List (Double × Word)) (n t : Nat),
    let out := (sortPairs l).map (·.1)
    t < n → l.length < 2 ^ 32 → (rangeTable n out).length = 8 * n ∧ ∀ i (h : i < out.length),
      (i < (nat32 (rangeTable n out) (8 * t)).toNat ↔ out[i].toNat / 2 ^ 48 < t) ∧
      (i < (nat32 (rangeTable n out) (8 * t + 4)).toNat ↔ out[i].toNat / 2 ^ 48 ≤ t)) ∧
  (∀ (s s1 : State) (jid : Nat) (w : Who) (cl : Option Nat) (va : Double) (bs : List Byte) (pa : Nat),
    xlateAll s jid w .write (pieces va bs.length) [] = .ok [(pa, bs.length)] s1 → (jobOf s1 jid).isSome = true → s1.trough = [] →
    inAperture pa = false → (∀ i, i < bs.length → backed s1 (pa + i) = true) → ∃ s', jobWrite s jid w cl va bs = .ok () s' ∧
      (∀ i, i < bs.length → memByte s'.mem (pa + i) = bs.getD i 0) ∧
      ∀ a, a < pa ∨ pa + bs.length ≤ a → memByte s'.mem a = memByte s1.mem a)

/-- blend and bgrad read the records their lists name, at issue (DESIGN CHOICE, log entry 62), and write each pixel's state when they complete; a
pixel already finished is not read; bgrad also sends the sums of its gradients to memory and closes the region; its pages are checked at issue (log
entry 62), and a fault after that leaves D (DESIGN CHOICE, log entry 92).

vbuf.z, vbuf.id, vbuf.all and vbuf.zmax: every active lane's record, or all its samples, is loaded from its place in the Morton-ordered blocks; a
set zero bit traps first, then a base that is no multiple of 256, and a pixel or a sample outside the buffer with OUT_OF_RANGE. -/
def Obligations.BlendAndVisibility : Prop :=
  (∀ (w : FrWord) (s : State) (c : Go) (vs : List (Nat × List Word)) (us : List (Nat × GradRes)) (a : RdAcc),
  let d (l : Nat) := words c.g w.d 8 l
  let one (l : Nat) (x : RdAcc) : Except RdFail (List Word × RdAcc) := if (d l).getD 6 0 ≠ 0 then .ok (d l, x)
    else blendLane c l (words c.g w.a 4 l) (src2 c.g w.b 0) (src2 c.g w.c 0) (pktOf s c.g).thr 256 ((d l).set 7 0) x
  let back (l : Nat) (x : RdAcc) := gradLane c l (words c.g w.a 4 l) (src2 c.g w.b 0) (src2 c.g w.c 0) 256 ({ d := d l } : GradRes) x
  let sums := gradSums (pairGet c.g (w.b.toNat + 2) 0) (us.flatMap (fun v => v.2.em))
  (pre (.blend w) s = .go c → flagFull (.blend w) c = false → mustWait s c.gid false false = false → c.act = 0 → IssuesNothing (.blend w) s c) ∧
  (pre (.blend w) s = .go c → flagFull (.blend w) c = false → mustWait s c.gid false false = false → c.act ≠ 0 →
    rdLanes one (lanesOf c.act) ⟨s, []⟩ [] = .ok vs a →
    IssuesFrom (.blend w) s (recordAll a.s (partyOf a.s c.gid c.g) a.s.nextId 0 [] a.ts) c { newOp (.blend w) c with
      done := true, wrs := vs.flatMap (fun v => wordsWrs w.d v.1 v.2) }) ∧
  (pre (.blend w) s = .go c → flagFull (.blend w) c = false → mustWait s c.gid false false = false → c.act ≠ 0 →
    (∀ l, l < 32 → c.act.getLsbD l = true → regGet c.g (w.d.toNat + 6) l ≠ 0) →
    Issues (.blend w) s c { newOp (.blend w) c with done := true, wrs := (lanesOf c.act).flatMap (fun l => wordsWrs w.d l (d l)) }) ∧
  (pre (.bgrad w) s = .go c → flagFull (.bgrad w) c = false → mustWait s c.gid false false = false → c.act = 0 → IssuesNothing (.bgrad w) s c) ∧
  (pre (.bgrad w) s = .go c → flagFull (.bgrad w) c = false → mustWait s c.gid false false = false → unchecked s c.gid = false → c.act ≠ 0 →
    rdLanes back (lanesOf c.act) ⟨s, []⟩ [] = .ok us a → updAbsent s (whoOf c.g) sums = none → updWatch s c sums = none → ∃ s' g' o,
      exec (.bgrad w) s = .next s' ∧ grp s' c.gid = some g' ∧ g'.epoch = c.g.epoch + 1 ∧ g'.ckpt = ckptOf g' c.sp ∧
      tabFind s'.ops a.s.nextId = some o ∧ o.gid = c.gid ∧ o.wrs = us.flatMap (fun v => wordsWrs w.d v.1 v.2.d) ∧
      o.accs.map (fun x => (x.va, x.data)) = sums.map (fun u => (BitVec.ofNat 64 u.1, [u.2.setWidth 128])))) ∧
  (∀ (w : FmWord) (s : State) (c : Go) (pa : Nat → Nat) (pv : Nat → Bool),
  let base := src2 c.g w.base 0
  let cfg := regGet c.g (w.base.toNat + 2) 0
  let spp := 2 ^ (cfg.toNat / 65536 % 4)
  let xy (l : Nat) := (regGet c.g w.idx.toNat l).toNat
  let sm := w.off.toNat % 8
  let place (k l : Nat) : Double := base + BitVec.ofNat 64 (16 * (spp * (256 * (xy l / 65536 / 16 * ((cfg.toNat % 65536 + 15) / 16) +
    xy l % 65536 / 16) + morton (xy l % 65536 % 16) (xy l / 65536 % 16)) + k))
  let reads (i : Instr) (n k : Nat) (inside : Prop) : Prop := pre i s = .go c → flagFull i c = false →
    (c.act = 0 → IssuesNothing i s c) ∧
    (c.act ≠ 0 → cfg.toNat / 2 ^ 18 = 0 → regGet c.g (w.base.toNat + 3) 0 = 0 → base.toNat % 256 = 0 → inside →
      (∀ l, l < 32 → c.act.getLsbD l = true → xy l % 65536 < cfg.toNat % 65536) →
      Reaches s c .read .read n (place k) pa pv →
      Issues i s c { newOp i c with accs := (lanesOf c.act).map (laneAccess (place k) pa pv n false (fun _ => 0)) }) ∧
    (c.act ≠ 0 → closing s c.gid = false → cfg.toNat / 2 ^ 18 ≠ 0 ∨ regGet c.g (w.base.toNat + 3) 0 ≠ 0 →
      exec i s = .next (takeTrap s c.gid (infoAt 0x02#6 c.t c.act))) ∧
    (c.act ≠ 0 → closing s c.gid = false → cfg.toNat / 2 ^ 18 = 0 → regGet c.g (w.base.toNat + 3) 0 = 0 → base.toNat % 256 ≠ 0 →
      exec i s = .next (takeTrap s c.gid { infoAt 0x14#6 c.t c.act with faddr := some base })) ∧
    (∀ l, lowBit c.act = some l → closing s c.gid = false → cfg.toNat / 2 ^ 18 = 0 → regGet c.g (w.base.toNat + 3) 0 = 0 →
      base.toNat % 256 = 0 → cfg.toNat % 65536 ≤ xy l % 65536 ∨ ¬inside → ∃ m,
        exec i s = .next (takeTrap s c.gid { infoAt 0x15#6 c.t c.act with flanes := m, faddr := some (place k l) }) ∧ m.getLsbD l = true)
  reads (.vbufZ w) 16 sm (sm < spp) ∧ reads (.vbufId w) 16 sm (sm < spp) ∧ reads (.vbufAll w) 16 sm (sm < spp) ∧
  reads (.vbufZmax w) (16 * spp) 0 True)

/-! ### Work, scheduling, power -/

/-- rosec.enter opens its section when its ticket is the next, sleeps while it is not, and traps when misused; rosec.leave closes it and passes
NEXT on; the watchdog closes it once its time has come, and the trap follows, at once where the group waits at its exit; asked for before that time
it does nothing (DESIGN CHOICE, log entry 29). Time is CLK, which goes on by free amounts (log entry 1). -/
def Obligations.SectionWords : Prop := ∀ (w : FsWord) (s : State) (c : Go) (x : Section) (gid : Nat) (g : Group),
  let key := regGet c.g w.a.toNat 0
  let seq := regGet c.g (w.a.toNat + 1) 0
  let next := rosecNext s c.g.lid (key.toNat % 65536)
  let after (i : Instr) (s' : State) (g' : Group) : Prop := exec i s = .next s' ∧ grp s' c.gid = some g' ∧ s'.mem = s.mem ∧ g'.v = c.g.v ∧
    g'.s = c.g.s ∧ g'.p = c.g.p ∧ tabFind g'.splits c.sp = some (nextSplit c c.t) ∧ g'.epoch = c.g.epoch + 1
  let open_ : Prop := pre (.rosecEnter w) s = .go c ∧ c.act ≠ 0 ∧ key.toNat < 65536
  let mayEnter : Prop := c.g.splits.length ≤ 1 ∧ c.g.sect = none ∧ (seq - next).toNat < 2 ^ 31
  (pre (.rosecEnter w) s = .go c → c.act = 0 → OnlyAdvances (.rosecEnter w) s c) ∧
  (open_ → mayEnter → unchecked s c.gid = false → seq = next → ∃ s' g', after (.rosecEnter w) s' g' ∧ g'.sect = some
    { base := c.g.lid, key := key.toNat, ticket := seq.toNat, expires := s.clk + BitVec.ofNat 64 (1000 * (pktOf s c.g).wdog) }) ∧
  (open_ → mayEnter → unchecked s c.gid = false → seq ≠ next → ∃ s' g', exec (.rosecEnter w) s = .next s' ∧ OnlyGroup s s' c.gid g' ∧
    tabFind g'.splits c.sp = some { c.t with st := .asleep (.rosec c.g.lid key.toNat seq.toNat), sleeps := some (.rosecEnter w, c.act) } ∧
    g'.sect = none) ∧
  (pre (.rosecEnter w) s = .go c → c.act ≠ 0 → closing s c.gid = false → 65536 ≤ key.toNat →
    exec (.rosecEnter w) s = .next (takeTrap s c.gid (infoAt 0x02#6 c.t c.act))) ∧
  (open_ → closing s c.gid = false → ¬mayEnter → exec (.rosecEnter w) s = .next (takeTrap s c.gid (infoAt 0x3A#6 c.t c.act))) ∧
  (pre (.rosecLeave w) s = .go c → c.act = 0 → OnlyAdvances (.rosecLeave w) s c) ∧
  (pre (.rosecLeave w) s = .go c → c.act ≠ 0 → accessPending s c.gid = false → c.g.sect = some x → ∃ s' g', after (.rosecLeave w) s' g' ∧
    g'.sect = none ∧ rosecNext s' x.base x.key = BitVec.ofNat 32 (x.ticket + 1)) ∧
  (pre (.rosecLeave w) s = .go c → c.act ≠ 0 → closing s c.gid = false → c.g.sect = none →
    exec (.rosecLeave w) s = .next (takeTrap s c.gid (infoAt 0x3A#6 c.t c.act))) ∧
  (grp s gid = some g → g.sect = some x →
    (s.clk.toNat < x.expires.toNat → exec (.rosecTimeout gid) s = .next s) ∧
    (∀ p a, x.expires.toNat ≤ s.clk.toNat → g.sys = false → g.st = .exiting p a → ∃ s1 g1, grp s1 gid = some g1 ∧ g1.st = .running ∧
      g1.sect = none ∧ g1.rosecDue = false ∧ g1.live = a ∧ rosecNext s1 x.base x.key = BitVec.ofNat 32 (x.ticket + 1) ∧
      exec (.rosecTimeout gid) s = .next (takeTrap s1 gid { cause := 0x2A#6, pc := p, active := a, flanes := a, split := a })) ∧
    (x.expires.toNat ≤ s.clk.toNat → (∀ p a, g.st ≠ .exiting p a) → ∃ s' g', exec (.rosecTimeout gid) s = .next s' ∧ grp s' gid = some g' ∧
      g' = { g with sect := none, rosecDue := true, splits := g'.splits } ∧ (g.sys = true → g'.splits = g.splits) ∧
      (∀ k t, g.sys = false → tabFind g.splits k = some t → (∀ e, t.st ≠ .asleep (.join e)) →
        tabFind g'.splits k = some { t with st := .ready }) ∧ rosecNext s' x.base x.key = BitVec.ofNat 32 (x.ticket + 1)))

/-- launch.acc and launch.done close the region and hand a child to the Yard, a seventeenth once a flag is released, those without a flag counted
too (DESIGN CHOICE, log entry 106); validation gives a launch its identifier, its units and its channels, or ends a child with the cause its packet
meets; packets of a queue are taken in ring order. An accepted launch is counted in the level above; a graph or a phase that is thereby accepted is
counted in its own (DEDUCED, log entry 103). -/
def Obligations.ChildLaunches : Prop := ∀ (w : FmWord) (s : State) (c : Go) (pa : Nat) (p : Bool) (lid : Nat) (v : Level),
  let va := src2 c.g w.base 0 + w.off.signExtend 64
  let seen : Prop := va.toNat % 128 = 0 ∧ translate s (whoOf c.g) .read va = .ok pa p ∧
    ∀ k, k < 2 → watchMatch (ctxOf s c.g.ctx) k .read 128 va = false
  let handed (i : Instr) (acc done : Option Nat) : Prop :=
    (pre i s = .go c → flagFull i c = false → c.act = 0 → IssuesNothing i s c) ∧
    (pre i s = .go c → flagFull i c = false → c.act ≠ 0 → seen → accessPending s c.gid = false → 16 ≤ launchesOut s c.gid →
      exec i s = .next (sleepSplit s i c .queue)) ∧
    (pre i s = .go c → flagFull i c = false → c.act ≠ 0 → seen → accessPending s c.gid = false → launchesOut s c.gid < 16 → ∃ s' g' o u,
      exec i s = .next s' ∧ s'.mem = s.mem ∧ grp s' c.gid = some g' ∧ g'.epoch = c.g.epoch + 1 ∧
      tabFind g'.splits c.sp ≠ none ∧ g'.v = c.g.v ∧ g'.s = c.g.s ∧
      tabFind s'.ops s.nextId = some o ∧ o.instr = i ∧ o.gid = c.gid ∧ o.engine = true ∧ o.done = false ∧
      tabFind s'.levels (s.nextId + 1) = some u ∧ u.kind = .launch ∧ u.child = true ∧ u.parent = some c.g.lid ∧ u.ctx = c.g.ctx ∧
      u.va = va ∧ u.valid = false ∧ u.depth = (levelOf s c.g.lid).depth + 1 ∧ u.accOp = acc ∧ u.waiter = done) ∧
    (pre i s = .go c → flagFull i c = false → c.act ≠ 0 → closing s c.gid = false → va.toNat % 128 ≠ 0 → ∃ t : TrapInfo,
      t.cause = 0x14#6 ∧ exec i s = .next (takeTrap s c.gid t))
  let fresh : Prop := tabFind s.levels lid = some v ∧ v.kind = .launch ∧ v.valid = false ∧ v.cause = 0 ∧ v.done = false ∧
    earlierPacket s lid v = false ∧
    ∀ k, v.child = true → v.parent = some k → (levelOf s k).done = false ∧ (levelOf s k).cancelled = false
  handed (.launchAcc w) (some s.nextId) none ∧ handed (.launchDone w) none (some s.nextId) ∧
  (∀ pk rs s1, fresh → v.parent ≠ some lid → validateLevel s v = .ok pk rs s1 → ∃ s' v', exec (.packetValidation lid) s = .next s' ∧
    tabFind s'.levels lid = some v' ∧ v'.valid = true ∧ v'.pkt = pk ∧ v'.count = pk.nUnits ∧ v'.chans = channelsOf pk ∧
    v'.ident = nextIdent (ctxOf s1 v.ctx) ∧ (ctxOf s' v.ctx).launches = (ctxOf s1 v.ctx).launches + 1 ∧
    (∀ k u, v.parent = some k → tabFind s.levels k = some u → u.kind = .launch ∨ u.valid = true → ∃ u',
      tabFind s'.levels k = some u' ∧ u'.count = u.count + 1 ∧ u'.valid = u.valid) ∧
    (∀ k u p x, v.parent = some k → tabFind s.levels k = some u → u.kind ≠ .launch → u.valid = false → u.parent = some p → p ≠ k → p ≠ lid →
      tabFind s.levels p = some x → x.valid = true → ∃ u' x', tabFind s'.levels k = some u' ∧ u'.count = u.count + 1 ∧ u'.valid = true ∧
        tabFind s'.levels p = some x' ∧ x'.count = x.count + 1) ∧
    (∀ k o, v.accOp = some k → tabFind s.ops k = some o → ∃ o', tabFind s'.ops k = some o' ∧ o'.done = true ∧ o'.err = 0 ∧
      o'.wrs = identWrs o v'.ident) ∧
    (∀ k o, v.accOp = none → v.waiter = some k → tabFind s.ops k = some o →
      tabFind s'.ops k = some { o with wrs := identWrs o v'.ident })) ∧
  (tabFind s.levels lid = some v → v.kind = .launch → v.valid = false → v.cause = 0 → v.done = false → v.child = false →
    earlierPacket s lid v = true → exec (.packetValidation lid) s = .next s) ∧
  (∀ e s1, fresh → v.child = true → validateLevel s v = .bad e s1 → ∃ s', exec (.packetValidation lid) s = .next s' ∧ tabFind s'.levels lid = none ∧
    ∀ k o, v.accOp = some k ∨ v.waiter = some k → tabFind s.ops k = some o → ∃ o', tabFind s'.ops k = some o' ∧ o'.done = true ∧ o'.err = e)

/-- cnt.rd reads a level's count with bit 31 for a cancel; cnt.wait.child sleeps until the child is complete; cnt.cancel marks the level it names
and, of the unit, ends it; a level already complete is not changed; an identifier of no child traps.

With no unit or engine job about, a cancel marks the level it names and every incomplete level it contains, at any depth, and the marks stay. -/
def Obligations.CountersAndCancel : Prop :=
  (∀ (w : FiWord) (s : State) (c : Go) (k : Nat),
  let count (n : Nat) (b : Bool) : Double := BitVec.ofNat 64 (n % 2 ^ 31 + if b then 2 ^ 31 else 0)
  let named : Prop := if w.level = 5 then childNamed s c.g.lid (childId c w) = some k
    else w.level ≠ 0 ∧ namedLevel s c.g w.level = some k
  let u := unitOf s c.g.uid
  let bad (i : Instr) : Prop := pre i s = .go c → c.act ≠ 0 → closing s c.gid = false → unchecked s c.gid = false → w.level = 5 →
    childNamed s c.g.lid (childId c w) = none → exec i s = .next (takeTrap s c.gid (infoAt 0x16#6 c.t c.act))
  (pre (.cntRd w) s = .go c → c.act = 0 → OnlyAdvances (.cntRd w) s c) ∧
  (pre (.cntRd w) s = .go c → c.act ≠ 0 → w.level = 0 →
    LaneDone (.cntRd w) s c (.reg w.d) (fun _ => count u.left u.cancelled) (fun _ => 0)) ∧
  (pre (.cntRd w) s = .go c → c.act ≠ 0 → named →
    LaneDone (.cntRd w) s c (.reg w.d) (fun _ => count (levelOf s k).count (levelOf s k).cancelled) (fun _ => 0)) ∧
  bad (.cntRd w) ∧ bad (.cntWait w) ∧ bad (.cntCancel w) ∧
  (pre (.cntWait w) s = .go c → c.act = 0 → OnlyAdvances (.cntWait w) s c) ∧
  (pre (.cntWait w) s = .go c → c.act ≠ 0 → childNamed s c.g.lid (childId c w) = some k → (levelOf s k).done = true →
    regionOf (childWaited s c k) c.g.uid = regionOf s c.g.uid + 1 ∧ AdvancesFrom (.cntWait w) s (childWaited s c k) c) ∧
  (pre (.cntWait w) s = .go c → c.act ≠ 0 → childNamed s c.g.lid (childId c w) = some k → (levelOf s k).done = false → ∃ s' g',
    exec (.cntWait w) s = .next s' ∧ OnlyGroup s s' c.gid g' ∧
    tabFind g'.splits c.sp = some { c.t with st := .asleep (.count k), sleeps := some (.cntWait w, c.act) }) ∧
  (pre (.cntCancel w) s = .go c → c.act = 0 → OnlyAdvances (.cntCancel w) s c) ∧
  (pre (.cntCancel w) s = .go c → c.act ≠ 0 → unchecked s c.gid = false → w.level = 0 → ∃ s',
    exec (.cntCancel w) s = .next s' ∧ tabFind s'.units c.g.uid = none) ∧
  (∀ v, pre (.cntCancel w) s = .go c → c.act ≠ 0 → unchecked s c.gid = false → w.level = 5 → named → tabFind s.levels k = some v →
    v.done = false → v.kind = .launch → v.child = true → (∀ e, e ∈ s.units → e.2.lid ≠ k) → (∀ e, e ∈ s.jobs → e.2.lid ≠ k) →
    (∀ e, e ∈ s.levels → e.2.parent ≠ some k) → ∃ s' v', exec (.cntCancel w) s = .next s' ∧ s'.mem = s.mem ∧
      tabFind s'.levels k = some v' ∧ v'.cancelled = true ∧ v'.cause = (if v.cause = 0 then 0x3D else v.cause) ∧ v'.placed = v.pkt.nUnits ∧
      v'.count = v.count - (v.pkt.nUnits - v.placed)) ∧
  (pre (.cntCancel w) s = .go c → c.act ≠ 0 → unchecked s c.gid = false → named → (levelOf s k).done = true →
    exec (.cntCancel w) s = .next (retireClose s c))) ∧
  (∀ (s : State) (k : Nat) (e : BitVec 6) (v : Level),
  s.units = [] → s.jobs = [] → tabFind s.levels k = some v → v.done = false →
    (∀ path : List Nat, path.Nodup → path[0]? = some k →
      (∀ i a b, path[i]? = some a → path[i + 1]? = some b → ∃ u, tabFind s.levels b = some u ∧ u.parent = some a ∧ u.done = false) →
      ∀ j, j ∈ path → (levelOf (cancelLevel s k e) j).cancelled = true) ∧
    ∀ j u, tabFind s.levels j = some u → u.cancelled = true → (levelOf (cancelLevel s k e) j).cancelled = true)

/-- LEVEL_COMPLETION completes a level whose count is zero, once: the level above counts it where it had been accepted (DEDUCED, log entry 103), the
launching instruction learns of it, a phase appends its completion record, the only one that then waits; first a unit whose groups have ended ends,
unless an engine job they started is not complete; an engine's hold ends with the footprint that held it. -/
def Obligations.LevelsComplete : Prop := ∀ (s : State) (lid jid uid : Nat) (v : Level) (j : Job) (x : UnitS),
  let e := endEmptyUnits s lid
  ((∀ u, u ∈ s.units → u.2.lid = lid → (unitOf s u.1).left ≠ 0 ∨ ∃ k, k ∈ s.jobs ∧ jobOfUnit u.1 k.2 = true) → e = s) ∧
  (s.units = [(uid, x)] → x.lid = lid → x.left = 0 → (∀ k, k ∈ s.jobs → jobOfUnit uid k.2 = false) → e.units = [] ∧
    ∀ y, tabFind s.levels lid = some y → tabFind e.levels lid = some { y with count := y.count - 1 }) ∧
  (tabFind e.levels lid = some v → levelReady e lid v = false → exec (.levelCompletion lid) s = .next e) ∧
  (tabFind e.levels lid = some v → levelReady e lid v = true → v.cause = 0 → v.drawErr = 0 → v.kind ≠ .job → v.parent ≠ some lid → ∃ s',
    exec (.levelCompletion lid) s = .next s' ∧ tabFind s'.levels lid = some { v with done := true } ∧
    (∀ p u, v.parent = some p → tabFind e.levels p = some u → ∃ u', tabFind s'.levels p = some u' ∧
      u' = { u with count := if v.valid = true then u.count - 1 else u.count, readyAt := u'.readyAt, before := u'.before,
                    after := if v.child = true then u.after else joinClock u.after v.after }) ∧
    (∀ oid o, v.kind = .launch → v.waiter = some oid → tabFind e.ops oid = some o →
      tabFind s'.ops oid = some { o with engine := false, done := true, err := 0 }) ∧
    (∀ q p, v.kind = .phase → v.queue = some q → v.parent = some p → v.cancelled = false → (queueOf e q).recs = [] ∧ (queueOf s' q).recs =
      [w32 (levelOf e p).jobSeq ++ bytesOf 2 (BitVec.ofNat 16 v.index) ++
        [if v.last then (if v.trunc then 9 else 1) else 0, 0] ++ List.replicate 8 0])) ∧
  (tabFind e.levels lid = some v → levelReady e lid v = true → ∃ s', exec (.levelCompletion lid) s = .next s') ∧
  (tabFind s.jobs jid = some j → ∃ s', exec (.engineFootprintRelease jid) s = .next s' ∧ s' = { s with jobs := s'.jobs } ∧
    tabFind s'.jobs jid = some { j with heldR := j.heldR && edgeR s jid j, heldW := j.heldW && edgeW s jid j } ∧
    ∀ k, k ≠ jid → tabFind s'.jobs k = tabFind s.jobs k)

/-- An issue cycle takes, of a quarter's ready groups, one that no other precedes, and its first ready split after the last; once its word has
issued the others of the quarter age, and where it is held nothing ages; a group whose age has reached 48 is due. An issue cycle whose clk
another group's bracket does not allow waits (the model's choice: log entry 1). -/
def Obligations.IssueCycleChooses : Prop := ∀ (s : State) (core quarter gid sp : Nat) (g : Group),
  (s.cur = none → chooseGroup s core quarter = some (gid, g) → chooseSplit g = some sp →
    ((wordClk s g).toNat ≤ (clockCap s (some gid)).toNat →
      exec (.issueCycle core quarter none) s = .next { s with turn := 4 * core + quarter + 1, cur := some (gid, sp) }) ∧
    ((clockCap s (some gid)).toNat < (wordClk s g).toNat → exec (.issueCycle core quarter none) s = .next s)) ∧
  (∀ t x, grp s gid = some g → grp t gid = some x →
    grp (agedGroups s gid sp g t) gid = some { x with age := 0, due := false, lastSplit := sp } ∧
    (∀ k y h, k ≠ gid → grp t k = some y → grp s k = some h → grp (agedGroups s gid sp g t) k =
      some (if h.core = g.core ∧ h.quarter = g.quarter ∧ groupReady h = true then { y with age := y.age + 1 } else y)) ∧
    ((tabFind x.splits sp).any (fun y => y.st == .held) = true → ∀ k y, grp t k = some y →
      ∃ y', grp (afterWord s gid sp t) k = some y' ∧ y' = { y with bracket := y'.bracket })) ∧
  (chooseGroup s core quarter = some (gid, g) → g.core = core ∧ g.quarter = quarter ∧ groupReady g = true ∧
    ∀ e, e ∈ s.groups → e.2.core = core → e.2.quarter = quarter → groupReady e.2 = true → comesFirst s e.2 g = false) ∧
  (∀ a b : Group, a.due = true → b.due = false → b.age < 48 → comesFirst s a b = true) ∧
  (∀ a b : Group, a.due = b.due → 48 ≤ a.age → b.age < a.age → a.due = true → comesFirst s a b = true) ∧
  (∀ a b : Group, a.due = false → b.due = false → a.age < 48 → b.age < 48 → (pktOf s b).prio < (pktOf s a).prio → comesFirst s a b = true) ∧
  (chooseSplit g = some sp → sp < 4 ∧ (∃ t, tabFind g.splits sp = some t ∧ t.st = .ready) ∧
    ∀ d t, 1 ≤ d → d ≤ 4 → tabFind g.splits ((g.lastSplit + d) % 4) = some t → t.st = .ready →
      ∀ n, 1 ≤ n → n ≤ 4 → (g.lastSplit + n) % 4 = sp → n ≤ d) ∧
  (grp s gid = some g → ∃ s', exec (.groupDue gid) s = .next s' ∧ s' = { s with groups := s'.groups } ∧
    grp s' gid = some (if 48 ≤ g.age then { g with due := true } else g) ∧ ∀ k, k ≠ gid → grp s' k = grp s k)

/-- A dispatch decision takes, of the launches it could place, the oldest passed over sixteen times, else the greatest priority that the budget
covers; where it has placed a unit it resets the pass count of that launch and raises those of the others that it could have placed; a unit that
only completes (R455) is no placement. No unit of a context that is not running is placed; a launch is stamped with the time at which it becomes
ready, whatever the state of its context. -/
def Obligations.DispatchDecides : Prop := ∀ (s s1 : State) (cluster lid : Nat),
  let cs := candidates s cluster
  (decision s cs = none → exec (.dispatchDecision cluster) s = .next s) ∧
  (decision s cs = some (lid, s1) → ∃ s', exec (.dispatchDecision cluster) s = .next s' ∧ s'.mem = s1.mem ∧ s'.groups = s1.groups ∧
    s'.units = s1.units ∧ ∀ k v, tabFind s1.levels k = some v → ∃ v', tabFind s'.levels k = some v' ∧ v' = { v with pass := v'.pass } ∧
      (placesUnit s s1 = false → v' = v) ∧ (placesUnit s s1 = true → (k = lid → v'.pass = 0) ∧
        (k ≠ lid → (∃ x, (k, x) ∈ cs ∧ placesUnit s x = true) → v'.pass = v.pass + 1) ∧
        (k ≠ lid → (¬∃ x, (k, x) ∈ cs ∧ placesUnit s x = true) → v'.pass = v.pass))) ∧
  (decision s cs = some (lid, s1) → (lid, s1) ∈ cs ∧
    (∀ e, e ∈ cs → 16 ≤ (levelOf s e.1).pass → 16 ≤ (levelOf s lid).pass ∧ older s e.1 lid = false) ∧
    ((∀ e, e ∈ cs → (levelOf s e.1).pass < 16) → fits s lid = true ∧ ∀ e, e ∈ cs → fits s e.1 = true →
      (levelOf s e.1).pkt.prio ≤ (levelOf s lid).pkt.prio)) ∧
  (decision s cs = none → ∀ e, e ∈ cs → (levelOf s e.1).pass < 16 ∧ fits s e.1 = false) ∧
  (∀ e, e ∈ cs → (ctxOf s (levelOf s e.1).ctx).st = .running ∧ ∃ v, (e.1, v) ∈ s.levels ∧ launchReady s e.1 v = true) ∧
  (∀ k v, tabFind s.levels k = some v → tabFind (markReady s).levels k =
    some (if v.readyAt = none ∧ launchReady s k v = true then
      { v with readyAt := some s.clk.toNat, before := if v.child = true then v.before else beforeOf s v } else v))

/-- ROLE_HINT_EVALUATION changes hints alone: it withdraws those without a cause, and raises one only in a resident unit, for a back-pressured
stage, in an awake group whose role is outside the stage, the stage's lowest role.

BUDGET_REFRESH takes the readings of the 32 sensors and the draw as the outside gives them (DESIGN CHOICE, log entry 28). With the rails up and the
hottest sensor, the lowest of several, below 110 °C it sets THERM from it, ALLOW from the limits less 900 W, and moves the gating level by the
draw; THERMSTAT holds the reading, the sensor and the peak. At 110 °C, which a sensor without a reading counts as, the device shuts down. -/
def Obligations.HintsAndBudget : Prop :=
  (∀ (s : State) (k : Nat) (g : Group), (s.groups.map (·.1)).Nodup → grp s k = some g →
  ∃ s' g', exec .roleHintEvaluation s = .next s' ∧ s' = { s with groups := s'.groups } ∧ grp s' k = some g' ∧
    g' = { g with hintV := g'.hintV, hint := g'.hint, hintFor := g'.hintFor, hintRole := g'.hintRole } ∧
    ((∀ e, e ∈ s.units → e.2.resident = false) → g' = if g.hintV = true ∧
      (backPressured s g.lid ((pktOf s g).stages.getD g.hintFor {}) = false ∨ g.role ≠ g.hintRole) then { g with hintV := false } else g) ∧
    (g.hintV = false → g'.hintV = true → ∃ e t r, e ∈ s.units ∧ e.1 = g.uid ∧ e.2.resident = true ∧
      (levelOf s e.2.lid).pkt.stages.getD g'.hintFor {} = t ∧ backPressured s e.2.lid t = true ∧ bit t.roles g.role.toNat = false ∧
      lowBit t.roles = some r ∧ g'.hint = BitVec.ofNat 4 r ∧ g.st = .running)) ∧
  (∀ (s : State) (dies rest : List (Option Int)) (t16 : Int) (hot draw : Nat),
  let reading (k : Nat) : Int := (if k < 20 then dies.getD k none else rest.getD (k - 20) none).getD 1760
  let limit := min 3000 (max 1000 ((hregGet s 0x42000).toNat % 4096))
  let t := ((t16 + 15) / 16).toNat % 256
  hot < 32 → reading hot = t16 → (∀ k, k < 32 → reading k ≤ t16) → (∀ k, k < hot → reading k < t16) →
  (powered s = false → exec (.budgetRefresh dies rest draw) s = .next s) ∧
  (powered s = true → 1760 ≤ t16 → ∃ s', exec (.budgetRefresh dies rest draw) s = .next s' ∧ s'.shutdown = 5 ∧ s'.rails = [.vaux] ∧
    powered s' = false ∧ s'.ready = false ∧ s'.groups = [] ∧ s'.units = [] ∧ s'.hreg = []) ∧
  (powered s = true → t16 < 1760 → ∃ s', exec (.budgetRefresh dies rest draw) s = .next s' ∧ s'.mem = s.mem ∧ s'.groups = s.groups ∧
    (t16 ≤ 1520 → s'.therm = 3000) ∧
    (∀ n : Nat, 16 * (n : Int) < t16 - 1520 → t16 - 1520 ≤ 16 * (n + 1 : Int) → s'.therm = max 1000 (3000 - 200 * (n + 1))) ∧
    s'.allow = min limit s'.therm - 900 ∧
    s'.level = (if s'.allow < draw then min (s.level + 1) 14 else if 8 * draw < 7 * s'.allow then s.level - 1 else s.level) ∧
    hregGet s' 0x62000 = BitVec.ofNat 64 (max t ((hregGet s 0x62000).toNat / 65536 % 256) * 65536 + t * 256 + hot % 32) ∧
    ∀ k v, tabFind s'.levels k = some v → ∃ u, tabFind s.levels k = some u ∧ v = { u with pass := v.pass } ∧
      (v.pass = u.pass ∨ v.pass = u.pass + 1)))

/-! ### Translation, contexts, engines -/

/-- A walk that ends in a leaf gives its translation to the TLB of a core and to that of the core's cluster, which hold no more entries than their
sizes (which core is the model's choice: log entry 52); a TLBINV is taken, once BAR0 answers, unless one is busy, and completes, its translations
gone, once no lease and no translated access holds it; PGDONE lets a group waiting for the page be restored. -/
def Obligations.TranslationsKept : Prop := ∀ (s : State) (ctx va n : Nat) (wb : Bool) (e : TlbEntry) (i : Inval) (k : Nat) (g : Group),
  let page := va / 65536
  let starts (a : Instr) (x : Inval) : Prop := (s.ready = true → s.inval = none → exec a s = .next { s with inval := some x }) ∧
    (s.ready = true → s.inval ≠ none → ∃ s', exec a s = .next s' ∧ s' = { s with hreg := s'.hreg } ∧
      hregGet s' 0x43010 = hregGet s 0x43010 ||| 2) ∧ (s.ready = false → exec a s = .next s)
  (walk s ctx va = .leaf e → ∃ s' core, exec (.translationWalk ctx va) s = .next s' ∧ s' = { s with tlb := s'.tlb, free := s.free + 1 } ∧
    core < 192 ∧ (∀ t, t ∈ coreTlbs core → (tlbHas s' t e.ctx e.va).isSome = true) ∧
    (∀ t, t ∉ coreTlbs core → tabGet [] s'.tlb t = tabGet [] s.tlb t) ∧
    ∀ t, (tabGet [] s.tlb t).length ≤ tlbSize t → (tabGet [] s'.tlb t).length ≤ tlbSize t) ∧
  (∀ c, walk s ctx va = .bad c → exec (.translationWalk ctx va) s = .next s) ∧
  starts (.tlbinvPage ctx va wb) ⟨0, ctx, page * 65536, 0, wb⟩ ∧ (n < 25 → starts (.tlbinvRange ctx va n wb) ⟨1, ctx, page * 65536, n, wb⟩) ∧
  starts (.tlbinvContext ctx wb) ⟨2, ctx, 0, 0, wb⟩ ∧ starts (.tlbinvAll wb) ⟨3, 0, 0, 0, wb⟩ ∧
  (s.ready = true → 25 ≤ n → ∃ s', exec (.tlbinvRange ctx va n wb) s = .next s' ∧ s' = { s with hreg := s'.hreg } ∧
    hregGet s' 0x43010 = hregGet s 0x43010 ||| 2) ∧
  (s.inval = some i → leaseHolds s i = true ∨ accessHolds s i = true → exec .tlbinvComplete s = .next s) ∧
  (s.inval = some i → leaseHolds s i = false → accessHolds s i = false → ∃ s', exec .tlbinvComplete s = .next s' ∧ s'.inval = none ∧
    (∀ t x, x ∈ tabGet [] s'.tlb t ↔ x ∈ tabGet [] s.tlb t ∧ invalMatches i x = false) ∧
    (i.wb = false → s' = { s with tlb := s'.tlb, inval := none }) ∧
    (i.wb = true → 2 ≤ i.scope → s'.races = [] ∧ s'.scopes = [])) ∧
  (s.ready = false → exec (.pgdone ctx va) s = .next s) ∧
  (s.ready = true → (∀ x, x ∈ s.groups → ¬(x.2.ctx = ctx ∧ x.2.waitPage = some page)) → ∃ s', exec (.pgdone ctx va) s = .next s' ∧ s'.mem = s.mem ∧
    s'.groups = s.groups ∧ (∀ p, p ∈ (ctxOf s' ctx).asked ↔ p ∈ (ctxOf s ctx).asked ∧ p ≠ page)) ∧
  (s.ready = true → grp s k = some g → g.ctx = ctx → g.waitPage = some page → (∀ x, x ∈ s.groups → x.2.ctx = ctx ∧ x.2.waitPage = some page → x.1 = k) →
    (tabFind s.ctxs ctx).isSome = true → walk s ctx (65536 * page) ≠ .absent → ∃ s', exec (.pgdone ctx va) s = .next s' ∧ s'.mem = s.mem ∧
      grp s' k = some { g with waitPage := none, st := if g.st = .waiting then .running else g.st })

/-- Once BAR0 answers, STOP marks every group of the context, and takes one that waits at its exit at once; PREEMPT starts its draining and its
deadline; RESUME runs it; any other command is an error. A drained context goes off and its translations with it; one whose deadline has passed is
reset. -/
def Obligations.ContextsControlled : Prop := ∀ (s : State) (ctx : Nat),
  let named (t : State) : Prop := (hregGet t 0x43028).toNat / 256 % 256 = ctx % 256
  let leaves (g : Group) : Prop := g.ctx = ctx ∧ g.sys = false ∧ ∃ p a, g.st = .exiting p a
  (s.ready = false → exec (.ctxctlStop ctx) s = .next s ∧ exec (.ctxctlPreempt ctx) s = .next s ∧ exec (.ctxctlResume ctx) s = .next s ∧
    exec (.ctxctlInvalid ctx) s = .next s) ∧
  (s.ready = true → (∀ e, e ∈ s.groups → ¬ leaves e.2) → ∃ s', exec (.ctxctlStop ctx) s = .next s' ∧ named s' ∧ s'.mem = s.mem ∧
    ∀ k g, grp s k = some g → ∃ g', grp s' k = some g' ∧
    (g.ctx ≠ ctx → g' = g) ∧ (g.ctx = ctx → g'.stopDue = true ∧
      g' = { g with stopDue := true, splits := g'.splits, st := if g.st = .waiting ∧ g.sys = false then .running else g.st } ∧
      ∀ n t, tabFind g.splits n = some t → tabFind g'.splits n = some (if t.st = .held then { t with st := .ready } else t))) ∧
  (∀ k g p a, s.ready = true → grp s k = some g → g.ctx = ctx → g.sys = false → g.st = .exiting p a →
    (∀ e, e ∈ s.groups → leaves e.2 → e.1 = k) → ∃ s1 g1, grp s1 k = some g1 ∧ g1.st = .running ∧ g1.live = a ∧ g1.stopDue = false ∧ exec (.ctxctlStop ctx) s =
      .next (takeTrap s1 k { cause := 0x35#6, pc := p, active := a, flanes := a, split := a })) ∧
  (s.ready = true → (ctxOf s ctx).st = .running → ∃ s' x, exec (.ctxctlPreempt ctx) s = .next s' ∧ named s' ∧ s'.groups = s.groups ∧ s'.mem = s.mem ∧
    tabFind s'.ctxs ctx = some x ∧ x.st = .draining ∧
    x.expires = some (s.clk + BitVec.ofNat 64 (1000 * (if (ctxOf s ctx).deadline = 0 then 2000 else (ctxOf s ctx).deadline)))) ∧
  (s.ready = true → (ctxOf s ctx).st ≠ .running → ∃ s', exec (.ctxctlPreempt ctx) s = .next s' ∧ named s' ∧ s' = { s with hreg := s'.hreg } ∧
    bit (hregGet s' 0x43028) 2 = true) ∧
  (s.ready = true → ∃ s' x, exec (.ctxctlResume ctx) s = .next s' ∧ named s' ∧ s'.groups = s.groups ∧ tabFind s'.ctxs ctx = some x ∧ x.st = .running ∧
    x.expires = none) ∧
  (s.ready = true → ∃ s', exec (.ctxctlInvalid ctx) s = .next s' ∧ named s' ∧ s' = { s with hreg := s'.hreg } ∧ bit (hregGet s' 0x43028) 2 = true) ∧
  ((ctxOf s ctx).st = .draining → (∀ u, u ∈ s.units → u.2.ctx = ctx → u.2.resident = false) → ∃ s', exec (.contextOff ctx) s = .next s' ∧
    (ctxOf s' ctx).st = .off ∧ (ctxOf s' ctx).expires = none ∧
    ∀ t e, e ∈ tabGet [] s'.tlb t ↔ e ∈ tabGet [] s.tlb t ∧ e.ctx ≠ ctx) ∧
  ((ctxOf s ctx).st ≠ .draining → exec (.contextOff ctx) s = .next s) ∧
  (∀ v, (ctxOf s ctx).expires = some v → (ctxOf s ctx).st = .draining → v.toNat ≤ s.clk.toNat → ∃ s',
    exec (.preemptDeadlineExpiry ctx) s = .next s' ∧ (ctxOf s' ctx).st = .reset ∧ (ctxOf s' ctx).expires = none ∧
    ∀ t e, e ∈ tabGet [] s'.tlb t → e.ctx ≠ ctx) ∧
  (∀ v, (ctxOf s ctx).expires = some v → s.clk.toNat < v.toNat → exec (.preemptDeadlineExpiry ctx) s = .next s)

/-- A swapped group comes back to a quarter with room: registers and window from its frame, its splits from the checkpoint, its frame free;
one whose page is missing, or whose context is off, waits.

Under store pressure the parked slots of the group swapped out longest go to its frame; a quiescent unit of a draining context is saved; a core
that fails takes its cluster's next spare, or goes off line, and COREFAIL counts it; the groups of its unit and the jobs they started end, and the
unit is to be run again where its launch has RESTART, else complete with MACHINE_CHECK. -/
def Obligations.GroupsAndUnitsSaved : Prop :=
  (∀ (s s2 : State) (gid k q slot tok : Nat) (g : Group) (bs : List Byte) (ck : Ckpt),
  grp s gid = some g → g.st = .swapped k →
  let fa := (ctxOf s g.ctx).sfbase + 0x40000#64 * BitVec.ofNat 64 k
  (g.waitPage ≠ none → exec (.groupRestore gid) s = .next s) ∧
  ((ctxOf s g.ctx).st = .off → exec (.groupRestore gid) s = .next s) ∧
  (g.waitPage = none → (unitOf s g.uid).resident = true → (ctxOf s g.ctx).st = .running → restorePlace s g = some (q, slot) →
    spillAbsent s { g with quarter := q, slot := slot, spills := savedSpills g } = none → (∀ i, isEvicted (nameOf g i) = false) →
    vaRead (reslot s g.uid g.slot slot) (frameWho g) fa 0xB000 = .ok (bs, s2) → g.swapCkpt = some (tok, ck) →
    ckptOk bs tok = true → (∀ i, i < 64 → (frameName bs i).st ≠ .evicted) → g.w ≤ 24 → ∃ s' g', exec (.groupRestore gid) s = .next s' ∧
      grp s' gid = some g' ∧ g'.st = .running ∧ g'.quarter = q ∧ g'.slot = slot ∧ g'.swapCkpt = none ∧ g'.ckpt = ck ∧ g'.stack = ck.stack ∧
      g'.splits = ck.splits.map (fun e => (e.1, resumeSplit e.2)) ∧ k ∉ (ctxOf s' g.ctx).sframes ∧
      g'.w = g.w ∧ (∀ i, i < 63 → regGet g' (192 + i) 0 = nat32 bs (0x500 + 4 * i)) ∧
      (∀ i l, i < 8 * g.w → l < 32 → regGet g' i l = nat32 bs (0x1000 + 128 * i + 4 * l)) ∧
      (∀ l, l < 32 → tabGet 0 g'.ff l = (bs.getD (0x6C0 + l) 0).setWidth 7) ∧ g'.fpen = (nat32 bs 0x84).setWidth 5)) ∧
  (∀ (s s1 : State) (core gid k uid : Nat) (g : Group) (u : UnitS),
  (slotsShort s core = false → exec (.storePressureEvict core) s = .next s) ∧
  (slotsShort s core = true → evictVictim s core = some (gid, g) → grp s gid = some g → g.st = .swapped k →
    evictNames ((ctxOf s g.ctx).sfbase + 0x40000#64 * BitVec.ofNat 64 k) gid allNames s = .ok s1 → ∃ s' g',
      exec (.storePressureEvict core) s = .next s' ∧ grp s' gid = some g' ∧ g'.st = .swapped k ∧
      (∀ i, i < 64 → (nameOf g i).cslot ≠ none → (nameOf g i).pslot = none → nameOf g' i = { st := .evicted }) ∧
      (∀ i, i < 64 → (nameOf g i).cslot = none ∨ (nameOf g i).pslot ≠ none → nameOf g' i = nameOf g i)) ∧
  (tabFind s.units uid = some u → (ctxOf s u.ctx).st ≠ .draining → exec (.unitSave uid) s = .next s) ∧
  (tabFind s.units uid = some u → (ctxOf s u.ctx).st = .draining → u.resident = true → quiescent s uid = true →
    framesCover s uid (ctxOf s u.ctx) = true → freeFrame (ctxOf s u.ctx).uframes (ctxOf s u.ctx).ufcount = some k →
    saveUnit s uid k = .ok s1 → exec (.unitSave uid) s = .next s1 ∧ tabFind s1.tags uid = none ∧
      ∀ u', tabFind s1.units uid = some u' → u'.resident = false ∧ u'.frame = k ∧ u'.scratch = [] ∧ u'.vault = [] ∧ u'.opool = []) ∧
  (unitsOn s core = [] → ∃ s', exec (.coreFailure core) s = .next s' ∧ s'.mem = s.mem ∧ s'.groups = s.groups ∧
    (tabGet 0 s.spares (core / 48) < 2 → tabGet 0 s'.spares (core / 48) = tabGet 0 s.spares (core / 48) + 1 ∧
      (coreOf s' core).phys = some (sparePos (core / 48) (tabGet 0 s.spares (core / 48))) ∧
      (coreOf s' core).failed = (coreOf s core).failed) ∧
    (2 ≤ tabGet 0 s.spares (core / 48) → (coreOf s' core).failed = true) ∧ (∀ n, n ≠ core → coreOf s' n = coreOf s n) ∧
    (hregGet s 0x60028 ≠ 0xFFFFFFFF → hregGet s' 0x60028 = hregGet s 0x60028 + 1) ∧
    ∃ e, s'.events = s.events ++ [e] ∧ e.typ = 3 ∧ e.cause = 0x3E ∧ e.core = core) ∧
  (∀ v, unitsOn s core = [(uid, u)] → tabFind s.units uid = some u → (s.units.map (·.1)).Nodup → s.ops = [] → s.keys = [] →
    tabFind s.levels u.lid = some v → ∃ s', exec (.coreFailure core) s = .next s' ∧ (∀ e, e ∈ s'.groups → e.2.uid ≠ uid) ∧
      (∀ e, e ∈ s'.jobs → jobOfUnit uid e.2 = false) ∧ tabFind s'.tags uid = none ∧
      (v.pkt.restart = true → (levelOf s' u.lid).count = v.count ∧ ∃ u', tabFind s'.units uid = some u' ∧ u'.resident = false ∧
        u'.rerun = true ∧ u'.scratch = [] ∧ u'.vault = [] ∧ u'.opool = [] ∧ u'.apool = [] ∧ u'.rslots = []) ∧
      (v.pkt.restart = false → tabFind s'.units uid = none ∧ (levelOf s' u.lid).count = v.count - 1 ∧
        (levelOf s' u.lid).cause = if v.cause = 0 then 0x3E#6 else v.cause)))

/-- A flit that is not at its destination always has an allowed port, every allowed port brings it one hop nearer, and its hop takes one of
them, with the most free slots, unless its buffer is full; at its destination it leaves, and a request is answered by a response that goes
back to where it came from (a flit of the model has no data, and one for each 64 bytes stands for an access: DESIGN CHOICE, log entry 70). The 50
positions of a cluster's cores and spares are distinct (which is which is open: DESIGN CHOICE, log entry 11). -/
def Obligations.FlitsArrive : Prop := ∀ (s : State) (key : Nat) (f : Flit),
  let far (a : Flit) : Nat := ((a.xd : Int) - a.x).natAbs + ((a.yd : Int) - a.y).natAbs
  (allowedDirs f = [] ↔ f.x = f.xd ∧ f.y = f.yd) ∧ (∀ d, d ∈ allowedDirs f → far (moveFlit f d) + 1 = far f) ∧
  (tabFind s.flits key = some f → f.x = f.xd → f.y = f.yd → f.resp = true → ∃ s', exec (.meshFlitHop key) s = .next s' ∧
    tabFind s'.flits key = none ∧ (∀ k, k ≠ key → tabFind s'.flits k = tabFind s.flits k) ∧ s' = { s with flits := s'.flits }) ∧
  (tabFind s.flits key = some f → f.x = f.xd → f.y = f.yd → f.resp = false → key ≠ s.nextId → ∃ s' r, exec (.meshFlitHop key) s = .next s' ∧
    tabFind s'.flits key = none ∧ tabFind s'.flits s.nextId = some r ∧ r.resp = true ∧ r.x = f.xd ∧ r.y = f.yd ∧ r.xd = f.xs ∧ r.yd = f.ys ∧
    s' = { s with flits := s'.flits, nextId := s.nextId + 1 }) ∧
  (tabFind s.flits key = some f → f.x ≠ f.xd ∨ f.y ≠ f.yd → ∃ d, d ∈ allowedDirs f ∧
    (∀ e, e ∈ allowedDirs f → roomAhead s f e ≤ roomAhead s f d) ∧
    (∀ e, e ∈ allowedDirs f → roomAhead s f e = roomAhead s f d → e = .east ∨ e = .west → d = .east ∨ d = .west) ∧
    (roomAhead s f d = 0 → exec (.meshFlitHop key) s = .next s) ∧
    (0 < roomAhead s f d → ∃ s', exec (.meshFlitHop key) s = .next s' ∧ tabFind s'.flits key = some (moveFlit f d) ∧
      (∀ k, k ≠ key → tabFind s'.flits k = tabFind s.flits k) ∧ s' = { s with flits := s'.flits })) ∧
  (∀ c, (fuseOrder c).Perm (List.range 50)) ∧
  (∀ src dst n, (sendFlits s src [(dst, n)]).flits.length ≤ s.flits.length + (n + 63) / 64 ∧ ∀ i, i < (n + 63) / 64 →
    let a := meshXY s src
    let d := meshXY s dst
    tabFind (sendFlits s src [(dst, n)]).flits (s.nextId + i) = some { xs := a.1, ys := a.2, x := a.1, y := a.2, xd := d.1, yd := d.2 })

/-- A channel starts its next job when none runs, waits while an edge holds it, and ends a job with its DONE value in memory, the count of
finished jobs one higher; a record outside the limits ends with the cause in the DONE value. A record that is read gives the job its
footprint; one that cannot be read gives it the cause: the running job's first, then those of the queue in order (when a record is read is DEDUCED,
log entry 69, which also orders the rows and leaves free the bytes that a job both reads and writes). -/
def Obligations.TransferJobs : Prop := ∀ (s : State) (ch k : Nat) (j : Job) (b : List Byte),
  let c := bteOf s ch
  let done : Double := BitVec.ofNat 64 (leNat b 80 8)
  let running : Prop := c.running = some k ∧ jobOf s k = some j ∧ j.layout = some b ∧
    ∀ n x, n ∈ c.queue → jobOf s n = some x → x.layout.isSome = true
  let ended (s' : State) : Prop := (bteOf s' ch).running = none ∧ (bteOf s' ch).donecnt = c.donecnt + 1 ∧ jobOf s' k = none ∧
    (bteOf s' ch).queue = c.queue
  (∀ r, c.running = none → c.queue = k :: r → (∀ n x, n ∈ c.queue → jobOf s n = some x → x.layout.isSome = true) → ∃ s',
    exec (.bteJob ch) s = .next s' ∧ s' = { s with bte := s'.bte } ∧ (bteOf s' ch).running = some k ∧ (bteOf s' ch).queue = r) ∧
  (running → j.heldR = true ∨ j.heldW = true → exec (.bteJob ch) s = .next s) ∧
  (∀ pa s2, running → j.heldR = false → j.heldW = false → b ≠ [] → recordOk b = false → done.toNat % 4 = 0 →
    engXlate s k (bteWho s j) .write done = .ok pa s2 → (∀ i, i < 4 → backed s (pa + i) = true) → inAperture pa = false → ∃ s',
      exec (.bteJob ch) s = .next s' ∧ ended s' ∧ physRead s' pa 4 = w32 0xC0000002) ∧
  (∀ pa s1 s2, running → j.heldR = false → j.heldW = false → j.err = 0 → recordOk b = true → absentRow s (bteWho s j) (leNat b 16 4) (bteRows b) = none →
    translate s (bteWho s j) .write done ≠ .absent → copyRows k (bteWho s j) (leNat b 16 4) b (bteRows b) (bteRows b) s = .ok s1 →
    engXlate s1 k (bteWho s j) .write done = .ok pa s2 → bteOf s1 ch = c → (∀ i, i < 4 → backed s2 (pa + i) = true) →
    inAperture pa = false → ∃ s', exec (.bteJob ch) s = .next s' ∧
      ended s' ∧ physRead s' pa 4 = w32 (BitVec.ofNat 32 (leNat b 88 4))) ∧
  (∀ pre_ post, c.running.toList ++ c.queue = pre_ ++ k :: post → (∀ n x, n ∈ pre_ → jobOf s n = some x → x.layout.isSome = true) →
    jobOf s k = some j → j.layout = none →
    let rec_ := pieces ((ctxOf s j.ctx).recbase + BitVec.ofNat 64 (192 * handleOf j)) 192
    let who := device j.ctx false (ctxOf s j.ctx).secure
    let failed (r : BitVec 6) : Prop := ∃ s' j', exec (.bteJob ch) s = .next s' ∧ jobOf s' k = some j' ∧ j'.err = r ∧ j'.layout = some [] ∧
      j'.known = true ∧ j'.reads = [] ∧ j'.writes = []
    (∀ r s1, xlateAll s k who .read rec_ [] = .bad r s1 → failed r) ∧
    (∀ ps r s1 s2, xlateAll s k who .read rec_ [] = .ok ps s1 → peekAll s1 k ps [] = .bad r s2 → failed r) ∧
    (∀ s1, xlateAll s k who .read rec_ [] = .wait s1 → exec (.bteJob ch) s = .next s1) ∧
    (∀ ps bs s1 s2, xlateAll s k who .read rec_ [] = .ok ps s1 → peekAll s1 k ps [] = .ok bs s2 →
      let x := (throughCache s2 (recKey j.ctx (handleOf j) (ch / 16)) ps).1
      ∃ s' j', exec (.bteJob ch) s = .next s' ∧ jobOf s' k = some j' ∧ j'.layout = some x ∧ j'.known = true ∧
        j'.reads = (regionsOf x [0, 1, 2, 3]).map roundRange ∧ j'.writes = (regionsOf x [4, 5, 6, 7]).map roundRange))

/-- A triangle task leaves its queue: a reserved one is recorded, an empty one does nothing, another updates the samples it covers and gives its
attribute tasks, which are sent in order, each once AQ has a free slot; the draw ends once its queue has closed and nothing is left. Nothing moves
while an earlier job holds the draw. A triangle with a NaN or an infinity covers nothing, and a task for a closed AQ is dropped with CHANNEL_CLOSED
(DEDUCED, log entry 63). -/
def Obligations.DrawsRun : Prop := ∀ (s : State) (lid : Nat) (d : Draw) (v : Level) (ws : List Word) (n : Tab Nat) (rest : List (List Word × Tab Nat)),
  tabFind s.draws lid = some d → tabFind s.levels lid = some v →
  let rq := chanOf s lid d.rq
  let aq := chanOf s lid d.aq
  let taken (s' : State) : Prop := (chanOf s' lid d.rq).queue = rest ∧ (chanOf s' lid d.rq).rd = rq.rd + 1
  let held : Prop := ∃ j, jobOf s d.job = some j ∧ j.heldW = true
  (rq.queue = [] ∨ d.tasks ≠ [] ∨ held → exec (.rasterTask lid) s = .next s) ∧
  (rq.queue = (ws, n) :: rest → d.tasks = [] → ¬ held → triReserved ws = true → ∃ s', exec (.rasterTask lid) s = .next s' ∧ taken s' ∧ s'.mem = s.mem ∧
    (levelOf s' lid).drawErr = if v.drawErr = 0 then 0x02 else v.drawErr) ∧
  (rq.queue = (ws, n) :: rest → d.tasks = [] → ¬ held → triReserved ws = false → triEmpty (triOf ws) = true → ∃ s', exec (.rasterTask lid) s = .next s' ∧
    taken s' ∧ s'.mem = s.mem ∧ s'.draws = s.draws) ∧
  (∀ w s1, rq.queue = (ws, n) :: rest → d.tasks = [] → ¬ held → triReserved ws = false → triEmpty (triOf ws) = false →
    walkPixels d v.ctx (triOf ws) (numSign (triArea (triOf ws))) (triPixels d (triOf ws)) {} s = .ok w s1 → s1.levels = s.levels → ∃ s',
      exec (.rasterTask lid) s = .next s' ∧ taken s' ∧ tabFind s'.draws lid = some (attrTasks d (triOf ws) w)) ∧
  (∀ r, d.tasks = ws :: r → aq.closed = true → ∃ s', exec (.attributeTaskSend lid) s = .next s' ∧ tabFind s'.draws lid = some { d with tasks := r } ∧
    (levelOf s' lid).drawErr = if v.drawErr = 0 then 0x38 else v.drawErr) ∧
  (∀ r, d.tasks = ws :: r → aq.closed = false → aq.slots ≤ aq.queue.length → exec (.attributeTaskSend lid) s = .next s) ∧
  (∀ r, d.tasks = ws :: r → aq.closed = false → aq.queue.length < aq.slots → ∃ s', exec (.attributeTaskSend lid) s = .next s' ∧
    tabFind s'.draws lid = some { d with tasks := r } ∧ (chanOf s' lid d.aq).queue = aq.queue ++ [(ws, [])] ∧ s'.mem = s.mem) ∧
  (rq.closed = true → rq.queue = [] → d.tasks = [] → ∃ s', exec (.drawEnd lid) s = .next s' ∧ tabFind s'.draws lid = none ∧
    (d.aq ≠ 255 → (chanOf s' lid d.aq).closed = true) ∧ tabFind s'.jobs d.job = none) ∧
  (rq.closed = false ∨ rq.queue ≠ [] ∨ d.tasks ≠ [] → exec (.drawEnd lid) s = .next s) ∧
  ((triArea (triOf ws)).isZero = true → triEmpty (triOf ws) = true) ∧
  (∀ z, z ∈ (triOf ws).x ++ (triOf ws).y ++ (triOf ws).z → z.isNan = true ∨ z.isInf = true → triEmpty (triOf ws) = true)

/-! ### Host, links, platform -/

/-- Once BAR0 answers, a queue that is not busy starts empty; a disable closes what its job has open; a tail write is kept; a cancel that names a
job to come marks it.

The entry at HEAD becomes a launch of the open graph of the queue's open job, or of new ones that it opens, not yet counted there (DEDUCED, log
entry 103); HEAD advances by one. -/
def Obligations.QueuesAndEntries : Prop :=
  (∀ (s : State) (q n : Nat),
  let x := queueOf s q
  let w : Word := BitVec.ofNat 32 n
  let empty (t : State) : Prop := (queueOf t q).job = none ∧ (queueOf t q).phase = none ∧ (queueOf t q).graph = none ∧ (queueOf t q).skip = false
  (s.ready = false → exec (.sqcfgEnable q) s = .next s ∧ exec (.sqcfgDisable q) s = .next s ∧ exec (.sqtailNotify q n) s = .next s ∧
    exec (.sqcancel q n) s = .next s) ∧
  (sqBusy s q = true → exec (.sqcfgEnable q) s = .next s) ∧
  (s.ready = true → sqBusy s q = false → ∃ t, exec (.sqcfgEnable q) s = .next t ∧ t.mem = s.mem ∧ t.levels = s.levels ∧ sqEn t q = true ∧ empty t ∧
    sqGet t q 0x14 = 0 ∧ sqGet t q 0x28 = 0 ∧ (queueOf t q).tail = 0 ∧ (queueOf t q).next = x.next) ∧
  (sqEn s q = false → exec (.sqcfgDisable q) s = .next s) ∧
  (s.ready = true → sqEn s q = true → ∃ t, exec (.sqcfgDisable q) s = .next t ∧ t.mem = s.mem ∧ sqEn t q = false ∧ empty t ∧
    ∀ k v, x.job = some k ∨ x.phase = some k ∨ x.graph = some k → tabFind s.levels k = some v → (levelOf t k).closed = true) ∧
  (s.ready = true → ∃ t, exec (.sqtailNotify q n) s = .next t ∧ t = { s with queues := t.queues } ∧
    queueOf t q = { x with tail := BitVec.ofNat 16 n } ∧ ∀ k, k ≠ q → queueOf t k = queueOf s k) ∧
  (w = 0 → exec (.sqcancel q n) s = .next s) ∧
  (s.ready = true → w ≠ 0 → (∀ e, e ∈ s.levels → ¬(e.2.kind = .job ∧ e.2.queue = some q ∧ e.2.jobSeq = w ∧ e.2.done = false)) →
    ((w - x.next).toNat < 2 ^ 31 → ∃ t, exec (.sqcancel q n) s = .next t ∧ t = { s with queues := t.queues } ∧ w ∈ (queueOf t q).marks ∧
      ∀ m, m ∈ (queueOf t q).marks → m = w ∨ m ∈ x.marks) ∧
    (2 ^ 31 ≤ (w - x.next).toNat → exec (.sqcancel q n) s = .next s))) ∧
  (∀ (s : State) (q : Nat),
  let x := queueOf s q
  let head := sqGet s q 0x14
  let b := (ringEntry s q).1
  let s1 := (ringEntry s q).2.2
  let may : Prop := s.ready = true ∧ sqEn s q = true ∧ head ≠ x.tail.toNat ∧ cqFull s q = false ∧ x.skip = false
  (s.ready = false ∨ sqEn s q = false ∨ head = x.tail.toNat ∨ cqFull s q = true → exec (.sqEntryCopy q) s = .next s) ∧
  (∀ j p g gv, may → x.job = some j → x.phase = some p → x.graph = some g → tabFind s.levels g = some gv → g < s.nextId →
    gv.cancelled = false → gv.stop = false → (packetOf b).depMask &&& gv.failed = 0 → ∃ t u v, exec (.sqEntryCopy q) s = .next t ∧
      t.mem = s1.mem ∧ sqGet t q 0x14 = (head + 1) % 65536 ∧ tabFind t.levels s.nextId = some v ∧ v.kind = .launch ∧ v.parent = some g ∧
      v.ctx = gv.ctx ∧ v.raw = b ∧ v.copyErr = (ringEntry s q).2.1 ∧ v.pkt = packetOf b ∧ v.valid = false ∧ v.cause = 0 ∧ v.cancelled = false ∧
      tabFind t.levels g = some u ∧ u.count = gv.count ∧
      ((packetOf b).gend = true → u.closed = true ∧ (queueOf t q).graph = none) ∧
      ((packetOf b).gend = false → (packetOf b).pend = false → (packetOf b).jend = false → (queueOf t q).graph = some g ∧
        (queueOf t q).job = some j)) ∧
  (sqGet s q 0 % 2 = 0 → s1 = s ∧ b = memBytes s.host (sqGet s q 0 / 128 * 128 + 128 * (head % sqSize s q)) 128) ∧
  (may → x.job = none → x.phase = none → x.graph = none → x.next ∉ x.marks → ∃ t j p g v, exec (.sqEntryCopy q) s = .next t ∧ t.mem = s1.mem ∧
    sqGet t q 0x14 = (head + 1) % 65536 ∧ tabFind t.levels s.nextId = some j ∧ j.kind = .job ∧ j.jobSeq = x.next ∧ j.queue = some q ∧
    j.ctx = sqCtx s q ∧ tabFind t.levels (s.nextId + 1) = some p ∧ p.kind = .phase ∧ p.parent = some s.nextId ∧
    tabFind t.levels (s.nextId + 2) = some g ∧ g.kind = .graph ∧ g.parent = some (s.nextId + 1) ∧
    tabFind t.levels (s.nextId + 3) = some v ∧ v.kind = .launch ∧ v.parent = some (s.nextId + 2) ∧ v.raw = b ∧
    (queueOf t q).next = if x.next + 1 = 0 then 1 else x.next + 1))

/-- The oldest completion record goes to the ring of its queue with its PH bit, the oldest event to the event ring; the tails advance and the
vectors rise when enabled, or pend while they are masked (the masks are those of PCI Express: log entry 26); a full ring holds the record back,
and drops and counts the event.

A host write of a plain register changes its RW bits, clears the W1C bits that it writes as 1 and leaves every other; a read clears the RC bits
that it returned; an access of another size is ignored; BAR2 reads and writes memory unless a secure region covers a byte. -/
def Obligations.RecordsAndRegisters : Prop :=
  (∀ (s : State) (q : Nat) (r : List Byte) (rest : List (List Byte)) (e : EventRec) (es : List EventRec),
  let tail := sqGet s q 0x28
  let base := sqGet s q 0x18 / 64 * 64 + 16 * (tail % cqSize s q)
  let size := 2 ^ ringLog (evGet s 8 % 32) 15
  let et := evGet s 0x10
  let full : Prop := (et + 65536 - evGet s 0xC) % 65536 = size
  -- what the vector does: a write of its data word, its pending bit, or nothing
  let raises (on : Bool) (v a : Nat) (t : State) : Prop :=
    (on = false → t.msi = s.msi ∧ ∀ b, b < a ∨ a + 16 ≤ b → memByte t.host b = memByte s.host b) ∧
    (on = true → msixMasked s v = true → bit (hregGet t (msixPba v)) (v % 32) = true ∧ t.msi = s.msi ∧
      ∀ b, b < a ∨ a + 16 ≤ b → memByte t.host b = memByte s.host b) ∧
    (on = true → msixMasked s v = false → tabGet 0 t.msi v = tabGet 0 s.msi v + 1 ∧
      (∀ i, i < 4 → memByte t.host (msixAddr s v + i) = (bytesOf 4 (hregGet s (msixEntry v + 8))).getD i 0) ∧
      ∀ b, b < a ∨ a + 16 ≤ b → b < msixAddr s v ∨ msixAddr s v + 4 ≤ b → memByte t.host b = memByte s.host b)
  -- the message does not fall on the record
  let clear (on : Bool) (v a : Nat) : Prop := on = false ∨ msixMasked s v = true ∨ a + 16 ≤ msixAddr s v ∨ msixAddr s v + 4 ≤ a
  ((queueOf s q).recs = r :: rest → cqFull s q = true → exec (.cqRecordWrite q) s = .next s) ∧
  (q < 64 → (queueOf s q).recs = r :: rest → cqFull s q = false → r.length = 16 → ∃ t, exec (.cqRecordWrite q) s = .next t ∧ t.mem = s.mem ∧
    (queueOf t q).recs = rest ∧ sqGet t q 0x28 = (tail + 1) % 65536 ∧ raises (ofBit (sqGet s q 0x20) 8) q base t ∧
    (clear (ofBit (sqGet s q 0x20) 8) q base → (∀ i, i < 16 → i ≠ 6 → memByte t.host (base + i) = r.getD i 0) ∧
    ∀ k, k < 8 → bit (memByte t.host (base + 6)) k = if k = 7 then decide (tail / cqSize s q % 2 = 0) else bit (r.getD 6 0) k)) ∧
  (s.events = e :: es → full → ∃ t, exec .eventRecordPost s = .next t ∧ t.events = es ∧ t.host = s.host ∧
    (hregGet s 0x11014 ≠ 0xFFFFFFFF → hregGet t 0x11014 = hregGet s 0x11014 + 1)) ∧
  (s.events = e :: es → ¬full → ∃ t, exec .eventRecordPost s = .next t ∧ t.events = es ∧ t.mem = s.mem ∧
    evGet t 0x10 = (et + 1) % 65536 ∧ raises (ofBit (evGet s 8) 8) 64 (evGet s 0 / 16 * 16 + 16 * (et % size)) t ∧
    (clear (ofBit (evGet s 8) 8) 64 (evGet s 0 / 16 * 16 + 16 * (et % size)) → ∀ i, i < 16 →
      memByte t.host (evGet s 0 / 16 * 16 + 16 * (et % size) + i) = (eventBytes e (phBit et size)).getD i 0)) ∧
  eventBytes e true = [BitVec.ofNat 8 e.typ, BitVec.ofNat 8 e.ctx, e.cause.setWidth 8, 0x80] ++ bytesOf 2 (BitVec.ofNat 16 e.core) ++
    [BitVec.ofNat 8 e.slot, 0] ++ bytesOf 8 e.addr) ∧
  (∀ (s : State) (off n : Nat) (v : Double) (r : HostReg) (bs : List Byte) (i : Nat),
  let pa := (hregGet s 0x44000).toNat / 2 ^ 36 * 2 ^ 36 + off
  (¬(n = 4 ∧ off % 4 = 0) → ¬(n = 8 ∧ off % 8 = 0) → exec (.registerWrite off n v) s = .next s ∧ exec (.rcRegisterRead off n) s = .next s) ∧
  (off % 4 = 0 → regAt off = none → exec (.registerWrite off 4 v) s = .next s ∧ exec (.rcRegisterRead off 4) s = .next s) ∧
  (off % 4 = 0 → hostReg off = some r → answers s off = true → writeAct s off ((bits v 0 32 : Word).setWidth 64) 0xFFFFFFFF = none →
    off < 0x10000 ∨ 0x11000 ≤ off → (∀ k, off ≠ msixEntry k + 12) → ∃ t, exec (.registerWrite off 4 v) s = .next t ∧
      t = { s with hreg := t.hreg } ∧
      (∀ k, k ≠ off → hregGet t k = hregGet s k) ∧
      (i < 64 → bit (hregGet t off) i = if i < 32 ∧ bit r.rw i = true then bit v i
        else if i < 32 ∧ bit r.w1c i = true ∧ bit v i = true then false else bit (hregGet s off) i)) ∧
  (∀ k, k < 65 → off = msixEntry k + 12 → answers s off = true → bit v 0 = false → bit (hregGet s (msixPba k)) (k % 32) = true → ∃ t,
    exec (.registerWrite off 4 v) s = .next t ∧ tabGet 0 t.msi k = tabGet 0 s.msi k + 1 ∧ bit (hregGet t (msixPba k)) (k % 32) = false ∧
    ∀ m, m < 4 → memByte t.host (msixAddr s k + m) = (bytesOf 4 (hregGet s (msixEntry k + 8))).getD m 0) ∧
  (off % 4 = 0 → hostReg off = some r → answers s off = true → ∃ t, exec (.rcRegisterRead off 4) s = .next t ∧ t = { s with hreg := t.hreg } ∧
    (∀ k, k ≠ off → hregGet t k = hregGet s k) ∧
    (i < 64 → bit (hregGet t off) i = (bit (hregGet s off) i && !(decide (i < 32) && bit r.rc i)))) ∧
  (s.ready = false → exec (.bar2Access off n (some bs)) s = .next s) ∧
  (s.ready = true → (∀ k, k < n → secureAddr s (pa + k) = false) → bs.length = n → (∀ k, k < n → backed s (pa + k) = true) → 0 < n →
    inAperture pa = false → ∃ t, exec (.bar2Access off n (some bs)) s = .next t ∧ physRead t pa n = bs ∧ t.groups = s.groups) ∧
  (s.ready = true → (∀ k, k < n → secureAddr s (pa + k) = false) → inAperture pa = false → s.trough = [] → ∃ t,
    exec (.bar2Access off n none) s = .next t ∧ t.mem = s.mem ∧ bar2Read s off n = physRead t pa n) ∧
  (∀ k, k < n → secureAddr s (pa + k) = true → bar2Read s off n = List.replicate n 0) ∧
  (∀ k d, s.ready = true → k < n → secureAddr s (pa + k) = true → ∃ t, exec (.bar2Access off n d) s = .next t ∧ t = { s with hreg := t.hreg } ∧
    (hregGet s 0x60020 ≠ 0xFFFFFFFF → hregGet t 0x60020 = hregGet s 0x60020 + 1)))

/-- A flit is 256 bytes ending in the CRC of the others; a port sends what it must retransmit before anything new, keeps each new flit until it is
acknowledged, within a window of 512, and sends the oldest again when 4 µs have passed.

The next data flit, arriving whole, is delivered once and acknowledged with its number; one with a wrong CRC is dropped and counted. -/
def Obligations.LinkFlits : Prop :=
  (∀ (s : State) (p : Nat) (seq ack : BitVec 16) (body pay : List Byte) (cls : Nat)
    (r : List (Nat × List Byte)) (n : BitVec 16) (at_ : Double) (ns : List (BitVec 16)),
  let x := portOf s p
  let oldest := (x.unacked.head?.map (·.1)).getD x.next
  ((flitOf seq ack body).length = 256 ∧ nat32 (flitOf seq ack body) 252 = crc32 ((flitOf seq ack body).take 252) ∧
    leNat (flitOf seq ack body) 0 2 = seq.toNat ∧ leNat (flitOf seq ack body) 2 2 = ack.toNat) ∧
  (portUp s p = false → exec (.linkFlitSend p) s = .next s) ∧
  (portUp s p = true → x.again = [] → x.txq = (cls, pay) :: r → (x.next - oldest).toNat < 512 → ∃ t, exec (.linkFlitSend p) s = .next t ∧
    t = { s with ports := t.ports } ∧ portOf t p = { x with
      txq := r, next := x.next + 1, unacked := x.unacked ++ [(x.next, s.clk, flitBody 1 cls pay)], line := flitOf x.next (x.expect - 1) (flitBody 1 cls pay) }) ∧
  (portUp s p = true → x.again = [] → x.txq = (cls, pay) :: r → 512 ≤ (x.next - oldest).toNat → exec (.linkFlitSend p) s = .next s) ∧
  (portUp s p = true → x.again = n :: ns → x.unacked.find? (fun u => u.1 == n) = some (n, at_, body) → ∃ t, exec (.linkFlitSend p) s = .next t ∧
    (portOf t p).line = flitOf n (x.expect - 1) body ∧ (portOf t p).again = ns ∧ (portOf t p).txq = x.txq ∧ (portOf t p).next = x.next) ∧
  (∀ u, x.unacked = (n, at_, body) :: u → at_.toNat + 4000 ≤ s.clk.toNat → n ∉ x.again → ∃ t, exec (.linkReplayTimeout p) s = .next t ∧
    (portOf t p).line = flitOf n (x.expect - 1) body ∧ (portOf t p).again = x.again ∧ (portOf t p).next = x.next) ∧
  (∀ u, x.unacked = (n, at_, body) :: u → s.clk.toNat < at_.toNat + 4000 → exec (.linkReplayTimeout p) s = .next s)) ∧
  (∀ (s : State) (p : Nat) (ack : BitVec 16) (pay bs : List Byte) (cls : Nat),
  let x := portOf s p
  let f := flitOf x.expect ack (flitBody 1 cls pay)
  (portUp s p = true → x.held = [] → pay.length ≤ 244 → cls < 4 → ∃ t, exec (.linkFlitReceive p f) s = .next t ∧ (portOf t p).inbox = x.inbox ++ [(cls, pay)] ∧
    (portOf t p).expect = x.expect + 1 ∧ (portOf t p).held = [] ∧ (portOf t p).txq = x.txq ∧ t.mem = s.mem ∧
    leNat (portOf t p).line 2 2 = x.expect.toNat ∧
    ∀ u, u ∈ (portOf t p).unacked ↔ u ∈ x.unacked ∧ 2 ^ 15 ≤ (ack - u.1).toNat) ∧
  (portUp s p = true → bs.length ≠ 256 ∨ crc32 (bs.take 252) ≠ nat32 bs 252 → ∃ t, exec (.linkFlitReceive p bs) s = .next t ∧
    t = { s with hreg := t.hreg } ∧
    (hregGet s (0x51004 + 0x20 * p) ≠ 0xFFFFFFFF → hregGet t (0x51004 + 0x20 * p) = hregGet s (0x51004 + 0x20 * p) + 1)) ∧
  (portUp s p = false → exec (.linkFlitReceive p bs) s = .next s))

/-- Once BAR0 answers, a link command ring starts, stops and takes commands from its head, read by the device itself (DESIGN CHOICE, log entry 102); a
PUT's bytes are queued on its port once read, a request that arrives writes the bytes it may write and is answered, and an answer counts down the PUT
that it names and no other (the payloads' layout is free: DESIGN CHOICE, log entry 13). Its accesses are those of the context that LQCFG named when it
was taken, with user permission (DEDUCED, log entry 72).

COMP and COMPB send their header and data on ROUTE's ports, wait for every rank, end with OUT_OF_RANGE when the ranks differ and with MACHINE_CHECK when
a port they use is down, and else write their results and their DONE value; two partials compose front over back, in some tree (DESIGN CHOICE, log entry
73); flits for another rank go on; a collective that stays incomplete ends with DEADLINE. A command whose DONE store waits for a page stays at the head
of its ring, and only its DONE store is tried again.

The spare lane is used once; a second lane failure takes the port down, with its event and a machine check, and stops the command that uses it; a port
that is down trains once PKGID is written. -/
def Obligations.LinkCommands : Prop :=
  (∀ (s : State) (r p n : Nat) (k : LinkCmd) (b pay : List Byte) (rest : List (Nat × List Byte)),
  let l := lringOf s r
  let b' := k.bytes
  (s.ready = false → exec (.lqcfgEnable r) s = .next s ∧ exec (.lqcfgDisable r) s = .next s ∧ exec (.lqtailNotify r n) s = .next s) ∧
  (lqEn s r = true → exec (.lqcfgEnable r) s = .next s) ∧
  (s.ready = true → lqEn s r = false → ∃ t, exec (.lqcfgEnable r) s = .next t ∧ lqEn t r = true ∧ lqGet t r 0x10 = 0 ∧ lringOf t r = { l with tail := 0 } ∧
    t.mem = s.mem) ∧
  (lqEn s r = false → exec (.lqcfgDisable r) s = .next s) ∧
  (s.ready = true → lqEn s r = true → l.cmd = none → ∃ t, exec (.lqcfgDisable r) s = .next t ∧ lqEn t r = false ∧
    lringOf t r = { l with tail := BitVec.ofNat 16 (lqGet s r 0x10) } ∧ t.mem = s.mem) ∧
  (s.ready = true → lqEn s r = true → l.cmd = some k → k.ended = none → ∃ t, exec (.lqcfgDisable r) s = .next t ∧
    t.mem = (endCmd (lqSet s r 8 (lqGet s r 8 - 65536)) r k 0x3D).mem ∧ (lringOf t r).cmd = (lringOf (endCmd (lqSet s r 8 (lqGet s r 8 - 65536)) r k 0x3D) r).cmd) ∧
  (s.ready = true → ∃ t, exec (.lqtailNotify r n) s = .next t ∧ t = { s with lrings := t.lrings } ∧ lringOf t r = { l with tail := BitVec.ofNat 16 n }) ∧
  (l.cmd = none → headCmd s r = some b → leNat b 0 1 = 1 → isPoison s .mem 0 (headAddr s r) 64 = false →
    cmdCause (takeCmd (memTouch s (headAddr s r) 64) r b) b = none → ∃ t c, exec (.put r) s = .next t ∧
    (lringOf t r).cmd = some c ∧ c.bytes = b ∧ c.job = s.nextId ∧ c.ctx = lqCtx s r ∧ lqGet t r 0x10 = (lqGet s r 0x10 + 1) % 65536) ∧
  (∀ c ps, l.cmd = some k → k.ended = some c → exec (.put r) s = .next (cmdDone s r k c) ∧ exec (.comp r ps) s = .next (cmdDone s r k c) ∧
    exec (.compb r ps) s = .next (cmdDone s r k c)) ∧
  (∀ j d s1, l.cmd = some k → k.ended = none → leNat b' 0 1 = 1 → k.err = 0 → jobOf s k.job = some j → j.readDone = false → j.heldR = false →
    j.heldW = false →
    jobRead s k.job (cmdWho s k) none (BitVec.ofNat 64 (leNat b' 8 8)) (leNat b' 4 4) = .ok d s1 → ∃ t, exec (.put r) s = .next t ∧
      (portOf t (leNat b' 1 1)).txq = (portOf s1 (leNat b' 1 1)).txq ++ putPays (putTag r k) (leNat b' 16 8) d.length d 0 ∧
      (lringOf t r).cmd = some { k with left := (putPays (putTag r k) (leNat b' 16 8) d.length d 0).length }) ∧
  (∀ tag c q, (portOf s p).inbox = (1, pay) :: rest → Config.ackOf pay = (tag, c) → (lringOf s (tag % 8)).cmd = some q → ∃ t,
    exec (.putArrival p) s = .next t ∧ (portOf t p).inbox = rest ∧ t.mem = s.mem ∧ (lringOf t (tag % 8)).cmd =
      some (if q.job = tag / 8 then { q with left := q.left - 1, err := if q.err = 0 then c else q.err } else q)) ∧
  (∀ coll src dst, (portOf s p).inbox = (2, pay) :: rest → Config.collOf pay = (coll, src, dst) → ∃ t, exec (.putArrival p) s = .next t ∧
    (p ≠ leNat ((lringOf s r).route.getD (0, 0, [])).2.2 dst 1 → (portOf t p).inbox = rest) ∧ t.mem = s.mem ∧
    ((∀ j x, j < 8 → (lringOf s j).route = some x → x.1 ≠ coll) → t.collHeld = s.collHeld ++ [pay]) ∧
    (∀ rank route, r < 8 → (lringOf s r).route = some (coll, rank, route) → (∀ j x, j < 8 → (lringOf s j).route = some x → x.1 = coll → j = r) →
      (dst = rank → (lringOf t r).coll = (lringOf s r).coll ++ [pay]) ∧
      (dst ≠ rank → portUp s (leNat route dst 1) = true → (portOf t (leNat route dst 1)).txq = (portOf s (leNat route dst 1)).txq ++ [(2, pay)]))) ∧
  (∀ ring a d, (portOf s p).inbox = (0, pay) :: rest → Config.putOf pay = (ring, a, d) → s.trough = [] → d ≠ [] →
    (∀ i, i < d.length → putRefusal s p (a + i) = none ∧ backed s (a + i) = true ∧ inAperture (a + i) = false) → ∃ t,
      exec (.putArrival p) s = .next t ∧
      (portOf t p).inbox = rest ∧ physRead t a d.length = d ∧ (portOf t p).txq = (portOf s p).txq ++ [(1, Config.ackPayload ring 0)]) ∧
  (∀ ring a d, (portOf s p).inbox = (0, pay) :: rest → Config.putOf pay = (ring, a, d) →
    (∀ i, i < d.length → putRefusal s p (a + i) ≠ none) → ∃ t, exec (.putArrival p) s = .next t ∧ t.mem = s.mem ∧ (portOf t p).inbox = rest)) ∧
  (∀ (s : State) (r : Nat) (k : LinkCmd) (ps : List Peer) (me : Peer) (s1 s2 : State),
  let others := (peersHere s1 r ++ ps).filter (fun p => p.coll == me.coll)
  let bad : Prop := (∃ p, p ∈ others ∧ sameHeader me p = false) ∨ dupNat (me.rank :: others.map (·.rank)) = true ∨ ∃ p, p ∈ me :: others ∧ rowsOk p = false
  let px := compPixels k.bytes
  let runs (i : Instr) (op : Nat) : Prop := (lringOf s r).cmd = some k → k.ended = none → leNat k.bytes 0 1 = op → jobHeld s k.job = false →
    compInputs s k = .ok me s1 →
    ((∃ q, q < me.shards ∧ q ≠ me.rank ∧ portUp s1 (leNat me.route q 1) = false) →
      exec i s = .next (endCmd (mcheck s1 6 0 k.ctx 0 0) r k 0x3E)) ∧
    ((∀ q, q < me.shards → q ≠ me.rank → portUp s1 (leNat me.route q 1) = true) →
    (k.sent = false → me.shards ≠ 1 → ∃ t, exec i s = .next t ∧ t.mem = s1.mem ∧ (lringOf t r).cmd = some { k with sent := true } ∧
      (lringOf t r).route = some (me.coll, me.rank, me.route) ∧ (s1.collHeld = [] → ∀ p, (portOf t p).txq = (portOf s1 p).txq ++
        ((List.range me.shards).filter (fun q => q != me.rank && leNat me.route q 1 == p)).flatMap (fun q =>
          (Config.collFlits q [me.rank, me.op, me.shards, me.tiles, me.tile, me.coll] [me.part, me.order, me.grad, me.route]).map (fun x => (2, x))))) ∧
    (k.sent = true ∨ me.shards = 1 →
    (bad → exec i s = .next (endCmd s1 r k 0x15)) ∧
    (¬bad → others.length + 1 < me.shards → exec i s = .next s) ∧
    (¬bad → me.shards ≤ others.length + 1 → compWrite r k me (me :: others) s1.free px { s1 with free := s1.free + 4 * px.length + 4 } = .ok s2 →
      exec i s = .next (endCmd s2 r k 0))))
  runs (.comp r ps) 2 ∧ runs (.compb r ps) 3 ∧
  (∀ c, leNat k.bytes 56 8 % 4 = 0 →
    let s0 := mapLring (if c = 0 ∨ c = 0x3D then s else lqError s k c) r (fun l => { l with cmd := some { k with ended := some c } })
    (∀ pa s3, engXlate s0 k.job (cmdWho s0 k) .write (BitVec.ofNat 64 (leNat k.bytes 56 8)) = .ok pa s3 →
      (∀ i, i < 4 → backed s3 (pa + i) = true) → inAperture pa = false →
      (lringOf (endCmd s r k c) r).cmd = none ∧ jobOf (endCmd s r k c) k.job = none ∧
      physRead (endCmd s r k c) pa 4 = w32 (if c = 0 then BitVec.ofNat 32 (leNat k.bytes 52 4) else 0xC0000000 + c.setWidth 32)) ∧
    (∀ s3, engXlate s0 k.job (cmdWho s0 k) .write (BitVec.ofNat 64 (leNat k.bytes 56 8)) = .wait s3 → endCmd s r k c = s3)) ∧
  (∀ f t n a b p, me.op = 2 → me.rank = t % me.shards → (me :: others).find? (fun p => p.rank == me.rank) = some p → orderRow p t = [a, b] →
    compPixel me (me :: others) f t n = some (laidOn (partOf (me :: others) a n) (partOf (me :: others) b n))) ∧
  ((lringOf s r).cmd = some k → k.ended = none → leNat k.bytes 0 1 ≠ 1 → k.at_.toNat + 1000 * max (hregGet s 0x50F04).toNat 1 ≤ s.clk.toNat →
    exec (.collectiveTimeout r) s = .next (endCmd s r k 0x3B)) ∧
  ((lringOf s r).cmd = some k → s.clk.toNat < k.at_.toNat + 1000 * max (hregGet s 0x50F04).toNat 1 → exec (.collectiveTimeout r) s = .next s)) ∧
  (∀ (s : State) (p lane peer : Nat),
  (bit (hregGet s 0x50F08) 31 = true → exec (.linkLaneSpare lane) s = .next s) ∧
  (bit (hregGet s 0x50F08) 31 = false → ∃ t, exec (.linkLaneSpare lane) s = .next t ∧ t = { s with hreg := t.hreg } ∧
    hregGet t 0x50F08 = BitVec.ofNat 64 (2 ^ 31 + lane % 32) ∧
    (hregGet s 0x6002C ≠ 0xFFFFFFFF → hregGet t 0x6002C = hregGet s 0x6002C + 1)) ∧
  (bit (hregGet s 0x50F08) 31 = false ∨ portUp s p = false → exec (.linkPortDown p) s = .next s) ∧
  (bit (hregGet s 0x50F08) 31 = true → portUp s p = true → p < 6 → (∀ k, (lringOf s k).cmd = none) → ∃ t e m, exec (.linkPortDown p) s = .next t ∧
    portUp t p = false ∧ portOf t p = {} ∧ s.mem = t.mem ∧ t.events = s.events ++ [e, m] ∧ e.typ = 4 ∧ e.ctx = p ∧ m.typ = 3 ∧ m.cause = 0x3E) ∧
  (∀ r k, bit (hregGet s 0x50F08) 31 = true → portUp s p = true → r < 8 → (lringOf s r).cmd = some k → k.ended = none →
    (leNat k.bytes 0 1 = 1 ∧ leNat k.bytes 1 1 = p) ∨ (leNat k.bytes 0 1 ≠ 1 ∧ k.sent = true ∧ ∃ x q, (lringOf s r).route = some x ∧
      q < shards k.bytes ∧ q ≠ x.2.1 ∧ leNat x.2.2 q 1 = p) → (∀ j, j ≠ r → (lringOf s j).cmd = none) → ∃ s0,
    exec (.linkPortDown p) s = .next (endCmd s0 r k 0x3E) ∧ s0.mem = s.mem ∧ portUp s0 p = false ∧ portOf s0 p = {} ∧ s0.jobs = s.jobs) ∧
  (s.ready = false ∨ 6 ≤ p ∨ hregGet s 0x50F00 = 0 ∨ portUp s p = true → exec (.varturPortTrain p peer) s = .next s) ∧
  (s.ready = true → p < 6 → hregGet s 0x50F00 ≠ 0 → portUp s p = false → ∃ t, exec (.varturPortTrain p peer) s = .next t ∧ portUp t p = true ∧
    portOf t p = {} ∧ (hregGet t (0x51000 + 0x20 * p)).toNat % 65536 = peer % 65536 ∧ t.mem = s.mem))

/-- A finding of the scrub counts what R456 counts and poisons the words it names (a block is 256 bytes, a dirty line 128: DEDUCED, log entry 22), and a
parity error of a block's state is a machine check; an entry that cannot be rebuilt is a machine check, of the Yard or of a store (log entry 101). A
second-tier error poisons its word (DESIGN CHOICE, log entry 74); a second-tier port goes down once; a stack spares one channel and counts the second
refusal (DESIGN CHOICE, log entry 21), a bank eight rows. That these steps come from outside is DESIGN CHOICE, log entry 30. -/
def Obligations.StorageErrors : Prop := ∀ (s : State) (st : Store) (owner w pa port stack ch bank row : Nat),
  let up (t : State) (off : Nat) : Prop := hregGet s off ≠ 0xFFFFFFFF → hregGet t off = hregGet s off + 1
  let found (f : Finding) (st : Store) (off : Nat) (p : Poison → Prop) : Prop := ∃ t, exec (.patrolScrub st owner w f) s = .next t ∧ up t off ∧
    t = { s with hreg := t.hreg, poison := t.poison } ∧ ∀ x, x ∈ t.poison ↔ x ∈ s.poison ∨ p x
  let run (n : Nat) (x : Poison) : Prop := x.store = .mem ∧ x.owner = 0 ∧ x.word / n = w / n
  let n := ((s.softRows ++ s.hardRows).filter (fun e => e.1 == bank)).length
  exec (.patrolScrub st owner w .sound) s = .next s ∧ found .corrected .mem 0x60010 (fun _ => False) ∧
  (st ≠ .mem → found .corrected st 0x60008 (fun _ => False)) ∧ found .lost .mem 0x60014 (run 32) ∧
  (st ≠ .mem → found .lost st 0x6000C (fun x => x = ⟨st, owner, w⟩)) ∧ found .lostClean st 0x60008 (fun _ => False) ∧
  found .lostDirty st 0x6000C (run 16) ∧
  (∃ t e, exec (.patrolScrub st owner w .parity) s = .next t ∧ up t 0x60024 ∧ t = { s with hreg := t.hreg, poison := t.poison, events := s.events ++ [e] } ∧
    e.typ = 3 ∧ e.cause = 0x3E ∧ e.addr = BitVec.ofNat 64 (256 * (w / 32)) ∧ ∀ x, x ∈ t.poison ↔ x ∈ s.poison ∨ run 32 x) ∧
  (∀ yard, exec (.patrolScrub st owner w (.entry yard false)) s = .next s ∧ ∃ t e, exec (.patrolScrub st owner w (.entry yard true)) s = .next t ∧
    t = { s with hreg := t.hreg, events := s.events ++ [e] } ∧ e.typ = 3 ∧ e.cause = 0x3E ∧
    (hregGet t 0x60040).toNat / 2 ^ 56 = if yard = true then 8 else 2) ∧
  (0x10000000000 ≤ pa → pa < 0x10000000000 + t2Extent s → ∃ t, exec (.secondTierError pa) s = .next t ∧ t = { s with poison := t.poison } ∧
    ∀ x, x ∈ t.poison ↔ x ∈ s.poison ∨ x = ⟨.mem, 0, pa / 8⟩) ∧
  (pa < 0x10000000000 ∨ 0x10000000000 + t2Extent s ≤ pa → exec (.secondTierError pa) s = .next s) ∧
  (port < 6 → ∃ t, exec (.secondTierPortDown port) s = .next t ∧ t = { s with t2down := t.t2down } ∧
    ∀ k, k ∈ t.t2down ↔ k ∈ s.t2down ∨ k = port) ∧
  (tabFind s.spared stack = none → ∃ t, exec (.hbmChannelSpare stack ch) s = .next t ∧ tabFind t.spared stack = some ch ∧ up t 0x6002C ∧
    t.refused = s.refused) ∧
  (tabFind s.spared stack ≠ none → exec (.hbmChannelSpare stack ch) s = .next { s with refused := s.refused + 1 }) ∧
  (n < 8 → ∃ t, exec (.hbmSoftRowRepair bank row) s = .next t ∧ t.softRows = s.softRows ++ [(bank, row)] ∧ up t 0x6002C) ∧
  (8 ≤ n → exec (.hbmSoftRowRepair bank row) s = .next s)

/-- The request in progress is answered at its address: a report that names the nonce and carries a signature of its first 768 bytes, or the
certificate (key, signatures and serial are free: DESIGN CHOICE, log entry 12); ATTSTAT says DONE; with none in progress nothing happens.

A write of FWCMD begins a stage or a commit, which ends in a step of its own (when it ends is open: DESIGN CHOICE, log entry 77). A staged set, its
images one behind the other (DEDUCED, log entry 19), that verifies goes to the inactive bank, which boots next; one that does not leaves the banks and
says why, one with a poisoned byte as one whose digest differs (DESIGN CHOICE, log entry 101); a commit raises the rollback counter to the running
version and never lowers it. MEAS5 to MEAS7 are extended as secure software asks. -/
def Obligations.AttestationAndFirmware : Prop :=
  (∀ (s : State) (b nonce : List Byte),
  let a := leNat b 8 8
  let answer (i : Instr) (op : Nat) (out : List Byte) : Prop :=
    (s.att = none → exec i s = .next s) ∧
    (s.att = some b → leNat b 0 4 ≠ op → exec i s = .next s) ∧
    (s.att = some b → leNat b 0 4 = op → (∀ k, k < 4096 * op → backed s (a + k) = true) → inAperture a = false → ∃ t,
      exec i s = .next t ∧ t.att = none ∧
      bit (hregGet t 0x61008) 0 = false ∧ bit (hregGet t 0x61008) 1 = true ∧ physRead t a (4096 * op) = out)
  answer .attestationReport 1 (reportOf s (b.drop 64)) ∧ answer .attestationCertificate 2 certificate ∧ certificate.length = 8192 ∧
  (nonce.length = 64 → (reportOf s nonce).length = 4096 ∧ ((reportOf s nonce).drop 32).take 64 = nonce ∧
    nat32 (reportOf s nonce) 0 = 1 ∧ nat32 (reportOf s nonce) 4 = 4096 ∧
    ((reportOf s nonce).drop 0x300).take 3309 = fitTo 3309 (Config.identitySign ((reportOf s nonce).take 0x300)))) ∧
  (∀ (s : State) (ok : Bool) (rollback : Nat) (img : List Byte),
  let a := (hregGet s 0x61010).toNat / 4096 * 4096 % 2 ^ 52
  let f := s.firm
  let s0 : State := { s with firm := { f with busy := 0 } }
  let n := stagedLen s0 3 a
  let b := physRead (memTouch s0 a n) a n
  let sound : Prop := isPoison (memTouch s0 a n) .mem 0 a n = false
  let on : Prop := (s.ready = true ∨ f.recovery = true) ∧ f.busy ≠ 2
  let why (t : State) (e : Nat) : Prop := (hregGet t 0x61020).toNat / 65536 % 256 = e
  (s.ready = false → f.recovery = false → exec (.fwcmdStage ok) s = .next s ∧ exec .fwcmdCommit s = .next s) ∧
  (f.busy = 2 → exec (.fwcmdStage ok) s = .next s) ∧ (f.busy = 1 → exec .fwcmdCommit s = .next s) ∧
  (on → ¬sound → ∀ ok, ∃ t, exec (.fwcmdStage ok) s = .next t ∧ t.firm = { f with busy := 0 } ∧ why t 2) ∧
  (∀ e, on → sound → setError f.rollback 3 b = some e → ∃ t, exec (.fwcmdStage ok) s = .next t ∧ t.firm = { f with busy := 0 } ∧ why t e) ∧
  (on → sound → setError f.rollback 3 b = none → ∃ t, exec (.fwcmdStage false) s = .next t ∧ t.firm = { f with busy := 0 } ∧ why t 4) ∧
  (on → sound → setError f.rollback 3 b = none → ∃ t, exec (.fwcmdStage true) s = .next t ∧ why t 0 ∧
    t.firm = { f with banks := f.banks.set (1 - f.active) (some b), active := 1 - f.active, busy := 0,
                      broken := f.broken.filter (fun x => x != 1 - f.active) }) ∧
  (s.ready = true ∨ f.recovery = true → f.busy ≠ 1 →
    exec .fwcmdCommit s = .next { s with firm := { f with rollback := max f.rollback f.version, busy := 0 } }) ∧
  (∀ v : Double, s.ready = true ∨ f.recovery = true → f.busy = 0 → ((bits v 0 2 : BitVec 2) = 1 ∨ (bits v 0 2 : BitVec 2) = 2) →
    exec (.registerWrite 0x61018 4 v) s = .next { s with firm := { f with busy := (bits v 0 2 : BitVec 2).toNat } }) ∧
  (imageError rollback img = none → Config.vendorSigned (imageHead img) (fitTo 3309 (img.drop 256)) = true ∧
    shake256 (imageBody img) 64 = imageDigest img ∧ rollback ≤ imageVersion img) ∧
  (∀ i d, 5 ≤ i → i ≤ 7 → measOf (monitorStep s i d) i = shake256 (measOf s i ++ fitTo 64 d) 64 ∧
    ∀ k, k ≠ i → measOf (monitorStep s i d) k = measOf s k))

/-- Every source of a reset leaves no work, no memory (DESIGN CHOICE, log entry 16) and no fault record, fuses the soft row repairs (DEDUCED, log entry
24), keeps host memory, the flash and the thermal readings, and brings the device up, in one step (DEDUCED, log entry 17), when a bank verifies and was
not left half staged; without its rails none acts; a wrong RSTCTL key, or one written before READY, does nothing.

A rail fault, a thermal shutdown and a power-off remove every rail but VAUX, the standby's removal that too, and each leaves its record (DEDUCED, log
entry 23); so does a rail that misses its power-good window; a lost PLL lock holds the device in reset until lock returns; a lost SerDes reference takes
every port down (DEDUCED, log entry 25). A step that is not due changes nothing (DESIGN CHOICE, log entry 29). -/
def Obligations.ResetsAndRails : Prop :=
  (∀ (s : State) (b : BringUp) (k : BitVec 4) (v : Word),
  let code (t : State) : Nat := (hregGet t 0x6200C).toNat
  let clear (t : State) : Prop := t.groups = [] ∧ t.units = [] ∧ t.levels = [] ∧ t.ops = [] ∧ t.jobs = [] ∧ t.ctxs = [] ∧ t.mem = [] ∧ t.queues = [] ∧
    t.tlb = [] ∧ t.poison = [] ∧ t.softRows = [] ∧ t.hardRows = s.hardRows ++ s.softRows ∧ t.host = s.host ∧ t.cur = none ∧ t.clk = 0 ∧
    hregGet t 0x62000 = hregGet s 0x62000
  let a := s.firm.active
  let up (i : Instr) (s : State) (cause : Nat) : Prop := powered s = true → s.locked = true → b.bad = [] → a ∉ (haltFirm s.firm).broken →
    setError s.firm.rollback 3 (bankSet s.firm a) = none → ∃ t, exec i s = .next t ∧ clear t ∧ t.ready = true ∧ code t = 16 * cause + 15 ∧
      t.firm = { haltFirm s.firm with booted := a, version := imageVersion (bankSet s.firm a), recovery := false } ∧
      (hregGet t 0x45004).toNat = extentGib b (usedPorts ((List.range 6).filter (fun p => b.ports.any (fun e => e.1 == p))))
  let source (i : Instr) (cause : Nat) : Prop := (powered s = false → exec i s = .next s) ∧ up i s cause ∧
    (powered s = true → s.locked = false → ∃ t, exec i s = .next t ∧ clear t ∧ t.ready = false ∧ code t = 16 * cause)
  (powered s = true ↔ s.rails = [.vaux, .vserdes, .vhbm, .vloft, .vcore]) ∧
  source (.deviceReset k b) k.toNat ∧ source (.perst b) 1 ∧ source (.functionLevelReset b) 2 ∧
  ((bits v 0 16 : BitVec 16) = 0x5A5A → s.ready = true → source (.rstctl v b) 3) ∧
  ((bits v 0 16 : BitVec 16) ≠ 0x5A5A ∨ s.ready = false → exec (.rstctl v b) s = .next s) ∧
  (b.miss = none → b.bad = [] → a ∉ (haltFirm s.firm).broken → setError s.firm.rollback 3 (bankSet s.firm a) = none → ∃ t,
    exec (.powerOn b) s = .next t ∧ clear t ∧ t.ready = true ∧ powered t = true ∧ t.shutdown = 0 ∧ code t = 16 * s.shutdown.toNat + 15) ∧
  (∀ n, b.miss = some n → ∃ t, exec (.powerOn b) s = .next t ∧ t.rails = [.vaux] ∧ t.ready = false ∧ t.shutdown = 4 ∧ t.groups = [] ∧ t.hreg = []) ∧
  (powered s = true → s.locked = true → b.bad = [] → (∀ n, setError s.firm.rollback 3 (bankSet s.firm n) ≠ none) → ∃ t,
    exec (.perst b) s = .next t ∧ clear t ∧ t.ready = false ∧ t.firm.recovery = true ∧ code t = 16 + 6)) ∧
  (∀ (f : Firmware), f.busy = 1 → 1 - f.active ∈ (haltFirm f).broken ∧ (haltFirm f).busy = 0 ∧ ∀ k, k ≠ 1 - f.active →
    (k ∈ (haltFirm f).broken ↔ k ∈ f.broken)) ∧
  (∀ (s : State) (b : BringUp) (standby : Bool),
  let off (t : State) (r : BitVec 4) : Prop := t.ready = false ∧ t.groups = [] ∧ t.mem = [] ∧ t.shutdown = r ∧ t.hreg = [] ∧
    t.firm = { haltFirm s.firm with recovery := false }
  (powered s = true → (∃ t, exec .railFault s = .next t ∧ off t 4 ∧ t.rails = [.vaux]) ∧
    ∃ t, exec .thermalShutdown s = .next t ∧ off t 5 ∧ t.rails = [.vaux]) ∧
  (powered s = false → exec .railFault s = .next s ∧ exec .thermalShutdown s = .next s ∧ exec .pllLockLoss s = .next s) ∧
  (∃ t, exec (.powerOff standby) s = .next t ∧ off t (if standby = true ∨ powered s = true then 0 else s.shutdown) ∧
    (standby = true → t.rails = []) ∧ (standby = false → powered s = true ∨ s.rails = [.vaux] → t.rails = [.vaux])) ∧
  (powered s = true → ∃ t, exec .pllLockLoss s = .next t ∧ t.locked = false ∧ t.ready = false ∧ t.groups = [] ∧ t.mem = [] ∧
    (hregGet t 0x6200C).toNat = 96 ∧ hregGet t 0x62000 = hregGet s 0x62000) ∧
  (powered s = false ∨ s.locked = true → exec (.pllRelock b) s = .next s) ∧
  (powered s = true → s.locked = false → b.bad = [] → s.firm.active ∉ s.firm.broken →
    setError s.firm.rollback 3 (bankSet s.firm s.firm.active) = none → ∃ t,
    exec (.pllRelock b) s = .next t ∧ t.locked = true ∧ t.ready = true ∧
    (hregGet t 0x6200C).toNat = 16 * ((hregGet s 0x6200C).toNat / 16 % 16) + 15) ∧
  ((∀ r, (lringOf s r).cmd = none) → ∃ t, exec .serdesReferenceLoss s = .next t ∧ (∀ p, p < 6 → portUp t p = false ∧ p ∈ t.t2down) ∧ t.mem = s.mem))
end

