-- ==== Sys2Proof/Laws/Tab.lean ====
section
/-! SUPPORT. Sys2Proof/Laws/Tab.lean: reads after writes of a table and of memory, and the canonical form kept by every operation. -/

namespace Sys2Proof.Laws

open Sys2Proof Sys2Proof.Machine

/-! ### What a read finds -/

@[simp] theorem tabFind_nil (k : Nat) : tabFind ([] : Tab α) k = none := rfl

@[simp] theorem tabFind_cons (e : Nat × α) (m : Tab α) (k : Nat) :
    tabFind (e :: m) k = if e.1 = k then some e.2 else tabFind m k := by
  obtain ⟨j, v⟩ := e; rfl

theorem tabFind_append (m n : Tab α) (k : Nat) : tabFind (m ++ n) k = (tabFind m k).or (tabFind n k) := by
  induction m with
  | nil => simp
  | cons e m ih => simp only [List.cons_append, tabFind_cons, ih]; split <;> simp

theorem tabFind_filter (m : Tab α) (p : Nat → Bool) (k : Nat) :
    tabFind (m.filter (fun e => p e.1)) k = if p k then tabFind m k else none := by
  induction m with
  | nil => simp
  | cons e m ih =>
    by_cases h : p e.1
    · simp only [List.filter_cons, h, if_true, tabFind_cons, ih]
      by_cases hk : e.1 = k
      · subst hk; simp [h]
      · simp [hk]
    · have hf : (e :: m).filter (fun e => p e.1) = m.filter (fun e => p e.1) := by simp [h]
      rw [hf, ih, tabFind_cons]
      by_cases hk : e.1 = k
      · subst hk; simp [h]
      · simp [hk]

theorem tabFind_below (m : Tab α) (j k : Nat) : tabFind (tabBelow m j) k = if k < j then tabFind m k else none := by
  have := tabFind_filter m (fun x => decide (x < j)) k
  simpa [tabBelow] using this

theorem tabFind_above (m : Tab α) (j k : Nat) : tabFind (tabAbove m j) k = if j < k then tabFind m k else none := by
  have := tabFind_filter m (fun x => decide (j < x)) k
  simpa [tabAbove] using this

@[simp] theorem tabFind_put (m : Tab α) (j k : Nat) (v : α) :
    tabFind (tabPut m j v) k = if j = k then some v else tabFind m k := by
  simp only [tabPut, tabFind_append, tabFind_cons, tabFind_below, tabFind_above]
  rcases Nat.lt_trichotomy j k with h | h | h
  · simp [Nat.not_lt_of_lt h, Nat.ne_of_lt h, h]
  · subst h; simp
  · have h1 : ¬ j = k := by omega
    have h2 : ¬ j < k := by omega
    simp [h, h1, h2]

@[simp] theorem tabFind_del (m : Tab α) (j k : Nat) :
    tabFind (tabDel m j) k = if j = k then none else tabFind m k := by
  simp only [tabDel, tabFind_append, tabFind_below, tabFind_above]
  rcases Nat.lt_trichotomy j k with h | h | h
  · simp [Nat.not_lt_of_lt h, Nat.ne_of_lt h, h]
  · subst h; simp
  · have h1 : ¬ j = k := by omega
    have h2 : ¬ j < k := by omega
    simp [h, h1, h2]

@[simp] theorem tabGet_set [DecidableEq α] (d : α) (m : Tab α) (j k : Nat) (v : α) :
    tabGet d (tabSet d m j v) k = if j = k then v else tabGet d m k := by
  unfold tabSet tabGet
  by_cases hv : v = d
  · subst hv; simp only [if_true, tabFind_del]; split <;> simp
  · simp only [hv, if_false, tabFind_put]; split <;> simp

theorem tabFind_map (m : Tab α) (j k : Nat) (f : α → α) :
    tabFind (tabMap m j f) k = if j = k then (tabFind m k).map f else tabFind m k := by
  unfold tabMap
  cases h : tabFind m j with
  | none => by_cases hk : j = k <;> simp_all
  | some v => by_cases hk : j = k <;> simp_all

@[simp] theorem tabFind_map_self (m : Tab α) (j : Nat) (f : α → α) :
    tabFind (tabMap m j f) j = (tabFind m j).map f := by simp [tabFind_map]

@[simp] theorem tabFind_map_ne (m : Tab α) (j k : Nat) (f : α → α) (h : j ≠ k) :
    tabFind (tabMap m j f) k = tabFind m k := by simp [tabFind_map, h]

/-! ### Runs of values, and memory -/

theorem tabFind_run [DecidableEq α] (d : α) (xs : List α) (a k : Nat) :
    tabFind (tabRun d a xs) k = if a ≤ k ∧ k < a + xs.length then (if xs.getD (k - a) d = d then none else some (xs.getD (k - a) d)) else none := by
  induction xs generalizing a with
  | nil => simp [tabRun]
  | cons x r ih =>
    simp only [tabRun]
    rcases Nat.lt_trichotomy k a with h | h | h
    · have h1 : ¬ a ≤ k := by omega
      have h2 : ¬ a + 1 ≤ k := by omega
      have h3 : ¬ a = k := by omega
      split <;> simp [ih, h1, h2, h3]
    · subst h
      have h2 : ¬ k + 1 ≤ k := by omega
      by_cases hx : x = d
      · subst hx; simp [ih] <;> omega
      · simp [hx]
    · obtain ⟨n, rfl⟩ : ∃ n, k = a + 1 + n := ⟨k - (a + 1), by omega⟩
      have e1 : a + 1 + n - a = n + 1 := by omega
      have e2 : a + 1 + n - (a + 1) = n := by omega
      have h3 : ¬ a = a + 1 + n := by omega
      have h4 : a ≤ a + 1 + n := by omega
      have h5 : a + 1 ≤ a + 1 + n := by omega
      have h6 : (a + 1 + n < a + (r.length + 1)) ↔ (a + 1 + n < a + 1 + r.length) := by omega
      split <;> simp [ih, e1, h3, h4, h6]

theorem tabGet_write [DecidableEq α] (d : α) (m : Tab α) (a k : Nat) (xs : List α) :
    tabGet d (tabWrite d m a xs) k = if a ≤ k ∧ k < a + xs.length then xs.getD (k - a) d else tabGet d m k := by
  have hf := tabFind_filter m (fun x => decide (a + xs.length ≤ x)) k
  simp only [tabGet, tabWrite, tabFind_append, tabFind_below, tabFind_run]
  rw [hf]
  by_cases h1 : k < a
  · have h2 : ¬ a ≤ k := by omega
    have h3 : ¬ a + xs.length ≤ k := by omega
    simp [h1, h2, h3]
  · have h2 : a ≤ k := by omega
    by_cases h3 : k < a + xs.length
    · have h4 : ¬ a + xs.length ≤ k := by omega
      simp only [h1, h2, h3, h4]
      by_cases h5 : xs.getD (k - a) d = d
      · simp only [if_true, and_self, h5]; rfl
      · simp only [if_true, and_self, h5, if_false, decide_false]; rfl
    · have h4 : a + xs.length ≤ k := by omega
      simp [h1, h2, h3, h4]

/-- A write of bytes is read back, and every byte outside it is as before. -/
theorem memByte_write (m : Memory) (a k : Nat) (bs : List Byte) :
    memByte (memWrite m a bs) k = if a ≤ k ∧ k < a + bs.length then bs.getD (k - a) 0 else memByte m k :=
  tabGet_write memUnlisted m a k bs

/-! ### The canonical form -/

theorem tabRising_mono (m : Tab α) {lo lo' : Nat} (h : lo ≤ lo') (hm : tabRising lo' m = true) : tabRising lo m = true := by
  cases m with
  | nil => rfl
  | cons e m => obtain ⟨k, v⟩ := e; simp_all [tabRising]; omega

theorem tabRising_filter (p : Nat × α → Bool) (m : Tab α) (lo : Nat) (h : tabRising lo m = true) :
    tabRising lo (m.filter p) = true := by
  induction m generalizing lo with
  | nil => rfl
  | cons e m ih =>
    obtain ⟨k, v⟩ := e
    simp only [tabRising, Bool.and_eq_true, decide_eq_true_eq] at h
    simp only [List.filter_cons]
    split
    · simp only [tabRising, h.1, decide_true, Bool.true_and]; exact ih _ h.2
    · exact tabRising_mono _ (by omega) (ih _ h.2)

theorem tabRising_above (m : Tab α) (lo j : Nat) (h : tabRising lo m = true) :
    tabRising j (m.filter (fun e => decide (j ≤ e.1))) = true := by
  induction m generalizing lo with
  | nil => rfl
  | cons e m ih =>
    obtain ⟨k, v⟩ := e
    simp only [tabRising, Bool.and_eq_true, decide_eq_true_eq] at h
    simp only [List.filter_cons]
    by_cases hj : j ≤ k
    · simp only [hj, decide_true, if_true, tabRising, Bool.true_and]
      exact tabRising_filter _ _ _ h.2
    · simp only [hj, decide_false]; exact ih _ h.2

theorem tabRising_append (m n : Tab α) (lo j : Nat) (hj : lo ≤ j) (hm : tabRising lo m = true)
    (hb : ∀ e ∈ m, e.1 < j) (hn : tabRising j n = true) : tabRising lo (m ++ n) = true := by
  induction m generalizing lo with
  | nil => exact tabRising_mono _ hj hn
  | cons e m ih =>
    obtain ⟨k, v⟩ := e
    simp only [tabRising, Bool.and_eq_true, decide_eq_true_eq, List.cons_append] at hm ⊢
    exact ⟨hm.1, ih _ (by have := hb (k, v) (by simp); omega) hm.2 (fun e he => hb e (by simp [he]))⟩

theorem tabRising_run [DecidableEq α] (d : α) (xs : List α) (a : Nat) :
    tabRising a (tabRun d a xs) = true ∧ ∀ e ∈ tabRun d a xs, e.1 < a + xs.length ∧ e.2 ≠ d := by
  induction xs generalizing a with
  | nil => simp [tabRun, tabRising]
  | cons x r ih =>
    obtain ⟨h1, h2⟩ := ih (a + 1)
    have h2' : ∀ e ∈ tabRun d (a + 1) r, e.1 < a + (x :: r).length ∧ e.2 ≠ d := by
      intro e he; obtain ⟨u, v⟩ := h2 e he; exact ⟨by simp; omega, v⟩
    simp only [tabRun]
    split
    · exact ⟨tabRising_mono _ (by omega) h1, h2'⟩
    · refine ⟨by simp [tabRising, h1], ?_⟩
      intro e he
      rcases List.mem_cons.mp he with h | h
      · subst h; exact ⟨by simp, by assumption⟩
      · exact h2' e h

/-- Every write of consecutive values keeps the canonical form. -/
theorem tabWrite_wf [DecidableEq α] (d : α) (m : Tab α) (a : Nat) (xs : List α) (h : tabWf d m = true) :
    tabWf d (tabWrite d m a xs) = true := by
  simp only [tabWf, Bool.and_eq_true, List.all_eq_true, decide_eq_true_eq] at h ⊢
  obtain ⟨hr, hd⟩ := h
  obtain ⟨r1, r2⟩ := tabRising_run d xs a
  refine ⟨?_, ?_⟩
  · unfold tabWrite
    rw [List.append_assoc]
    refine tabRising_append _ _ 0 a (Nat.zero_le _) (tabRising_filter _ _ _ hr) ?_ ?_
    · intro e he; simpa using (List.mem_filter.mp he).2
    · exact tabRising_append _ _ a (a + xs.length) (by omega) r1 (fun e he => (r2 e he).1) (tabRising_above _ 0 _ hr)
  · intro e he
    unfold tabWrite at he
    rcases List.mem_append.mp he with h | h
    · rcases List.mem_append.mp h with h | h
      · exact hd e (List.mem_filter.mp h).1
      · exact (r2 e h).2
    · exact hd e (List.mem_filter.mp h).1

/-- Every write of bytes keeps memory's canonical form. -/
theorem memWrite_wf (m : Memory) (a : Nat) (bs : List Byte) (h : memWf m = true) : memWf (memWrite m a bs) = true :=
  tabWrite_wf memUnlisted m a bs h

/-- A write at a physical address keeps memory's canonical form, backed or not. -/
theorem physWrite_wf (s : State) (pa : Nat) (bs : List Byte) (h : memWf s.mem = true) :
    memWf (physWrite s pa bs).mem = true := by
  unfold physWrite
  split
  · exact memWrite_wf s.mem pa bs h
  · exact h

/-- Memory after reset has the canonical form. -/
theorem reset_memWf : memWf State.reset.mem = true := rfl

end Sys2Proof.Laws
end

