-- ==== Sys2Proof/Laws/Group.lean ====
section
/-! SUPPORT. Sys2Proof/Laws/Group.lean: reads after writes of groups, registers, predicates and flags; what retiring a word and a word of
the lane pipes do, said once. -/

namespace Sys2Proof.Laws

open Sys2Proof Sys2Proof.Machine Sys2Proof.Safety

/-! ### Groups -/

@[simp] theorem grp_setGrp (s : State) (i k : Nat) (g : Group) : grp (setGrp s i g) k = if i = k then some g else grp s k := by
  simp [grp, setGrp]
theorem grp_mapGrp (s : State) (i k : Nat) (f : Group → Group) :
    grp (mapGrp s i f) k = if i = k then (grp s k).map f else grp s k := by simp [grp, mapGrp, tabFind_map]

/-! ### Lanes -/

theorem mem_lanesOf {m : Mask} {l : Nat} : l ∈ lanesOf m ↔ l < 32 ∧ m.getLsbD l = true := by
  simp [lanesOf, lanes]

theorem lowBit_eq_head (m : Mask) : lowBit m = (lanesOf m).head? := by
  simp [lowBit, lanesOf, lanes]

theorem maskOf_fold (f : Nat → Bool) (ls : List Nat) (x : Mask) (l : Nat) (hl : l < 32) :
    (ls.foldl (fun acc i => if f i then acc ||| (1#32 <<< i) else acc) x).getLsbD l = (x.getLsbD l || (ls.contains l && f l)) := by
  induction ls generalizing x with
  | nil => simp
  | cons a r ih =>
    simp only [List.foldl_cons, ih, List.contains_cons]
    by_cases hf : f a
    · by_cases ha : l = a
      · subst ha; simp [hf, hl]
      · have h1 : ¬ a = l := fun h => ha h.symm
        have h2 : (1#32 <<< a).getLsbD l = false := by
          simp only [BitVec.getLsbD_shiftLeft, BitVec.getLsbD_one]
          by_cases h3 : l < a
          · simp [h3]
          · have : ¬ (l - a = 0) := by omega
            simp [this]
        have h3 : (l == a) = false := by simp [ha]
        simp [hf, h2, h3]
    · by_cases ha : l = a
      · subst ha; simp [hf]
      · have h3 : (l == a) = false := by simp [ha]
        simp [hf, h3]

theorem maskOf_getLsbD (f : Nat → Bool) (l : Nat) (hl : l < 32) : (maskOf f).getLsbD l = f l := by
  unfold maskOf
  rw [maskOf_fold f lanes 0#32 l hl]
  simp [lanes, hl]

/-! ### Registers -/

theorem regGet_regSet (g : Group) (r k f l : Nat) (x : Word) (hk : k < 32) (hl : l < 32) :
    regGet (regSet g r k x) f l =
      if f = r ∧ r ≠ 255 ∧ (192 ≤ r ∨ k = l) then x else regGet g f l := by
  unfold regGet regSet
  by_cases h1 : r ≥ 192
  · by_cases h2 : r = 255
    · subst h2; simp
    · by_cases h3 : f ≥ 192
      · by_cases h4 : f = 255
        · have : ¬ f = r := by omega
          simp [h1, h2, h4]; omega
        · by_cases h5 : f = r
          · subst h5; simp [h1, h2]
          · have : ¬ r - 192 = f - 192 := by omega
            simp [h1, h2, h3, h4, h5, this]
      · have : ¬ f = r := by omega
        simp [h1, h2, h3, this]
  · have h2 : ¬ r = 255 := by omega
    by_cases h3 : f ≥ 192
    · have : ¬ f = r := by omega
      simp [h1, h3, this]
    · by_cases h5 : 32 * r + k = 32 * f + l
      · have h6 : f = r := by omega
        have h7 : k = l := by omega
        subst h6; subst h7; simp [h1, h2]
      · have : ¬ (f = r ∧ k = l) := by omega
        have h6 : ¬ (f = r ∧ r ≠ 255 ∧ (192 ≤ r ∨ k = l)) := by
          rintro ⟨a, _, b | b⟩
          · exact h1 b
          · exact this ⟨a, b⟩
        rw [if_neg h6]
        simp [h1, h3, h5]

theorem regGet_fold (g : Group) (r : Nat) (hr : r < 192) (ls : List Nat) (val : Nat → Word) (f l : Nat)
    (hls : ∀ k ∈ ls, k < 32) (hl : l < 32) :
    regGet (ls.foldl (fun g k => regSet g r k (val k)) g) f l = if f = r ∧ l ∈ ls then val l else regGet g f l := by
  induction ls generalizing g with
  | nil => simp
  | cons a t ih =>
    have ha : a < 32 := hls a (by simp)
    rw [List.foldl_cons, ih _ (fun k hk => hls k (by simp [hk])), regGet_regSet _ _ _ _ _ _ ha hl]
    by_cases hf : f = r
    · subst hf
      by_cases h1 : l ∈ t
      · simp [h1]
      · by_cases h2 : l = a
        · subst h2; simp [h1]; omega
        · have h3 : ¬ a = l := fun h => h2 h.symm
          have h4 : ¬ 192 ≤ f := by omega
          simp [h1, h2, h3, h4]
    · simp [hf]

/-- A write of a destination field is what `written` says. -/
theorem regGet_lanesSet (c : Go) (r : Nat) (w : Nat → Word) (f l : Nat) (hl : l < 32) :
    regGet (lanesSet c.g r (lanesOf c.act) w) f l = written c r w f l := by
  unfold lanesSet written
  by_cases h1 : r ≥ 192
  · have hn : ¬ r < 192 := by omega
    rw [lowBit_eq_head]
    cases hm : lanesOf c.act with
    | nil => simp [h1, hn]
    | cons a t =>
      have ha : a < 32 := (mem_lanesOf.mp (by rw [hm]; simp : a ∈ lanesOf c.act)).1
      simp only [h1, if_true, regGet_regSet _ _ _ _ _ _ ha hl, hn, List.head?_cons]
      by_cases h2 : f = r <;> by_cases h3 : r = 255 <;> simp [h2, h3]
  · have hr : r < 192 := by omega
    rw [if_neg h1, regGet_fold _ _ hr _ _ _ _ (fun k hk => (mem_lanesOf.mp hk).1) hl]
    have h3 : ¬ r = 255 := by omega
    by_cases h2 : f = r
    · subst h2
      simp [mem_lanesOf, hl, hr, h3]
    · simp [h2]

theorem regGet_congr {g g' : Group} (hv : g.v = g'.v) (hs : g.s = g'.s) (f l : Nat) : regGet g f l = regGet g' f l := by
  simp [regGet, hv, hs]

theorem predGet_congr {g g' : Group} (h : g.p = g'.p) (p l : Nat) : predGet g p l = predGet g' p l := by
  simp [predGet, predMask, h]

theorem predGet_predSet (g : Group) (i p l : Nat) (act val : Mask) (hl : l < 32) :
    predGet (predSet g i act val) p l = if p = i ∧ i < 47 ∧ act.getLsbD l then val.getLsbD l else predGet g p l := by
  unfold predGet predMask predSet
  by_cases h1 : i ≥ 47
  · have : ¬ i < 47 := by omega
    simp [h1, this]
  · have h2 : i < 47 := by omega
    by_cases h3 : p = i
    · subst h3
      simp only [h1, if_false, tabGet_set, if_true, h2, true_and]
      cases ha : act.getLsbD l <;>
        simp only [BitVec.getLsbD_or, BitVec.getLsbD_and, BitVec.getLsbD_not, ha, hl] <;> simp
    · have h4 : ¬ i = p := fun h => h3 h.symm
      simp [h1, h3, h4]

/-! ### What a destination write leaves alone -/

theorem regSet_ex (g : Group) (f k : Nat) (x : Word) : ∃ v s, regSet g f k x = { g with v := v, s := s } := by
  unfold regSet
  split
  · split
    · exact ⟨_, _, rfl⟩
    · exact ⟨_, _, rfl⟩
  · exact ⟨_, _, rfl⟩

theorem lanesSet_ex (g : Group) (f : Nat) (ls : List Nat) (w : Nat → Word) : ∃ v s, lanesSet g f ls w = { g with v := v, s := s } := by
  unfold lanesSet
  split
  · cases ls with
    | nil => exact ⟨_, _, rfl⟩
    | cons a t => exact regSet_ex _ _ _ _
  · induction ls generalizing g with
    | nil => exact ⟨_, _, rfl⟩
    | cons a t ih =>
      obtain ⟨v, s, h⟩ := regSet_ex g f a (w a)
      obtain ⟨v', s', h'⟩ := ih (regSet g f a (w a))
      rw [List.foldl_cons, h', h]; exact ⟨_, _, rfl⟩

theorem lanesSet_same (g : Group) (f : Nat) (ls : List Nat) (w : Nat → Word) :
    lanesSet g f ls w = { g with v := (lanesSet g f ls w).v, s := (lanesSet g f ls w).s } := by
  obtain ⟨v, s, h⟩ := lanesSet_ex g f ls w; rw [h]

theorem dstSet_ex (g : Group) (d : Dst) (act : Mask) (v : Nat → Double) :
    ∃ x y z, dstSet g d act v = { g with v := x, s := y, p := z } := by
  cases d with
  | reg f => obtain ⟨x, y, h⟩ := lanesSet_ex g f.toNat (lanesOf act) (fun l => bits (v l) 0 32); exact ⟨x, y, _, h⟩
  | pair f =>
    obtain ⟨x, y, h⟩ := lanesSet_ex g f.toNat (lanesOf act) (fun l => bits (v l) 0 32)
    obtain ⟨x', y', h'⟩ := lanesSet_ex (lanesSet g f.toNat (lanesOf act) (fun l => bits (v l) 0 32)) (f.toNat + 1) (lanesOf act)
      (fun l => bits (v l) 32 32)
    exact ⟨x', y', _, by rw [dstSet, h', h]⟩
  | pred f => simp only [dstSet, predSet]; split <;> exact ⟨_, _, _, rfl⟩

theorem dstSet_same (g : Group) (d : Dst) (act : Mask) (v : Nat → Double) :
    dstSet g d act v = { g with v := (dstSet g d act v).v, s := (dstSet g d act v).s, p := (dstSet g d act v).p } := by
  obtain ⟨x, y, z, h⟩ := dstSet_ex g d act v; rw [h]

theorem regGet_dstSet (c : Go) (g : Group) (hv : g.v = c.g.v) (hs : g.s = c.g.s) (d : Dst) (v : Nat → Double) (f l : Nat) (hl : l < 32) :
    regGet (dstSet g d c.act v) f l = regAfter c d v f l := by
  have key : ∀ (g : Group), g.v = c.g.v → g.s = c.g.s → ∀ r w f l, l < 32 → regGet (lanesSet g r (lanesOf c.act) w) f l = written c r w f l := by
    intro g hv hs r w f l hl
    have h := regGet_lanesSet { c with g := g } r w f l hl
    simp only at h
    rw [h]; unfold written
    simp only [regGet_congr hv hs]
  cases d with
  | reg r => exact key g hv hs _ _ _ _ hl
  | pred r => 
    simp only [dstSet, regAfter]
    exact regGet_congr (by unfold predSet; split <;> exact hv) (by unfold predSet; split <;> exact hs) _ _
  | pair r =>
    simp only [dstSet, regAfter]
    have h := regGet_lanesSet { c with g := lanesSet g r.toNat (lanesOf c.act) (fun l => bits (v l) 0 32) } (r.toNat + 1)
      (fun l => bits (v l) 32 32) f l hl
    simp only at h
    rw [h]
    by_cases hf : f = r.toNat + 1
    · subst hf
      unfold written
      simp only [if_true, key g hv hs _ _ _ _ hl]
      unfold written
      simp
    · simp only [hf, if_false]
      have h2 : written { c with g := lanesSet g r.toNat (lanesOf c.act) (fun l => bits (v l) 0 32) } (r.toNat + 1)
          (fun l => bits (v l) 32 32) f l = regGet (lanesSet g r.toNat (lanesOf c.act) (fun l => bits (v l) 0 32)) f l := by
        unfold written; simp [hf]
      rw [h2, key g hv hs _ _ _ _ hl]

theorem predGet_dstSet (c : Go) (g : Group) (hp : g.p = c.g.p) (d : Dst) (v : Nat → Double) (p l : Nat) (hl : l < 32) :
    predGet (dstSet g d c.act v) p l = predAfter c d v p l := by
  cases d with
  | reg r =>
    simp only [dstSet, predAfter]
    exact predGet_congr (by rw [lanesSet_same]; exact hp) _ _
  | pair r =>
    simp only [dstSet, predAfter]
    refine predGet_congr ?_ _ _
    rw [lanesSet_same]; rw [lanesSet_same g]; exact hp
  | pred r =>
    simp only [dstSet, predAfter, predGet_predSet _ _ _ _ _ _ hl, maskOf_getLsbD _ _ hl, predGet_congr hp]
    by_cases h : p = r.toNat % 64
    · subst h; rfl
    · simp [h]

/-! ### FFLAGS -/

theorem flagLanes_same (g : Group) (ls : List Nat) (fl : Nat → FFlags) : flagLanes g ls fl = { g with ff := (flagLanes g ls fl).ff } := by
  unfold flagLanes
  induction ls generalizing g with
  | nil => rfl
  | cons a t ih => rw [List.foldl_cons]; exact ih (ffOr g a (fl a))

theorem ff_fold (g : Group) (ls : List Nat) (fl : Nat → FFlags) (l : Nat) (hn : ls.Nodup) :
    tabGet 0 (flagLanes g ls fl).ff l = tabGet 0 g.ff l ||| (if l ∈ ls then fl l else 0) := by
  unfold flagLanes
  induction ls generalizing g with
  | nil => simp
  | cons a t ih =>
    have ha := List.nodup_cons.mp hn
    rw [List.foldl_cons, ih _ ha.2]
    simp only [ffOr, tabGet_set]
    by_cases h : a = l
    · subst h; simp [ha.1]
    · have h2 : ¬ l = a := fun x => h x.symm
      simp [h, h2]

theorem lanesOf_nodup (m : Mask) : (lanesOf m).Nodup := List.Nodup.sublist List.filter_sublist List.nodup_range

theorem ff_lanes (c : Go) (fl : Nat → FFlags) (l : Nat) (hl : l < 32) :
    tabGet 0 (flagLanes c.g (lanesOf c.act) fl).ff l = flagsAfter c fl l := by
  rw [ff_fold _ _ _ _ (lanesOf_nodup _)]
  simp [flagsAfter, mem_lanesOf, hl]

theorem noFpTrap_iff (c : Go) (fl : Nat → FFlags) : fpTraps c.g (lanesOf c.act) fl = false ↔ NoFpTrap c fl := by
  simp only [fpTraps, NoFpTrap, List.any_eq_false, mem_lanesOf]
  constructor
  · intro h l hl ha; simpa using h l ⟨hl, ha⟩
  · intro h l hl; simpa using h l hl.1 hl.2

/-! ### The checks before an effect, and retiring -/

/-- Everything that must hold for a word to act (R76, R10, R101). -/
theorem pre_go {i : Instr} {s : State} {c : Go} (h : pre i s = .go c) :
    s.cur = some (c.gid, c.sp) ∧ grp s c.gid = some c.g ∧ tabFind c.g.splits c.sp = some c.t ∧ c.act = guardMask i c.g c.t ∧
    decodeCause i c.g c.t = none ∧ interlocked s i c.gid = false ∧ c.wrs = writtenBy i ∧ c.global = globalWord i := by
  unfold pre at h
  split at h
  · cases h
  · rename_i gid sp hc
    split at h
    · cases h
    · rename_i g hg
      split at h
      · cases h
      · rename_i t ht
        simp only at h
        split at h
        · cases h
        · rename_i hd
          split at h
          · cases h
          · rename_i hi
            cases h
            exact ⟨hc, hg, ht, rfl, hd, by simpa using hi, rfl, rfl⟩

theorem pre_go_intro {i : Instr} {s : State} {gid sp : Nat} {g : Group} {t : Split} (hc : s.cur = some (gid, sp))
    (hg : grp s gid = some g) (ht : tabFind g.splits sp = some t) (hd : decodeCause i g t = none) (hi : interlocked s i gid = false) :
    pre i s = .go ⟨gid, sp, g, t, guardMask i g t, writtenBy i, globalWord i⟩ := by
  simp [pre, hc, hg, ht, hd, hi]

theorem passed_same (g : Group) (pc : Double) (m : Mask) : passed g pc m = { g with suppress := (passed g pc m).suppress } := by
  unfold passed; split <;> rfl

theorem passed_suppress (g : Group) (pc : Double) (m : Mask) :
    (passed g pc m).suppress = if suppressed g pc m then none else g.suppress := by
  unfold passed; split <;> rfl

theorem suppressed_congr {g g' : Group} (h : g.suppress = g'.suppress) (pc : Double) (m : Mask) :
    suppressed g pc m = suppressed g' pc m := by
  unfold suppressed; rw [h]

theorem retireGrp_same (g : Group) (c : Go) : retireGrp g c =
    { g with splits := (retireGrp g c).splits, suppress := (retireGrp g c).suppress, written := (retireGrp g c).written } := by
  unfold retireGrp; dsimp only; rw [passed_same]; rfl

theorem retireGrp_splits (g : Group) (c : Go) : (retireGrp g c).splits =
    tabMap g.splits c.sp (fun t => if c.global then { stepSplit t with relScope := 0 } else stepSplit t) := by
  unfold retireGrp; dsimp only; rw [passed_same]; rfl

/-- Retiring a word with a group that has the splits and the suppressed match of before. -/
theorem retire_retired (s : State) (c : Go) (g : Group) (ht : tabFind c.g.splits c.sp = some c.t) (hsp : g.splits = c.g.splits)
    (hsu : g.suppress = c.g.suppress) : Retired s (retire s c g) c (retireGrp g c) := by
  have hpc : (splitAt g c.sp).pc = c.t.pc := by simp [splitAt, hsp, ht]
  have hs := retireGrp_splits g c
  refine ⟨⟨rfl, ?_, ?_, ?_⟩, ?_, ?_, ?_⟩
  · simp [retire, grp, setGrp]
  · intro k hk
    have : ¬ c.gid = k := fun h => hk h.symm
    simp [retire, grp, setGrp, this]
  · intro a; rfl
  · rw [hs, tabFind_map_self, hsp, ht]
    simp only [Option.map_some]
    congr 1
    unfold stepSplit nextSplit
    cases c.global <;> rfl
  · intro k hk
    rw [hs, tabFind_map_ne _ _ _ _ (fun h => hk h.symm), hsp]
  · unfold passedAt
    rw [show (retireGrp g c).suppress = (passed (mapSplit g c.sp _) (splitAt g c.sp).pc c.t.mask).suppress from rfl, passed_suppress, hpc,
      suppressed_congr (g' := c.g) (by exact hsu)]
    simp [mapSplit, hsu]

theorem retireSame_eq (s : State) (c : Go) (hg : grp s c.gid = some c.g) : retireSame s c = retire s c c.g := by
  simp only [retireSame, retire, mapGrp, setGrp, tabMap]
  rw [show tabFind s.groups c.gid = some c.g from hg]

/-- A word that only advances. -/
theorem onlyAdvances {i : Instr} {s : State} {c : Go} (h : pre i s = .go c) (he : exec i s = .next (retireSame s c)) : OnlyAdvances i s c := by
  obtain ⟨_, hg, ht, _⟩ := pre_go h
  refine ⟨_, retireGrp c.g c, he, ?_, retireGrp_same c.g c⟩
  rw [retireSame_eq s c hg]
  exact retire_retired s c c.g ht rfl rfl

/-- A word of the lane pipes, said once: with no trap of R36 it completes with the effect of `LaneEffect`. -/
theorem finishLanes_next (s : State) (c : Go) (d : Dst) (r : Nat → LaneRes) (ht : tabFind c.g.splits c.sp = some c.t)
    (hf : NoFpTrap c (fun l => (r l).fl)) :
    ∃ s' g', finishLanes s c d r = .next s' ∧ LaneEffect s s' c d (fun l => (r l).v) (fun l => (r l).fl) g' := by
  have hf' := (noFpTrap_iff c _).mpr hf
  have h1 := flagLanes_same c.g (lanesOf c.act) (fun l => (r l).fl)
  have hff := ff_lanes c (fun l => (r l).fl)
  refine ⟨_, retireGrp (dstSet (flagLanes c.g (lanesOf c.act) (fun l => (r l).fl)) d c.act (fun l => (r l).v)) c,
    by simp only [finishLanes, hf']; rfl, ?_⟩
  · generalize flagLanes c.g (lanesOf c.act) (fun l => (r l).fl) = g1 at h1 hff
    have hv : g1.v = c.g.v := by rw [h1]
    have hs : g1.s = c.g.s := by rw [h1]
    have hp : g1.p = c.g.p := by rw [h1]
    have hd := dstSet_same g1 d c.act (fun l => (r l).v)
    have e1 := regGet_dstSet c g1 hv hs d (fun l => (r l).v)
    have e2 := predGet_dstSet c g1 hp d (fun l => (r l).v)
    generalize dstSet g1 d c.act (fun l => (r l).v) = g2 at hd e1 e2
    have hr := retireGrp_same g2 c
    refine { toRetired := retire_retired s c g2 ht (by rw [hd, h1]) (by rw [hd, h1]), regs := ?_, preds := ?_, flags := ?_, same := ?_ }
    · intro f l _ hl
      rw [← e1 f l hl]; exact regGet_congr (by rw [hr]) (by rw [hr]) _ _
    · intro p l _ hl
      rw [← e2 p l hl]; exact predGet_congr (by rw [hr]) _ _
    · intro l hl
      rw [hr, hd]; exact hff l hl
    · rw [hr]; rw [hd]; rw [h1]

/-- The lane pipes' words, for the statements: one whose lanes compute `r` completes with `r`'s values and flags. -/
theorem laneDone {i : Instr} {s : State} {c : Go} (d : Dst) (r : Go → Nat → LaneRes) (h : pre i s = .go c)
    (he : exec i s = runLanes i s d r) (hf : NoFpTrap c (fun l => (r c l).fl)) :
    LaneDone i s c d (fun l => (r c l).v) (fun l => (r c l).fl) := by
  obtain ⟨_, _, ht, _⟩ := pre_go h
  obtain ⟨s', g', h1, h2⟩ := finishLanes_next s c d (r c) ht hf
  exact ⟨s', g', by rw [he, runLanes, h]; exact h1, h2⟩

end Sys2Proof.Laws
end

