-- ==== Sys2Proof/Laws/State.lean ====
section
/-! SUPPORT. Sys2Proof/Laws/State.lean: what each update of the state leaves as it was, one lemma per field per update. -/

namespace Sys2Proof.Laws

open Sys2Proof Sys2Proof.Machine

/-! ### setGrp -/

@[simp] theorem setGrp_clk (s : State) (i : Nat) (g : Group) : (setGrp s i g).clk = s.clk := rfl
@[simp] theorem setGrp_free (s : State) (i : Nat) (g : Group) : (setGrp s i g).free = s.free := rfl
@[simp] theorem setGrp_changes (s : State) (i : Nat) (g : Group) : (setGrp s i g).changes = s.changes := rfl
@[simp] theorem setGrp_agenda (s : State) (i : Nat) (g : Group) : (setGrp s i g).agenda = s.agenda := rfl
@[simp] theorem setGrp_cur (s : State) (i : Nat) (g : Group) : (setGrp s i g).cur = s.cur := rfl
@[simp] theorem setGrp_turn (s : State) (i : Nat) (g : Group) : (setGrp s i g).turn = s.turn := rfl
@[simp] theorem setGrp_nextId (s : State) (i : Nat) (g : Group) : (setGrp s i g).nextId = s.nextId := rfl
@[simp] theorem setGrp_mem (s : State) (i : Nat) (g : Group) : (setGrp s i g).mem = s.mem := rfl
@[simp] theorem setGrp_poison (s : State) (i : Nat) (g : Group) : (setGrp s i g).poison = s.poison := rfl
@[simp] theorem setGrp_units (s : State) (i : Nat) (g : Group) : (setGrp s i g).units = s.units := rfl
@[simp] theorem setGrp_levels (s : State) (i : Nat) (g : Group) : (setGrp s i g).levels = s.levels := rfl
@[simp] theorem setGrp_ops (s : State) (i : Nat) (g : Group) : (setGrp s i g).ops = s.ops := rfl
@[simp] theorem setGrp_jobs (s : State) (i : Nat) (g : Group) : (setGrp s i g).jobs = s.jobs := rfl
@[simp] theorem setGrp_copies (s : State) (i : Nat) (g : Group) : (setGrp s i g).copies = s.copies := rfl
@[simp] theorem setGrp_casts (s : State) (i : Nat) (g : Group) : (setGrp s i g).casts = s.casts := rfl
@[simp] theorem setGrp_recs (s : State) (i : Nat) (g : Group) : (setGrp s i g).recs = s.recs := rfl
@[simp] theorem setGrp_bte (s : State) (i : Nat) (g : Group) : (setGrp s i g).bte = s.bte := rfl
@[simp] theorem setGrp_keys (s : State) (i : Nat) (g : Group) : (setGrp s i g).keys = s.keys := rfl
@[simp] theorem setGrp_sorts (s : State) (i : Nat) (g : Group) : (setGrp s i g).sorts = s.sorts := rfl
@[simp] theorem setGrp_draws (s : State) (i : Nat) (g : Group) : (setGrp s i g).draws = s.draws := rfl
@[simp] theorem setGrp_queues (s : State) (i : Nat) (g : Group) : (setGrp s i g).queues = s.queues := rfl
@[simp] theorem setGrp_rosec (s : State) (i : Nat) (g : Group) : (setGrp s i g).rosec = s.rosec := rfl
@[simp] theorem setGrp_level (s : State) (i : Nat) (g : Group) : (setGrp s i g).level = s.level := rfl
@[simp] theorem setGrp_therm (s : State) (i : Nat) (g : Group) : (setGrp s i g).therm = s.therm := rfl
@[simp] theorem setGrp_allow (s : State) (i : Nat) (g : Group) : (setGrp s i g).allow = s.allow := rfl
@[simp] theorem setGrp_rays (s : State) (i : Nat) (g : Group) : (setGrp s i g).rays = s.rays := rfl
@[simp] theorem setGrp_raygen (s : State) (i : Nat) (g : Group) : (setGrp s i g).raygen = s.raygen := rfl
@[simp] theorem setGrp_cores (s : State) (i : Nat) (g : Group) : (setGrp s i g).cores = s.cores := rfl
@[simp] theorem setGrp_ctxs (s : State) (i : Nat) (g : Group) : (setGrp s i g).ctxs = s.ctxs := rfl
@[simp] theorem setGrp_tlb (s : State) (i : Nat) (g : Group) : (setGrp s i g).tlb = s.tlb := rfl
@[simp] theorem setGrp_trough (s : State) (i : Nat) (g : Group) : (setGrp s i g).trough = s.trough := rfl
@[simp] theorem setGrp_races (s : State) (i : Nat) (g : Group) : (setGrp s i g).races = s.races := rfl
@[simp] theorem setGrp_scopes (s : State) (i : Nat) (g : Group) : (setGrp s i g).scopes = s.scopes := rfl
@[simp] theorem setGrp_regnum (s : State) (i : Nat) (g : Group) : (setGrp s i g).regnum = s.regnum := rfl
@[simp] theorem setGrp_tags (s : State) (i : Nat) (g : Group) : (setGrp s i g).tags = s.tags := rfl
@[simp] theorem setGrp_events (s : State) (i : Nat) (g : Group) : (setGrp s i g).events = s.events := rfl
@[simp] theorem setGrp_rgnsel (s : State) (i : Nat) (g : Group) : (setGrp s i g).rgnsel = s.rgnsel := rfl
@[simp] theorem setGrp_rgns (s : State) (i : Nat) (g : Group) : (setGrp s i g).rgns = s.rgns := rfl
@[simp] theorem setGrp_cwsel (s : State) (i : Nat) (g : Group) : (setGrp s i g).cwsel = s.cwsel := rfl
@[simp] theorem setGrp_cworld (s : State) (i : Nat) (g : Group) : (setGrp s i g).cworld = s.cworld := rfl
@[simp] theorem setGrp_meas (s : State) (i : Nat) (g : Group) : (setGrp s i g).meas = s.meas := rfl
@[simp] theorem setGrp_flits (s : State) (i : Nat) (g : Group) : (setGrp s i g).flits = s.flits := rfl
@[simp] theorem setGrp_msi (s : State) (i : Nat) (g : Group) : (setGrp s i g).msi = s.msi := rfl
@[simp] theorem setGrp_ports (s : State) (i : Nat) (g : Group) : (setGrp s i g).ports = s.ports := rfl
@[simp] theorem setGrp_lrings (s : State) (i : Nat) (g : Group) : (setGrp s i g).lrings = s.lrings := rfl
@[simp] theorem setGrp_inval (s : State) (i : Nat) (g : Group) : (setGrp s i g).inval = s.inval := rfl
@[simp] theorem setGrp_att (s : State) (i : Nat) (g : Group) : (setGrp s i g).att = s.att := rfl
@[simp] theorem setGrp_firm (s : State) (i : Nat) (g : Group) : (setGrp s i g).firm = s.firm := rfl
@[simp] theorem setGrp_spared (s : State) (i : Nat) (g : Group) : (setGrp s i g).spared = s.spared := rfl
@[simp] theorem setGrp_refused (s : State) (i : Nat) (g : Group) : (setGrp s i g).refused = s.refused := rfl
@[simp] theorem setGrp_softRows (s : State) (i : Nat) (g : Group) : (setGrp s i g).softRows = s.softRows := rfl
@[simp] theorem setGrp_hardRows (s : State) (i : Nat) (g : Group) : (setGrp s i g).hardRows = s.hardRows := rfl
@[simp] theorem setGrp_spares (s : State) (i : Nat) (g : Group) : (setGrp s i g).spares = s.spares := rfl
@[simp] theorem setGrp_rails (s : State) (i : Nat) (g : Group) : (setGrp s i g).rails = s.rails := rfl
@[simp] theorem setGrp_locked (s : State) (i : Nat) (g : Group) : (setGrp s i g).locked = s.locked := rfl
@[simp] theorem setGrp_ready (s : State) (i : Nat) (g : Group) : (setGrp s i g).ready = s.ready := rfl
@[simp] theorem setGrp_shutdown (s : State) (i : Nat) (g : Group) : (setGrp s i g).shutdown = s.shutdown := rfl
@[simp] theorem setGrp_host (s : State) (i : Nat) (g : Group) : (setGrp s i g).host = s.host := rfl
@[simp] theorem setGrp_hreg (s : State) (i : Nat) (g : Group) : (setGrp s i g).hreg = s.hreg := rfl
@[simp] theorem setGrp_nextIssue (s : State) (i : Nat) (g : Group) : (setGrp s i g).nextIssue = s.nextIssue := rfl
@[simp] theorem setGrp_sync (s : State) (i : Nat) (g : Group) : (setGrp s i g).sync = s.sync := rfl
@[simp] theorem setGrp_rosecClk (s : State) (i : Nat) (g : Group) : (setGrp s i g).rosecClk = s.rosecClk := rfl
@[simp] theorem setGrp_collHeld (s : State) (i : Nat) (g : Group) : (setGrp s i g).collHeld = s.collHeld := rfl
@[simp] theorem setGrp_monitor (s : State) (i : Nat) (g : Group) : (setGrp s i g).monitor = s.monitor := rfl
@[simp] theorem setGrp_rels (s : State) (i : Nat) (g : Group) : (setGrp s i g).rels = s.rels := rfl
@[simp] theorem setGrp_blocks (s : State) (i : Nat) (g : Group) : (setGrp s i g).blocks = s.blocks := rfl
@[simp] theorem setGrp_past (s : State) (i : Nat) (g : Group) : (setGrp s i g).past = s.past := rfl
@[simp] theorem setGrp_t2down (s : State) (i : Nat) (g : Group) : (setGrp s i g).t2down = s.t2down := rfl

/-! ### mapGrp -/

@[simp] theorem mapGrp_clk (s : State) (i : Nat) (f : Group → Group) : (mapGrp s i f).clk = s.clk := rfl
@[simp] theorem mapGrp_free (s : State) (i : Nat) (f : Group → Group) : (mapGrp s i f).free = s.free := rfl
@[simp] theorem mapGrp_changes (s : State) (i : Nat) (f : Group → Group) : (mapGrp s i f).changes = s.changes := rfl
@[simp] theorem mapGrp_agenda (s : State) (i : Nat) (f : Group → Group) : (mapGrp s i f).agenda = s.agenda := rfl
@[simp] theorem mapGrp_cur (s : State) (i : Nat) (f : Group → Group) : (mapGrp s i f).cur = s.cur := rfl
@[simp] theorem mapGrp_turn (s : State) (i : Nat) (f : Group → Group) : (mapGrp s i f).turn = s.turn := rfl
@[simp] theorem mapGrp_nextId (s : State) (i : Nat) (f : Group → Group) : (mapGrp s i f).nextId = s.nextId := rfl
@[simp] theorem mapGrp_mem (s : State) (i : Nat) (f : Group → Group) : (mapGrp s i f).mem = s.mem := rfl
@[simp] theorem mapGrp_poison (s : State) (i : Nat) (f : Group → Group) : (mapGrp s i f).poison = s.poison := rfl
@[simp] theorem mapGrp_units (s : State) (i : Nat) (f : Group → Group) : (mapGrp s i f).units = s.units := rfl
@[simp] theorem mapGrp_levels (s : State) (i : Nat) (f : Group → Group) : (mapGrp s i f).levels = s.levels := rfl
@[simp] theorem mapGrp_ops (s : State) (i : Nat) (f : Group → Group) : (mapGrp s i f).ops = s.ops := rfl
@[simp] theorem mapGrp_jobs (s : State) (i : Nat) (f : Group → Group) : (mapGrp s i f).jobs = s.jobs := rfl
@[simp] theorem mapGrp_copies (s : State) (i : Nat) (f : Group → Group) : (mapGrp s i f).copies = s.copies := rfl
@[simp] theorem mapGrp_casts (s : State) (i : Nat) (f : Group → Group) : (mapGrp s i f).casts = s.casts := rfl
@[simp] theorem mapGrp_recs (s : State) (i : Nat) (f : Group → Group) : (mapGrp s i f).recs = s.recs := rfl
@[simp] theorem mapGrp_bte (s : State) (i : Nat) (f : Group → Group) : (mapGrp s i f).bte = s.bte := rfl
@[simp] theorem mapGrp_keys (s : State) (i : Nat) (f : Group → Group) : (mapGrp s i f).keys = s.keys := rfl
@[simp] theorem mapGrp_sorts (s : State) (i : Nat) (f : Group → Group) : (mapGrp s i f).sorts = s.sorts := rfl
@[simp] theorem mapGrp_draws (s : State) (i : Nat) (f : Group → Group) : (mapGrp s i f).draws = s.draws := rfl
@[simp] theorem mapGrp_queues (s : State) (i : Nat) (f : Group → Group) : (mapGrp s i f).queues = s.queues := rfl
@[simp] theorem mapGrp_rosec (s : State) (i : Nat) (f : Group → Group) : (mapGrp s i f).rosec = s.rosec := rfl
@[simp] theorem mapGrp_level (s : State) (i : Nat) (f : Group → Group) : (mapGrp s i f).level = s.level := rfl
@[simp] theorem mapGrp_therm (s : State) (i : Nat) (f : Group → Group) : (mapGrp s i f).therm = s.therm := rfl
@[simp] theorem mapGrp_allow (s : State) (i : Nat) (f : Group → Group) : (mapGrp s i f).allow = s.allow := rfl
@[simp] theorem mapGrp_rays (s : State) (i : Nat) (f : Group → Group) : (mapGrp s i f).rays = s.rays := rfl
@[simp] theorem mapGrp_raygen (s : State) (i : Nat) (f : Group → Group) : (mapGrp s i f).raygen = s.raygen := rfl
@[simp] theorem mapGrp_cores (s : State) (i : Nat) (f : Group → Group) : (mapGrp s i f).cores = s.cores := rfl
@[simp] theorem mapGrp_ctxs (s : State) (i : Nat) (f : Group → Group) : (mapGrp s i f).ctxs = s.ctxs := rfl
@[simp] theorem mapGrp_tlb (s : State) (i : Nat) (f : Group → Group) : (mapGrp s i f).tlb = s.tlb := rfl
@[simp] theorem mapGrp_trough (s : State) (i : Nat) (f : Group → Group) : (mapGrp s i f).trough = s.trough := rfl
@[simp] theorem mapGrp_races (s : State) (i : Nat) (f : Group → Group) : (mapGrp s i f).races = s.races := rfl
@[simp] theorem mapGrp_scopes (s : State) (i : Nat) (f : Group → Group) : (mapGrp s i f).scopes = s.scopes := rfl
@[simp] theorem mapGrp_regnum (s : State) (i : Nat) (f : Group → Group) : (mapGrp s i f).regnum = s.regnum := rfl
@[simp] theorem mapGrp_tags (s : State) (i : Nat) (f : Group → Group) : (mapGrp s i f).tags = s.tags := rfl
@[simp] theorem mapGrp_events (s : State) (i : Nat) (f : Group → Group) : (mapGrp s i f).events = s.events := rfl
@[simp] theorem mapGrp_rgnsel (s : State) (i : Nat) (f : Group → Group) : (mapGrp s i f).rgnsel = s.rgnsel := rfl
@[simp] theorem mapGrp_rgns (s : State) (i : Nat) (f : Group → Group) : (mapGrp s i f).rgns = s.rgns := rfl
@[simp] theorem mapGrp_cwsel (s : State) (i : Nat) (f : Group → Group) : (mapGrp s i f).cwsel = s.cwsel := rfl
@[simp] theorem mapGrp_cworld (s : State) (i : Nat) (f : Group → Group) : (mapGrp s i f).cworld = s.cworld := rfl
@[simp] theorem mapGrp_meas (s : State) (i : Nat) (f : Group → Group) : (mapGrp s i f).meas = s.meas := rfl
@[simp] theorem mapGrp_flits (s : State) (i : Nat) (f : Group → Group) : (mapGrp s i f).flits = s.flits := rfl
@[simp] theorem mapGrp_msi (s : State) (i : Nat) (f : Group → Group) : (mapGrp s i f).msi = s.msi := rfl
@[simp] theorem mapGrp_ports (s : State) (i : Nat) (f : Group → Group) : (mapGrp s i f).ports = s.ports := rfl
@[simp] theorem mapGrp_lrings (s : State) (i : Nat) (f : Group → Group) : (mapGrp s i f).lrings = s.lrings := rfl
@[simp] theorem mapGrp_inval (s : State) (i : Nat) (f : Group → Group) : (mapGrp s i f).inval = s.inval := rfl
@[simp] theorem mapGrp_att (s : State) (i : Nat) (f : Group → Group) : (mapGrp s i f).att = s.att := rfl
@[simp] theorem mapGrp_firm (s : State) (i : Nat) (f : Group → Group) : (mapGrp s i f).firm = s.firm := rfl
@[simp] theorem mapGrp_spared (s : State) (i : Nat) (f : Group → Group) : (mapGrp s i f).spared = s.spared := rfl
@[simp] theorem mapGrp_refused (s : State) (i : Nat) (f : Group → Group) : (mapGrp s i f).refused = s.refused := rfl
@[simp] theorem mapGrp_softRows (s : State) (i : Nat) (f : Group → Group) : (mapGrp s i f).softRows = s.softRows := rfl
@[simp] theorem mapGrp_hardRows (s : State) (i : Nat) (f : Group → Group) : (mapGrp s i f).hardRows = s.hardRows := rfl
@[simp] theorem mapGrp_spares (s : State) (i : Nat) (f : Group → Group) : (mapGrp s i f).spares = s.spares := rfl
@[simp] theorem mapGrp_rails (s : State) (i : Nat) (f : Group → Group) : (mapGrp s i f).rails = s.rails := rfl
@[simp] theorem mapGrp_locked (s : State) (i : Nat) (f : Group → Group) : (mapGrp s i f).locked = s.locked := rfl
@[simp] theorem mapGrp_ready (s : State) (i : Nat) (f : Group → Group) : (mapGrp s i f).ready = s.ready := rfl
@[simp] theorem mapGrp_shutdown (s : State) (i : Nat) (f : Group → Group) : (mapGrp s i f).shutdown = s.shutdown := rfl
@[simp] theorem mapGrp_host (s : State) (i : Nat) (f : Group → Group) : (mapGrp s i f).host = s.host := rfl
@[simp] theorem mapGrp_hreg (s : State) (i : Nat) (f : Group → Group) : (mapGrp s i f).hreg = s.hreg := rfl
@[simp] theorem mapGrp_nextIssue (s : State) (i : Nat) (f : Group → Group) : (mapGrp s i f).nextIssue = s.nextIssue := rfl
@[simp] theorem mapGrp_sync (s : State) (i : Nat) (f : Group → Group) : (mapGrp s i f).sync = s.sync := rfl
@[simp] theorem mapGrp_rosecClk (s : State) (i : Nat) (f : Group → Group) : (mapGrp s i f).rosecClk = s.rosecClk := rfl
@[simp] theorem mapGrp_collHeld (s : State) (i : Nat) (f : Group → Group) : (mapGrp s i f).collHeld = s.collHeld := rfl
@[simp] theorem mapGrp_monitor (s : State) (i : Nat) (f : Group → Group) : (mapGrp s i f).monitor = s.monitor := rfl
@[simp] theorem mapGrp_rels (s : State) (i : Nat) (f : Group → Group) : (mapGrp s i f).rels = s.rels := rfl
@[simp] theorem mapGrp_blocks (s : State) (i : Nat) (f : Group → Group) : (mapGrp s i f).blocks = s.blocks := rfl
@[simp] theorem mapGrp_past (s : State) (i : Nat) (f : Group → Group) : (mapGrp s i f).past = s.past := rfl
@[simp] theorem mapGrp_t2down (s : State) (i : Nat) (f : Group → Group) : (mapGrp s i f).t2down = s.t2down := rfl

/-! ### bump -/

@[simp] theorem bump_clk (s : State) : (bump s).clk = s.clk := rfl
@[simp] theorem bump_free (s : State) : (bump s).free = s.free := rfl
@[simp] theorem bump_agenda (s : State) : (bump s).agenda = s.agenda := rfl
@[simp] theorem bump_cur (s : State) : (bump s).cur = s.cur := rfl
@[simp] theorem bump_turn (s : State) : (bump s).turn = s.turn := rfl
@[simp] theorem bump_nextId (s : State) : (bump s).nextId = s.nextId := rfl
@[simp] theorem bump_mem (s : State) : (bump s).mem = s.mem := rfl
@[simp] theorem bump_poison (s : State) : (bump s).poison = s.poison := rfl
@[simp] theorem bump_groups (s : State) : (bump s).groups = s.groups := rfl
@[simp] theorem bump_units (s : State) : (bump s).units = s.units := rfl
@[simp] theorem bump_levels (s : State) : (bump s).levels = s.levels := rfl
@[simp] theorem bump_ops (s : State) : (bump s).ops = s.ops := rfl
@[simp] theorem bump_jobs (s : State) : (bump s).jobs = s.jobs := rfl
@[simp] theorem bump_copies (s : State) : (bump s).copies = s.copies := rfl
@[simp] theorem bump_casts (s : State) : (bump s).casts = s.casts := rfl
@[simp] theorem bump_recs (s : State) : (bump s).recs = s.recs := rfl
@[simp] theorem bump_bte (s : State) : (bump s).bte = s.bte := rfl
@[simp] theorem bump_keys (s : State) : (bump s).keys = s.keys := rfl
@[simp] theorem bump_sorts (s : State) : (bump s).sorts = s.sorts := rfl
@[simp] theorem bump_draws (s : State) : (bump s).draws = s.draws := rfl
@[simp] theorem bump_queues (s : State) : (bump s).queues = s.queues := rfl
@[simp] theorem bump_rosec (s : State) : (bump s).rosec = s.rosec := rfl
@[simp] theorem bump_level (s : State) : (bump s).level = s.level := rfl
@[simp] theorem bump_therm (s : State) : (bump s).therm = s.therm := rfl
@[simp] theorem bump_allow (s : State) : (bump s).allow = s.allow := rfl
@[simp] theorem bump_rays (s : State) : (bump s).rays = s.rays := rfl
@[simp] theorem bump_raygen (s : State) : (bump s).raygen = s.raygen := rfl
@[simp] theorem bump_cores (s : State) : (bump s).cores = s.cores := rfl
@[simp] theorem bump_ctxs (s : State) : (bump s).ctxs = s.ctxs := rfl
@[simp] theorem bump_tlb (s : State) : (bump s).tlb = s.tlb := rfl
@[simp] theorem bump_trough (s : State) : (bump s).trough = s.trough := rfl
@[simp] theorem bump_races (s : State) : (bump s).races = s.races := rfl
@[simp] theorem bump_scopes (s : State) : (bump s).scopes = s.scopes := rfl
@[simp] theorem bump_regnum (s : State) : (bump s).regnum = s.regnum := rfl
@[simp] theorem bump_tags (s : State) : (bump s).tags = s.tags := rfl
@[simp] theorem bump_events (s : State) : (bump s).events = s.events := rfl
@[simp] theorem bump_rgnsel (s : State) : (bump s).rgnsel = s.rgnsel := rfl
@[simp] theorem bump_rgns (s : State) : (bump s).rgns = s.rgns := rfl
@[simp] theorem bump_cwsel (s : State) : (bump s).cwsel = s.cwsel := rfl
@[simp] theorem bump_cworld (s : State) : (bump s).cworld = s.cworld := rfl
@[simp] theorem bump_meas (s : State) : (bump s).meas = s.meas := rfl
@[simp] theorem bump_flits (s : State) : (bump s).flits = s.flits := rfl
@[simp] theorem bump_msi (s : State) : (bump s).msi = s.msi := rfl
@[simp] theorem bump_ports (s : State) : (bump s).ports = s.ports := rfl
@[simp] theorem bump_lrings (s : State) : (bump s).lrings = s.lrings := rfl
@[simp] theorem bump_inval (s : State) : (bump s).inval = s.inval := rfl
@[simp] theorem bump_att (s : State) : (bump s).att = s.att := rfl
@[simp] theorem bump_firm (s : State) : (bump s).firm = s.firm := rfl
@[simp] theorem bump_spared (s : State) : (bump s).spared = s.spared := rfl
@[simp] theorem bump_refused (s : State) : (bump s).refused = s.refused := rfl
@[simp] theorem bump_softRows (s : State) : (bump s).softRows = s.softRows := rfl
@[simp] theorem bump_hardRows (s : State) : (bump s).hardRows = s.hardRows := rfl
@[simp] theorem bump_spares (s : State) : (bump s).spares = s.spares := rfl
@[simp] theorem bump_rails (s : State) : (bump s).rails = s.rails := rfl
@[simp] theorem bump_locked (s : State) : (bump s).locked = s.locked := rfl
@[simp] theorem bump_ready (s : State) : (bump s).ready = s.ready := rfl
@[simp] theorem bump_shutdown (s : State) : (bump s).shutdown = s.shutdown := rfl
@[simp] theorem bump_host (s : State) : (bump s).host = s.host := rfl
@[simp] theorem bump_hreg (s : State) : (bump s).hreg = s.hreg := rfl
@[simp] theorem bump_nextIssue (s : State) : (bump s).nextIssue = s.nextIssue := rfl
@[simp] theorem bump_sync (s : State) : (bump s).sync = s.sync := rfl
@[simp] theorem bump_rosecClk (s : State) : (bump s).rosecClk = s.rosecClk := rfl
@[simp] theorem bump_collHeld (s : State) : (bump s).collHeld = s.collHeld := rfl
@[simp] theorem bump_monitor (s : State) : (bump s).monitor = s.monitor := rfl
@[simp] theorem bump_rels (s : State) : (bump s).rels = s.rels := rfl
@[simp] theorem bump_blocks (s : State) : (bump s).blocks = s.blocks := rfl
@[simp] theorem bump_past (s : State) : (bump s).past = s.past := rfl
@[simp] theorem bump_t2down (s : State) : (bump s).t2down = s.t2down := rfl

/-! ### retireSame -/

@[simp] theorem retireSame_clk (s : State) (c : Go) : (retireSame s c).clk = s.clk := rfl
@[simp] theorem retireSame_free (s : State) (c : Go) : (retireSame s c).free = s.free := rfl
@[simp] theorem retireSame_changes (s : State) (c : Go) : (retireSame s c).changes = s.changes := rfl
@[simp] theorem retireSame_agenda (s : State) (c : Go) : (retireSame s c).agenda = s.agenda := rfl
@[simp] theorem retireSame_turn (s : State) (c : Go) : (retireSame s c).turn = s.turn := rfl
@[simp] theorem retireSame_nextId (s : State) (c : Go) : (retireSame s c).nextId = s.nextId := rfl
@[simp] theorem retireSame_mem (s : State) (c : Go) : (retireSame s c).mem = s.mem := rfl
@[simp] theorem retireSame_poison (s : State) (c : Go) : (retireSame s c).poison = s.poison := rfl
@[simp] theorem retireSame_units (s : State) (c : Go) : (retireSame s c).units = s.units := rfl
@[simp] theorem retireSame_levels (s : State) (c : Go) : (retireSame s c).levels = s.levels := rfl
@[simp] theorem retireSame_ops (s : State) (c : Go) : (retireSame s c).ops = s.ops := rfl
@[simp] theorem retireSame_jobs (s : State) (c : Go) : (retireSame s c).jobs = s.jobs := rfl
@[simp] theorem retireSame_copies (s : State) (c : Go) : (retireSame s c).copies = s.copies := rfl
@[simp] theorem retireSame_casts (s : State) (c : Go) : (retireSame s c).casts = s.casts := rfl
@[simp] theorem retireSame_recs (s : State) (c : Go) : (retireSame s c).recs = s.recs := rfl
@[simp] theorem retireSame_bte (s : State) (c : Go) : (retireSame s c).bte = s.bte := rfl
@[simp] theorem retireSame_keys (s : State) (c : Go) : (retireSame s c).keys = s.keys := rfl
@[simp] theorem retireSame_sorts (s : State) (c : Go) : (retireSame s c).sorts = s.sorts := rfl
@[simp] theorem retireSame_draws (s : State) (c : Go) : (retireSame s c).draws = s.draws := rfl
@[simp] theorem retireSame_queues (s : State) (c : Go) : (retireSame s c).queues = s.queues := rfl
@[simp] theorem retireSame_rosec (s : State) (c : Go) : (retireSame s c).rosec = s.rosec := rfl
@[simp] theorem retireSame_level (s : State) (c : Go) : (retireSame s c).level = s.level := rfl
@[simp] theorem retireSame_therm (s : State) (c : Go) : (retireSame s c).therm = s.therm := rfl
@[simp] theorem retireSame_allow (s : State) (c : Go) : (retireSame s c).allow = s.allow := rfl
@[simp] theorem retireSame_rays (s : State) (c : Go) : (retireSame s c).rays = s.rays := rfl
@[simp] theorem retireSame_raygen (s : State) (c : Go) : (retireSame s c).raygen = s.raygen := rfl
@[simp] theorem retireSame_cores (s : State) (c : Go) : (retireSame s c).cores = s.cores := rfl
@[simp] theorem retireSame_ctxs (s : State) (c : Go) : (retireSame s c).ctxs = s.ctxs := rfl
@[simp] theorem retireSame_tlb (s : State) (c : Go) : (retireSame s c).tlb = s.tlb := rfl
@[simp] theorem retireSame_trough (s : State) (c : Go) : (retireSame s c).trough = s.trough := rfl
@[simp] theorem retireSame_races (s : State) (c : Go) : (retireSame s c).races = s.races := rfl
@[simp] theorem retireSame_scopes (s : State) (c : Go) : (retireSame s c).scopes = s.scopes := rfl
@[simp] theorem retireSame_regnum (s : State) (c : Go) : (retireSame s c).regnum = s.regnum := rfl
@[simp] theorem retireSame_tags (s : State) (c : Go) : (retireSame s c).tags = s.tags := rfl
@[simp] theorem retireSame_events (s : State) (c : Go) : (retireSame s c).events = s.events := rfl
@[simp] theorem retireSame_rgnsel (s : State) (c : Go) : (retireSame s c).rgnsel = s.rgnsel := rfl
@[simp] theorem retireSame_rgns (s : State) (c : Go) : (retireSame s c).rgns = s.rgns := rfl
@[simp] theorem retireSame_cwsel (s : State) (c : Go) : (retireSame s c).cwsel = s.cwsel := rfl
@[simp] theorem retireSame_cworld (s : State) (c : Go) : (retireSame s c).cworld = s.cworld := rfl
@[simp] theorem retireSame_meas (s : State) (c : Go) : (retireSame s c).meas = s.meas := rfl
@[simp] theorem retireSame_flits (s : State) (c : Go) : (retireSame s c).flits = s.flits := rfl
@[simp] theorem retireSame_msi (s : State) (c : Go) : (retireSame s c).msi = s.msi := rfl
@[simp] theorem retireSame_ports (s : State) (c : Go) : (retireSame s c).ports = s.ports := rfl
@[simp] theorem retireSame_lrings (s : State) (c : Go) : (retireSame s c).lrings = s.lrings := rfl
@[simp] theorem retireSame_inval (s : State) (c : Go) : (retireSame s c).inval = s.inval := rfl
@[simp] theorem retireSame_att (s : State) (c : Go) : (retireSame s c).att = s.att := rfl
@[simp] theorem retireSame_firm (s : State) (c : Go) : (retireSame s c).firm = s.firm := rfl
@[simp] theorem retireSame_spared (s : State) (c : Go) : (retireSame s c).spared = s.spared := rfl
@[simp] theorem retireSame_refused (s : State) (c : Go) : (retireSame s c).refused = s.refused := rfl
@[simp] theorem retireSame_softRows (s : State) (c : Go) : (retireSame s c).softRows = s.softRows := rfl
@[simp] theorem retireSame_hardRows (s : State) (c : Go) : (retireSame s c).hardRows = s.hardRows := rfl
@[simp] theorem retireSame_spares (s : State) (c : Go) : (retireSame s c).spares = s.spares := rfl
@[simp] theorem retireSame_rails (s : State) (c : Go) : (retireSame s c).rails = s.rails := rfl
@[simp] theorem retireSame_locked (s : State) (c : Go) : (retireSame s c).locked = s.locked := rfl
@[simp] theorem retireSame_ready (s : State) (c : Go) : (retireSame s c).ready = s.ready := rfl
@[simp] theorem retireSame_shutdown (s : State) (c : Go) : (retireSame s c).shutdown = s.shutdown := rfl
@[simp] theorem retireSame_host (s : State) (c : Go) : (retireSame s c).host = s.host := rfl
@[simp] theorem retireSame_hreg (s : State) (c : Go) : (retireSame s c).hreg = s.hreg := rfl
@[simp] theorem retireSame_nextIssue (s : State) (c : Go) : (retireSame s c).nextIssue = s.nextIssue := rfl
@[simp] theorem retireSame_sync (s : State) (c : Go) : (retireSame s c).sync = s.sync := rfl
@[simp] theorem retireSame_rosecClk (s : State) (c : Go) : (retireSame s c).rosecClk = s.rosecClk := rfl
@[simp] theorem retireSame_collHeld (s : State) (c : Go) : (retireSame s c).collHeld = s.collHeld := rfl
@[simp] theorem retireSame_monitor (s : State) (c : Go) : (retireSame s c).monitor = s.monitor := rfl
@[simp] theorem retireSame_rels (s : State) (c : Go) : (retireSame s c).rels = s.rels := rfl
@[simp] theorem retireSame_blocks (s : State) (c : Go) : (retireSame s c).blocks = s.blocks := rfl
@[simp] theorem retireSame_past (s : State) (c : Go) : (retireSame s c).past = s.past := rfl
@[simp] theorem retireSame_t2down (s : State) (c : Go) : (retireSame s c).t2down = s.t2down := rfl

/-! ### retire -/

@[simp] theorem retire_clk (s : State) (c : Go) (g : Group) : (retire s c g).clk = s.clk := rfl
@[simp] theorem retire_free (s : State) (c : Go) (g : Group) : (retire s c g).free = s.free := rfl
@[simp] theorem retire_changes (s : State) (c : Go) (g : Group) : (retire s c g).changes = s.changes := rfl
@[simp] theorem retire_agenda (s : State) (c : Go) (g : Group) : (retire s c g).agenda = s.agenda := rfl
@[simp] theorem retire_turn (s : State) (c : Go) (g : Group) : (retire s c g).turn = s.turn := rfl
@[simp] theorem retire_nextId (s : State) (c : Go) (g : Group) : (retire s c g).nextId = s.nextId := rfl
@[simp] theorem retire_mem (s : State) (c : Go) (g : Group) : (retire s c g).mem = s.mem := rfl
@[simp] theorem retire_poison (s : State) (c : Go) (g : Group) : (retire s c g).poison = s.poison := rfl
@[simp] theorem retire_units (s : State) (c : Go) (g : Group) : (retire s c g).units = s.units := rfl
@[simp] theorem retire_levels (s : State) (c : Go) (g : Group) : (retire s c g).levels = s.levels := rfl
@[simp] theorem retire_ops (s : State) (c : Go) (g : Group) : (retire s c g).ops = s.ops := rfl
@[simp] theorem retire_jobs (s : State) (c : Go) (g : Group) : (retire s c g).jobs = s.jobs := rfl
@[simp] theorem retire_copies (s : State) (c : Go) (g : Group) : (retire s c g).copies = s.copies := rfl
@[simp] theorem retire_casts (s : State) (c : Go) (g : Group) : (retire s c g).casts = s.casts := rfl
@[simp] theorem retire_recs (s : State) (c : Go) (g : Group) : (retire s c g).recs = s.recs := rfl
@[simp] theorem retire_bte (s : State) (c : Go) (g : Group) : (retire s c g).bte = s.bte := rfl
@[simp] theorem retire_keys (s : State) (c : Go) (g : Group) : (retire s c g).keys = s.keys := rfl
@[simp] theorem retire_sorts (s : State) (c : Go) (g : Group) : (retire s c g).sorts = s.sorts := rfl
@[simp] theorem retire_draws (s : State) (c : Go) (g : Group) : (retire s c g).draws = s.draws := rfl
@[simp] theorem retire_queues (s : State) (c : Go) (g : Group) : (retire s c g).queues = s.queues := rfl
@[simp] theorem retire_rosec (s : State) (c : Go) (g : Group) : (retire s c g).rosec = s.rosec := rfl
@[simp] theorem retire_level (s : State) (c : Go) (g : Group) : (retire s c g).level = s.level := rfl
@[simp] theorem retire_therm (s : State) (c : Go) (g : Group) : (retire s c g).therm = s.therm := rfl
@[simp] theorem retire_allow (s : State) (c : Go) (g : Group) : (retire s c g).allow = s.allow := rfl
@[simp] theorem retire_rays (s : State) (c : Go) (g : Group) : (retire s c g).rays = s.rays := rfl
@[simp] theorem retire_raygen (s : State) (c : Go) (g : Group) : (retire s c g).raygen = s.raygen := rfl
@[simp] theorem retire_cores (s : State) (c : Go) (g : Group) : (retire s c g).cores = s.cores := rfl
@[simp] theorem retire_ctxs (s : State) (c : Go) (g : Group) : (retire s c g).ctxs = s.ctxs := rfl
@[simp] theorem retire_tlb (s : State) (c : Go) (g : Group) : (retire s c g).tlb = s.tlb := rfl
@[simp] theorem retire_trough (s : State) (c : Go) (g : Group) : (retire s c g).trough = s.trough := rfl
@[simp] theorem retire_races (s : State) (c : Go) (g : Group) : (retire s c g).races = s.races := rfl
@[simp] theorem retire_scopes (s : State) (c : Go) (g : Group) : (retire s c g).scopes = s.scopes := rfl
@[simp] theorem retire_regnum (s : State) (c : Go) (g : Group) : (retire s c g).regnum = s.regnum := rfl
@[simp] theorem retire_tags (s : State) (c : Go) (g : Group) : (retire s c g).tags = s.tags := rfl
@[simp] theorem retire_events (s : State) (c : Go) (g : Group) : (retire s c g).events = s.events := rfl
@[simp] theorem retire_rgnsel (s : State) (c : Go) (g : Group) : (retire s c g).rgnsel = s.rgnsel := rfl
@[simp] theorem retire_rgns (s : State) (c : Go) (g : Group) : (retire s c g).rgns = s.rgns := rfl
@[simp] theorem retire_cwsel (s : State) (c : Go) (g : Group) : (retire s c g).cwsel = s.cwsel := rfl
@[simp] theorem retire_cworld (s : State) (c : Go) (g : Group) : (retire s c g).cworld = s.cworld := rfl
@[simp] theorem retire_meas (s : State) (c : Go) (g : Group) : (retire s c g).meas = s.meas := rfl
@[simp] theorem retire_flits (s : State) (c : Go) (g : Group) : (retire s c g).flits = s.flits := rfl
@[simp] theorem retire_msi (s : State) (c : Go) (g : Group) : (retire s c g).msi = s.msi := rfl
@[simp] theorem retire_ports (s : State) (c : Go) (g : Group) : (retire s c g).ports = s.ports := rfl
@[simp] theorem retire_lrings (s : State) (c : Go) (g : Group) : (retire s c g).lrings = s.lrings := rfl
@[simp] theorem retire_inval (s : State) (c : Go) (g : Group) : (retire s c g).inval = s.inval := rfl
@[simp] theorem retire_att (s : State) (c : Go) (g : Group) : (retire s c g).att = s.att := rfl
@[simp] theorem retire_firm (s : State) (c : Go) (g : Group) : (retire s c g).firm = s.firm := rfl
@[simp] theorem retire_spared (s : State) (c : Go) (g : Group) : (retire s c g).spared = s.spared := rfl
@[simp] theorem retire_refused (s : State) (c : Go) (g : Group) : (retire s c g).refused = s.refused := rfl
@[simp] theorem retire_softRows (s : State) (c : Go) (g : Group) : (retire s c g).softRows = s.softRows := rfl
@[simp] theorem retire_hardRows (s : State) (c : Go) (g : Group) : (retire s c g).hardRows = s.hardRows := rfl
@[simp] theorem retire_spares (s : State) (c : Go) (g : Group) : (retire s c g).spares = s.spares := rfl
@[simp] theorem retire_rails (s : State) (c : Go) (g : Group) : (retire s c g).rails = s.rails := rfl
@[simp] theorem retire_locked (s : State) (c : Go) (g : Group) : (retire s c g).locked = s.locked := rfl
@[simp] theorem retire_ready (s : State) (c : Go) (g : Group) : (retire s c g).ready = s.ready := rfl
@[simp] theorem retire_shutdown (s : State) (c : Go) (g : Group) : (retire s c g).shutdown = s.shutdown := rfl
@[simp] theorem retire_host (s : State) (c : Go) (g : Group) : (retire s c g).host = s.host := rfl
@[simp] theorem retire_hreg (s : State) (c : Go) (g : Group) : (retire s c g).hreg = s.hreg := rfl
@[simp] theorem retire_nextIssue (s : State) (c : Go) (g : Group) : (retire s c g).nextIssue = s.nextIssue := rfl
@[simp] theorem retire_sync (s : State) (c : Go) (g : Group) : (retire s c g).sync = s.sync := rfl
@[simp] theorem retire_rosecClk (s : State) (c : Go) (g : Group) : (retire s c g).rosecClk = s.rosecClk := rfl
@[simp] theorem retire_collHeld (s : State) (c : Go) (g : Group) : (retire s c g).collHeld = s.collHeld := rfl
@[simp] theorem retire_monitor (s : State) (c : Go) (g : Group) : (retire s c g).monitor = s.monitor := rfl
@[simp] theorem retire_rels (s : State) (c : Go) (g : Group) : (retire s c g).rels = s.rels := rfl
@[simp] theorem retire_blocks (s : State) (c : Go) (g : Group) : (retire s c g).blocks = s.blocks := rfl
@[simp] theorem retire_past (s : State) (c : Go) (g : Group) : (retire s c g).past = s.past := rfl
@[simp] theorem retire_t2down (s : State) (c : Go) (g : Group) : (retire s c g).t2down = s.t2down := rfl

/-! ### mapUnit -/

@[simp] theorem mapUnit_mem (s : State) (i : Nat) (f : UnitS → UnitS) : (mapUnit s i f).mem = s.mem := rfl
@[simp] theorem mapUnit_groups (s : State) (i : Nat) (f : UnitS → UnitS) : (mapUnit s i f).groups = s.groups := rfl
@[simp] theorem mapUnit_cur (s : State) (i : Nat) (f : UnitS → UnitS) : (mapUnit s i f).cur = s.cur := rfl
@[simp] theorem mapUnit_levels (s : State) (i : Nat) (f : UnitS → UnitS) : (mapUnit s i f).levels = s.levels := rfl
@[simp] theorem mapUnit_ops (s : State) (i : Nat) (f : UnitS → UnitS) : (mapUnit s i f).ops = s.ops := rfl
@[simp] theorem mapUnit_ctxs (s : State) (i : Nat) (f : UnitS → UnitS) : (mapUnit s i f).ctxs = s.ctxs := rfl
@[simp] theorem mapUnit_cores (s : State) (i : Nat) (f : UnitS → UnitS) : (mapUnit s i f).cores = s.cores := rfl
@[simp] theorem mapUnit_clk (s : State) (i : Nat) (f : UnitS → UnitS) : (mapUnit s i f).clk = s.clk := rfl
@[simp] theorem mapUnit_free (s : State) (i : Nat) (f : UnitS → UnitS) : (mapUnit s i f).free = s.free := rfl
@[simp] theorem mapUnit_agenda (s : State) (i : Nat) (f : UnitS → UnitS) : (mapUnit s i f).agenda = s.agenda := rfl
@[simp] theorem mapUnit_hreg (s : State) (i : Nat) (f : UnitS → UnitS) : (mapUnit s i f).hreg = s.hreg := rfl
@[simp] theorem mapUnit_changes (s : State) (i : Nat) (f : UnitS → UnitS) : (mapUnit s i f).changes = s.changes := rfl
@[simp] theorem mapUnit_turn (s : State) (i : Nat) (f : UnitS → UnitS) : (mapUnit s i f).turn = s.turn := rfl
@[simp] theorem mapUnit_nextIssue (s : State) (i : Nat) (f : UnitS → UnitS) : (mapUnit s i f).nextIssue = s.nextIssue := rfl
@[simp] theorem mapUnit_nextId (s : State) (i : Nat) (f : UnitS → UnitS) : (mapUnit s i f).nextId = s.nextId := rfl
@[simp] theorem mapUnit_poison (s : State) (i : Nat) (f : UnitS → UnitS) : (mapUnit s i f).poison = s.poison := rfl
@[simp] theorem mapUnit_jobs (s : State) (i : Nat) (f : UnitS → UnitS) : (mapUnit s i f).jobs = s.jobs := rfl
@[simp] theorem mapUnit_copies (s : State) (i : Nat) (f : UnitS → UnitS) : (mapUnit s i f).copies = s.copies := rfl
@[simp] theorem mapUnit_casts (s : State) (i : Nat) (f : UnitS → UnitS) : (mapUnit s i f).casts = s.casts := rfl
@[simp] theorem mapUnit_recs (s : State) (i : Nat) (f : UnitS → UnitS) : (mapUnit s i f).recs = s.recs := rfl
@[simp] theorem mapUnit_bte (s : State) (i : Nat) (f : UnitS → UnitS) : (mapUnit s i f).bte = s.bte := rfl
@[simp] theorem mapUnit_keys (s : State) (i : Nat) (f : UnitS → UnitS) : (mapUnit s i f).keys = s.keys := rfl
@[simp] theorem mapUnit_sorts (s : State) (i : Nat) (f : UnitS → UnitS) : (mapUnit s i f).sorts = s.sorts := rfl
@[simp] theorem mapUnit_draws (s : State) (i : Nat) (f : UnitS → UnitS) : (mapUnit s i f).draws = s.draws := rfl
@[simp] theorem mapUnit_queues (s : State) (i : Nat) (f : UnitS → UnitS) : (mapUnit s i f).queues = s.queues := rfl
@[simp] theorem mapUnit_rosec (s : State) (i : Nat) (f : UnitS → UnitS) : (mapUnit s i f).rosec = s.rosec := rfl
@[simp] theorem mapUnit_level (s : State) (i : Nat) (f : UnitS → UnitS) : (mapUnit s i f).level = s.level := rfl
@[simp] theorem mapUnit_therm (s : State) (i : Nat) (f : UnitS → UnitS) : (mapUnit s i f).therm = s.therm := rfl
@[simp] theorem mapUnit_allow (s : State) (i : Nat) (f : UnitS → UnitS) : (mapUnit s i f).allow = s.allow := rfl
@[simp] theorem mapUnit_rays (s : State) (i : Nat) (f : UnitS → UnitS) : (mapUnit s i f).rays = s.rays := rfl
@[simp] theorem mapUnit_raygen (s : State) (i : Nat) (f : UnitS → UnitS) : (mapUnit s i f).raygen = s.raygen := rfl
@[simp] theorem mapUnit_tlb (s : State) (i : Nat) (f : UnitS → UnitS) : (mapUnit s i f).tlb = s.tlb := rfl
@[simp] theorem mapUnit_trough (s : State) (i : Nat) (f : UnitS → UnitS) : (mapUnit s i f).trough = s.trough := rfl
@[simp] theorem mapUnit_races (s : State) (i : Nat) (f : UnitS → UnitS) : (mapUnit s i f).races = s.races := rfl
@[simp] theorem mapUnit_scopes (s : State) (i : Nat) (f : UnitS → UnitS) : (mapUnit s i f).scopes = s.scopes := rfl
@[simp] theorem mapUnit_regnum (s : State) (i : Nat) (f : UnitS → UnitS) : (mapUnit s i f).regnum = s.regnum := rfl
@[simp] theorem mapUnit_tags (s : State) (i : Nat) (f : UnitS → UnitS) : (mapUnit s i f).tags = s.tags := rfl
@[simp] theorem mapUnit_sync (s : State) (i : Nat) (f : UnitS → UnitS) : (mapUnit s i f).sync = s.sync := rfl
@[simp] theorem mapUnit_rosecClk (s : State) (i : Nat) (f : UnitS → UnitS) : (mapUnit s i f).rosecClk = s.rosecClk := rfl
@[simp] theorem mapUnit_collHeld (s : State) (i : Nat) (f : UnitS → UnitS) : (mapUnit s i f).collHeld = s.collHeld := rfl
@[simp] theorem mapUnit_monitor (s : State) (i : Nat) (f : UnitS → UnitS) : (mapUnit s i f).monitor = s.monitor := rfl
@[simp] theorem mapUnit_rels (s : State) (i : Nat) (f : UnitS → UnitS) : (mapUnit s i f).rels = s.rels := rfl
@[simp] theorem mapUnit_blocks (s : State) (i : Nat) (f : UnitS → UnitS) : (mapUnit s i f).blocks = s.blocks := rfl
@[simp] theorem mapUnit_past (s : State) (i : Nat) (f : UnitS → UnitS) : (mapUnit s i f).past = s.past := rfl
@[simp] theorem mapUnit_events (s : State) (i : Nat) (f : UnitS → UnitS) : (mapUnit s i f).events = s.events := rfl
@[simp] theorem mapUnit_rgnsel (s : State) (i : Nat) (f : UnitS → UnitS) : (mapUnit s i f).rgnsel = s.rgnsel := rfl
@[simp] theorem mapUnit_rgns (s : State) (i : Nat) (f : UnitS → UnitS) : (mapUnit s i f).rgns = s.rgns := rfl
@[simp] theorem mapUnit_cwsel (s : State) (i : Nat) (f : UnitS → UnitS) : (mapUnit s i f).cwsel = s.cwsel := rfl
@[simp] theorem mapUnit_cworld (s : State) (i : Nat) (f : UnitS → UnitS) : (mapUnit s i f).cworld = s.cworld := rfl
@[simp] theorem mapUnit_meas (s : State) (i : Nat) (f : UnitS → UnitS) : (mapUnit s i f).meas = s.meas := rfl
@[simp] theorem mapUnit_flits (s : State) (i : Nat) (f : UnitS → UnitS) : (mapUnit s i f).flits = s.flits := rfl
@[simp] theorem mapUnit_msi (s : State) (i : Nat) (f : UnitS → UnitS) : (mapUnit s i f).msi = s.msi := rfl
@[simp] theorem mapUnit_ports (s : State) (i : Nat) (f : UnitS → UnitS) : (mapUnit s i f).ports = s.ports := rfl
@[simp] theorem mapUnit_lrings (s : State) (i : Nat) (f : UnitS → UnitS) : (mapUnit s i f).lrings = s.lrings := rfl
@[simp] theorem mapUnit_inval (s : State) (i : Nat) (f : UnitS → UnitS) : (mapUnit s i f).inval = s.inval := rfl
@[simp] theorem mapUnit_att (s : State) (i : Nat) (f : UnitS → UnitS) : (mapUnit s i f).att = s.att := rfl
@[simp] theorem mapUnit_firm (s : State) (i : Nat) (f : UnitS → UnitS) : (mapUnit s i f).firm = s.firm := rfl
@[simp] theorem mapUnit_spared (s : State) (i : Nat) (f : UnitS → UnitS) : (mapUnit s i f).spared = s.spared := rfl
@[simp] theorem mapUnit_refused (s : State) (i : Nat) (f : UnitS → UnitS) : (mapUnit s i f).refused = s.refused := rfl
@[simp] theorem mapUnit_softRows (s : State) (i : Nat) (f : UnitS → UnitS) : (mapUnit s i f).softRows = s.softRows := rfl
@[simp] theorem mapUnit_hardRows (s : State) (i : Nat) (f : UnitS → UnitS) : (mapUnit s i f).hardRows = s.hardRows := rfl
@[simp] theorem mapUnit_spares (s : State) (i : Nat) (f : UnitS → UnitS) : (mapUnit s i f).spares = s.spares := rfl
@[simp] theorem mapUnit_t2down (s : State) (i : Nat) (f : UnitS → UnitS) : (mapUnit s i f).t2down = s.t2down := rfl
@[simp] theorem mapUnit_rails (s : State) (i : Nat) (f : UnitS → UnitS) : (mapUnit s i f).rails = s.rails := rfl
@[simp] theorem mapUnit_locked (s : State) (i : Nat) (f : UnitS → UnitS) : (mapUnit s i f).locked = s.locked := rfl
@[simp] theorem mapUnit_ready (s : State) (i : Nat) (f : UnitS → UnitS) : (mapUnit s i f).ready = s.ready := rfl
@[simp] theorem mapUnit_shutdown (s : State) (i : Nat) (f : UnitS → UnitS) : (mapUnit s i f).shutdown = s.shutdown := rfl
@[simp] theorem mapUnit_host (s : State) (i : Nat) (f : UnitS → UnitS) : (mapUnit s i f).host = s.host := rfl

/-! ### mapLevel -/

@[simp] theorem mapLevel_mem (s : State) (i : Nat) (f : Level → Level) : (mapLevel s i f).mem = s.mem := rfl
@[simp] theorem mapLevel_groups (s : State) (i : Nat) (f : Level → Level) : (mapLevel s i f).groups = s.groups := rfl
@[simp] theorem mapLevel_cur (s : State) (i : Nat) (f : Level → Level) : (mapLevel s i f).cur = s.cur := rfl
@[simp] theorem mapLevel_units (s : State) (i : Nat) (f : Level → Level) : (mapLevel s i f).units = s.units := rfl
@[simp] theorem mapLevel_ops (s : State) (i : Nat) (f : Level → Level) : (mapLevel s i f).ops = s.ops := rfl
@[simp] theorem mapLevel_ctxs (s : State) (i : Nat) (f : Level → Level) : (mapLevel s i f).ctxs = s.ctxs := rfl
@[simp] theorem mapLevel_cores (s : State) (i : Nat) (f : Level → Level) : (mapLevel s i f).cores = s.cores := rfl
@[simp] theorem mapLevel_clk (s : State) (i : Nat) (f : Level → Level) : (mapLevel s i f).clk = s.clk := rfl
@[simp] theorem mapLevel_free (s : State) (i : Nat) (f : Level → Level) : (mapLevel s i f).free = s.free := rfl
@[simp] theorem mapLevel_agenda (s : State) (i : Nat) (f : Level → Level) : (mapLevel s i f).agenda = s.agenda := rfl
@[simp] theorem mapLevel_hreg (s : State) (i : Nat) (f : Level → Level) : (mapLevel s i f).hreg = s.hreg := rfl
@[simp] theorem mapLevel_changes (s : State) (i : Nat) (f : Level → Level) : (mapLevel s i f).changes = s.changes := rfl
@[simp] theorem mapLevel_turn (s : State) (i : Nat) (f : Level → Level) : (mapLevel s i f).turn = s.turn := rfl
@[simp] theorem mapLevel_nextIssue (s : State) (i : Nat) (f : Level → Level) : (mapLevel s i f).nextIssue = s.nextIssue := rfl
@[simp] theorem mapLevel_nextId (s : State) (i : Nat) (f : Level → Level) : (mapLevel s i f).nextId = s.nextId := rfl
@[simp] theorem mapLevel_poison (s : State) (i : Nat) (f : Level → Level) : (mapLevel s i f).poison = s.poison := rfl
@[simp] theorem mapLevel_jobs (s : State) (i : Nat) (f : Level → Level) : (mapLevel s i f).jobs = s.jobs := rfl
@[simp] theorem mapLevel_copies (s : State) (i : Nat) (f : Level → Level) : (mapLevel s i f).copies = s.copies := rfl
@[simp] theorem mapLevel_casts (s : State) (i : Nat) (f : Level → Level) : (mapLevel s i f).casts = s.casts := rfl
@[simp] theorem mapLevel_recs (s : State) (i : Nat) (f : Level → Level) : (mapLevel s i f).recs = s.recs := rfl
@[simp] theorem mapLevel_bte (s : State) (i : Nat) (f : Level → Level) : (mapLevel s i f).bte = s.bte := rfl
@[simp] theorem mapLevel_keys (s : State) (i : Nat) (f : Level → Level) : (mapLevel s i f).keys = s.keys := rfl
@[simp] theorem mapLevel_sorts (s : State) (i : Nat) (f : Level → Level) : (mapLevel s i f).sorts = s.sorts := rfl
@[simp] theorem mapLevel_draws (s : State) (i : Nat) (f : Level → Level) : (mapLevel s i f).draws = s.draws := rfl
@[simp] theorem mapLevel_queues (s : State) (i : Nat) (f : Level → Level) : (mapLevel s i f).queues = s.queues := rfl
@[simp] theorem mapLevel_rosec (s : State) (i : Nat) (f : Level → Level) : (mapLevel s i f).rosec = s.rosec := rfl
@[simp] theorem mapLevel_level (s : State) (i : Nat) (f : Level → Level) : (mapLevel s i f).level = s.level := rfl
@[simp] theorem mapLevel_therm (s : State) (i : Nat) (f : Level → Level) : (mapLevel s i f).therm = s.therm := rfl
@[simp] theorem mapLevel_allow (s : State) (i : Nat) (f : Level → Level) : (mapLevel s i f).allow = s.allow := rfl
@[simp] theorem mapLevel_rays (s : State) (i : Nat) (f : Level → Level) : (mapLevel s i f).rays = s.rays := rfl
@[simp] theorem mapLevel_raygen (s : State) (i : Nat) (f : Level → Level) : (mapLevel s i f).raygen = s.raygen := rfl
@[simp] theorem mapLevel_tlb (s : State) (i : Nat) (f : Level → Level) : (mapLevel s i f).tlb = s.tlb := rfl
@[simp] theorem mapLevel_trough (s : State) (i : Nat) (f : Level → Level) : (mapLevel s i f).trough = s.trough := rfl
@[simp] theorem mapLevel_races (s : State) (i : Nat) (f : Level → Level) : (mapLevel s i f).races = s.races := rfl
@[simp] theorem mapLevel_scopes (s : State) (i : Nat) (f : Level → Level) : (mapLevel s i f).scopes = s.scopes := rfl
@[simp] theorem mapLevel_regnum (s : State) (i : Nat) (f : Level → Level) : (mapLevel s i f).regnum = s.regnum := rfl
@[simp] theorem mapLevel_tags (s : State) (i : Nat) (f : Level → Level) : (mapLevel s i f).tags = s.tags := rfl
@[simp] theorem mapLevel_sync (s : State) (i : Nat) (f : Level → Level) : (mapLevel s i f).sync = s.sync := rfl
@[simp] theorem mapLevel_rosecClk (s : State) (i : Nat) (f : Level → Level) : (mapLevel s i f).rosecClk = s.rosecClk := rfl
@[simp] theorem mapLevel_collHeld (s : State) (i : Nat) (f : Level → Level) : (mapLevel s i f).collHeld = s.collHeld := rfl
@[simp] theorem mapLevel_monitor (s : State) (i : Nat) (f : Level → Level) : (mapLevel s i f).monitor = s.monitor := rfl
@[simp] theorem mapLevel_rels (s : State) (i : Nat) (f : Level → Level) : (mapLevel s i f).rels = s.rels := rfl
@[simp] theorem mapLevel_blocks (s : State) (i : Nat) (f : Level → Level) : (mapLevel s i f).blocks = s.blocks := rfl
@[simp] theorem mapLevel_past (s : State) (i : Nat) (f : Level → Level) : (mapLevel s i f).past = s.past := rfl
@[simp] theorem mapLevel_events (s : State) (i : Nat) (f : Level → Level) : (mapLevel s i f).events = s.events := rfl
@[simp] theorem mapLevel_rgnsel (s : State) (i : Nat) (f : Level → Level) : (mapLevel s i f).rgnsel = s.rgnsel := rfl
@[simp] theorem mapLevel_rgns (s : State) (i : Nat) (f : Level → Level) : (mapLevel s i f).rgns = s.rgns := rfl
@[simp] theorem mapLevel_cwsel (s : State) (i : Nat) (f : Level → Level) : (mapLevel s i f).cwsel = s.cwsel := rfl
@[simp] theorem mapLevel_cworld (s : State) (i : Nat) (f : Level → Level) : (mapLevel s i f).cworld = s.cworld := rfl
@[simp] theorem mapLevel_meas (s : State) (i : Nat) (f : Level → Level) : (mapLevel s i f).meas = s.meas := rfl
@[simp] theorem mapLevel_flits (s : State) (i : Nat) (f : Level → Level) : (mapLevel s i f).flits = s.flits := rfl
@[simp] theorem mapLevel_msi (s : State) (i : Nat) (f : Level → Level) : (mapLevel s i f).msi = s.msi := rfl
@[simp] theorem mapLevel_ports (s : State) (i : Nat) (f : Level → Level) : (mapLevel s i f).ports = s.ports := rfl
@[simp] theorem mapLevel_lrings (s : State) (i : Nat) (f : Level → Level) : (mapLevel s i f).lrings = s.lrings := rfl
@[simp] theorem mapLevel_inval (s : State) (i : Nat) (f : Level → Level) : (mapLevel s i f).inval = s.inval := rfl
@[simp] theorem mapLevel_att (s : State) (i : Nat) (f : Level → Level) : (mapLevel s i f).att = s.att := rfl
@[simp] theorem mapLevel_firm (s : State) (i : Nat) (f : Level → Level) : (mapLevel s i f).firm = s.firm := rfl
@[simp] theorem mapLevel_spared (s : State) (i : Nat) (f : Level → Level) : (mapLevel s i f).spared = s.spared := rfl
@[simp] theorem mapLevel_refused (s : State) (i : Nat) (f : Level → Level) : (mapLevel s i f).refused = s.refused := rfl
@[simp] theorem mapLevel_softRows (s : State) (i : Nat) (f : Level → Level) : (mapLevel s i f).softRows = s.softRows := rfl
@[simp] theorem mapLevel_hardRows (s : State) (i : Nat) (f : Level → Level) : (mapLevel s i f).hardRows = s.hardRows := rfl
@[simp] theorem mapLevel_spares (s : State) (i : Nat) (f : Level → Level) : (mapLevel s i f).spares = s.spares := rfl
@[simp] theorem mapLevel_t2down (s : State) (i : Nat) (f : Level → Level) : (mapLevel s i f).t2down = s.t2down := rfl
@[simp] theorem mapLevel_rails (s : State) (i : Nat) (f : Level → Level) : (mapLevel s i f).rails = s.rails := rfl
@[simp] theorem mapLevel_locked (s : State) (i : Nat) (f : Level → Level) : (mapLevel s i f).locked = s.locked := rfl
@[simp] theorem mapLevel_ready (s : State) (i : Nat) (f : Level → Level) : (mapLevel s i f).ready = s.ready := rfl
@[simp] theorem mapLevel_shutdown (s : State) (i : Nat) (f : Level → Level) : (mapLevel s i f).shutdown = s.shutdown := rfl
@[simp] theorem mapLevel_host (s : State) (i : Nat) (f : Level → Level) : (mapLevel s i f).host = s.host := rfl

/-! ### mapCtx -/

@[simp] theorem mapCtx_mem (s : State) (i : Nat) (f : Context → Context) : (mapCtx s i f).mem = s.mem := rfl
@[simp] theorem mapCtx_groups (s : State) (i : Nat) (f : Context → Context) : (mapCtx s i f).groups = s.groups := rfl
@[simp] theorem mapCtx_cur (s : State) (i : Nat) (f : Context → Context) : (mapCtx s i f).cur = s.cur := rfl
@[simp] theorem mapCtx_units (s : State) (i : Nat) (f : Context → Context) : (mapCtx s i f).units = s.units := rfl
@[simp] theorem mapCtx_levels (s : State) (i : Nat) (f : Context → Context) : (mapCtx s i f).levels = s.levels := rfl
@[simp] theorem mapCtx_ops (s : State) (i : Nat) (f : Context → Context) : (mapCtx s i f).ops = s.ops := rfl
@[simp] theorem mapCtx_cores (s : State) (i : Nat) (f : Context → Context) : (mapCtx s i f).cores = s.cores := rfl
@[simp] theorem mapCtx_clk (s : State) (i : Nat) (f : Context → Context) : (mapCtx s i f).clk = s.clk := rfl
@[simp] theorem mapCtx_free (s : State) (i : Nat) (f : Context → Context) : (mapCtx s i f).free = s.free := rfl
@[simp] theorem mapCtx_agenda (s : State) (i : Nat) (f : Context → Context) : (mapCtx s i f).agenda = s.agenda := rfl
@[simp] theorem mapCtx_hreg (s : State) (i : Nat) (f : Context → Context) : (mapCtx s i f).hreg = s.hreg := rfl
@[simp] theorem mapCtx_changes (s : State) (i : Nat) (f : Context → Context) : (mapCtx s i f).changes = s.changes := rfl
@[simp] theorem mapCtx_turn (s : State) (i : Nat) (f : Context → Context) : (mapCtx s i f).turn = s.turn := rfl
@[simp] theorem mapCtx_nextIssue (s : State) (i : Nat) (f : Context → Context) : (mapCtx s i f).nextIssue = s.nextIssue := rfl
@[simp] theorem mapCtx_nextId (s : State) (i : Nat) (f : Context → Context) : (mapCtx s i f).nextId = s.nextId := rfl
@[simp] theorem mapCtx_poison (s : State) (i : Nat) (f : Context → Context) : (mapCtx s i f).poison = s.poison := rfl
@[simp] theorem mapCtx_jobs (s : State) (i : Nat) (f : Context → Context) : (mapCtx s i f).jobs = s.jobs := rfl
@[simp] theorem mapCtx_copies (s : State) (i : Nat) (f : Context → Context) : (mapCtx s i f).copies = s.copies := rfl
@[simp] theorem mapCtx_casts (s : State) (i : Nat) (f : Context → Context) : (mapCtx s i f).casts = s.casts := rfl
@[simp] theorem mapCtx_recs (s : State) (i : Nat) (f : Context → Context) : (mapCtx s i f).recs = s.recs := rfl
@[simp] theorem mapCtx_bte (s : State) (i : Nat) (f : Context → Context) : (mapCtx s i f).bte = s.bte := rfl
@[simp] theorem mapCtx_keys (s : State) (i : Nat) (f : Context → Context) : (mapCtx s i f).keys = s.keys := rfl
@[simp] theorem mapCtx_sorts (s : State) (i : Nat) (f : Context → Context) : (mapCtx s i f).sorts = s.sorts := rfl
@[simp] theorem mapCtx_draws (s : State) (i : Nat) (f : Context → Context) : (mapCtx s i f).draws = s.draws := rfl
@[simp] theorem mapCtx_queues (s : State) (i : Nat) (f : Context → Context) : (mapCtx s i f).queues = s.queues := rfl
@[simp] theorem mapCtx_rosec (s : State) (i : Nat) (f : Context → Context) : (mapCtx s i f).rosec = s.rosec := rfl
@[simp] theorem mapCtx_level (s : State) (i : Nat) (f : Context → Context) : (mapCtx s i f).level = s.level := rfl
@[simp] theorem mapCtx_therm (s : State) (i : Nat) (f : Context → Context) : (mapCtx s i f).therm = s.therm := rfl
@[simp] theorem mapCtx_allow (s : State) (i : Nat) (f : Context → Context) : (mapCtx s i f).allow = s.allow := rfl
@[simp] theorem mapCtx_rays (s : State) (i : Nat) (f : Context → Context) : (mapCtx s i f).rays = s.rays := rfl
@[simp] theorem mapCtx_raygen (s : State) (i : Nat) (f : Context → Context) : (mapCtx s i f).raygen = s.raygen := rfl
@[simp] theorem mapCtx_tlb (s : State) (i : Nat) (f : Context → Context) : (mapCtx s i f).tlb = s.tlb := rfl
@[simp] theorem mapCtx_trough (s : State) (i : Nat) (f : Context → Context) : (mapCtx s i f).trough = s.trough := rfl
@[simp] theorem mapCtx_races (s : State) (i : Nat) (f : Context → Context) : (mapCtx s i f).races = s.races := rfl
@[simp] theorem mapCtx_scopes (s : State) (i : Nat) (f : Context → Context) : (mapCtx s i f).scopes = s.scopes := rfl
@[simp] theorem mapCtx_regnum (s : State) (i : Nat) (f : Context → Context) : (mapCtx s i f).regnum = s.regnum := rfl
@[simp] theorem mapCtx_tags (s : State) (i : Nat) (f : Context → Context) : (mapCtx s i f).tags = s.tags := rfl
@[simp] theorem mapCtx_sync (s : State) (i : Nat) (f : Context → Context) : (mapCtx s i f).sync = s.sync := rfl
@[simp] theorem mapCtx_rosecClk (s : State) (i : Nat) (f : Context → Context) : (mapCtx s i f).rosecClk = s.rosecClk := rfl
@[simp] theorem mapCtx_collHeld (s : State) (i : Nat) (f : Context → Context) : (mapCtx s i f).collHeld = s.collHeld := rfl
@[simp] theorem mapCtx_monitor (s : State) (i : Nat) (f : Context → Context) : (mapCtx s i f).monitor = s.monitor := rfl
@[simp] theorem mapCtx_rels (s : State) (i : Nat) (f : Context → Context) : (mapCtx s i f).rels = s.rels := rfl
@[simp] theorem mapCtx_blocks (s : State) (i : Nat) (f : Context → Context) : (mapCtx s i f).blocks = s.blocks := rfl
@[simp] theorem mapCtx_past (s : State) (i : Nat) (f : Context → Context) : (mapCtx s i f).past = s.past := rfl
@[simp] theorem mapCtx_events (s : State) (i : Nat) (f : Context → Context) : (mapCtx s i f).events = s.events := rfl
@[simp] theorem mapCtx_rgnsel (s : State) (i : Nat) (f : Context → Context) : (mapCtx s i f).rgnsel = s.rgnsel := rfl
@[simp] theorem mapCtx_rgns (s : State) (i : Nat) (f : Context → Context) : (mapCtx s i f).rgns = s.rgns := rfl
@[simp] theorem mapCtx_cwsel (s : State) (i : Nat) (f : Context → Context) : (mapCtx s i f).cwsel = s.cwsel := rfl
@[simp] theorem mapCtx_cworld (s : State) (i : Nat) (f : Context → Context) : (mapCtx s i f).cworld = s.cworld := rfl
@[simp] theorem mapCtx_meas (s : State) (i : Nat) (f : Context → Context) : (mapCtx s i f).meas = s.meas := rfl
@[simp] theorem mapCtx_flits (s : State) (i : Nat) (f : Context → Context) : (mapCtx s i f).flits = s.flits := rfl
@[simp] theorem mapCtx_msi (s : State) (i : Nat) (f : Context → Context) : (mapCtx s i f).msi = s.msi := rfl
@[simp] theorem mapCtx_ports (s : State) (i : Nat) (f : Context → Context) : (mapCtx s i f).ports = s.ports := rfl
@[simp] theorem mapCtx_lrings (s : State) (i : Nat) (f : Context → Context) : (mapCtx s i f).lrings = s.lrings := rfl
@[simp] theorem mapCtx_inval (s : State) (i : Nat) (f : Context → Context) : (mapCtx s i f).inval = s.inval := rfl
@[simp] theorem mapCtx_att (s : State) (i : Nat) (f : Context → Context) : (mapCtx s i f).att = s.att := rfl
@[simp] theorem mapCtx_firm (s : State) (i : Nat) (f : Context → Context) : (mapCtx s i f).firm = s.firm := rfl
@[simp] theorem mapCtx_spared (s : State) (i : Nat) (f : Context → Context) : (mapCtx s i f).spared = s.spared := rfl
@[simp] theorem mapCtx_refused (s : State) (i : Nat) (f : Context → Context) : (mapCtx s i f).refused = s.refused := rfl
@[simp] theorem mapCtx_softRows (s : State) (i : Nat) (f : Context → Context) : (mapCtx s i f).softRows = s.softRows := rfl
@[simp] theorem mapCtx_hardRows (s : State) (i : Nat) (f : Context → Context) : (mapCtx s i f).hardRows = s.hardRows := rfl
@[simp] theorem mapCtx_spares (s : State) (i : Nat) (f : Context → Context) : (mapCtx s i f).spares = s.spares := rfl
@[simp] theorem mapCtx_t2down (s : State) (i : Nat) (f : Context → Context) : (mapCtx s i f).t2down = s.t2down := rfl
@[simp] theorem mapCtx_rails (s : State) (i : Nat) (f : Context → Context) : (mapCtx s i f).rails = s.rails := rfl
@[simp] theorem mapCtx_locked (s : State) (i : Nat) (f : Context → Context) : (mapCtx s i f).locked = s.locked := rfl
@[simp] theorem mapCtx_ready (s : State) (i : Nat) (f : Context → Context) : (mapCtx s i f).ready = s.ready := rfl
@[simp] theorem mapCtx_shutdown (s : State) (i : Nat) (f : Context → Context) : (mapCtx s i f).shutdown = s.shutdown := rfl
@[simp] theorem mapCtx_host (s : State) (i : Nat) (f : Context → Context) : (mapCtx s i f).host = s.host := rfl

/-! ### mapCore -/

@[simp] theorem mapCore_mem (s : State) (i : Nat) (f : CoreS → CoreS) : (mapCore s i f).mem = s.mem := rfl
@[simp] theorem mapCore_groups (s : State) (i : Nat) (f : CoreS → CoreS) : (mapCore s i f).groups = s.groups := rfl
@[simp] theorem mapCore_cur (s : State) (i : Nat) (f : CoreS → CoreS) : (mapCore s i f).cur = s.cur := rfl
@[simp] theorem mapCore_units (s : State) (i : Nat) (f : CoreS → CoreS) : (mapCore s i f).units = s.units := rfl
@[simp] theorem mapCore_levels (s : State) (i : Nat) (f : CoreS → CoreS) : (mapCore s i f).levels = s.levels := rfl
@[simp] theorem mapCore_ops (s : State) (i : Nat) (f : CoreS → CoreS) : (mapCore s i f).ops = s.ops := rfl
@[simp] theorem mapCore_ctxs (s : State) (i : Nat) (f : CoreS → CoreS) : (mapCore s i f).ctxs = s.ctxs := rfl
@[simp] theorem mapCore_clk (s : State) (i : Nat) (f : CoreS → CoreS) : (mapCore s i f).clk = s.clk := rfl
@[simp] theorem mapCore_free (s : State) (i : Nat) (f : CoreS → CoreS) : (mapCore s i f).free = s.free := rfl
@[simp] theorem mapCore_agenda (s : State) (i : Nat) (f : CoreS → CoreS) : (mapCore s i f).agenda = s.agenda := rfl
@[simp] theorem mapCore_hreg (s : State) (i : Nat) (f : CoreS → CoreS) : (mapCore s i f).hreg = s.hreg := rfl
@[simp] theorem mapCore_changes (s : State) (i : Nat) (f : CoreS → CoreS) : (mapCore s i f).changes = s.changes := rfl
@[simp] theorem mapCore_turn (s : State) (i : Nat) (f : CoreS → CoreS) : (mapCore s i f).turn = s.turn := rfl
@[simp] theorem mapCore_nextIssue (s : State) (i : Nat) (f : CoreS → CoreS) : (mapCore s i f).nextIssue = s.nextIssue := rfl
@[simp] theorem mapCore_nextId (s : State) (i : Nat) (f : CoreS → CoreS) : (mapCore s i f).nextId = s.nextId := rfl
@[simp] theorem mapCore_poison (s : State) (i : Nat) (f : CoreS → CoreS) : (mapCore s i f).poison = s.poison := rfl
@[simp] theorem mapCore_jobs (s : State) (i : Nat) (f : CoreS → CoreS) : (mapCore s i f).jobs = s.jobs := rfl
@[simp] theorem mapCore_copies (s : State) (i : Nat) (f : CoreS → CoreS) : (mapCore s i f).copies = s.copies := rfl
@[simp] theorem mapCore_casts (s : State) (i : Nat) (f : CoreS → CoreS) : (mapCore s i f).casts = s.casts := rfl
@[simp] theorem mapCore_recs (s : State) (i : Nat) (f : CoreS → CoreS) : (mapCore s i f).recs = s.recs := rfl
@[simp] theorem mapCore_bte (s : State) (i : Nat) (f : CoreS → CoreS) : (mapCore s i f).bte = s.bte := rfl
@[simp] theorem mapCore_keys (s : State) (i : Nat) (f : CoreS → CoreS) : (mapCore s i f).keys = s.keys := rfl
@[simp] theorem mapCore_sorts (s : State) (i : Nat) (f : CoreS → CoreS) : (mapCore s i f).sorts = s.sorts := rfl
@[simp] theorem mapCore_draws (s : State) (i : Nat) (f : CoreS → CoreS) : (mapCore s i f).draws = s.draws := rfl
@[simp] theorem mapCore_queues (s : State) (i : Nat) (f : CoreS → CoreS) : (mapCore s i f).queues = s.queues := rfl
@[simp] theorem mapCore_rosec (s : State) (i : Nat) (f : CoreS → CoreS) : (mapCore s i f).rosec = s.rosec := rfl
@[simp] theorem mapCore_level (s : State) (i : Nat) (f : CoreS → CoreS) : (mapCore s i f).level = s.level := rfl
@[simp] theorem mapCore_therm (s : State) (i : Nat) (f : CoreS → CoreS) : (mapCore s i f).therm = s.therm := rfl
@[simp] theorem mapCore_allow (s : State) (i : Nat) (f : CoreS → CoreS) : (mapCore s i f).allow = s.allow := rfl
@[simp] theorem mapCore_rays (s : State) (i : Nat) (f : CoreS → CoreS) : (mapCore s i f).rays = s.rays := rfl
@[simp] theorem mapCore_raygen (s : State) (i : Nat) (f : CoreS → CoreS) : (mapCore s i f).raygen = s.raygen := rfl
@[simp] theorem mapCore_tlb (s : State) (i : Nat) (f : CoreS → CoreS) : (mapCore s i f).tlb = s.tlb := rfl
@[simp] theorem mapCore_trough (s : State) (i : Nat) (f : CoreS → CoreS) : (mapCore s i f).trough = s.trough := rfl
@[simp] theorem mapCore_races (s : State) (i : Nat) (f : CoreS → CoreS) : (mapCore s i f).races = s.races := rfl
@[simp] theorem mapCore_scopes (s : State) (i : Nat) (f : CoreS → CoreS) : (mapCore s i f).scopes = s.scopes := rfl
@[simp] theorem mapCore_regnum (s : State) (i : Nat) (f : CoreS → CoreS) : (mapCore s i f).regnum = s.regnum := rfl
@[simp] theorem mapCore_tags (s : State) (i : Nat) (f : CoreS → CoreS) : (mapCore s i f).tags = s.tags := rfl
@[simp] theorem mapCore_sync (s : State) (i : Nat) (f : CoreS → CoreS) : (mapCore s i f).sync = s.sync := rfl
@[simp] theorem mapCore_rosecClk (s : State) (i : Nat) (f : CoreS → CoreS) : (mapCore s i f).rosecClk = s.rosecClk := rfl
@[simp] theorem mapCore_collHeld (s : State) (i : Nat) (f : CoreS → CoreS) : (mapCore s i f).collHeld = s.collHeld := rfl
@[simp] theorem mapCore_monitor (s : State) (i : Nat) (f : CoreS → CoreS) : (mapCore s i f).monitor = s.monitor := rfl
@[simp] theorem mapCore_rels (s : State) (i : Nat) (f : CoreS → CoreS) : (mapCore s i f).rels = s.rels := rfl
@[simp] theorem mapCore_blocks (s : State) (i : Nat) (f : CoreS → CoreS) : (mapCore s i f).blocks = s.blocks := rfl
@[simp] theorem mapCore_past (s : State) (i : Nat) (f : CoreS → CoreS) : (mapCore s i f).past = s.past := rfl
@[simp] theorem mapCore_events (s : State) (i : Nat) (f : CoreS → CoreS) : (mapCore s i f).events = s.events := rfl
@[simp] theorem mapCore_rgnsel (s : State) (i : Nat) (f : CoreS → CoreS) : (mapCore s i f).rgnsel = s.rgnsel := rfl
@[simp] theorem mapCore_rgns (s : State) (i : Nat) (f : CoreS → CoreS) : (mapCore s i f).rgns = s.rgns := rfl
@[simp] theorem mapCore_cwsel (s : State) (i : Nat) (f : CoreS → CoreS) : (mapCore s i f).cwsel = s.cwsel := rfl
@[simp] theorem mapCore_cworld (s : State) (i : Nat) (f : CoreS → CoreS) : (mapCore s i f).cworld = s.cworld := rfl
@[simp] theorem mapCore_meas (s : State) (i : Nat) (f : CoreS → CoreS) : (mapCore s i f).meas = s.meas := rfl
@[simp] theorem mapCore_flits (s : State) (i : Nat) (f : CoreS → CoreS) : (mapCore s i f).flits = s.flits := rfl
@[simp] theorem mapCore_msi (s : State) (i : Nat) (f : CoreS → CoreS) : (mapCore s i f).msi = s.msi := rfl
@[simp] theorem mapCore_ports (s : State) (i : Nat) (f : CoreS → CoreS) : (mapCore s i f).ports = s.ports := rfl
@[simp] theorem mapCore_lrings (s : State) (i : Nat) (f : CoreS → CoreS) : (mapCore s i f).lrings = s.lrings := rfl
@[simp] theorem mapCore_inval (s : State) (i : Nat) (f : CoreS → CoreS) : (mapCore s i f).inval = s.inval := rfl
@[simp] theorem mapCore_att (s : State) (i : Nat) (f : CoreS → CoreS) : (mapCore s i f).att = s.att := rfl
@[simp] theorem mapCore_firm (s : State) (i : Nat) (f : CoreS → CoreS) : (mapCore s i f).firm = s.firm := rfl
@[simp] theorem mapCore_spared (s : State) (i : Nat) (f : CoreS → CoreS) : (mapCore s i f).spared = s.spared := rfl
@[simp] theorem mapCore_refused (s : State) (i : Nat) (f : CoreS → CoreS) : (mapCore s i f).refused = s.refused := rfl
@[simp] theorem mapCore_softRows (s : State) (i : Nat) (f : CoreS → CoreS) : (mapCore s i f).softRows = s.softRows := rfl
@[simp] theorem mapCore_hardRows (s : State) (i : Nat) (f : CoreS → CoreS) : (mapCore s i f).hardRows = s.hardRows := rfl
@[simp] theorem mapCore_spares (s : State) (i : Nat) (f : CoreS → CoreS) : (mapCore s i f).spares = s.spares := rfl
@[simp] theorem mapCore_t2down (s : State) (i : Nat) (f : CoreS → CoreS) : (mapCore s i f).t2down = s.t2down := rfl
@[simp] theorem mapCore_rails (s : State) (i : Nat) (f : CoreS → CoreS) : (mapCore s i f).rails = s.rails := rfl
@[simp] theorem mapCore_locked (s : State) (i : Nat) (f : CoreS → CoreS) : (mapCore s i f).locked = s.locked := rfl
@[simp] theorem mapCore_ready (s : State) (i : Nat) (f : CoreS → CoreS) : (mapCore s i f).ready = s.ready := rfl
@[simp] theorem mapCore_shutdown (s : State) (i : Nat) (f : CoreS → CoreS) : (mapCore s i f).shutdown = s.shutdown := rfl
@[simp] theorem mapCore_host (s : State) (i : Nat) (f : CoreS → CoreS) : (mapCore s i f).host = s.host := rfl

/-! ### mapOp -/

@[simp] theorem mapOp_mem (s : State) (i : Nat) (f : Op → Op) : (mapOp s i f).mem = s.mem := rfl
@[simp] theorem mapOp_groups (s : State) (i : Nat) (f : Op → Op) : (mapOp s i f).groups = s.groups := rfl
@[simp] theorem mapOp_cur (s : State) (i : Nat) (f : Op → Op) : (mapOp s i f).cur = s.cur := rfl
@[simp] theorem mapOp_units (s : State) (i : Nat) (f : Op → Op) : (mapOp s i f).units = s.units := rfl
@[simp] theorem mapOp_levels (s : State) (i : Nat) (f : Op → Op) : (mapOp s i f).levels = s.levels := rfl
@[simp] theorem mapOp_ctxs (s : State) (i : Nat) (f : Op → Op) : (mapOp s i f).ctxs = s.ctxs := rfl
@[simp] theorem mapOp_cores (s : State) (i : Nat) (f : Op → Op) : (mapOp s i f).cores = s.cores := rfl
@[simp] theorem mapOp_clk (s : State) (i : Nat) (f : Op → Op) : (mapOp s i f).clk = s.clk := rfl
@[simp] theorem mapOp_free (s : State) (i : Nat) (f : Op → Op) : (mapOp s i f).free = s.free := rfl
@[simp] theorem mapOp_agenda (s : State) (i : Nat) (f : Op → Op) : (mapOp s i f).agenda = s.agenda := rfl
@[simp] theorem mapOp_hreg (s : State) (i : Nat) (f : Op → Op) : (mapOp s i f).hreg = s.hreg := rfl
@[simp] theorem mapOp_changes (s : State) (i : Nat) (f : Op → Op) : (mapOp s i f).changes = s.changes := rfl
@[simp] theorem mapOp_turn (s : State) (i : Nat) (f : Op → Op) : (mapOp s i f).turn = s.turn := rfl
@[simp] theorem mapOp_nextIssue (s : State) (i : Nat) (f : Op → Op) : (mapOp s i f).nextIssue = s.nextIssue := rfl
@[simp] theorem mapOp_nextId (s : State) (i : Nat) (f : Op → Op) : (mapOp s i f).nextId = s.nextId := rfl
@[simp] theorem mapOp_poison (s : State) (i : Nat) (f : Op → Op) : (mapOp s i f).poison = s.poison := rfl
@[simp] theorem mapOp_jobs (s : State) (i : Nat) (f : Op → Op) : (mapOp s i f).jobs = s.jobs := rfl
@[simp] theorem mapOp_copies (s : State) (i : Nat) (f : Op → Op) : (mapOp s i f).copies = s.copies := rfl
@[simp] theorem mapOp_casts (s : State) (i : Nat) (f : Op → Op) : (mapOp s i f).casts = s.casts := rfl
@[simp] theorem mapOp_recs (s : State) (i : Nat) (f : Op → Op) : (mapOp s i f).recs = s.recs := rfl
@[simp] theorem mapOp_bte (s : State) (i : Nat) (f : Op → Op) : (mapOp s i f).bte = s.bte := rfl
@[simp] theorem mapOp_keys (s : State) (i : Nat) (f : Op → Op) : (mapOp s i f).keys = s.keys := rfl
@[simp] theorem mapOp_sorts (s : State) (i : Nat) (f : Op → Op) : (mapOp s i f).sorts = s.sorts := rfl
@[simp] theorem mapOp_draws (s : State) (i : Nat) (f : Op → Op) : (mapOp s i f).draws = s.draws := rfl
@[simp] theorem mapOp_queues (s : State) (i : Nat) (f : Op → Op) : (mapOp s i f).queues = s.queues := rfl
@[simp] theorem mapOp_rosec (s : State) (i : Nat) (f : Op → Op) : (mapOp s i f).rosec = s.rosec := rfl
@[simp] theorem mapOp_level (s : State) (i : Nat) (f : Op → Op) : (mapOp s i f).level = s.level := rfl
@[simp] theorem mapOp_therm (s : State) (i : Nat) (f : Op → Op) : (mapOp s i f).therm = s.therm := rfl
@[simp] theorem mapOp_allow (s : State) (i : Nat) (f : Op → Op) : (mapOp s i f).allow = s.allow := rfl
@[simp] theorem mapOp_rays (s : State) (i : Nat) (f : Op → Op) : (mapOp s i f).rays = s.rays := rfl
@[simp] theorem mapOp_raygen (s : State) (i : Nat) (f : Op → Op) : (mapOp s i f).raygen = s.raygen := rfl
@[simp] theorem mapOp_tlb (s : State) (i : Nat) (f : Op → Op) : (mapOp s i f).tlb = s.tlb := rfl
@[simp] theorem mapOp_trough (s : State) (i : Nat) (f : Op → Op) : (mapOp s i f).trough = s.trough := rfl
@[simp] theorem mapOp_races (s : State) (i : Nat) (f : Op → Op) : (mapOp s i f).races = s.races := rfl
@[simp] theorem mapOp_scopes (s : State) (i : Nat) (f : Op → Op) : (mapOp s i f).scopes = s.scopes := rfl
@[simp] theorem mapOp_regnum (s : State) (i : Nat) (f : Op → Op) : (mapOp s i f).regnum = s.regnum := rfl
@[simp] theorem mapOp_tags (s : State) (i : Nat) (f : Op → Op) : (mapOp s i f).tags = s.tags := rfl
@[simp] theorem mapOp_sync (s : State) (i : Nat) (f : Op → Op) : (mapOp s i f).sync = s.sync := rfl
@[simp] theorem mapOp_rosecClk (s : State) (i : Nat) (f : Op → Op) : (mapOp s i f).rosecClk = s.rosecClk := rfl
@[simp] theorem mapOp_collHeld (s : State) (i : Nat) (f : Op → Op) : (mapOp s i f).collHeld = s.collHeld := rfl
@[simp] theorem mapOp_monitor (s : State) (i : Nat) (f : Op → Op) : (mapOp s i f).monitor = s.monitor := rfl
@[simp] theorem mapOp_rels (s : State) (i : Nat) (f : Op → Op) : (mapOp s i f).rels = s.rels := rfl
@[simp] theorem mapOp_blocks (s : State) (i : Nat) (f : Op → Op) : (mapOp s i f).blocks = s.blocks := rfl
@[simp] theorem mapOp_past (s : State) (i : Nat) (f : Op → Op) : (mapOp s i f).past = s.past := rfl
@[simp] theorem mapOp_events (s : State) (i : Nat) (f : Op → Op) : (mapOp s i f).events = s.events := rfl
@[simp] theorem mapOp_rgnsel (s : State) (i : Nat) (f : Op → Op) : (mapOp s i f).rgnsel = s.rgnsel := rfl
@[simp] theorem mapOp_rgns (s : State) (i : Nat) (f : Op → Op) : (mapOp s i f).rgns = s.rgns := rfl
@[simp] theorem mapOp_cwsel (s : State) (i : Nat) (f : Op → Op) : (mapOp s i f).cwsel = s.cwsel := rfl
@[simp] theorem mapOp_cworld (s : State) (i : Nat) (f : Op → Op) : (mapOp s i f).cworld = s.cworld := rfl
@[simp] theorem mapOp_meas (s : State) (i : Nat) (f : Op → Op) : (mapOp s i f).meas = s.meas := rfl
@[simp] theorem mapOp_flits (s : State) (i : Nat) (f : Op → Op) : (mapOp s i f).flits = s.flits := rfl
@[simp] theorem mapOp_msi (s : State) (i : Nat) (f : Op → Op) : (mapOp s i f).msi = s.msi := rfl
@[simp] theorem mapOp_ports (s : State) (i : Nat) (f : Op → Op) : (mapOp s i f).ports = s.ports := rfl
@[simp] theorem mapOp_lrings (s : State) (i : Nat) (f : Op → Op) : (mapOp s i f).lrings = s.lrings := rfl
@[simp] theorem mapOp_inval (s : State) (i : Nat) (f : Op → Op) : (mapOp s i f).inval = s.inval := rfl
@[simp] theorem mapOp_att (s : State) (i : Nat) (f : Op → Op) : (mapOp s i f).att = s.att := rfl
@[simp] theorem mapOp_firm (s : State) (i : Nat) (f : Op → Op) : (mapOp s i f).firm = s.firm := rfl
@[simp] theorem mapOp_spared (s : State) (i : Nat) (f : Op → Op) : (mapOp s i f).spared = s.spared := rfl
@[simp] theorem mapOp_refused (s : State) (i : Nat) (f : Op → Op) : (mapOp s i f).refused = s.refused := rfl
@[simp] theorem mapOp_softRows (s : State) (i : Nat) (f : Op → Op) : (mapOp s i f).softRows = s.softRows := rfl
@[simp] theorem mapOp_hardRows (s : State) (i : Nat) (f : Op → Op) : (mapOp s i f).hardRows = s.hardRows := rfl
@[simp] theorem mapOp_spares (s : State) (i : Nat) (f : Op → Op) : (mapOp s i f).spares = s.spares := rfl
@[simp] theorem mapOp_t2down (s : State) (i : Nat) (f : Op → Op) : (mapOp s i f).t2down = s.t2down := rfl
@[simp] theorem mapOp_rails (s : State) (i : Nat) (f : Op → Op) : (mapOp s i f).rails = s.rails := rfl
@[simp] theorem mapOp_locked (s : State) (i : Nat) (f : Op → Op) : (mapOp s i f).locked = s.locked := rfl
@[simp] theorem mapOp_ready (s : State) (i : Nat) (f : Op → Op) : (mapOp s i f).ready = s.ready := rfl
@[simp] theorem mapOp_shutdown (s : State) (i : Nat) (f : Op → Op) : (mapOp s i f).shutdown = s.shutdown := rfl
@[simp] theorem mapOp_host (s : State) (i : Nat) (f : Op → Op) : (mapOp s i f).host = s.host := rfl

/-! ### hregSet -/

@[simp] theorem hregSet_mem (s : State) (o : Nat) (v : Double) : (hregSet s o v).mem = s.mem := rfl
@[simp] theorem hregSet_groups (s : State) (o : Nat) (v : Double) : (hregSet s o v).groups = s.groups := rfl
@[simp] theorem hregSet_cur (s : State) (o : Nat) (v : Double) : (hregSet s o v).cur = s.cur := rfl
@[simp] theorem hregSet_units (s : State) (o : Nat) (v : Double) : (hregSet s o v).units = s.units := rfl
@[simp] theorem hregSet_levels (s : State) (o : Nat) (v : Double) : (hregSet s o v).levels = s.levels := rfl
@[simp] theorem hregSet_ops (s : State) (o : Nat) (v : Double) : (hregSet s o v).ops = s.ops := rfl
@[simp] theorem hregSet_ctxs (s : State) (o : Nat) (v : Double) : (hregSet s o v).ctxs = s.ctxs := rfl
@[simp] theorem hregSet_cores (s : State) (o : Nat) (v : Double) : (hregSet s o v).cores = s.cores := rfl
@[simp] theorem hregSet_clk (s : State) (o : Nat) (v : Double) : (hregSet s o v).clk = s.clk := rfl
@[simp] theorem hregSet_free (s : State) (o : Nat) (v : Double) : (hregSet s o v).free = s.free := rfl
@[simp] theorem hregSet_agenda (s : State) (o : Nat) (v : Double) : (hregSet s o v).agenda = s.agenda := rfl
@[simp] theorem hregSet_changes (s : State) (o : Nat) (v : Double) : (hregSet s o v).changes = s.changes := rfl
@[simp] theorem hregSet_turn (s : State) (o : Nat) (v : Double) : (hregSet s o v).turn = s.turn := rfl
@[simp] theorem hregSet_nextIssue (s : State) (o : Nat) (v : Double) : (hregSet s o v).nextIssue = s.nextIssue := rfl
@[simp] theorem hregSet_nextId (s : State) (o : Nat) (v : Double) : (hregSet s o v).nextId = s.nextId := rfl
@[simp] theorem hregSet_poison (s : State) (o : Nat) (v : Double) : (hregSet s o v).poison = s.poison := rfl
@[simp] theorem hregSet_jobs (s : State) (o : Nat) (v : Double) : (hregSet s o v).jobs = s.jobs := rfl
@[simp] theorem hregSet_copies (s : State) (o : Nat) (v : Double) : (hregSet s o v).copies = s.copies := rfl
@[simp] theorem hregSet_casts (s : State) (o : Nat) (v : Double) : (hregSet s o v).casts = s.casts := rfl
@[simp] theorem hregSet_recs (s : State) (o : Nat) (v : Double) : (hregSet s o v).recs = s.recs := rfl
@[simp] theorem hregSet_bte (s : State) (o : Nat) (v : Double) : (hregSet s o v).bte = s.bte := rfl
@[simp] theorem hregSet_keys (s : State) (o : Nat) (v : Double) : (hregSet s o v).keys = s.keys := rfl
@[simp] theorem hregSet_sorts (s : State) (o : Nat) (v : Double) : (hregSet s o v).sorts = s.sorts := rfl
@[simp] theorem hregSet_draws (s : State) (o : Nat) (v : Double) : (hregSet s o v).draws = s.draws := rfl
@[simp] theorem hregSet_queues (s : State) (o : Nat) (v : Double) : (hregSet s o v).queues = s.queues := rfl
@[simp] theorem hregSet_rosec (s : State) (o : Nat) (v : Double) : (hregSet s o v).rosec = s.rosec := rfl
@[simp] theorem hregSet_level (s : State) (o : Nat) (v : Double) : (hregSet s o v).level = s.level := rfl
@[simp] theorem hregSet_therm (s : State) (o : Nat) (v : Double) : (hregSet s o v).therm = s.therm := rfl
@[simp] theorem hregSet_allow (s : State) (o : Nat) (v : Double) : (hregSet s o v).allow = s.allow := rfl
@[simp] theorem hregSet_rays (s : State) (o : Nat) (v : Double) : (hregSet s o v).rays = s.rays := rfl
@[simp] theorem hregSet_raygen (s : State) (o : Nat) (v : Double) : (hregSet s o v).raygen = s.raygen := rfl
@[simp] theorem hregSet_tlb (s : State) (o : Nat) (v : Double) : (hregSet s o v).tlb = s.tlb := rfl
@[simp] theorem hregSet_trough (s : State) (o : Nat) (v : Double) : (hregSet s o v).trough = s.trough := rfl
@[simp] theorem hregSet_races (s : State) (o : Nat) (v : Double) : (hregSet s o v).races = s.races := rfl
@[simp] theorem hregSet_scopes (s : State) (o : Nat) (v : Double) : (hregSet s o v).scopes = s.scopes := rfl
@[simp] theorem hregSet_regnum (s : State) (o : Nat) (v : Double) : (hregSet s o v).regnum = s.regnum := rfl
@[simp] theorem hregSet_tags (s : State) (o : Nat) (v : Double) : (hregSet s o v).tags = s.tags := rfl
@[simp] theorem hregSet_sync (s : State) (o : Nat) (v : Double) : (hregSet s o v).sync = s.sync := rfl
@[simp] theorem hregSet_rosecClk (s : State) (o : Nat) (v : Double) : (hregSet s o v).rosecClk = s.rosecClk := rfl
@[simp] theorem hregSet_collHeld (s : State) (o : Nat) (v : Double) : (hregSet s o v).collHeld = s.collHeld := rfl
@[simp] theorem hregSet_monitor (s : State) (o : Nat) (v : Double) : (hregSet s o v).monitor = s.monitor := rfl
@[simp] theorem hregSet_rels (s : State) (o : Nat) (v : Double) : (hregSet s o v).rels = s.rels := rfl
@[simp] theorem hregSet_blocks (s : State) (o : Nat) (v : Double) : (hregSet s o v).blocks = s.blocks := rfl
@[simp] theorem hregSet_past (s : State) (o : Nat) (v : Double) : (hregSet s o v).past = s.past := rfl
@[simp] theorem hregSet_events (s : State) (o : Nat) (v : Double) : (hregSet s o v).events = s.events := rfl
@[simp] theorem hregSet_rgnsel (s : State) (o : Nat) (v : Double) : (hregSet s o v).rgnsel = s.rgnsel := rfl
@[simp] theorem hregSet_rgns (s : State) (o : Nat) (v : Double) : (hregSet s o v).rgns = s.rgns := rfl
@[simp] theorem hregSet_cwsel (s : State) (o : Nat) (v : Double) : (hregSet s o v).cwsel = s.cwsel := rfl
@[simp] theorem hregSet_cworld (s : State) (o : Nat) (v : Double) : (hregSet s o v).cworld = s.cworld := rfl
@[simp] theorem hregSet_meas (s : State) (o : Nat) (v : Double) : (hregSet s o v).meas = s.meas := rfl
@[simp] theorem hregSet_flits (s : State) (o : Nat) (v : Double) : (hregSet s o v).flits = s.flits := rfl
@[simp] theorem hregSet_msi (s : State) (o : Nat) (v : Double) : (hregSet s o v).msi = s.msi := rfl
@[simp] theorem hregSet_ports (s : State) (o : Nat) (v : Double) : (hregSet s o v).ports = s.ports := rfl
@[simp] theorem hregSet_lrings (s : State) (o : Nat) (v : Double) : (hregSet s o v).lrings = s.lrings := rfl
@[simp] theorem hregSet_inval (s : State) (o : Nat) (v : Double) : (hregSet s o v).inval = s.inval := rfl
@[simp] theorem hregSet_att (s : State) (o : Nat) (v : Double) : (hregSet s o v).att = s.att := rfl
@[simp] theorem hregSet_firm (s : State) (o : Nat) (v : Double) : (hregSet s o v).firm = s.firm := rfl
@[simp] theorem hregSet_spared (s : State) (o : Nat) (v : Double) : (hregSet s o v).spared = s.spared := rfl
@[simp] theorem hregSet_refused (s : State) (o : Nat) (v : Double) : (hregSet s o v).refused = s.refused := rfl
@[simp] theorem hregSet_softRows (s : State) (o : Nat) (v : Double) : (hregSet s o v).softRows = s.softRows := rfl
@[simp] theorem hregSet_hardRows (s : State) (o : Nat) (v : Double) : (hregSet s o v).hardRows = s.hardRows := rfl
@[simp] theorem hregSet_spares (s : State) (o : Nat) (v : Double) : (hregSet s o v).spares = s.spares := rfl
@[simp] theorem hregSet_t2down (s : State) (o : Nat) (v : Double) : (hregSet s o v).t2down = s.t2down := rfl
@[simp] theorem hregSet_rails (s : State) (o : Nat) (v : Double) : (hregSet s o v).rails = s.rails := rfl
@[simp] theorem hregSet_locked (s : State) (o : Nat) (v : Double) : (hregSet s o v).locked = s.locked := rfl
@[simp] theorem hregSet_ready (s : State) (o : Nat) (v : Double) : (hregSet s o v).ready = s.ready := rfl
@[simp] theorem hregSet_shutdown (s : State) (o : Nat) (v : Double) : (hregSet s o v).shutdown = s.shutdown := rfl
@[simp] theorem hregSet_host (s : State) (o : Nat) (v : Double) : (hregSet s o v).host = s.host := rfl

/-! ### pushEvent -/

@[simp] theorem pushEvent_mem (s : State) (e : EventRec) : (pushEvent s e).mem = s.mem := rfl
@[simp] theorem pushEvent_groups (s : State) (e : EventRec) : (pushEvent s e).groups = s.groups := rfl
@[simp] theorem pushEvent_cur (s : State) (e : EventRec) : (pushEvent s e).cur = s.cur := rfl
@[simp] theorem pushEvent_units (s : State) (e : EventRec) : (pushEvent s e).units = s.units := rfl
@[simp] theorem pushEvent_levels (s : State) (e : EventRec) : (pushEvent s e).levels = s.levels := rfl
@[simp] theorem pushEvent_ops (s : State) (e : EventRec) : (pushEvent s e).ops = s.ops := rfl
@[simp] theorem pushEvent_ctxs (s : State) (e : EventRec) : (pushEvent s e).ctxs = s.ctxs := rfl
@[simp] theorem pushEvent_cores (s : State) (e : EventRec) : (pushEvent s e).cores = s.cores := rfl
@[simp] theorem pushEvent_clk (s : State) (e : EventRec) : (pushEvent s e).clk = s.clk := rfl
@[simp] theorem pushEvent_free (s : State) (e : EventRec) : (pushEvent s e).free = s.free := rfl
@[simp] theorem pushEvent_agenda (s : State) (e : EventRec) : (pushEvent s e).agenda = s.agenda := rfl
@[simp] theorem pushEvent_hreg (s : State) (e : EventRec) : (pushEvent s e).hreg = s.hreg := rfl
@[simp] theorem pushEvent_changes (s : State) (e : EventRec) : (pushEvent s e).changes = s.changes := rfl
@[simp] theorem pushEvent_turn (s : State) (e : EventRec) : (pushEvent s e).turn = s.turn := rfl
@[simp] theorem pushEvent_nextIssue (s : State) (e : EventRec) : (pushEvent s e).nextIssue = s.nextIssue := rfl
@[simp] theorem pushEvent_nextId (s : State) (e : EventRec) : (pushEvent s e).nextId = s.nextId := rfl
@[simp] theorem pushEvent_poison (s : State) (e : EventRec) : (pushEvent s e).poison = s.poison := rfl
@[simp] theorem pushEvent_jobs (s : State) (e : EventRec) : (pushEvent s e).jobs = s.jobs := rfl
@[simp] theorem pushEvent_copies (s : State) (e : EventRec) : (pushEvent s e).copies = s.copies := rfl
@[simp] theorem pushEvent_casts (s : State) (e : EventRec) : (pushEvent s e).casts = s.casts := rfl
@[simp] theorem pushEvent_recs (s : State) (e : EventRec) : (pushEvent s e).recs = s.recs := rfl
@[simp] theorem pushEvent_bte (s : State) (e : EventRec) : (pushEvent s e).bte = s.bte := rfl
@[simp] theorem pushEvent_keys (s : State) (e : EventRec) : (pushEvent s e).keys = s.keys := rfl
@[simp] theorem pushEvent_sorts (s : State) (e : EventRec) : (pushEvent s e).sorts = s.sorts := rfl
@[simp] theorem pushEvent_draws (s : State) (e : EventRec) : (pushEvent s e).draws = s.draws := rfl
@[simp] theorem pushEvent_queues (s : State) (e : EventRec) : (pushEvent s e).queues = s.queues := rfl
@[simp] theorem pushEvent_rosec (s : State) (e : EventRec) : (pushEvent s e).rosec = s.rosec := rfl
@[simp] theorem pushEvent_level (s : State) (e : EventRec) : (pushEvent s e).level = s.level := rfl
@[simp] theorem pushEvent_therm (s : State) (e : EventRec) : (pushEvent s e).therm = s.therm := rfl
@[simp] theorem pushEvent_allow (s : State) (e : EventRec) : (pushEvent s e).allow = s.allow := rfl
@[simp] theorem pushEvent_rays (s : State) (e : EventRec) : (pushEvent s e).rays = s.rays := rfl
@[simp] theorem pushEvent_raygen (s : State) (e : EventRec) : (pushEvent s e).raygen = s.raygen := rfl
@[simp] theorem pushEvent_tlb (s : State) (e : EventRec) : (pushEvent s e).tlb = s.tlb := rfl
@[simp] theorem pushEvent_trough (s : State) (e : EventRec) : (pushEvent s e).trough = s.trough := rfl
@[simp] theorem pushEvent_races (s : State) (e : EventRec) : (pushEvent s e).races = s.races := rfl
@[simp] theorem pushEvent_scopes (s : State) (e : EventRec) : (pushEvent s e).scopes = s.scopes := rfl
@[simp] theorem pushEvent_regnum (s : State) (e : EventRec) : (pushEvent s e).regnum = s.regnum := rfl
@[simp] theorem pushEvent_tags (s : State) (e : EventRec) : (pushEvent s e).tags = s.tags := rfl
@[simp] theorem pushEvent_sync (s : State) (e : EventRec) : (pushEvent s e).sync = s.sync := rfl
@[simp] theorem pushEvent_rosecClk (s : State) (e : EventRec) : (pushEvent s e).rosecClk = s.rosecClk := rfl
@[simp] theorem pushEvent_collHeld (s : State) (e : EventRec) : (pushEvent s e).collHeld = s.collHeld := rfl
@[simp] theorem pushEvent_monitor (s : State) (e : EventRec) : (pushEvent s e).monitor = s.monitor := rfl
@[simp] theorem pushEvent_rels (s : State) (e : EventRec) : (pushEvent s e).rels = s.rels := rfl
@[simp] theorem pushEvent_blocks (s : State) (e : EventRec) : (pushEvent s e).blocks = s.blocks := rfl
@[simp] theorem pushEvent_past (s : State) (e : EventRec) : (pushEvent s e).past = s.past := rfl
@[simp] theorem pushEvent_rgnsel (s : State) (e : EventRec) : (pushEvent s e).rgnsel = s.rgnsel := rfl
@[simp] theorem pushEvent_rgns (s : State) (e : EventRec) : (pushEvent s e).rgns = s.rgns := rfl
@[simp] theorem pushEvent_cwsel (s : State) (e : EventRec) : (pushEvent s e).cwsel = s.cwsel := rfl
@[simp] theorem pushEvent_cworld (s : State) (e : EventRec) : (pushEvent s e).cworld = s.cworld := rfl
@[simp] theorem pushEvent_meas (s : State) (e : EventRec) : (pushEvent s e).meas = s.meas := rfl
@[simp] theorem pushEvent_flits (s : State) (e : EventRec) : (pushEvent s e).flits = s.flits := rfl
@[simp] theorem pushEvent_msi (s : State) (e : EventRec) : (pushEvent s e).msi = s.msi := rfl
@[simp] theorem pushEvent_ports (s : State) (e : EventRec) : (pushEvent s e).ports = s.ports := rfl
@[simp] theorem pushEvent_lrings (s : State) (e : EventRec) : (pushEvent s e).lrings = s.lrings := rfl
@[simp] theorem pushEvent_inval (s : State) (e : EventRec) : (pushEvent s e).inval = s.inval := rfl
@[simp] theorem pushEvent_att (s : State) (e : EventRec) : (pushEvent s e).att = s.att := rfl
@[simp] theorem pushEvent_firm (s : State) (e : EventRec) : (pushEvent s e).firm = s.firm := rfl
@[simp] theorem pushEvent_spared (s : State) (e : EventRec) : (pushEvent s e).spared = s.spared := rfl
@[simp] theorem pushEvent_refused (s : State) (e : EventRec) : (pushEvent s e).refused = s.refused := rfl
@[simp] theorem pushEvent_softRows (s : State) (e : EventRec) : (pushEvent s e).softRows = s.softRows := rfl
@[simp] theorem pushEvent_hardRows (s : State) (e : EventRec) : (pushEvent s e).hardRows = s.hardRows := rfl
@[simp] theorem pushEvent_spares (s : State) (e : EventRec) : (pushEvent s e).spares = s.spares := rfl
@[simp] theorem pushEvent_t2down (s : State) (e : EventRec) : (pushEvent s e).t2down = s.t2down := rfl
@[simp] theorem pushEvent_rails (s : State) (e : EventRec) : (pushEvent s e).rails = s.rails := rfl
@[simp] theorem pushEvent_locked (s : State) (e : EventRec) : (pushEvent s e).locked = s.locked := rfl
@[simp] theorem pushEvent_ready (s : State) (e : EventRec) : (pushEvent s e).ready = s.ready := rfl
@[simp] theorem pushEvent_shutdown (s : State) (e : EventRec) : (pushEvent s e).shutdown = s.shutdown := rfl
@[simp] theorem pushEvent_host (s : State) (e : EventRec) : (pushEvent s e).host = s.host := rfl

@[simp] theorem retireSame_cur (s : State) (c : Go) : (retireSame s c).cur = none := rfl
@[simp] theorem retire_cur (s : State) (c : Go) (g : Group) : (retire s c g).cur = none := rfl

end Sys2Proof.Laws
end

