-- ==== Sys2Proof/Tests/Slice0.lean ====
section
/-! SUPPORT. Sys2Proof/Tests/Slice0.lean: ill-formed terms that the checks refuse, words written out from the spec's encodings, small
single-step tests, and for every statement states and operands that meet the hypotheses of each of its clauses. -/

namespace Sys2Proof.Tests

-- one test at a time: tests that wait for one another's check would hold a stack each
set_option Elab.async false

open Sys2Proof Sys2Proof.Machine Sys2Proof.Safety Sys2Proof.Claims

/-! ### The small states of the tests -/

/-- The word reaches its own effect, and `p` holds there. -/
def meets (i : Instr) (s : State) (p : Go → Bool := fun _ => true) : Bool :=
  match pre i s with
  | .go c => p c
  | .out _ => false

/-- What a `meets` says of the statements' hypotheses. -/
theorem meets_iff (i : Instr) (s : State) (p : Go → Bool) : meets i s p = true ↔ ∃ c, pre i s = .go c ∧ p c = true := by
  unfold meets
  cases h : pre i s with
  | go c => exact ⟨fun h => ⟨c, rfl, h⟩, fun ⟨_, hc, hp⟩ => by cases hc; exact hp⟩
  | out _ => exact ⟨fun h => (by cases h), fun ⟨_, h, _⟩ => (by cases h)⟩

/-- The state after an instruction that goes on satisfies `p`. -/
def after (i : Instr) (s : State) (p : State → Bool) : Bool :=
  match exec i s with
  | .next t => p t
  | _ => false

/-- One group at a word that is the last of its clause; page 0x10000 is mapped to physical 0x10000. -/
def base : State := placeProbe State.reset false
/-- The group of `base`, or its split, changed. -/
def on (f : Group → Group) (s : State := base) : State := mapGrp s 3 f
def onT (f : Split → Split) (s : State := base) : State := on (fun g => mapSplit g 0 f) s
def grpOf (s : State) : Group := (grp s 3).getD {}
/-- The unit of `base` changed. -/
def onU (f : UnitS → UnitS) (s : State := base) : State := mapUnit s 2 f
def onL (f : Level → Level) (s : State := base) : State := mapLevel s 1 f

/-- Guards: always, never (the negation of p47), lanes in which p0 holds. -/
def al : Guard := ⟨false, 63#6⟩
def nv : Guard := ⟨true, 47#6⟩
def p0 : Guard := ⟨false, 0#6⟩
/-- p0 holds in lanes 0–15. -/
def half (s : State := base) : State := on (fun g => { g with p := [(0, 0xFFFF)] }) s

def fr (typ : BitVec 4) (sel : BitVec 3 := 0) (d : BitVec 8 := 4) (a : BitVec 8 := 2) (b : BitVec 8 := 0) (c : BitVec 8 := 0)
    (mid : BitVec 10 := 0) (g : Guard := al) : FrWord := ⟨g, d, a, b, c, mid, typ, sel⟩
def fi (d : BitVec 8 := 0) (a : BitVec 8 := 0) (imm : BitVec 32 := 0) (v : BitVec 1 := 0) (g : Guard := al) : FiWord := ⟨g, d, a, imm, v⟩
def fm (d : BitVec 8 := 4) (bs : BitVec 8 := 196) (idx : BitVec 8 := 255) (off : BitVec 20 := 0) (minor : BitVec 5 := 8)
    (g : Guard := al) : FmWord := ⟨g, d, bs, idx, off, minor⟩
def fs (a : BitVec 8 := 0) (imm : BitVec 16 := 0) (minor : BitVec 7 := 0) (g : Guard := al) : FsWord := ⟨g, 0, a, imm, 0, minor⟩

/-! ### Ill-formed terms -/

/-- One term for each check of a word: an unassigned TYPE, SEL, minor; a nonzero unused field; a modifier the type does not take; a
misaligned pair; a predicate that does not exist; a vector register where a scalar must stand; the headers of R97; the pairing rules of
R94; a step of the device, which has no word. -/
theorem test_illFormed : ([.iadd (fr 0), .imul (fr 6), .shfR (fr 15 1), .ret (fs 196 0 1), .iadd (fr 8 0 4 2 0 1),
    .andB (fr 15 0 4 2 0 0 0x001), .imadw (fr 8 0 5), .icmp (fr 8 0 48), .bra ⟨⟨false, 50#6⟩, 0, 0, 0⟩, .ret (fs 2),
    .clauseHeader ⟨0, 0, 15, 15, false, false, 1⟩, .clauseHeader ⟨0, 0, 12, 15, false, false, 0⟩,
    .clauseHeader ⟨0, 0, 1, 13, false, false, 0⟩, .clauseHeader ⟨0, 0, 15, 2, false, false, 0⟩,
    .clauseHeader ⟨0, 0, 3, 3, false, false, 0⟩, .clauseHeader ⟨15, 0, 15, 15, false, false, 0⟩,
    .pairedWord ⟨1, 7, 4, 8, false, false, 0⟩ ⟨2, 7, 4, 9, false, false, 0⟩ 0,
    .pairedWord ⟨0, 0, 0, 0, false, false, 0⟩ ⟨0, 0, 0, 0, false, false, 0⟩ 1, .tlbinvComplete] : List Instr).any WellFormed = false := by decide

/-! ### Words written out bit by bit (R74–R96; the majors of R87, the minors of each instruction) -/

/-- The first bits of a full word: bit 63, the major, the guard's negate and index (R75). -/
def top (major : BitVec 7) (g : Guard := al) : BitVec 15 := 0#1 ++ major ++ (if g.neg then 1#1 else 0#1) ++ g.idx

/-- The decoder reads this instruction from a word, or refuses the word with this cause. -/
def reads (x : IWord) (i : Instr) : Bool := match decodeWord x with
  | .ok j => j == i
  | .error _ => false
def refusedWith (x : IWord) (c : BitVec 6) : Bool := match decodeWord x with
  | .ok _ => false
  | .error e => e == c

/-- FR: D A B C | DS clamp nA aA nB aB nC aC | TYPE SEL. Integer, logic, compare, pairs, lanes. -/
theorem test_decode_integer :
    reads (top 0x02 ++ 3#8 ++ 1#8 ++ 197#8 ++ 0#8 ++ 0#3 ++ 1#1 ++ 1#1 ++ 0#1 ++ 0#1 ++ 1#1 ++ 0#1 ++ 0#1 ++ 10#4 ++ 0#3)
      (.isub ⟨al, 3, 1, 197, 0, 0x064, 10, 0⟩) = true ∧
    reads (top 0x07 ⟨true, 5⟩ ++ 9#8 ++ 8#8 ++ 7#8 ++ 0#8 ++ 0#10 ++ 9#4 ++ 1#3)
      (.iminmaxMax ⟨⟨true, 5⟩, 9, 8, 7, 0, 0, 9, 1⟩) = true ∧
    reads (top 0x0C ++ 1#8 ++ 2#8 ++ 3#8 ++ 4#8 ++ 0#2 ++ 0x96#8 ++ 15#4 ++ 0#3)
      (.lop3 ⟨al, 1, 2, 3, 4, 0x096, 15, 0⟩) = true ∧
    reads (top 0x13 ++ 1#8 ++ 2#8 ++ 0#8 ++ 0#8 ++ 0#10 ++ 15#4 ++ 2#3)
      (.bitopBrev ⟨al, 1, 2, 0, 0, 0, 15, 2⟩) = true ∧
    reads (top 0x15 ++ 7#8 ++ 1#8 ++ 2#8 ++ 47#8 ++ 0#10 ++ 8#4 ++ 3#3)
      (.icmp ⟨al, 7, 1, 2, 47, 0, 8, 3⟩) = true ∧
    reads (top 0x1A ++ 4#8 ++ 2#8 ++ 196#8 ++ 0#8 ++ 0#10 ++ 13#4 ++ 1#3)
      (.add64Sub ⟨al, 4, 2, 196, 0, 0, 13, 1⟩) = true ∧
    reads (top 0x1E ++ 1#8 ++ 6#8 ++ 0#8 ++ 0#8 ++ 0#10 ++ 15#4 ++ 4#3)
      (.voteCount ⟨al, 1, 6, 0, 0, 0, 15, 4⟩) = true := by decide

/-- FI: D A IMM32 V. -/
theorem test_decode_special :
    reads (top 0x18 ++ 4#8 ++ 0#8 ++ 0xFFFFFFFE#32 ++ 1#1)
      (.moviI64 ⟨al, 4, 0, 0xFFFFFFFE, 1⟩) = true ∧
    reads (top 0x1F ++ 6#8 ++ 0#8 ++ 0x113#32 ++ 0#1)
      (.mrd ⟨al, 6, 0, 0x113, 0⟩) = true ∧
    reads (top 0x1F ++ 0#8 ++ 9#8 ++ 0x009#32 ++ 1#1)
      (.mwr ⟨al, 0, 9, 9, 1⟩) = true ∧
    reads (top 0x35 ++ 0#8 ++ 0#8 ++ 0x00030001#32 ++ 1#1)
      (.setfmtM ⟨al, 0, 0, 0x00030001, 1⟩) = true := by decide

/-- Floating point, conversion, packed, dots, predicates. -/
theorem test_decode_float :
    reads (top 0x22 ++ 1#8 ++ 2#8 ++ 3#8 ++ 4#8 ++ 5#3 ++ 0#1 ++ 0#1 ++ 1#1 ++ 0#1 ++ 0#1 ++ 1#1 ++ 0#1 ++ 0#4 ++ 2#3)
      (.ffma ⟨al, 1, 2, 3, 4, 0x292, 0, 2⟩) = true ∧
    reads (top 0x2C ++ 1#8 ++ 2#8 ++ 3#8 ++ 0#8 ++ 1#3 ++ 0#7 ++ 1#4 ++ 0#3)
      (.hop2Mul ⟨al, 1, 2, 3, 0, 0x080, 1, 0⟩) = true ∧
    reads (top 0x2D ++ 1#8 ++ 2#8 ++ 0#8 ++ 0x12#8 ++ 0#10 ++ 1#4 ++ 0#3)
      (.cvt ⟨al, 1, 2, 0, 0x12, 0, 1, 0⟩) = true ∧
    reads (top 0x38 ++ 1#8 ++ 2#8 ++ 8#8 ++ 0#8 ++ 0#10 ++ 8#4 ++ 0#3)
      (.vscan ⟨al, 1, 2, 8, 0, 0, 8, 0⟩) = true ∧
    reads (top 0x41 ++ 5#8 ++ 70#8 ++ 0#8 ++ 0#8 ++ 0#10 ++ 15#4 ++ 4#3)
      (.pmov ⟨al, 5, 70, 0, 0, 0, 15, 4⟩) = true := by decide

/-- FB: TOFF32 JOFF16 DH; FS: D A IMM16 zeros minor; the headers of R96; the halves of R90. -/
theorem test_decode_control :
    reads (top 0x42 p0 ++ 0xFFFFFFFC#32 ++ 9#16 ++ 1#1)
      (.bra ⟨p0, 0xFFFFFFFC, 9, 1⟩) = true ∧
    reads (top 0x45 ++ 0#8 ++ 252#8 ++ 0#16 ++ 0#10 ++ 0#7)
      (.ret ⟨al, 0, 252, 0, 0, 0⟩) = true ∧
    reads (top 0x48 ++ 0#8 ++ 0#8 ++ 3#32 ++ 0#1)
      (.rolejmp ⟨al, 0, 0, 3, 0⟩) = true ∧
    reads (top 0x78 ++ 0#8 ++ 0#8 ++ 0xABCD#16 ++ 0#10 ++ 0#7)
      (.softwareTrap ⟨al, 0, 0, 0xABCD, 0, 0⟩) = true ∧
    reads (top 0x7A ++ 0#8 ++ 0#8 ++ 0#16 ++ 0#10 ++ 1#7)
      (.sretPass ⟨al, 0, 0, 0, 0, 1⟩) = true ∧
    reads (0#1 ++ 0x7F#7 ++ 14#4 ++ 0x801#12 ++ 3#4 ++ 15#4 ++ 1#1 ++ 0#1 ++ 0#30)
      (.clauseHeader ⟨14, 0x801, 3, 15, true, false, 0⟩) = true ∧
    reads (1#1 ++ (1#6 ++ 7#3 ++ 4#8 ++ 9#8 ++ 1#1 ++ 0#1 ++ 0#4) ++ (0x12#6 ++ 2#3 ++ 5#8 ++ 0#8 ++ 0#1 ++ 0#1 ++ 11#4) ++ 0#1)
      (.pairedWord ⟨1, 7, 4, 9, true, false, 0⟩ ⟨0x12, 2, 5, 0, false, false, 11⟩ 0) = true := by decide

/-- FM: D base index OFF20 minor, with SIZE and MOD or a selector. -/
theorem test_decode_memory :
    reads (top 0x50 ++ 4#8 ++ 198#8 ++ 7#8 ++ 0xFFFF0#20 ++ 3#3 ++ 2#2)
      (.ld ⟨al, 4, 198, 7, 0xFFFF0, 0x0E⟩) = true ∧
    reads (top 0x56 ++ 255#8 ++ 2#8 ++ 8#8 ++ 16#20 ++ 0x0C#5)
      (.atom ⟨al, 255, 2, 8, 16, 0x0C⟩) = true ∧
    reads (top 0x59 ++ 1#8 ++ 2#8 ++ 3#8 ++ 0#20 ++ 2#3 ++ 2#2)
      (.confBank ⟨al, 1, 2, 3, 0, 0x0A⟩) = true ∧
    reads (top 0x5D ++ 1#8 ++ 196#8 ++ 3#8 ++ 100#20 ++ 2#3 ++ 2#2)
      (.gatherBnd ⟨al, 1, 196, 3, 100, 0x0A⟩) = true ∧
    reads (top 0x5B ++ 0#8 ++ 196#8 ++ 255#8 ++ 0#20 ++ 2#5)
      (.cachectlEvict ⟨al, 0, 196, 255, 0, 2⟩) = true ∧
    reads (top 0x5C ++ 0#8 ++ 0#8 ++ 0x0A#16 ++ 0#10 ++ 0#7)
      (.fence ⟨al, 0, 0, 0x0A, 0, 0⟩) = true := by decide

/-- Barriers, waits, copies, channels. -/
theorem test_decode_sync :
    reads (top 0x60 ++ 0#8 ++ 0#8 ++ (7#16 ++ 0#9 ++ 4#3 ++ 5#4) ++ 0#1)
      (.barRows ⟨al, 0, 0, 0x00070045, 0⟩) = true ∧
    reads (top 0x61 ++ 0#8 ++ 200#8 ++ 1#32 ++ 1#1)
      (.bwait ⟨al, 0, 200, 1, 1⟩) = true ∧
    reads (top 0x62 ++ 9#8 ++ 196#8 ++ 200#8 ++ 64#20 ++ 0#2 ++ 0#1 ++ 2#2)
      (.cpy ⟨al, 9, 196, 200, 64, 2⟩) = true ∧
    reads (top 0x64 ++ 0#8 ++ 0#8 ++ 255#8 ++ 1#20 ++ 3#5)
      (.sendClose ⟨al, 0, 0, 255, 1, 3⟩) = true ∧
    reads (top 0x66 ++ 200#8 ++ 202#8 ++ 204#8 ++ 0#20 ++ 1#5)
      (.mcastCluster ⟨al, 200, 202, 204, 0, 1⟩) = true := by decide

/-- FT: HD HA HB V8 S6 FLAG OPT minor; the sparse forms by OPT[1:0] (R208). -/
theorem test_decode_tiles :
    reads (top 0x6B ++ 3#6 ++ 0#6 ++ 0#6 ++ 9#8 ++ 4#6 ++ 2#4 ++ 1#2 ++ 0#4 ++ 1#7)
      (.tloadT ⟨al, 3, 0, 0, 9, 4, 2, 0x10, 1⟩) = true ∧
    reads (top 0x6C ++ 0#6 ++ 33#6 ++ 0#6 ++ 9#8 ++ 4#6 ++ 15#4 ++ 0#2 ++ 3#4 ++ 3#7)
      (.tstoreQ ⟨al, 0, 33, 0, 9, 4, 15, 3, 3⟩) = true ∧
    reads (top 0x6D ++ 32#6 ++ 1#6 ++ 2#6 ++ 8#8 ++ 0#6 ++ 15#4 ++ 3#6 ++ 0#7)
      (.mmaSab ⟨al, 32, 1, 2, 8, 0, 15, 3, 0⟩) = true ∧
    reads (top 0x6D ++ 32#6 ++ 1#6 ++ 2#6 ++ 0#8 ++ 6#6 ++ 0#4 ++ 0#6 ++ 1#7)
      (.mmaTeam ⟨al, 32, 1, 2, 0, 6, 0, 0, 1⟩) = true := by decide

/-- Traversal, splats, visibility, sections, launches, counters, clock. -/
theorem test_decode_system :
    reads (top 0x70 ++ 16#8 ++ 32#8 ++ 196#8 ++ 8#8 ++ 0#10 ++ 15#4 ++ 0#3)
      (.travStart ⟨al, 16, 32, 196, 8, 0, 15, 0⟩) = true ∧
    reads (top 0x72 ++ 4#8 ++ 196#8 ++ 8#8 ++ 0#20 ++ 1#5)
      (.skeyAt ⟨al, 4, 196, 8, 0, 1⟩) = true ∧
    reads (top 0x76 ++ 4#8 ++ 200#8 ++ 8#8 ++ 3#20 ++ 2#5)
      (.vbufAll ⟨al, 4, 200, 8, 3, 2⟩) = true ∧
    reads (top 0x77 ++ 0#8 ++ 0#8 ++ 0#16 ++ 0#10 ++ 1#7)
      (.rosecLeave ⟨al, 0, 0, 0, 0, 1⟩) = true ∧
    reads (top 0x7B ++ 255#8 ++ 196#8 ++ 255#8 ++ 128#20 ++ 1#5)
      (.launchDone ⟨al, 255, 196, 255, 128, 1⟩) = true ∧
    reads (top 0x7C ++ 0#8 ++ 9#8 ++ 0x52#32 ++ 0#1)
      (.cntCancel ⟨al, 0, 9, 0x52, 0⟩) = true ∧
    reads (top 0x7D ++ 0#8 ++ 10#8 ++ 0#8 ++ 0#8 ++ 0#10 ++ 14#4 ++ 1#3)
      (.clkUntil ⟨al, 0, 10, 0, 0, 0, 14, 1⟩) = true := by decide

/-- A clear reserved field, an unlisted minor and a set reserved bit of a nop are refused with their causes (R85, R88, R89). -/
theorem test_decode_refuses :
    refusedWith (top 0x7E ++ 0#49) 0x01 = true ∧ refusedWith (top 0x45 ++ 0#42 ++ 1#7) 0x01 = true ∧
    refusedWith (0#63 ++ 1#1) 0x02 = true ∧ refusedWith (top 0x47 ++ 1#8 ++ 0#41) 0x02 = true ∧
    refusedWith (0#1 ++ 0x7F#7 ++ 15#4 ++ 0#12 ++ 15#4 ++ 15#4 ++ 0#32) 0x04 = true := by decide

/-! ### Witnesses: the machine as a whole -/

/-- movi s11, 3; and a word of an unassigned major, a nop with a bit set, a header with a bit set, a header of sixteen words. -/
def wMovi : IWord := top 0x18 ++ 203#8 ++ 0#8 ++ 3#32 ++ 0#1
def wBad (k : Nat) : IWord :=
  if k = 0 then top 0x39 ++ 0#49 else if k = 1 then 1#64 else if k = 2 then 0#1 ++ 0x7F#7 ++ 0#16 ++ 0xF#4 ++ 0xF#4 ++ 1#32
  else 0#1 ++ 0x7F#7 ++ 15#4 ++ 0#12 ++ 0xF#4 ++ 0xF#4 ++ 0#32
def placed (x : IWord) : State := State.reset.withFetchWord 64 x.toNat

/-- The word placed is fetched, with no trap, breakpoint or join in its way: all that the statements on a fetched word suppose. -/
def fetchesPlaced (x : IWord) (slots : List Nat) : Bool :=
  let s := placed x
  let g := grpOf s
  let t := splitAt g 0
  let s1 := issueTick (tick s) 3
  let sf := fetchTouch s1 g t.pc
  decide (s.cur = some (3, 0)) && decide (grp s 3 = some g) && decide (tabFind g.splits 0 = some t) && !t.unread &&
    decide (dueTrap s1 3 0 g t = none) && (match fetch s1 g t.pc with | .word y => y == x | _ => false) &&
    decide (brkHit sf g t slots = none) && decide (joinCheck sf g t x = none) && !closing sf 3 && !closing (wordFetched s1 3 0) 3

theorem wit_StepRunsDecodedWord : fetchesPlaced wMovi (brkSlots wMovi) = true ∧ reads wMovi (.movi (fi 203 0 3)) = true := by decide

theorem wit_PlacedWordRuns : reads wMovi (.movi (fi 203 0 3)) = true := by decide

/-- The step that runs the word placed does what the word says: s11 becomes 3, the split is at the next word. -/
theorem test_step_placed : (match step (placed wMovi) with
    | .next t => decide (regGet (grpOf t) 203 0 = 3 ∧ (splitAt (grpOf t) 0).pc = 0x10008 ∧ t.cur = none)
    | _ => false) = true := by decide

theorem wit_DecodeEncode : WellFormed (.movi (fi 203 0 3)) = true ∧ encode (.movi (fi 203 0 3)) = some wMovi := by decide

theorem wit_DecodeTraps : ((List.range 4).all (fun k => !bit (wBad k) 63 && fetchesPlaced (wBad k) [0])) = true ∧
    (bits (wBad 0) 56 7 : BitVec 7) = 0x39 ∧ (bits (wBad 1) 56 7 : BitVec 7) = 0 ∧ wBad 1 ≠ 0 ∧ (bits (wBad 2) 56 7 : BitVec 7) = 0x7F ∧
    (bits (wBad 2) 0 30 : BitVec 30) ≠ 0 ∧ (bits (wBad 3) 56 7 : BitVec 7) = 0x7F ∧ (bits (wBad 3) 0 30 : BitVec 30) = 0 ∧
    (bits (wBad 3) 52 4 : BitVec 4) = 15 ∧ (bits (wBad 2) 52 4 : BitVec 4) ≠ 15 ∧ meets .nop base = true := by decide

theorem wit_StepKeepsMemoryCanonical : memWf (placed wMovi).mem = true ∧
    (match step (placed wMovi) with | .next _ => true | _ => false) = true := by decide

theorem wit_RegistersAndStart : lowBit 0x80000000#32 = some 31 ∧ 192 ≤ 254 := by decide

/-! ### Witnesses: words of the lanes -/

/-- Clauses of IntegerWords: every word, on its first type, on isad's four-element type and not. -/
theorem wit_IntegerWords : ([.iadd (fr 8), .isub (fr 12), .imul (fr 11), .iminmaxMin (fr 9), .iminmaxMax (fr 10 1), .imulhi (fr 8), .imad (fr 9),
    .imadw (fr 8), .isad (fr 8), .isad (fr 12)] : List Instr).all (fun i => meets i base) = true := by decide

theorem wit_LogicShiftsFields : ([.andB (fr 15 (mid := 0x28)), .orB (fr 15), .xorB (fr 15), .lop3 (fr 15 (mid := 0xFF)), .shl (fr 15), .shr (fr 9),
    .shr (fr 8), .shfR (fr 15), .shfL (fr 15 1), .bfx (fr 9), .bfx (fr 8), .bfi (fr 15), .popc (fr 15), .bitopClz (fr 15), .bitopCtz (fr 15 1),
    .bitopBrev (fr 15 2), .perm (fr 15)] : List Instr).all (fun i => meets i base) = true := by decide

/-- A word of each of these that decodes. -/
theorem wit_logicDecodes : ([.andB (fr 15 (mid := 0x28)), .orB (fr 15), .xorB (fr 15), .lop3 (fr 15 (mid := 0xFF)), .shl (fr 15), .shr (fr 9),
    .shr (fr 8), .shfR (fr 15), .shfL (fr 15 1), .bfx (fr 9), .bfx (fr 8), .bfi (fr 15), .popc (fr 15), .bitopClz (fr 15), .bitopCtz (fr 15 1),
    .bitopBrev (fr 15 2), .perm (fr 15)] : List Instr).all (fun i => match encode i with
      | some x => reads x i
      | none => false) = true := by decide

theorem wit_ComparesAndMoves : ([.icmp (fr 8 5), .sel (fr 15), .mov (fr 15), .mov (fr 0 (mid := 0x30)), .movi (fi 203), .moviI64 (fi 4 0 0xFFFFFFFF 1),
    .lea (fr 8 7), .add64 (fr 13), .add64 (fr 14 (mid := 0x40)), .add64Sub (fr 13 1), .add64Sub (fr 14 1 (mid := 0x40)),
    .cmp64 (fr 14 5)] : List Instr).all (fun i => meets i base) = true := by decide

theorem wit_ExchangesAndPredicates : ([.lanexIdx (fr 15 1), .shfl (fr 15 3 4 2 0 5), .voteBallot (fr 15), .voteAll (fr 15 1), .voteAny (fr 15 2),
    .voteUni (fr 15 3), .voteCount (fr 15 4), .plop (fr 15), .pmov (fr 15 4), .pmovPack (fr 15 0 4 0), .pmovPackhi (fr 15 1 4 0),
    .pmovUnpack (fr 15 2 0 4), .pmovUnpackhi (fr 15 3 0 4)] : List Instr).all (fun i => meets i base (fun c => c.act != 0)) = true ∧
    meets (.lanexFirst (fr 15 (g := p0))) (on (fun g => { g with p := [(0, 0x80000000)] })) (fun c => lowBit c.act == some 31) = true := by decide

/-- The group of `base` in its handler; and in the secure world, with region 0 locked or not and a core selected. -/
def sysS : State := on (fun g => { g with sys := true })
def worldS (lock : Bool) (core : BitVec 8) : State := { on (fun g => { g with sys := true, secure := true }) with
  rgns := [(0, { base := 0x10000, limit := 0x20000, lock := lock })], cwsel := core }
/-- mrd of each register named, mwr and setfmt of each outcome, CWORLD with and without a resident unit. -/
theorem wit_SpecialRegisters :
    ([0x00, 0x02, 0x05, 0x08, 0x09, 0x0B, 0x10, 0x13] : List (BitVec 32)).all (fun k => meets (.mrd (fi 4 0 k)) base
      (fun c => c.act != 0 && selCause c.g k.toNat false == none)) = true ∧
    meets (.mrd (fi 4 0 0x113)) base (fun c => c.act != 0 && selCause c.g 0x13 true == none) = true ∧
    meets (.mrd (fi 4 0 0x80)) base (fun c => c.act != 0 && !c.g.sys && !closing base c.gid) = true ∧
    ([(0x08, 0), (0x08, 0xF), (0x08, 0x4000), (0x09, 0x7F), (0x0A, 0x1F), (0x0B, 0xFFFFFFFF), (0x0C, 0), (0x0D, 0)] : List (BitVec 32 × Word)).all
      (fun x => meets (.mwr (fi 0 196 x.1 1)) (on (fun g => regSet g 196 0 x.2))
        (fun c => lowBit c.act == some 0 && srcW c.g 196 0 == x.2 && !c.g.sys && !closing base c.gid)) = true ∧
    ([(0x0F, 0x08000000), (0x0F, 0x1000), (0x0A, 0x20), (0x09, 0x80)] : List (BitVec 32 × Word)).all (fun x => meets (.mwr (fi 0 196 x.1 1))
      (on (fun g => regSet g 196 0 x.2)) (fun c => lowBit c.act == some 0 && srcW c.g 196 0 == x.2 && !closing base c.gid)) = true ∧
    ([0x80, 0x83, 0xC0] : List (BitVec 32)).all (fun k => meets (.mrd (fi 4 0 k)) (sysS) (fun c => c.act != 0 && c.g.sys && !c.g.secure &&
      decide (sysSelOk k.toNat = (k != 0x83)) && !closing (sysS) c.gid)) = true ∧
    ([(0x0C, 0xFFFF), (0x0D, 0xFFFFFFFF), (0x80, 0), (0x82, 1), (0x83, 0), (0x84, 7), (0x85, 0x300), (0x87, 0x1003), (0x85, 0x200), (0xC0, 0)] :
      List (BitVec 32 × Word)).all (fun x => meets (.mwr (fi 0 196 x.1 1)) (on (fun g => regSet g 196 0 x.2) (sysS))
        (fun c => lowBit c.act == some 0 && srcW c.g 196 0 == x.2 && c.g.sys && !c.g.secure && !closing (sysS) c.gid)) = true ∧
    meets (.mwr (fi 0 196 0x184 1)) (on (fun g => regSet g 197 0 0x01000000) (sysS)) (fun c => decide (2 ^ 56 ≤ (src2 c.g 196 0).toNat) &&
      (fi 0 196 0x184 1).pairForm && selCause c.g 0x84 true == none) = true ∧
    ([(0xC0, 63, false, 0), (0xC1, 0x10000, false, 0), (0xC2, 0x10000, false, 0), (0xC1, 0x10000, true, 0), (0xC3, 3, false, 0), (0xC3, 3, true, 0),
        (0xC4, 0xFF, false, 0), (0xC5, 1, false, 191), (0xC5, 1, false, 192)] : List (BitVec 32 × Word × Bool × BitVec 8)).all
      (fun x => let s := worldS x.2.2.1 x.2.2.2; meets (.mwr (fi 0 196 x.1 1)) (on (fun g => regSet g 196 0 x.2.1) s) (fun c => lowBit c.act == some 0 &&
        src c.g 196 0 == x.2.1.toNat && selCause c.g x.1.toNat false == none && (rgnOf s).lock == x.2.2.1 && s.cwsel == x.2.2.2 &&
        !closing s c.gid)) = true ∧
    fmtBad 0 = false ∧ fmtBad 0xF = true ∧
    ([(.setfmt (fi 0 0 0), false), (.setfmt (fi 0 0 0xF), true), (.setfmtM (fi 0 0 0x000F0000 1), false), (.setfmtM (fi 0 0 0x000F000F 1), true)] :
      List (Instr × Bool)).all (fun x => meets x.1 base (fun c => c.act != 0 && !closing base c.gid)) = true ∧
    tabFind { base with cworld := [(0, true)] }.cworld 0 = some true ∧ (∀ u, u ∈ base.units → u.2.core = 0 ∧ u.2.resident = true) ∧
    (∀ u, u ∈ (onU (fun u => { u with resident := false })).units → u.2.resident = false) := by decide

theorem wit_FloatWords : ([.fadd (fr 0 4), .fmul (fr 0 (mid := 0x380)), .ffma (fr 0 (mid := 0x3F)), .fscale (fr 0), .fminmax (fr 0 3), .fcmp (fr 0 7),
    .frnd (fr 0 4), .fclass (fr 2), .frcp (fr 0), .frsq (fr 0), .fsqrt (fr 0), .fex2 (fr 0), .flg2 (fr 0), .fsincos (fr 0), .fact (fr 0 0 4 2 6),
    .fdact (fr 0 0 4 2 0 6)] : List Instr).all (fun i => meets i base (fun c => c.g.fpen == 0)) = true := by decide

/-- With FPEN clear no flag traps, whatever it is. -/
theorem wit_noFpTrap (c : Go) (fl : Nat → FFlags) (h : c.g.fpen = 0) : NoFpTrap c fl := by
  intro l _ _; simp [h]

theorem wit_ConversionsAndReductions : ([.cvt (fr 1 0 4 2 0 0x10), .cvt (fr 0), .cvt (fr 13), .hop2Add (fr 1), .hop2Mul (fr 2 (mid := 0x080)),
    .hop2Fma (fr 1 (mid := 0x100)), .qscale (fr 3), .dp4 (fr 6), .dp8 (fr 7), .dp2 (fr 1), .vred (fr 8), .vred (fr 0), .vscan (fr 8 0 4 2 8),
    .vscan (fr 8)] : List Instr).all (fun i => meets i base (fun c => c.g.fpen == 0)) = true := by decide

/-- Infinity less infinity, infinity times zero, a comparison of a NaN, with FPEN.IV set: each raises an enabled flag in lane 31. -/
def fpenState : State := on (fun g => regSet (regSet { g with fpen := 0x1F } 2 31 0x7FC00001) 0 31 0x7FA00000)
theorem wit_FpTrapWritesNothing : closing fpenState 3 = false ∧
    ([.fadd (fr 0), .fmul (fr 0), .fcmp (fr 0 2)] : List Instr).all (fun i => meets i fpenState (fun c => c.act.getLsbD 31)) = true ∧
    (laneFadd .fp32 0 false .ne 0x7FC00001 0x7FA00000).2.setWidth 5 &&& 0x1F ≠ (0 : BitVec 5) ∧
    (laneFmul .fp32 0 false .ne 0x7FC00001 0x7FA00000).2.setWidth 5 &&& 0x1F ≠ (0 : BitVec 5) ∧
    (laneFcmp 2 0x7FC00001 0x7FA00000).2.setWidth 5 &&& 0x1F ≠ (0 : BitVec 5) := by decide

theorem wit_PairedWordsAndYield : meets .nop base = true ∧ meets (.yield (fs)) base = true ∧
    meets (.pairedWord ⟨1, 7, 4, 9, true, false, 0⟩ ⟨0x1D, 6, 5, 8, false, false, 6⟩ 0) base
      (fun c => brkHit base c.g c.t [2] == none && c.g.fpen == 0) = true := by decide

/-! ### Witnesses: control, roles, traps -/

/-- A header of one word, with REG; and `base` with such headers at 0x10008 and 0x10010. -/
def wHdr : IWord := 0#1 ++ 0x7F#7 ++ 0#16 ++ 0xF#4 ++ 0xF#4 ++ 1#1 ++ 0#31
def hdrs (s : State := base) : State := { s with mem := memWrite s.mem 0x10008 (bytesOf 8 wHdr ++ bytesOf 8 wHdr) }
def hdrAt (s : State) (g : Group) (pc : Double) : Bool :=
  decide (pc.toNat % 8 = 0) && (match fetch s g pc with | .word x => wordIsHeader x | _ => false)
theorem hdrAt_iff (s : State) (g : Group) (pc : Double) : hdrAt s g pc = true ↔ HeaderAt s g pc := by
  unfold hdrAt HeaderAt
  cases h : fetch s g pc with
  | word x => simp
  | _ => simp

/-- `base` at a header with flag 11 busy, with error, or idle. -/
def baseH (f : Flag := {}) : State := on (fun g => flagPut g 11 f) (placeProbe State.reset true)
def hdrAll (reg : Bool := false) : Header := ⟨0, 0xFFF, 15, 15, reg, false, 0⟩
/-- The split of `base` held, with completions counted. -/
def held (n : Nat) : State := { onT (fun t => { t with st := .held, heldAt := 1 }) with changes := n }

theorem wit_ClauseHeaders : ([false, true] : List Bool).all (fun r => meets (.clauseHeader (hdrAll r)) (baseH)
      (fun c => c.g.late == [] && !anyBusy c.g 0xFFF && firstErr c.g 0xFFF == none && !unchecked (baseH) c.gid)) = true ∧
    meets (.clauseHeader (hdrAll)) (baseH { cnt := 1 }) (fun c => c.g.late == [] && anyBusy c.g 0xFFF &&
      rayPage (baseH { cnt := 1 }) (whoOf c.g) c.gid 0xFFF == none) = true ∧
    meets (.clauseHeader (hdrAll)) (baseH { err := true, cause := 0x14 }) (fun c => c.g.late == [] && !anyBusy c.g 0xFFF &&
      firstErr c.g 0xFFF == some 11 && !closing (baseH) c.gid) = true ∧
    meets (.clauseHeader (hdrAll)) (on (fun g => { g with late := [(9, 0x13, 0x80000000, false)] }) (baseH)) (fun c =>
      lateFor c.g c.t.mask == some (9, 0x13) && !closing (baseH) c.gid) = true ∧
    ([1, 2] : List Nat).all (fun n => decide ((splitAt (grpOf (held n)) 0).st = .held ∧ (grp (held n) 3).isSome = true)) = true := by decide

def fb (toff : BitVec 32 := 1) (joff : BitVec 16 := 0) (dh : BitVec 1 := 0) (g : Guard := al) : FbWord := ⟨g, toff, joff, dh⟩
/-- s4, s5 hold 0x10008; v2, v3 of lanes 0–15 hold 0x10008, of the others 0x10010. -/
def tgts : State := hdrs (half (on (fun g => lanesSet (regSet g 196 0 0x10008) 2 lanes (fun l => if l < 16 then 0x10008 else 0x10010))))
def whole (c : Go) : Bool := decide (c.act = c.t.mask ∧ c.act ≠ 0)
def parted (c : Go) : Bool := decide (c.act ≠ 0 ∧ c.t.mask &&& ~~~c.act ≠ 0)
def none_ (c : Go) : Bool := decide (c.act = 0)

theorem wit_UniformTransfers :
    ([.bra (fb 1 0 0 nv), .brx (fr 15 0 0 2 0 255 0 nv), .call (fb 1 0 0 nv), .ret (fs 196 0 0 nv)] : List Instr).all (fun i => meets i tgts none_) = true ∧
    ([.bra (fb), .call (fb), .brx (fr 15 0 0 196 0 255), .ret (fs 196)] : List Instr).all (fun i => meets i tgts
      (fun c => whole c && hdrAt tgts c.g 0x10008 && src2 c.g 196 0 == 0x10008 && c.t.pc + 8 == 0x10008)) = true ∧
    ([.call (fb 1 0 0 p0), .ret (fs 196 0 0 p0)] : List Instr).all (fun i => meets i tgts (fun c => parted c && !closing tgts c.gid)) = true := by decide

/-- All four split identifiers in use. -/
def full4 : State := on (fun g => { g with splits := g.splits ++ [(1, {}), (2, {}), (3, {})] }) tgts
/-- The split of `base` inside a JOIN entry, with lanes and entries as given. -/
def joined (mask : Mask) (owner : Nat) (pc : Double) (more : Tab StackEntry) : State :=
  onT (fun t => { t with inner := some 0, mask := mask })
    (on (fun g => { g with stack := (0, { mask := 0xFFFFFFFF, pc := pc, owner := owner }) :: more, nextEid := 2, pathDue := [1] }))
def pathE : StackEntry := { join := false, mask := 0xFFFF0000, pc := 0x10008, link := some 0 }
def joinEntry (c : Go) : StackEntry := (entryOf c.g 0).getD {}
/-- A held split whose join entry is in block 0 of the spill area, the area on the mapped page with bytes as given. -/
def spilledAt (bs : List Byte) : State :=
  let s := onL (fun v => { v with pkt := { v.pkt with spillBase := 0x11000 } })
    (on (fun g => { mapSplit g 0 (fun t => { t with st := .held, inner := some 0 }) with
      stack := [(0, { pc := 0xFFF8, spilled := some 0 })], spills := [(0, 7)] }))
  { s with mem := memWrite (memWrite [] 0x10000 (bytesOf 8 (top 0x46 ++ 0#49))) 0x11000 bs }

/-- Clauses of the divergences and joins: an identifier free or not, DH, two targets; no entry, another's entry, its own, with the last path,
lanes still out, a waiting path, another owner; a path that may start. -/
theorem wit_DivergenceAndJoin :
    ([(fb 1 2 0 p0, tgts), (fb 1 2 1 p0, tgts), (fb 1 2 0 p0, full4)] : List (FbWord × State)).all (fun x => meets (.bra x.1) x.2
      (fun c => parted c && decide (c.g.stack.length ≤ 30) && hdrAt x.2 c.g 0x10008)) = true ∧
    freeId (grpOf tgts) = some 1 ∧ freeId (grpOf full4) = none ∧
    meets (.brx (fr 15 0 0 2 0 196)) tgts (fun c => whole c && hdrAt tgts c.g 0x10008 && hdrAt tgts c.g 0x10010 &&
      lanes.all (fun l => src2 c.g 2 l == (if l < 16 then 0x10008 else 0x10010))) = true ∧
    meets (.join (fs)) base (fun c => c.t.inner == none) = true ∧
    meets (.join (fs)) (joined 1 0 0x20000 []) (fun c => c.t.inner == some 0 && (joinEntry c).pc != c.t.hdr) = true ∧
    ([joined 0xFFFFFFFF 0 0xFFF8 [], joined 1 0 0xFFF8 [], joined 1 0 0xFFF8 [(1, pathE)], joined 1 1 0xFFF8 []] : List State).all (fun s =>
      meets (.join (fs)) s (fun c => c.t.inner == some 0 && (joinEntry c).pc == c.t.hdr && needsRefill false c.g c.sp == none)) = true ∧
    (let g := grpOf (joined 1 0 0xFFF8 [(1, pathE)]); pathsOf g 0 = [(1, pathE)] ∧ g.pathDue = [1] ∧
      (onChip g).find? (fun x => !x.2.join) = some (1, pathE)) := by decide

/-- Bytes outside those written read as before; the bytes written are read back. -/
theorem physRead_outside (s : State) (m : Memory) (a pa n : Nat) (bs : List Byte) (h : pa + n ≤ a ∨ a + bs.length ≤ pa) :
    physRead { s with mem := memWrite m a bs } pa n = physRead { s with mem := m } pa n := by
  unfold physRead
  refine List.map_congr_left fun i hi => ?_
  have hi : i < n := List.mem_range.mp hi
  have : ¬ (a ≤ pa + i ∧ pa + i < a + bs.length) := by omega
  have h2 : memByte (memWrite m a bs) (pa + i) = memByte m (pa + i) := by rw [Laws.memByte_write, if_neg this]
  show (if backed _ _ then _ else _) = (if backed _ _ then _ else _)
  exact congrArg (fun x => if backed s (pa + i) then x else 0) h2
theorem physRead_back (s : State) (m : Memory) (a : Nat) (bs : List Byte) (hb : a + bs.length ≤ hbmEnd) :
    physRead { s with mem := memWrite m a bs } a bs.length = bs := by
  refine List.ext_getElem (by simp [physRead]) fun i h1 h2 => ?_
  have h3 : a ≤ a + i ∧ a + i < a + bs.length := by omega
  have h4 : a + i < hbmEnd := by omega
  simp [physRead, physByte, backed, Laws.memByte_write, h4, h2]

/-- An address outside the window that a TLB entry covers. -/
theorem translate_tlb (s : State) (w : Who) (n : Need) (va : Double) (c : Context) (e : TlbEntry) (hv : ¬ 2 ^ 56 ≤ va.toNat)
    (hc : tabFind s.ctxs w.ctx = some c) (hw : va.toNat < c.tbase.toNat ∨ c.tbase.toNat + c.tlimit.toNat ≤ va.toNat) (ht : tlbFind s w va.toNat = some e) :
    translate s w n va = xlateLeaf s w n va.toNat e := by
  have h2 : ¬ (c.tbase.toNat ≤ va.toNat ∧ va.toNat < c.tbase.toNat + c.tlimit.toNat) := by omega
  simp only [Sys2Proof.Machine.translate, ge_iff_le, hv, hc, ht, h2, if_false]
theorem translate_base (s : State) (w : Who) (n : Need) (va : Double) (hx : s.ctxs = base.ctxs) (ht : s.tlb = base.tlb) (hr : s.rgns = [])
    (hw : w.ctx = 0) (hk : w.tlbs = coreTlbs 0) (hv : va.toNat / 65536 = 1) : translate s w n va = .ok va.toNat false := by
  obtain ⟨c, u, z, k⟩ := w
  subst hw hk
  let e : TlbEntry := ⟨0, 0x10000, 16, 0x10000, true, true, true, false, false, false, false, 0⟩
  rw [translate_tlb s _ n va { valid := true } e (by omega) (by rw [hx]; rfl) (.inr (by show 0 + 0 ≤ _; omega)) (by
    simp [tlbFind, tlbHas, tlbMaps, ht, base, placeProbe, coreTlbs, tabGet, tabFind, hv, e])]
  have h : 65536 + va.toNat % 65536 = va.toNat := by omega
  cases n <;> simp [xlateLeaf, leafDenied, secureAddr, hr, h, e]

/-- The refill's hypotheses, with the block as it was saved and with its first byte changed. -/
theorem wit_reconvRefill (bs : List Byte) (hl : bs.length = 128) : let s := spilledAt bs
    let g := grpOf s
    grp s 3 = some g ∧ refillDue s g 0 (splitAt g 0) = some 0 ∧ (splitAt g 0).st = .held ∧
    translate s (whoOf g) .read (spillAddr s g 0) = .ok 0x11000 false ∧ tabFind g.spills 0 = some 7 ∧ closing s 3 = false ∧
    (memLoad s 0x11000 128).1 = bs := by
  refine ⟨rfl, ?_, rfl, translate_base _ _ _ 0x11000 rfl rfl rfl rfl rfl (by decide), rfl, rfl, ?_⟩
  · have h : fetch (spilledAt bs) (grpOf (spilledAt bs)) (splitAt (grpOf (spilledAt bs)) 0).pc =
        .word (ofBytes 64 (physRead (spilledAt bs) 0x10000 8)) := by
      rw [show (splitAt (grpOf (spilledAt bs)) 0).pc = 0x10000 from rfl]
      unfold fetch; rw [translate_base (spilledAt bs) _ _ _ rfl rfl rfl rfl rfl (by decide)]; rfl
    unfold refillDue; rw [h]
    have h2 : physRead (spilledAt bs) 0x10000 8 = [0, 0, 0, 0, 0, 0, 0x7E, 0x46] := by
      unfold spilledAt; rw [physRead_outside _ _ _ _ _ _ (.inl (by decide))]; decide
    have h3 : decodeWord (ofBytes 64 [0, 0, 0, 0, 0, 0, 0x7E, 0x46]) = .ok (.join (fs)) := by rfl
    simp only [h2, h3]; rfl
  · have h := physRead_back (spilledAt bs) (memWrite [] 0x10000 (bytesOf 8 (top 0x46 ++ 0#49))) 0x11000 bs (by rw [hl]; decide)
    rw [hl] at h; exact h
theorem wit_reconvRefill_same : ((List.range 128).map (Config.spillByte 7)).length = 128 ∧
    ((List.range 128).map (fun i => ~~~Config.spillByte 7 i)).length = 128 ∧
    (List.range 128).map (fun i => ~~~Config.spillByte 7 i) ≠ (List.range 128).map (Config.spillByte 7) := by
  refine ⟨by simp, by simp, fun h => ?_⟩
  have h0 := congrArg (fun l => l[0]?) h
  have h1 : ~~~Config.spillByte 7 0 = Config.spillByte 7 0 := by simp at h0
  revert h1; generalize Config.spillByte 7 0 = x; revert x; decide
/-- Lane 0 alone in the split of `base`, inside a JOIN entry where the lanes `out` are still to arrive. -/
def leavingAt (owner : Nat) (out : Mask) (more : Tab StackEntry) : State :=
  on (fun g => { g with stack := (0, { mask := 0xFFFFFFFF, pc := 0xFFF8, owner := owner, arrived := 0xFFFFFFFE &&& ~~~out }) :: more })
    (joined 1 owner 0xFFF8 [])
/-- The group of `base` at its exit, its flags idle, in a unit with two groups left or one. -/
def exiting (n : Nat) : State := onU (fun u => { u with left := n }) (on (fun g => { g with st := .exiting 0x10000 0xFFFFFFFF }))
theorem wit_ExitEndsLanes : meets (.exit (fs (g := nv))) base none_ = true ∧
    meets (.exit (fs (g := p0))) (half) parted = true ∧
    meets (.exit (fs)) base (fun c => whole c && c.g.live &&& ~~~c.act == 0) = true ∧
    meets (.exit (fs)) (onT (fun t => { t with mask := 1 })) (fun c => whole c && c.g.live &&& ~~~c.act != 0 && c.t.inner == none) = true ∧
    ([(0, 0, [], true, false), (0, 2, [], false, false), (0, 0, [(1, pathE)], true, true), (1, 2, [], false, false), (1, 0, [(1, pathE)], true, true)] :
      List (Nat × Mask × Tab StackEntry × Bool × Bool)).all (fun x => meets (.exit (fs)) (leavingAt x.1 x.2.1 x.2.2.1) (fun c =>
        let g0 := dropLanes c.g c.sp c.act
        let e := (entryOf g0 0).getD {}
        whole c && c.g.live &&& ~~~c.act != 0 && c.t.inner == some 0 && e.owner == x.1 && needsRefill true g0 c.sp == none && e.mask != 0 &&
          decide (e.mask &&& ~~~e.arrived = 0) == x.2.2.2.1 && (pathsOf g0 0 != []) == x.2.2.2.2)) = true ∧
    ([1, 2] : List Nat).all (fun n => (List.range 12).all (fun i => (flagOf (grpOf (exiting n)) i).cnt == 0 &&
      !(flagOf (grpOf (exiting n)) i).err) && (grpOf (exiting n)).late == [] && opsOf (exiting n) 3 == [] &&
      (unitOf (exiting n) 2).left == n && (exiting n).jobs == []) = true ∧
    (let s : State := { exiting 1 with jobs := [(9, { kind := .bte 1 0, uid := 2 })] }
     s.jobs.all (fun e => jobOfUnit (grpOf s).uid e.2) && s.rays == []) = true := by decide

/-- Role 15 enters at 0x10008 with a window of 24; the group holds 1 granule of 24, or all, and a hint for role 15. -/
def roled (w : Nat) (n : Nat := 24) : State :=
  let s := onL (fun v => { v with pkt := { v.pkt with roles := List.replicate 15 (0, 0) ++ [(0x10008, 24)] } }) (hdrs)
  onU (fun u => { u with granules := [n, 0, 0, 0] }) (on (fun g => { g with w := w, role := 15, hint := 15, hintV := true }) s)
theorem wit_RolesAndWindows :
    ([.rolejmp (fi 0 0 15 0 nv), .rolejmpCur (fi 0 0 0 1 nv), .rswitch (fi 0 0 15 0 nv), .rswitchHint (fi 0 0 0 1 nv), .claim (fi 0 0 1 0 nv),
      .claimTry (fi 46 0 1 1 nv), .giveback (fi 0 0 1 0 nv)] : List Instr).all (fun i => meets i (roled 2) none_) = true ∧
    meets (.rswitchHint (fi 0 0 0 1)) base (fun c => !c.g.hintV && c.t.role == none) = true ∧
    meets (.rswitchHint (fi 0 0 0 1)) (onT (fun t => { t with role := some 15 }) (roled 1)) (fun c => whole c && c.t.role == some 15) = true ∧
    ([.rolejmp (fi 0 0 15), .rolejmpCur (fi 0 0 0 1), .rswitch (fi 0 0 15), .rswitchHint (fi 0 0 0 1)] : List Instr).all (fun i => meets i (roled 1)
      (fun c => whole c && c.g.role == 15 && c.g.hint == 15 && c.g.hintV && c.t.role == none && decide (c.g.splits.length ≤ 1) && c.g.stack == [] &&
        roleEntry (roled 1) c.g 15 == (0x10008, 24) && hdrAt (roled 1) c.g 0x10008 && regHeaderAt (fetchTouch (roled 1) c.g 0x10008) c.g 0x10008 &&
        !anyBusy c.g 0xFFF && firstErr c.g 0xFFF == none && batchesDone c.g && !unchecked (roled 1) c.gid &&
        decide (24 ≤ c.g.w + freeGranules (roled 1) c.g.uid c.g.quarter))) = true ∧
    ([.claim (fi 0 0 23), .claimTry (fi 46 0 23 1)] : List Instr).all (fun i => meets i (roled 1) (fun c => whole c && !unchecked (roled 1) c.gid &&
      decide (c.g.w + 23 ≤ 24 ∧ 23 ≤ (unitOf (roled 1) c.g.uid).granules.getD c.g.quarter 0 - c.g.w ∧
        23 ≤ freeGranules (roled 1) c.g.uid c.g.quarter))) = true ∧
    meets (.claim (fi 0 0 24)) (roled 1) (fun c => whole c && !closing (roled 1) c.gid && decide (24 < c.g.w + 24)) = true ∧
    meets (.claimTry (fi 46 0 23 1)) (roled 1 23) (fun c => whole c && decide (c.g.w + 23 ≤ 24 ∧
      freeGranules (roled 1 23) c.g.uid c.g.quarter < 23)) = true ∧
    meets (.giveback (fi 0 0 23)) (roled 24) (fun c => whole c && decide (23 < c.g.w) && (roled 24).ops == []) = true := by decide

/-- The device's own accesses of the context go to a window at 0x20000: the frames stand there. -/
def windowed (s : State) : State := mapCtx s 0 (fun x => { x with tbase := 0x20000, tlimit := 0x10000, toffset := 0x20000 })
/-- The same over the page at 0x10000 of `base`, which holds no transfer record. -/
def windowedLow (s : State) : State := mapCtx s 0 (fun x => { x with tbase := 0x10000, tlimit := 0x10000, toffset := 0x10000, recbase := 0x200000000000000 })
/-- An address in that window, for any agent. -/
theorem translate_window (s : State) (w : Who) (n : Need) (va : Double) (c : Context) (hc : tabFind s.ctxs w.ctx = some c)
    (h1 : c.tbase.toNat ≤ va.toNat) (h2 : va.toNat < c.tbase.toNat + c.tlimit.toNat) (hv : va.toNat < 2 ^ 56) (hn : n ≠ .fetch) (hr : s.rgns = []) :
    translate s w n va = .ok (c.toffset.toNat + (va.toNat - c.tbase.toNat)) false := by
  have h3 : ¬ va.toNat ≥ 2 ^ 56 := by omega
  simp only [Sys2Proof.Machine.translate, if_neg h3, hc, if_pos (And.intro h1 h2), if_neg hn]
  simp [secureAddr, hr]
/-- The trap frames of the context in the window; of the group a load is in flight, of this region or of one committed. -/
def trapping (sys : Bool) (epoch : Nat := 0) : State :=
  { windowed (mapCtx (on (fun g => { g with sys := sys, epoch := epoch })) 0 (fun x => { x with tfbase := 0x20000, tvec := 0x10000 })) with
    ops := [(9, { gid := 3, instr := .ld (fm) })] }
set_option maxRecDepth 4000 in
theorem wit_TrapsTaken :
    (let s := trapping false
     let d0 := discardRegion (settle { s with cur := none } 3) 3
     let d : State := { d0 with free := d0.free + 1 }
     let g := (grp d 3).getD {}
     (grpOf s).sys = false ∧ committedBusy s 3 (grpOf s) false = false ∧ portFails d 0x20000 = false ∧ (grp d 3).isSome = true ∧ (trapFrameAddr d g).toNat % 65536 = 0 ∧
     translate d (frameWho g) .write (trapFrameAddr d g) = .ok 0x20000 false ∧ backed d 0x20000 = true ∧ inAperture 0x20000 = false) ∧
    (let s := trapping false 1; (grpOf s).sys = false ∧ committedBusy s 3 (grpOf s) false = true) ∧
    (grpOf (trapping true)).sys = true := by decide +kernel

/-- A group in its handler whose frame stands at 0x20000 with its checkpoint block, resumed at a header at 0x1C000. -/
def inHandler : State :=
  let s := windowed (on (fun g => { g with sys := true, tframe := 0x20000, frameCkpt := some (7, { rclause := 0x1C000 }), trap := some { cause := 0x14 } }))
  { s with mem := memWrite (memWrite [] 0x1C000 (bytesOf 8 wHdr)) 0x20700 (ckptBytes 7) }
theorem wit_returns : meets (.sret (fs)) base (fun c => !c.g.sys && !closing base c.gid) = true ∧
    ([.sret (fs), .sretPass (fs 0 0 1)] : List Instr).all (fun i => meets i inHandler (fun c => c.g.sys && !c.g.stopDue && !c.g.rosecDue &&
      c.g.kept == none && decide (c.g.w ≤ 24) && c.g.frameCkpt == some (7, { rclause := 0x1C000 }))) = true ∧
    wordIsHeader wHdr = true ∧ fetch inHandler (grpOf inHandler) 0x1C000 = .word wHdr ∧
    ∃ bs s1, vaRead inHandler (frameWho (grpOf inHandler)) 0x20000 0xB000 = .ok (bs, s1) ∧ (bs.drop 0x700).take 2304 = ckptBytes 7 ∧
      spillAbsent s1 { grpOf inHandler with sys := false, spills := [] } = none := by
  refine ⟨by decide, by decide, by decide, ?_, physRead inHandler 0x20000 0xB000, inHandler, ?_, ?_, rfl⟩
  · have ht : translate inHandler (whoOf (grpOf inHandler)) .fetch 0x1C000 = .ok 0x1C000 false := by
      rw [translate_tlb inHandler (whoOf (grpOf inHandler)) .fetch 0x1C000 ((tabFind inHandler.ctxs 0).getD {})
        ⟨0, 0x10000, 16, 0x10000, true, true, true, false, false, false, false, 0⟩ (by decide) rfl (.inl (by decide)) rfl]
      decide
    unfold fetch; rw [ht]
    show Fetch.word (ofBytes 64 (physRead inHandler 0x1C000 8)) = _
    unfold inHandler; rw [physRead_outside _ _ _ _ _ _ (.inl (by decide))]; decide
  · have h : translate inHandler (frameWho (grpOf inHandler)) .read 0x20000 = .ok 0x20000 false :=
      translate_window _ _ _ _ ((tabFind inHandler.ctxs 0).getD {}) rfl (by decide) (by decide) (by decide) (by decide) rfl
    have hm : memTouch inHandler 0x20000 0xB000 = inHandler := by
      simp only [memTouch, countUnbacked]
      rw [if_pos (by decide)]; rfl
    have h2 : translate inHandler (frameWho (grpOf inHandler)) .read 131072#64 = .ok 0x20000 false := h
    have hw : walkFold inHandler (frameWho (grpOf inHandler)) 131072#64 = inHandler := by
      unfold walkFold; rw [if_pos (by decide)]
    have hp : isPoison inHandler .mem 0 131072 45056 = false := by decide
    unfold vaRead
    simp [h2, hw, hp, memLoad, show memTouch inHandler 131072 45056 = inHandler from hm]
  · have hl : (ckptBytes 7).length = 2304 := by simp [ckptBytes]
    have h := physRead_back inHandler (memWrite [] 0x1C000 (bytesOf 8 wHdr)) 0x20700 (ckptBytes 7) (by rw [hl]; decide)
    rw [hl] at h
    refine Eq.trans ?_ h
    refine List.ext_getElem (by simp [physRead]) fun i h1 h2 => ?_
    simp only [physRead, List.getElem_take, List.getElem_drop, List.getElem_map, List.getElem_range]
    show physByte inHandler (0x20000 + (0x700 + i)) = physByte inHandler (0x20700 + i)
    rw [show 0x20000 + (0x700 + i) = 0x20700 + i by omega]

theorem wit_TrapsReturned : ([.softwareTrap (fs (g := nv))] : List Instr).all (fun i => meets i base none_) = true ∧
    meets (.softwareTrap (fs 0 0xFFFF)) base (fun c => whole c && !unchecked base c.gid && !closing base c.gid) = true ∧
    ([.brkSet (fs 196 3), .brkClr (fs 0 3 1)] : List Instr).all (fun i => meets i (trapping true) (fun c => c.g.sys && src2 c.g 196 0 == 0)) = true ∧
    ([.brkSet (fs 196 3), .brkClr (fs 0 3 1)] : List Instr).all (fun i => meets i base (fun c => !c.g.sys && !closing base c.gid)) = true ∧
    meets (.brkSet (fs 196 3)) (on (fun g => regSet g 196 0 7) (trapping true)) (fun c => c.g.sys && (src2 c.g 196 0).toNat % 8 != 0 &&
      !closing base c.gid) = true := by decide

/-- The split of `base` asleep at its word. -/
def sleeping (x : Sleep) (i : Instr) (s : State := base) : State := onT (fun t => { t with st := .asleep x, sleeps := some (i, 1) }) s
def asleepAt (x : Sleep) (i : Instr) (s : State := base) : Bool :=
  let t := splitAt (grpOf (sleeping x i s)) 0
  t.st == .asleep x && t.sleeps == some (i, 1) && (grpOf (sleeping x i s)).st == .running && !unchecked s 3 && !closing s 3
def clkAt (n : Double) : State := { on (fun g => regSet g 196 0 5) with clk := n }
/-- Another group, whose bracketed split allows CLK 4, and data of the group's lds still to come; the channel of the launch as given. -/
def bracketed : State := { on (fun g => { g with dataAt := 9 }) with clk := 5, groups := base.groups ++ [(7, { bracket := some (0, 4), splits := [(0, {})] })] }
def chanW (ch : Channel) : State := { onL (fun v => { v with chans := [(0, ch)] }) with ops := [(2, { gid := 3, instr := .recv (fm 4 0 255 0 0), engine := true, done := true })] }
theorem wit_ClocksAndSleepers :
    ([base, bracketed] : List State).all (fun s => meets (.clkRd (fr 14 0 4 0)) s (fun c => whole c && !anyBusy c.g 0xFFF && opsOf s c.gid == [])) =
      true ∧
    meets (.clkRd (fr 14 0 4 0 (g := nv))) base none_ = true ∧
    meets (.clkRd (fr 14 0 4 0)) (on (fun g => flagPut g 11 { cnt := 1 })) (fun c => whole c && anyBusy c.g 0xFFF) = true ∧
    meets (.clkUntil (fr 14 1 0 196 0 0 0 nv)) base none_ = true ∧
    meets (.clkUntil (fr 14 1 0 196)) (clkAt 5) (fun c => lowBit c.act == some 0 && decide ((src2 c.g 196 0).toNat ≤ 5)) = true ∧
    meets (.clkUntil (fr 14 1 0 196)) (clkAt 4) (fun c => lowBit c.act == some 0 && decide (4 < (src2 c.g 196 0).toNat)) = true ∧
    ([(.clk 5, .clkUntil (fr 14 1 0 196)), (.phase 15 0, .barSync (fi 0 0 15)), (.phase 15 1, .barWait (fi 0 0 0x2F)), (.count 1, .cntWait (fi)),
      (.room 0, .send (fm 4 0 255 0 0)), (.recv 0 2, .recv (fm 4 0 255 0 0)), (.granules (24 + 0), .claim (fi)), (.granules 25, .claim (fi 0 0 1)),
      (.join 0, .join (fs))] : List (Sleep × Instr)).all (fun x => asleepAt x.1 x.2) = true ∧
    (barOf (unitOf base 2) 15).seq = 0 ∧ (tabFind base.levels 1).map (fun v => v.done) = some false ∧
    (tabFind (onL (fun v => { v with done := true })).levels 1).map (fun v => v.done) = some true ∧
    ([({ slots := 1, closed := false } : Channel), { slots := 1, closed := false, queue := [([], [])], waiting := [2] }, { closed := true }]).all (fun ch =>
      chanOf (chanW ch) (grpOf base).lid 0 == ch && (tabFind (chanW ch).levels 1).isSome && (tabFind (chanW ch).ops 2).isSome &&
      !unchecked (chanW ch) 3 && !accessPending (chanW ch) 3 && ((tabFind (chanW ch).ops 2).getD {}).rel == false && !closing (chanW ch) 3) = true ∧
    (grpOf base).w + freeGranules base 2 0 = 24 ∧ (List.range 4).all (fun q => decide (freeGranules base 2 q < 25)) = true := by decide +kernel

/-! ### Witnesses: memory and synchronisation -/

/-- The statements' hypotheses on a word's addresses, as a test can decide them. -/
def reachesB (s : State) (c : Go) (need watch : Need) (n : Nat) (addr : Nat → Double) (pa : Nat → Nat) (priv : Nat → Bool) : Bool :=
  lanes.all (fun l => !c.act.getLsbD l || (decide ((addr l).toNat % n = 0) && translate s (whoOf c.g) need (addr l) == .ok (pa l) (priv l) &&
    [0, 1].all (fun k => !watchMatch (ctxOf s c.g.ctx) k watch n (addr l))))
theorem reaches_of (s : State) (c : Go) (need watch : Need) (n : Nat) (addr : Nat → Double) (pa : Nat → Nat) (priv : Nat → Bool)
    (h : reachesB s c need watch n addr pa priv = true) : Reaches s c need watch n addr pa priv := by
  simp only [reachesB, List.all_eq_true, Bool.or_eq_true, Bool.not_eq_true', Bool.and_eq_true, decide_eq_true_eq, beq_iff_eq] at h
  have h2 : ∀ l, l < 32 → c.act.getLsbD l = true → _ := fun l hl ha => (h l (by simp [lanes, hl])).resolve_left (by simp [ha])
  refine ⟨fun l hl ha => (h2 l hl ha).1.1, fun l hl ha => (h2 l hl ha).1.2, fun k l hk hl ha => (h2 l hl ha).2 k ?_⟩
  have : k = 0 ∨ k = 1 := by omega
  simpa using this
def holdsB (s : State) (c : Go) (vault : Bool) (n : Nat) (addr : Nat → Double) (uid off : Nat → Nat) : Bool :=
  lanes.all (fun l => !c.act.getLsbD l || (decide ((addr l).toNat % n = 0) && (tabFind s.units (uid l)).isSome &&
    !isPoison s (spaceStore vault) (uid l) (off l) n &&
    (match placeOf (if vault then 22 else 18) (if vault then (unitOf s c.g.uid).vaultSize else (unitOf s c.g.uid).scratchSize) n (addr l) with
      | some p => placeUnit s c.g vault p == some (uid l) && p.off == off l
      | none => false)))
theorem holds_of (s : State) (c : Go) (vault : Bool) (n : Nat) (addr : Nat → Double) (uid off : Nat → Nat)
    (h : holdsB s c vault n addr uid off = true) : Holds s c vault n addr uid off := by
  simp only [holdsB, List.all_eq_true, Bool.or_eq_true, Bool.not_eq_true', Bool.and_eq_true, decide_eq_true_eq] at h
  have h2 : ∀ l, l < 32 → c.act.getLsbD l = true → _ := fun l hl ha => (h l (by simp [lanes, hl])).resolve_left (by simp [ha])
  refine ⟨fun l hl ha => (h2 l hl ha).1.1.1, fun l hl ha => ?_, fun l hl ha => (h2 l hl ha).1.1.2, fun l hl ha => (h2 l hl ha).1.2⟩
  have h3 := (h2 l hl ha).2
  split at h3
  · next p hp => exact ⟨p, hp, by simpa using h3⟩
  · cases h3
def clearB (s : State) : Bool := s.races == [] && s.scopes == [] && s.trough == [] && s.poison == [] && s.t2down == []
theorem clear_of (s : State) (h : clearB s = true) : Clear s := by
  simp only [clearB, Bool.and_eq_true, beq_iff_eq] at h
  exact ⟨h.1.1.1.1, h.1.1.1.2, h.1.1.2, h.1.2, h.2⟩

/-- s4, s5 hold 0x10000, v8 holds 4 × lane; a scratchpad and a vault of 128 bytes; the clause's first flag is 3. p0 holds in lane 31. -/
def memS (priv : Bool := false) : State :=
  let s := onU (fun u => { u with scratchSize := 128, vaultSize := 128 })
    (on (fun g => lanesSet (regSet { mapSplit g 0 (fun t => { t with set1 := 3 }) with p := [(0, 0x80000000)] } 196 0 0x10000) 8 lanes
      (fun l => BitVec.ofNat 32 (4 * l))))
  { s with tlb := s.tlb.map (fun e => (e.1, e.2.map (fun x => { x with priv := priv }))) }
def addrOf (c : Go) (w : FmWord) (l : Nat) : Double := src2 c.g w.base l + (srcW c.g w.idx l).signExtend 64 + w.off.signExtend 64
def flatOf (c : Go) (w : FmWord) (l : Nat) : Double := src2 c.g w.base l + 0 + w.off.signExtend 64
def issued (i : Instr) (s : State) : State := match exec i s with | .next t => t | _ => s
def fits (i : Instr) (s : State) (c : Go) : Bool := !flagFull i c && !unchecked s c.gid && !mustWait s c.gid true true

theorem wit_GlobalAccesses :
    ([.ld (fm (g := nv)), .gather (fm (g := nv)), .gatherBnd (fm 4 196 255 1 10 nv), .st (fm (g := nv)), .atom (fm 4 196 0 0 0 nv), .red (fm 4 196 8 0 0 nv)] :
      List Instr).all (fun i => meets i (memS) (fun c => none_ c && fits i (memS) c)) = true ∧
    ([(.ld (fm 4 196 8 0xFFFFC 8), fm 4 196 8 0xFFFFC 8), (.ld (fm 4 196 8 0 10), fm 4 196 8 0 10)] : List (Instr × FmWord)).all
      (fun x => meets x.1 (on (fun g => regSet g 196 0 0x10004) (memS)) (fun c => whole c && fits x.1 (memS) c &&
      reachesB (memS) c .read .read 4 (addrOf c x.2) (fun l => (if x.2.off = 0 then 0x10004 else 0x10000) + 4 * l) (fun _ => false))) = true ∧
    meets (.gather (fm 4 196 8)) (memS) (fun c => whole c && fits (.gather (fm 4 196 8)) (memS) c &&
      reachesB (memS) c .read .read 4 (fun l => src2 c.g 196 l + BitVec.ofNat 64 (4 * l * 4) + 0) (fun l => 0x10000 + 16 * l) (fun _ => false)) = true ∧
    meets (.gatherBnd (fm 4 196 8 125 10)) (memS) (fun c => whole c && lanes.all (fun l => decide ((srcW c.g 8 l).toNat < 125)) &&
      reachesB (memS) c .read .read 4 (fun l => src2 c.g 196 l + BitVec.ofNat 64 (4 * l * 4) + 0) (fun l => 0x10000 + 16 * l) (fun _ => false)) = true ∧
    meets (.gatherBnd (fm 4 196 8 124 10 p0)) (memS) (fun c => lowBit c.act == some 31 && !closing (memS) c.gid &&
      decide (124 ≤ (srcW c.g 8 31).toNat ∧ (src2 c.g 196 31 + BitVec.ofNat 64 ((srcW c.g 8 31).toNat * 4) + 0).toNat % 4 = 0)) = true ∧
    ([false, true] : List Bool).all (fun p => meets (.st (fm 4 196 8)) (memS p) (fun c => whole c && fits (.st (fm 4 196 8)) (memS p) c &&
      reachesB (memS p) c .write .write 4 (addrOf c (fm 4 196 8)) (fun l => 0x10000 + 4 * l) (fun _ => p))) = true ∧
    meets (.atom (fm 4 196 0 0 0x0D)) (memS) (fun c => whole c && fits (.atom (fm 4 196 0 0 0x0D)) (memS) c &&
      reachesB (memS) c .both .both 8 (flatOf c (fm 4 196 0 0 0x0D)) (fun _ => 0x10000) (fun _ => false)) = true ∧
    meets (.red (fm 4 196 8 0 0)) (memS) (fun c => whole c && fits (.red (fm 4 196 8 0 0)) (memS) c &&
      reachesB (memS) c .both .write 4 (addrOf c (fm 4 196 8)) (fun l => 0x10000 + 4 * l) (fun _ => false)) = true := by decide

/-- Lane l at byte 4·l of the unit's own allocation; lane 31's last byte is the allocation's last. -/
theorem wit_ScratchpadAndVault :
    ([.sts (fm 4 254 8 0 8 nv), .ldv (fm 4 254 8 0 8 nv), .stv (fm 4 254 8 0 8 nv), .atoms (fm 4 254 0 0 0 nv)] : List Instr).all (fun i => meets i (memS)
      (fun c => none_ c && fits i (memS) c)) = true ∧
    ([(.lds (fm 4 254 8), false), (.sts (fm 4 254 8), false), (.ldv (fm 4 254 8), true), (.ldv (fm 4 254 8 0 10), true), (.stv (fm 4 254 8), true)] :
      List (Instr × Bool)).all (fun x => meets x.1 (memS) (fun c => whole c && fits x.1 (memS) c &&
        holdsB (memS) c x.2 4 (addrOf c (fm 4 254 8)) (fun _ => 2) (fun l => 4 * l) && (memS).casts == [])) = true ∧
    ([0, 255] : List (BitVec 8)).all (fun d => meets (.atoms (fm d 254 0 124 0)) (memS) (fun c => whole c && fits (.atoms (fm d 254 0 124 0)) (memS) c &&
      holdsB (memS) c false 4 (flatOf c (fm d 254 0 124 0)) (fun _ => 2) (fun _ => 124))) = true := by decide

/-- Operation 4 of the group, as its word left it. -/
def opOf (s : State) : Op := (tabFind s.ops 4).getD {}
def performable (s : State) : Bool := (tabFind s.keys 4 == none) && (tabFind s.ops 4).isSome && mayPerform s 4 (opOf s) && (grp s (opOf s).gid).isSome &&
  clearB s && (opOf s).accs.all (fun a => backed s a.pa && !inAperture a.pa)
/-- The mapped page in the BTE aperture; v4, v5 hold a descriptor number. -/
def bteS (d : Word) : State := { on (fun g => regSet g 4 31 d) (memS) with
  tlb := [(0, [⟨0, 0x10000, 16, 0xF000000000000, true, true, false, false, false, false, false, 0⟩])] }
def bteIssued (d : Word) : State := issued (.st (fm 4 196 255 0 12 p0)) (bteS d)
theorem wit_OperationsPerform :
    ([.ld (fm 4 196 8), .gather (fm 4 196 8), .gatherBnd (fm 4 196 8 125 10)] : List Instr).all (fun i => performable (issued i (memS)) &&
      (opOf (issued i (memS))).closer == none) = true ∧
    ([.st (fm 4 196 8 0 8 p0), .st (fm 4 196 8), .atom (fm 4 196 0 0 0x0D p0)] : List Instr).all (fun i => performable (issued i (memS)) &&
      (opOf (issued i (memS))).instr == i && !merging i) = true ∧
    (opOf (issued (.st (fm 4 196 8 0 8 p0)) (memS))).accs.length = 1 ∧
    (let o := opOf (issued (.atom (fm 4 196 0 0 0x0D p0)) (memS)); o.accs.map (fun a => (a.lanes, a.n)) = [([31], 8)]) ∧
    (let s := issued (.red (fm 4 196 255 0 2)) (memS); performable s = true ∧ (opOf s).accs.length = 1 ∧ (opOf s).accs.all (fun a => a.lanes != []) = true) ∧
    ([4095, 4096] : List Word).all (fun d => let s := bteIssued d
      mayPerform s 4 (opOf s) && clearB s && !bteFull s (opOf s) && (opOf s).accs.map (fun a => (a.write, inAperture a.pa, bteOff a.pa, a.n,
        bits (a.data.headD 0) 0 64)) == [(true, true, 0, 8, d.setWidth 64)]) = true ∧
    ([0, 0x14] : List (BitVec 6)).all (fun e => let s := mapOp (issued (.ldv (fm 4 254 8 0 8 p0)) (memS)) 4 (fun o => { o with err := e })
      let o := opOf s
      o.done && !o.engine && o.flag == some 3 && o.flag2 == none && o.batch == none && o.err == e &&
        o.wrs.map (fun x => (x.f, x.lane)) == [(4, 31)] && !writesAnyway o.instr) = true := by decide

/-- A red of minor 2 at 0x10000 in flight, and the partial sums that its line holds already: one at its bytes, or one of another type that
shares them. -/
def troughS (ws : Tab (TroughTy × Double)) : State := { issued (.red (fm 4 196 255 0 2)) (memS) with trough := [(512, { ctx := 0, words := ws, stamp := 0 })] }
theorem walkFold_hit (s : State) (w : Who) (va : Double) (h : walksFor s w va = false) : walkFold s w va = s := by unfold walkFold; simp [h]
theorem wit_TroughMerges : ([([(0, troughTyOf 2, 5), (120, troughTyOf 0, 1)], true), ([(0, troughTyOf 1, 7)], false)] :
    List (Tab (TroughTy × Double) × Bool)).all (fun x => let s := troughS x.1
      let o := opOf s
      mayPerform s 4 o && (grp s o.gid).isSome && o.instr == .red (fm 4 196 255 0 2) && o.accs.length == 1 &&
        o.accs.all (fun a => a.pa == 0x10000 && a.lanes != [] && backed s a.pa && !inAperture a.pa && !walksFor s (whoOf (grpOf s)) a.va) &&
        s.races == [] && s.scopes == [] && s.poison == [] && s.t2down == [] && lineOf 0x10000 == 512 &&
        x.1.all (fun y => (y.1 == 0 && y.2.1 == troughTyOf 2) == x.2 || decide (0 + troughSize (troughTyOf 2) ≤ y.1)) &&
        backed s 0x10000 && !inAperture 0x10000) = true ∧ troughTyOf 2 ≠ troughTyOf 1 := by decide

theorem wit_ConstantLoadsAndCaches :
    ([.ldc (fm 4 196 255 0 8 nv), .cachectlPf (fm 0 196 8 0 0), .cachectlWb (fm 0 196 8 0 1 nv), .cachectlEvict (fm 0 196 8 0 2 nv),
      .cachectlCinv (fm 0 254 255 0 3 nv)] : List Instr).all (fun i => meets i (memS) (fits i (memS))) = true ∧
    meets (.ldc (fm 4 196 255 0 16 p0)) (memS) (fun c => fits (.ldc (fm 4 196 255 0 16 p0)) (memS) c && lowBit c.act == some 31 &&
      flatOf c (fm 4 196 255) 31 == 0x10000 && translate (memS) (whoOf c.g) .read 0x10000 == .ok 0x10000 false && backed (memS) 0x10000 && clearB (memS) &&
      [0, 1].all (fun j => !watchMatch (ctxOf (memS) c.g.ctx) j .read 16 0x10000) && ccFind (memS) c.g.core c.g.lid (lineOf 0x10000) == none) = true ∧
    ([(.cachectlWb (fm 0 196 8 0 1)), (.cachectlEvict (fm 0 196 8 0 2))] : List Instr).all (fun i => meets i (memS) (fun c => whole c && fits i (memS) c &&
      reachesB (memS) c .read .fetch 1 (addrOf c (fm 0 196 8)) (fun l => 0x10000 + 4 * l) (fun _ => false))) = true ∧
    meets (.cachectlCinv (fm 0 254 255 0 3)) (memS) (fun c => whole c && fits (.cachectlCinv (fm 0 254 255 0 3)) (memS) c) = true := by decide
theorem wit_conf :
    ([.confEq (fm 4 254 8 0 8), .confLt (fm 4 254 8 0 9), .confBank (fm 4 254 8 0 10)] : List Instr).all (fun i => meets i (memS)) = true := by decide
/-- A load of the group in flight. -/
def loading : State := { (memS) with ops := (issued (.ld (fm 4 196 8)) (memS)).ops }
theorem wit_fence : meets (.fence (fs 0 1 0 nv)) base none_ = true ∧
    ([6, 14, 22] : List (BitVec 16)).all (fun k => meets (.fence (fs 0 k)) base (fun c => whole c && !accessPending base c.gid)) = true ∧
    ([6, 14, 22] : List (BitVec 16)).map (fun k => decide (fenceKind (fs 0 k) = 1)) = [false, true, false] ∧
    ([6, 22] : List (BitVec 16)).all (fun k => meets (.fence (fs 0 k)) loading (fun c => whole c && accessPending loading c.gid)) = true := by decide
/-- Barrier 15 of the unit as given. -/
def barS (b : Barrier) : State := onU (fun u => { u with barriers := [(15, b)] })
def bar (op : BitVec 32) (hi : BitVec 32 := 0) (g : Guard := al) : FiWord := fi 0 0 (hi + op * 16 + 15) 0 g
def mayBar (s : State) (c : Go) : Bool := let b := barOf (unitOf s c.g.uid) 15
  whole c && decide (c.g.splits.length ≤ 1) && !bit b.arrived c.g.index && !b.rowMode && !accessPending s c.gid
def flagS (f : Flag) (n : Word := 0) (b : Batch := {}) : State :=
  on (fun g => { flagPut (regSet g 196 0 7) 11 f with bseq := n, batches := [(8, {}), (9, b)] })
theorem wit_BarriersAndBatches :
    ([.barSync (bar 0 0 nv), .barArrive (bar 1 0 nv), .barWait (bar 2 0 nv), .barInit (bar 3 0 nv), .barRows (bar 4 0x10000 nv), .fwait (fi 0 0 0xFFF 0 nv),
      .bwait (fi 0 196 0 1 nv), .cpybatch (fi 4 0 0 0 nv)] : List Instr).all (fun i => meets i base none_) = true ∧ (tabFind base.units 2).isSome = true ∧
    ([(({ part := 1 } : Barrier), true), ({ part := 2 }, false)]).all (fun x => [.barSync (bar 0), .barArrive (bar 1)].all (fun i => meets i (barS x.1)
      (fun c => mayBar (barS x.1) c && !c.t.waitHalf && decide (x.1.count + 1 = x.1.part) == x.2))) = true ∧
    ([{ arrived := 1 }, { rowMode := true }] : List Barrier).all (fun b => meets (.barArrive (bar 1)) (barS b) (fun c => whole c && !closing base c.gid)) = true ∧
    ([{}, { rowMode := true, complete := true }, { arrived := 1 }, { rowMode := true }] : List Barrier).all (fun b => meets (.barWait (bar 2)) (barS b)
      (fun c => whole c && c.g.index == 0)) = true ∧
    meets (.barInit (bar 3)) (barS { rowMode := true }) (fun c => whole c && !unchecked base c.gid && decide (0 + 1 ≤ (unitOf base 2).left)) = true ∧
    meets (.barRows (bar 4 0xFFFF0000)) (barS {}) (fun c => whole c && !unchecked base c.gid) = true ∧
    meets (.fwait (fi 0 0 0xFFF)) base (fun c => whole c && !anyBusy c.g 0xFFF && firstErr c.g 0xFFF == none) = true ∧
    meets (.fwait (fi 0 0 0x800)) (flagS { cnt := 63 }) (fun c => whole c && anyBusy c.g 0x800 && rayPage base (whoOf c.g) c.gid 0x800 == none) = true ∧
    meets (.fwait (fi 0 0 0xFFF)) (flagS { err := true }) (fun c => whole c && !anyBusy c.g 0xFFF && firstErr c.g 0xFFF == some 11) = true ∧
    meets (.bwait (fi 0 196 0xFFFFFFF9 1)) (flagS {}) (fun c => lowBit c.act == some 0 && srcW c.g 196 0 + 0xFFFFFFF9 == 0) = true ∧
    meets (.bwait (fi 0 196 2 1)) (flagS {} 9) (fun c => whole c && srcW c.g 196 0 + 2 == 9 && decide ((c.g.bseq - 9).toNat < 2 ^ 31) &&
      c.g.batches.all (fun e => e.2.pend == 0 && !e.2.err)) = true ∧
    ([({ pend := 1 } : Batch), { err := true, cause := 0x14 }]).all (fun b => meets (.bwait (fi 0 196 2 1)) (flagS {} 9 b) (fun c => lowBit c.act == some 0 &&
      srcW c.g 196 0 + 2 == 9 && decide ((c.g.bseq - 9).toNat < 2 ^ 31) && batchesTo c.g 9 == [(8, {}), (9, b)] && !closing (flagS {} 9 b) c.gid)) = true ∧
    meets (.bwait (fi 0 196 3 1)) (flagS {} 9) (fun c => whole c && srcW c.g 196 0 + 3 != 0 && decide (2 ^ 31 ≤ (c.g.bseq - 10).toNat)) = true ∧
    meets (.cpybatch (fi 4)) (flagS {} 0xFFFFFFFF) (fun c => whole c && decide ((c.g.batches.filter (fun b => b.2.pend != 0)).length < 16) &&
      !unchecked base c.gid) = true ∧
    meets (.rflush (fi 0 196 0 0 nv)) base none_ = true ∧
    ([4095 - 7, 4096 - 7] : List (BitVec 32)).all (fun k => meets (.rflush (fi 0 196 k)) (flagS {}) (fun c => lowBit c.act == some 0 &&
      !flagFull (.rflush (fi 0 196 k)) c && !accessPending base c.gid && (srcW c.g 196 0 + k == 4095 || srcW c.g 196 0 + k == 4096))) = true := by decide

/-- Channel 31 of the launch as given. -/
def chanS (ch : Channel) : State := onL (fun v => { v with chans := [(31, ch)] })
theorem wit_ChannelsKeepOrder :
    ([.send (fm 4 0 255 0 31 nv), .sendClose (fm 0 0 255 1 31 nv), .recv (fm 4 0 255 0 31 nv)] : List Instr).all (fun i => meets i base none_) = true ∧
    ([({ slots := 1, closed := false } : Channel), { slots := 1, closed := false, queue := [([], [])] }, { slots := 1, closed := false, queue := [([], [])], waiting := [2] },
      { closed := true }]).all (fun ch => [.send (fm 4 0 255 0 31), .recv (fm 4 0 255 0 31)].all (fun i => meets i (chanS ch) (fun c => whole c &&
        !flagFull i c && !unchecked (chanS ch) c.gid && !accessPending (chanS ch) c.gid && !closing (chanS ch) c.gid && chanOf (chanS ch) c.g.lid 31 == ch && (tabFind (chanS ch).levels c.g.lid).isSome))) = true ∧
    meets (.sendClose (fm 0 0 255 1 31)) (chanS { closed := false }) (fun c => whole c && !accessPending (chanS { closed := false }) c.gid &&
      !(chanOf (chanS { closed := false }) c.g.lid 31).closed) = true := by decide

/-- A linear copy of one row of 4 bytes (or an indexed one) between 0x10000 and the scratchpad's last bytes, and what its word leaves. -/
def cpyS (r : Word := 0x10004) : State := on (fun g => regSet (regSet g 200 0 r) 202 0 124) (memS)
def cpyW (dir : Bool) : FmWord := fm 0 196 200 0 (if dir then 4 else 0)
def cpyIn (dir : Bool) : State := issued (.cpy (cpyW dir)) (cpyS)
def copyOf (s : State) : Copy := (tabFind s.copies 5).getD { job := 0, core := 0, uid := 0, user := true, secure := false, dir := false, kind := 0, scope := 0, g := 0, o := 0, r := 0, step := 0 }
def copyReady (s : State) : Bool := let c := copyOf s
  (tabFind s.copies 5).isSome && !c.dead && (match tabFind s.jobs c.job with | some j => !j.heldR && !j.heldW | none => false) && mayRun s c &&
  (tabFind s.ops 5).isSome && (grp s ((tabFind s.ops 5).getD {}).gid).isSome && (tabFind s.units c.uid).isSome
def okRes {α : Type} (r : EngRes α) : Bool := match r with | .ok _ _ => true | _ => false
/-- The unit and another of the launch, near it. -/
def castS : State := onL (fun v => { v with pkt := { v.pkt with nUnits := 2 } }) (on (fun g => regSet g 200 0 64) { (memS) with units := tabPut (memS).units 6 { lid := 1, unit := 1, vaultSize := 128 } })
def casting : State := issued (.mcastCluster (fm 200 254 255 0 1)) castS

theorem wit_CopiesAndMulticasts : meets (.cpy (fm 0 196 200 0 0 nv)) (cpyS) none_ = true ∧
    ([false, true] : List Bool).all (fun d => meets (.cpy (cpyW d)) (cpyS) (fun c => whole c && !flagFull (.cpy (cpyW d)) c &&
      cpyFault (cpyS) c (cpyW d) (cfgOf c.g (cpyW d)) (src2 c.g 196 0 + 0) == none && decide (copiesHeld (cpyS) c.g.core < 16 ∧ jobsOf (cpyS) c.g.ctx < 1024) && !commandPending (cpyS) c.gid) &&
      copyReady (cpyIn d)) = true ∧
    meets (.cpy (cpyW false)) (cpyS 0x20004) (fun c => whole c && cpyFault (cpyS 0x20004) c (cpyW false) (cfgOf c.g (cpyW false)) (src2 c.g 196 0 + 0) ==
      some (0x15, some 128) && !closing (cpyS) c.gid) = true ∧
    (let s := cpyIn false; (copyOf s).left = [0] ∧ (copyOf s).dir = false ∧
      okRes (loadRow (mapCopy s 5 (fun c => { c with running := true })) (copyOf s) 0) = true) ∧
    (let s := cpyIn true; (copyOf s).left = [0] ∧ (copyOf s).dir = true ∧ (copyOf s).buf = [] ∧ isPoison s .scratch 2 (rowOff (copyOf s) 0) 4 = false ∧
      let r := mapCopy s 5 (fun c => { c with running := true, buf := [(0, [1, 2, 3, 4])] })
      tabFind (copyOf r).buf 0 = some [1, 2, 3, 4] ∧
      okRes (jobWrite r (copyOf s).job (copyWho r (copyOf r)) (some (clusterOf (copyOf r).core)) (rowVa (copyOf r) 0) [1, 2, 3, 4]) = true) ∧
    (let s := cpyIn true; let c := copyOf s
     mayRun { s with copies := s.copies ++ (List.range 4).map (fun k => (k + 10, { c with running := true })) } c = false) ∧
    copyReady (mapCopy (cpyIn false) 5 (fun c => { c with left := [] })) = true ∧ (grpOf (cpyIn false)).st = .running ∧
    (let s : State := { mapOp (cpyIn false) 5 (fun o => { o with flag := some 3, batch := none }) with tlb := [], ctxs := [(0, { valid := true, root := 0 })] }
     rowTurn (copyOf s) 0 = true ∧ rowFree s (copyOf s) = true ∧ ((rowFault s (copyOf s) 0).map (·.1)).getD 0 ≠ 0 ∧ ((tabFind s.ops 5).getD {}).flag2 = none) := by decide +kernel
theorem wit_multicasts :
    ([(.mcastTeam (fm 200 254 255 0 0 nv)), (.mcastCluster (fm 200 254 255 0 1 nv))] : List Instr).all (fun i => meets i castS none_) = true ∧
    ([(false, castS, false), (true, castS, false), (true, memS, true)] : List (Bool × State × Bool)).all (fun x => let w := fm 200 254 255 0 (if x.1 then 1 else 0)
      meets (if x.1 then .mcastCluster w else .mcastTeam w) x.2.1 (fun c => whole c && !mustWait x.2.1 c.gid false false && (unitOf x.2.1 c.g.uid).vaultSize == 128 &&
        !isPoison x.2.1 .vault c.g.uid 0 64 && (castTargets x.2.1 c x.1 == []) == x.2.2)) = true ∧
    (let x : Cast := (tabFind casting.casts 4).getD { bytes := [], landing := 0, lid := 0, left := [] }
     (tabFind casting.casts 4).isSome = true ∧ x.left = [1] ∧ earlierCast casting 4 1 x = false ∧
     earlierCast { casting with casts := (2, x) :: casting.casts, ops := (2, { gid := 3 }) :: casting.ops } 4 1 x = true) := by decide +kernel
/-! ### Witnesses: handles, tiles, matrices -/

def ft (hd ha hb : BitVec 6) (v8 : BitVec 8 := 0) (s6 : BitVec 6 := 0) (opt : BitVec 6 := 0) (minor : BitVec 7 := 0) (flag : BitVec 4 := 15) (g : Guard := al) : FtWord :=
  ⟨g, hd, ha, hb, v8, s6, flag, opt, minor⟩
/-- h1, h2, a0 are bound; s4–s7 hold 0x10000 and 0x11000, s10 the pitch; another group of the unit; FMT as given; 256 KiB less 4 of scratchpad. -/
def tileS (fmt : Word := 0x11) (p : Word := 64) : State :=
  let s := on (fun g => regSet (regSet (regSet (namePut (namePut (namePut (mapSplit { g with p := [(0, 0x80000000)] } 0 (fun t => { t with fmt := fmt })) 1
    { st := .bound, cslot := some (4, 0) }) 2 { st := .bound, cslot := some (6, 0) }) 32 { st := .bound, cslot := some (1, 0) }) 196 0 0x10000) 198 0 0x11000) 202 0 p)
    (onU (fun u => { u with opool := [5, 7], apool := [2], olimit := 32, alimit := 32, scratchSize := 0x20000, left := 2 }))
  { s with groups := tabPut s.groups 9 { uid := 2, lid := 1, index := 1 }, mem := memWrite s.mem 0x10000 [0xFF, 0xFF] }

def readyNames (i : Instr) (s : State) (c : Go) (names : List (Nat × Option Bool)) (rds wrs : List Nat) (chain : Instr → Bool) : Bool :=
  !flagFull i c && decide (c.act ≠ 0) && namesBad s c.g names == none && !namesBusy s c.gid rds wrs chain && !closerPending s c.gid
theorem readyNames_of (i : Instr) (s : State) (c : Go) (names : List (Nat × Option Bool)) (rds wrs : List Nat) (chain : Instr → Bool)
    (h : readyNames i s c names rds wrs chain = true) : NamesReady i s c names rds wrs chain := by
  simp only [readyNames, Bool.and_eq_true, Bool.not_eq_true', decide_eq_true_eq, beq_iff_eq] at h
  exact ⟨h.1.1.1.1, h.1.1.1.2, h.1.1.2, h.1.2, h.2⟩
def readySpots (s : State) (c : Go) (space : Nat) (wr : Bool) (rows : List (Double × Nat)) : Bool :=
  clearB s && [0, 1].all (fun k => (tabGet 0x300 (ctxOf s c.g.ctx).wctl k).setWidth 2 == (0 : BitVec 2)) &&
  match spotsOf s c space (if wr then .write else .read) (partsOf rows) [] with
  | .ok xs => xs.all (fun x => !spotPoison s x && !spotWaits s c.gid x && match x with | .mem _ pa _ _ => backed s pa && !inAperture pa | .sp .. => true)
  | _ => false
theorem readySpots_of (s : State) (c : Go) (space : Nat) (wr : Bool) (rows : List (Double × Nat)) (h : readySpots s c space wr rows = true) :
    ∃ xs, SpotsReady s c space wr rows xs ∧ xs.any (spotPoison s) = false := by
  unfold readySpots at h
  simp only [Bool.and_eq_true] at h
  obtain ⟨⟨h1, h2⟩, h3⟩ := h
  split at h3
  · next xs hx =>
    simp only [List.all_eq_true, Bool.and_eq_true, Bool.not_eq_true'] at h3
    refine ⟨xs, ⟨hx, fun k hk => ?_, clear_of s h1, fun va pa n p hm => by simpa using (h3 _ hm).2, ?_⟩, ?_⟩
    · have : k = 0 ∨ k = 1 := by omega
      rcases this with rfl | rfl <;> simp_all
    · simpa using fun x hx => (h3 x hx).1.2
    · simpa using fun x hx => (h3 x hx).1.1
  · cases h3

theorem wit_HandleWords :
    ([.talloc (ft 0 0 0 (g := nv)), .tfree (ft 1 0 0 (g := nv)), .thand (ft 3 1 0 (g := nv))] : List Instr).all (fun i => meets i (tileS) none_) = true ∧
    ([0, 33] : List (BitVec 6)).all (fun h => meets (.talloc (ft h 0 0)) (tileS) (fun c => let u := unitOf (tileS) c.g.uid; let acc := isAccName h.toNat
      whole c && (nameOf c.g h.toNat).st == .free && !namesBusy (tileS) c.gid [h.toNat] [h.toNat] noChain && !closerPending (tileS) c.gid &&
      decide (boundNames (tileS) c.g.uid acc < (if acc then u.alimit else u.olimit)) && (if acc then u.apool else u.opool) != [])) = true ∧
    ([1, 32] : List (BitVec 6)).all (fun h => meets (.talloc (ft h 0 0)) (tileS) (fun c => whole c && (nameOf c.g h.toNat).st == .bound && !closing (tileS) c.gid) &&
      meets (.tfree (ft h 0 0)) (tileS) (fun c => whole c && !nameStale (tileS) c.g h.toNat && !namesBusy (tileS) c.gid [h.toNat] [h.toNat] noChain &&
        !unchecked (tileS) c.gid && (nameOf c.g h.toNat).cslot.isSome && (tabFind (tileS).units c.g.uid).isSome &&
        allNames.all (fun j => (nameOf c.g j).pslot == none && !(nameOf c.g j).isNew))) = true ∧
    meets (.tfree (ft 3 0 0)) (tileS) (fun c => whole c && nameStale (tileS) c.g 3 && !closing (tileS) c.gid) = true ∧
    meets (.thand (ft 3 1 0 0 8)) (on (fun g => regSet g 200 0 1) (tileS)) (fun c => let s := on (fun g => regSet g 200 0 1) (tileS)
      whole c && !nameStale s c.g 1 && decide ((regGet c.g 200 0).toNat = 1) && (match groupAt s c.g.uid 1 with
        | some (k, t) => k == 9 && grp s k == some t && t.st == .running && (nameOf t 3).st == .free
        | none => false) && !namesBusy s c.gid [1] [1] noChain && !unchecked s c.gid && (nameOf c.g 1).cslot == some (4, 0) &&
      allNames.all (fun j => (nameOf c.g j).pslot == none)) = true := by decide

/-- A tile word on h1 or a0 whose rows lie from 0x10000 on in global memory, or in the scratchpad. -/
def tileReady (i : Instr) (s : State) (space : Nat) (wr : Bool) (names : List (Nat × Option Bool)) (rows : Go → List (Double × Nat)) : Bool :=
  meets i s (fun c => readyNames i s c names (if wr then names.map (·.1) else []) (if wr then [] else names.map (·.1)) noChain && !pendingAcq s c.gid &&
    !unchecked s c.gid && names.all (fun n => !slotPoison s c.g n.1 && (writeTo s c.g n.1).isSome) && decide ((pairGet c.g 196 0).toNat % 16 = 0) &&
    readySpots s c space wr (rows c))
def rowsAt (p n : Nat) (ls : List Nat) : List (Double × Nat) := ls.map (fun r => (0x10000 + BitVec.ofNat 64 (r * p), n))
theorem wit_TilesMove_loads :
    tileReady (.tload (ft 1 0 0 202 4 7)) (tileS) 0 false [(1, none)] (fun _ => rowsAt 64 64 lanes) = true ∧
    tileReady (.tload (ft 1 0 0 202 4 0x11)) (tileS) 1 false [(1, none)] (fun _ => rowsAt 64 64 lanes) = true ∧
    tileReady (.tload (ft 32 0 0 202 4 2 0 15 p0)) (tileS) 0 false [(32, none)] (fun c => rowsAt 64 64 (lanesOf c.act)) = true ∧
    tileReady (.tload (ft 32 0 0 202 4 0)) (tileS) 0 false [(32, none)] (fun c => rowsAt 64 128 (lanesOf c.act)) = true ∧
    tileReady (.tloadT (ft 1 0 0 202 4 1 1)) (tileS) 0 false [(1, some false)] (fun _ => rowsAt 64 64 (List.range (fmtK 1))) = true ∧
    tileReady (.tloadSc (ft 1 0 0 0 4 0 2)) (tileS) 0 false [(1, some false)] (fun _ => [(0x10000, 128)]) = true := by decide +kernel
theorem wit_TilesMove_stores :
    tileReady (.tstore (ft 0 1 0 202 4 1)) (tileS) 0 true [(1, none)] (fun c => lanes.map (fun r =>
      (0x10000 + BitVec.ofNat 64 (r * 64), (((operandBytes (tileS) c.g.core 4).drop (64 * r)).take 64).length))) = true ∧
    tileReady (.tstore (ft 0 32 0 202 4 7)) (tileS) 0 true [(32, none)] (fun c => lanes.map (fun r => (0x10000 + BitVec.ofNat 64 (r * 64),
      (packCodes (fmtWidth 7) (lanes.map (fun j => (storeElem 7 false .ne (accElem (tileS) c.g.core 1 r j)).1))).length))) = true ∧
    tileReady (.tstoreT (ft 0 1 0 202 4 6 1)) (tileS) 0 true [(1, some false)] (fun _ => rowsAt 64 32 (List.range (fmtK 6))) = true ∧
    tileReady (.tstoreQ (ft 0 32 0 202 4 3 3)) (tileS) 0 true [(32, some true)] (fun _ => lanes.flatMap (fun r =>
      [(0x10000 + BitVec.ofNat 64 (r * 64), 32), (0x11000 + BitVec.ofNat 64 r, 1)])) = true ∧
    (bits (0x11#32) 8 2 : BitVec 2) = 0 ∧ backed (tileS) 0x10000 = true := by decide +kernel

def matReady (i : Instr) (s : State) (chain : Instr → Bool) : Bool :=
  meets i s (fun c => readyNames i s c [(32, some true), (1, some false), (2, some false)] [1, 2] [32] chain && !matFmtBad c.t.fmt && (writeTo s c.g 32).isSome &&
    [32, 1, 2].all (fun n => !slotPoison s c.g n))
/-- Four members of team 0 with tag 5, their FMTs as given, the last core's missing when n is 3. -/
def teamS (n : Nat) (f : Nat → Word) (clk : Double := 0) : State := { tileS with
  clk := clk, groups := (List.range 4).map (fun k => (20 + k, { uid := 2, lid := 1, core := k })),
  ops := (List.range n).map (fun k => (10 + k, { gid := 20 + k, lid := 1, instr := .mmaTeam (ft 32 1 2 0 4 0 1), engine := true, tag := 5, fmt := f k })) }
/-- The same four, each of a unit of its own with a0 bound, their regions open or committed. -/
def teamP (e : Nat) : State := { teamS 4 (fun _ => 0x11) with
  groups := (List.range 4).map (fun k => (20 + k, namePut { uid := 30 + k, lid := 1, core := k, epoch := e } 32 { st := .bound, cslot := some (1, 0) })),
  units := (List.range 4).map (fun k => (30 + k, { lid := 1, core := k, apool := [2] })) }
theorem wit_jointProducts : ([0, 1] : List Nat).all (fun e => let s := teamP e
    let ms := members s 0 5
    [0, 1, 2, 3].all (fun p => (memberAt s ms p).isSome) && ms.all (fun x => x.2.fmt == 0x11) && ms.map (·.1) == [10, 11, 12, 13] &&
      (s.groups.map (fun x => (x.2.core, x.2.uid)) == [(0, 30), (1, 31), (2, 32), (3, 33)]) && ms.all (fun x => match grp s x.2.gid with
        | some g => isAccName 32 && (curSlot (nameOf g 32)).isSome && x.2.instr == .mmaTeam (ft 32 1 2 0 4 0 1) &&
            (if x.2.epoch < g.epoch then e == 1 else (writeTo s g 32 == some 2))
        | none => false)) = true := by decide +kernel
theorem wit_MatrixProducts :
    ([.mma (ft 32 1 2), .mmaSa (ft 32 1 2 8 0 1), .mmaSb (ft 32 1 2 8 0 2), .mmaSab (ft 32 1 2 8 0 3)] : List Instr).all (fun i => matReady i (tileS) chainsFwd) = true ∧
    ([.mmbDa (ft 32 1 2), .mmbDb (ft 32 1 2 0 0 0 1)] : List Instr).all (fun i => matReady i (tileS) chainsBwd) = true ∧ 0 < 512 / matWidth (fmtA 0x11) / 32 ∧
    meets (.mma (ft 32 1 2)) (tileS 0x01) (fun c => whole c && !flagFull (.mma (ft 32 1 2)) c && matFmtBad c.t.fmt && !closing (tileS) c.gid &&
      namesBad (tileS) c.g [(32, some true), (1, some false), (2, some false)] == none) = true ∧
    (let s := on (fun g => regSet (regSet g 198 0 0) 199 0 (0x07C00001)) (tileS 0x18)
     meets (.svr (ft 32 0 0 0 4)) s (fun c => readyNames (.svr (ft 32 0 0 0 4)) s c [(32, some true)] [] [32] noChain && !unchecked s c.gid &&
       fmtA c.t.fmt == 8 && fmtB c.t.fmt == 1 && decide ((regGet c.g 199 0).toNat / 2 ^ 22 % 32 + ((regGet c.g 199 0).toNat / 2 ^ 27 + 1) = 32) &&
       clearB s && (writeTo s c.g 32).isSome && decide (64 * ((regGet c.g 199 0).toNat % 2 ^ 17) ≤ (unitOf s c.g.uid).scratchSize) &&
       (match streamRows s c (partyOf s c.gid c.g) 1 1 0x10000 [] [] with | .ok (rows, fin, ts) => rows == [[]] && fin == 0x10002 && ts.all (fun t => backed s t.pa) | _ => false)) = true) ∧
    meets (.mmaTeam (ft 32 1 2 0 4 0 1 15 nv)) (tileS) none_ = true ∧
    (let s := onL (fun v => { v with pkt := { v.pkt with teamop := true } }) (tileS)
     matReady (.mmaTeam (ft 32 1 2 0 4 0 1)) s noChain = true ∧ members s 0 0 = [] ∧ (pktOf s (grpOf s)).teamop = true) ∧
    ([(0 : Nat), 1, 2, 3]).all (fun p => (memberAt (teamS 4 (fun _ => 0x11)) (members (teamS 4 (fun _ => 0x11)) 0 5) p).isSome) = true ∧
    (members (teamS 4 (fun k => if k = 3 then 0x12 else 0x11)) 0 5).map (fun e => e.2.fmt) = [0x11, 0x11, 0x11, 0x12] ∧
    (let s := teamS 3 (fun _ => 0x11) 100000
     (memberAt s (members s 0 5) 3).isSome = false ∧ (members s 0 5).any (fun e => decide (1000 * (levelOf s e.2.lid).pkt.wdog ≤ (s.clk - e.2.at_).toNat)) = true) := by
  decide +kernel

/-! ### Witnesses: rays, splats, visibility -/

/-- v32..v47: in lane 31 a suspended state of slot 5, in the others 0; the slot holds the ray `r`. v35 is the least parameter of v32's ray. -/
def rayS (r : Ray := { gid := 3 }) (tmin : Word := 0) : State :=
  { on (fun g => lanesSet (lanesSet g 32 [31] (fun _ => 2)) 35 lanes (fun l => if l = 31 then 5 else tmin)) with rays := [(5, r)] }
theorem wit_TraversalWords :
    ([.travStart (fr 15 0 16 32 196 255 0 nv), .travResume (fr 15 1 16 32 0 0 0 nv), .travDrop (fr 15 2 0 32 0 0 0 nv)] : List Instr).all
      (fun i => meets i (rayS) (fun c => !flagFull i c && none_ c)) = true ∧
    ([0, 0x3F800000] : List Word).all (fun x => meets (.travStart (fr 15 0 16 32 196 255 0 p0)) (half (rayS { gid := 3 } x)) (fun c =>
      let s := half (rayS { gid := 3 } x)
      !flagFull (.travStart (fr 15 0 16 32 196 255 0 p0)) c && c.act != 0 && !unchecked s c.gid &&
      (lanesOf c.act).all (fun l => regGet c.g 255 l &&& 0xFFFF00F8 == 0 && rayVoid (rayOf c (fr 15 0 16 32 196 255) l) == (x != 0)) &&
      decide (32 ≤ (freeRays s c.g.core).length) && (raysOf s s.nextId).isEmpty)) = true ∧
    ([true, false] : List Bool).all (fun k => let i : Instr := if k then .travResume (fr 15 1 16 32) else .travDrop (fr 15 2 0 32)
      meets i (rayS) (fun c => !flagFull i c && whole c && !unchecked (rayS) c.gid && (raysOf (rayS) (rayS).nextId).isEmpty &&
        travBadLanes (rayS) c k (procLanes c (fr 15 1 16 32)) == [] && isProc (regsAt c.g 32 16 31) && (heldRay (rayS) c (regsAt c.g 32 16 31)).isSome)) = true ∧
    ([{ gid := 4 }, { gid := 3, op := some 9 }, { gid := 3, tmax := 0xBF800000 }] : List Ray).all (fun r => meets (.travResume (fr 15 1 16 32)) (rayS r) (fun c =>
      !flagFull (.travResume (fr 15 1 16 32)) c && whole c && !closing (rayS r) c.gid && travBadLanes (rayS r) c true (procLanes c (fr 15 1 16 32)) == [31])) = true ∧
    ([32, 240] : List (BitVec 8)).all (fun d => meets (.tres (fr 0 0 d 4 6)) (rayS)) = true ∧ isProc (regsAt (grpOf (rayS)) 32 16 30) = false ∧
    accepts { tmin := 0, tmax := 0x40000000 } 0x3F800000 0 0 = true ∧ isNanW 0x7FC00000 = true ∧ isNanW 0x3F800000 = false ∧
    fpv 0x3F800000 = .fin false 0x800000 (-23) := by decide +kernel

/-- The ray of slot 5 walked by operation 9, with what it has to visit and the page it waits for. -/
def walkS (todo : List RayTodo) (page : Option Nat := none) (err : BitVec 6 := 0) (hit : Bool := false) (others : Tab Ray := []) : State := { base with
  rays := (5, { gid := 3, op := some 9, todo := todo, page := page, hitv := hit }) :: others,
  ops := [(9, { gid := 3, instr := .travStart (fr 15 0 16 32 196 255), engine := true, err := err })] }
/-- Context 0 with page tables whose leaf for page 2 is `e`. -/
def tables (e : Double) (s : State) : State :=
  { s with ctxs := s.ctxs.map (fun x => (x.1, { x.2 with root := 0x100000 })),
           mem := memWrite (memWrite (memWrite (memWrite s.mem 0x100000 (bytesOf 8 (0x102001 : Double))) 0x102000 (bytesOf 8 (0x103001 : Double)))
             0x103000 (bytesOf 8 (0x104001 : Double))) 0x104010 (bytesOf 8 e) }
theorem wit_RaysEnd :
    ([false, true] : List Bool).all (fun h => (tabFind (walkS [] none 0 h).rays 5).any (fun r => r.op == some 9 && r.page == none && r.todo == [] && r.hitv == h) &&
      (tabFind (walkS [] none 0 h).ops 9).isSome && (walkS [] none 0 h).rays.all (fun e => e.1 == 5)) = true ∧
    ([0, 0x14] : List (BitVec 6)).all (fun x => (tabFind (walkS [.node 0x10040] none x).rays 5).any (fun r => r.page == none && r.todo == [.node 0x10040])) = true ∧
    (0x10040 % 128 ≠ 0) ∧ (match translate (tables 3 (walkS [] (some 2))) (rayWho (tables 3 (walkS [] (some 2))) ((tabFind (walkS [] (some 2)).rays 5).getD {}))
      .read (BitVec.ofNat 64 (65536 * 2)) with | .absent => true | _ => false) = true ∧
    (match translate (walkS [] (some 1)) (rayWho (walkS [] (some 1)) ((tabFind (walkS [] (some 1)).rays 5).getD {}))
      .read (BitVec.ofNat 64 (65536 * 1)) with | .ok pa _ => decide (pa = 0x10000) | _ => false) = true := by decide +kernel


/-- A sort command 5 and its job 4, held or not, with a record at 0x10000 whose descriptor at 0x10040 holds these words from byte 16 on. -/
def sortS (ws : List Word) (heldR heldW : Bool := false) (older : List (Nat × SortCmd) := []) (known : Bool := true) : State :=
  let s := memS
  { s with mem := memWrite s.mem 0x10000 (bytesOf 8 (0x10040 : Double) ++ List.replicate 56 0 ++ List.replicate 16 0 ++ ws.flatMap (bytesOf 4)),
           jobs := [(4, { kind := .sort, uid := 2, gid := 3, lid := 1, heldR := heldR, heldW := heldW, known := known })], ops := [(5, { gid := 3, engine := true })],
           tlb := s.tlb.map (fun e => (192, e.2)),
           sorts := older ++ [(5, { job := 4, cluster := 0, va := 0x10000, user := false, secure := false })] }
def sortCmd5 (s : State) : SortCmd := (tabFind s.sorts 5).getD { job := 0, cluster := 0, va := 0, user := false, secure := false }
/-- The record and the descriptor are read; `p` holds of them. -/
def sortReads (s : State) (p : List Byte → List Byte → Bool) : Bool :=
  match sortRead s (sortCmd5 s) (sortCmd5 s).va 64 with
  | .ok r s1 => (match sortRead s1 (sortCmd5 s) (ofBytes 64 (r.take 8)) 32 with
    | .ok d _ => p r d && s.sorts.length == 1 && (tabFind s.jobs 4).isSome && (tabFind s.ops 5).isSome
    | _ => false)
  | _ => false
/-- Two pairs that a sort exchanges: KEYS at 0x10100, VALS at 0x10180, SCRATCH at 0x10200, the range table of two tiles at 0x10300. -/
def sortFull : State := { mapCtx (sortS []) 0 (fun x => { x with recbase := 0x200000000000000 }) with mem := memWrite (memWrite (memWrite (memS).mem 0x10000 (bytesOf 8 (0x10040 : Double) ++ bytesOf 8 (0x10200 : Double) ++
  bytesOf 8 (0x10300 : Double) ++ List.replicate 40 0 ++ bytesOf 8 (0x10100 : Double) ++ bytesOf 8 (0x10180 : Double) ++
  ([2, 2, 0x00010002, 0] : List Word).flatMap (bytesOf 4))) 0x10100 (bytesOf 8 (0x0001000000000000 : Double))) 0x10180 [1] }
theorem wit_sortEnds :
    (let s := sortFull
     let k := sortCmd5 s
     match sortRead s k k.va 64 with
     | .ok r s1 => (match sortRead s1 k (ofBytes 64 (r.take 8)) 32 with
       | .ok d s2 => (match sortRead s2 k (ofBytes 64 (d.take 8)) 16 with
         | .ok kb s3 => (match sortRead s3 k (ofBytes 64 ((d.drop 8).take 8)) 8 with
           | .ok vb s4 => sortFault r d == none && decide ((nat32 d 20).toNat = 2 ∧ 2 ≤ (nat32 d 16).toNat) && sortPasses (pairsOf kb vb 2) &&
             okRes (sortWrites k { s4 with free := s4.free + 1 } ([(ofBytes 64 ((r.drop 8).take 8), openBytes s4.free 24), (ofBytes 64 (d.take 8),
               (sortPairs (pairsOf kb vb 2)).flatMap (fun x => bytesOf 8 x.1)), (ofBytes 64 ((d.drop 8).take 8),
               (sortPairs (pairsOf kb vb 2)).flatMap (fun x => bytesOf 4 x.2)), (ofBytes 64 ((r.drop 16).take 8), rangeTable 2 ((sortPairs (pairsOf kb vb 2)).map (·.1)))]))
           | _ => false)
         | _ => false)
       | _ => false)
     | _ => false) = true ∧
    (match xlateAll sortFull 4 (sortWho sortFull (sortCmd5 sortFull)) .write (pieces 0x10200 24) [] with
      | .ok ps t => ps == [(0x10200, 24)] && (jobOf t 4).isSome && t.trough == [] && backed t 0x10200
      | _ => false) = true ∧ sortPasses [((7 : Double), (0 : Word)), (7, 1)] = false := by decide +kernel
theorem wit_SplatKeysAndSort :
    ([.skey (fm (minor := 0) (g := nv)), .skeyAt (fm 4 196 8 0 1 nv), .sort (fm 0 196 255 0 0 nv)] : List Instr).all (fun i =>
      meets i (memS) (fun c => none_ c && !flagFull i c)) = true ∧
    ([(.skey (fm (minor := 0)), .both, 32), (.skeyAt (fm 4 196 8 0 1), .read, 32), (.sort (fm 0 196 255 0 0), .read, 64)] : List (Instr × Need × Nat)).all (fun x =>
      meets x.1 (memS) (fun c => whole c && fits x.1 (memS) c && (src2 c.g 196 0).toNat % x.2.2 == 0 &&
        (translate (memS) (whoOf c.g) x.2.1 (src2 c.g 196 0 + 0) == .ok 0x10000 false) && decide (jobsOf (memS) c.g.ctx < 1024) && !commandPending (memS) c.gid &&
        [0, 1].all (fun k => !watchMatch (ctxOf (memS) c.g.ctx) k x.2.1 x.2.2 (src2 c.g 196 0 + 0)))) = true ∧
    depthBits 0 = some 0 ∧ sortReads (sortS [0, 0, 0x00010001, 0]) (fun r d => sortFault r d == some 0x15) = true ∧
    sortReads (sortS [1, 2, 0x00010001, 0]) (fun r d => sortFault r d == none && decide ((nat32 d 16).toNat < (nat32 d 20).toNat)) = true ∧
    (let s := sortS [1, 2, 0x00010001, 0] false false [] false
     (match jobPeek s 4 (sortWho s (sortCmd5 s)) 0x10000 64 with
      | .ok r t => okRes (jobPeek t 4 (sortWho t (sortCmd5 s)) (ofBytes 64 (r.take 8)) 32)
      | _ => false) = true) ∧
    ([sortS [] true, sortS [] false true, sortS [] false false [(3, { job := 4, cluster := 0, va := 0, user := false, secure := false })]] : List State).map
      (fun s => (tabFind s.sorts 5).isSome && (tabFind s.jobs 4).any (fun j => j.heldR || j.heldW || s.sorts.any (fun e => e.1 == 3 && e.2.cluster == 0)) &&
        (tabFind s.ops 5).isSome) = [true, true, true] := by decide +kernel

/-- s6 holds the width and sample bits of a buffer at 0x10000, v8 the pixels; v38 of each lane is the state of its pixel. -/
def vbufS (cfg : Word) (fin : Word := 0) : State := on (fun g => lanesSet (lanesSet (regSet g 198 0 cfg) 38 lanes (fun _ => fin)) 8 lanes (fun l => BitVec.ofNat 32 (l / 8))) (memS)
def okAll {α : Type} (r : RdAll α) : Bool := match r with | .ok _ _ => true | _ => false
theorem wit_BlendAndVisibility :
    ([.blend (fr 0 0 32 16 196 198 0 nv), .bgrad (fr 0 0 32 16 196 198 0 nv), .vbufZ (fm 4 196 8 0 0 nv), .vbufId (fm 4 196 8 0 1 nv),
      .vbufAll (fm 4 196 8 0 2 nv), .vbufZmax (fm 4 196 8 0 3 nv)] : List Instr).all (fun i => meets i (memS) (fun c => none_ c && fits i (memS) c)) = true ∧
    ([0, 1] : List Word).all (fun x => meets (.blend (fr 0 0 32 16 196 198)) (vbufS 4 x) (fun c => whole c && fits (.blend (fr 0 0 32 16 196 198)) (vbufS 4 x) c &&
      lanes.all (fun l => decide (regGet c.g 38 l = x)) && okAll (rdLanes (fun l y => if (words c.g 32 8 l).getD 6 0 ≠ 0 then .ok (words c.g 32 8 l, y)
        else blendLane c l (words c.g 16 4 l) (src2 c.g 196 0) (src2 c.g 198 0) (pktOf (vbufS 4 x) c.g).thr 256 ((words c.g 32 8 l).set 7 0) y) (lanesOf c.act)
        ⟨vbufS 4 x, []⟩ []))) = true ∧
    meets (.bgrad (fr 0 0 32 16 196 198)) (vbufS 4) (fun c => whole c && fits (.bgrad (fr 0 0 32 16 196 198)) (vbufS 4) c &&
      okAll (rdLanes (fun l y => gradLane c l (words c.g 16 4 l) (src2 c.g 196 0) (src2 c.g 198 0) 256 ({ d := words c.g 32 8 l } : GradRes) y)
        (lanesOf c.act) ⟨vbufS 4, []⟩ []) && updAbsent (vbufS 4) (whoOf c.g) [] == none && (updWatch (vbufS 4) c []).isNone) = true ∧
    ([(.vbufZ (fm 4 196 8 0 0), 16), (.vbufId (fm 4 196 8 0 1), 16), (.vbufAll (fm 4 196 8 0 2), 16), (.vbufZmax (fm 4 196 8 0 3), 32)] : List (Instr × Nat)).all
      (fun x => meets x.1 (vbufS 0x10004) (fun c => whole c && fits x.1 (vbufS 0x10004) c && (src2 c.g 196 0).toNat % 256 == 0 && regGet c.g 199 0 == 0 &&
        lanes.all (fun l => (regGet c.g 8 l).toNat % 65536 < 4) &&
        reachesB (vbufS 0x10004) c .read .read x.2 (fun l => src2 c.g 196 0 + BitVec.ofNat 64 (32 * morton (l / 8) 0)) (fun l => 0x10000 + 32 * morton (l / 8) 0) (fun _ => false))) = true ∧
    ([.vbufZ (fm 4 196 8 0 0), .vbufId (fm 4 196 8 0 1), .vbufAll (fm 4 196 8 0 2), .vbufZmax (fm 4 196 8 0 3)] : List Instr).all
      (fun i => meets i (vbufS 0x40004) (fun c => whole c && !closing (vbufS 0x40004) c.gid && fits i (vbufS 0x40004) c)) = true ∧
    ([.vbufZ (fm 4 196 8 0 0 p0), .vbufId (fm 4 196 8 0 1 p0), .vbufAll (fm 4 196 8 0 2 p0), .vbufZmax (fm 4 196 8 0 3 p0)] : List Instr).all
      (fun i => [(0x10010, 0x10004), (0x10000, 0x10003)].all (fun x => let s := on (fun g => regSet g 196 0 x.1) (vbufS x.2)
        meets i s (fun c => fits i s c && !closing s c.gid && lowBit c.act == some 31 && regGet c.g 198 0 == x.2 && regGet c.g 199 0 == 0 &&
          ((src2 c.g 196 0).toNat % 256 != 0) == (x.1 == 0x10010) && (regGet c.g 8 31).toNat == 3))) = true ∧
    ([.vbufZ (fm 4 196 8 2 0), .vbufId (fm 4 196 8 2 1), .vbufAll (fm 4 196 8 2 2)] : List Instr).all (fun i => meets i (vbufS 0x10004) (fun c =>
      fits i (vbufS 0x10004) c && lowBit c.act == some 0 && !closing (vbufS 0x10004) c.gid && decide (2 ^ (0x10004 / 65536 % 4) ≤ 2))) = true := by decide +kernel


/-! ### Witnesses: sections, launches, counters, scheduling, power -/

/-- s4 a section's key, s5 the ticket; the group in a section or not. -/
def rosS (key seq : Word) (sect : Option Section := none) : State := on (fun g => { regSet (regSet g 196 0 key) 197 0 seq with sect := sect })
def sect5 : Section := { base := 1, key := 5, ticket := 7, expires := 10 }
theorem wit_SectionWords :
    ([.rosecEnter (fs 196 0 0 nv), .rosecLeave (fs 0 0 1 nv)] : List Instr).all (fun i => meets i base none_) = true ∧
    ([(0xFFFF, 0, none), (0xFFFF, 1, none), (0x10000, 0, none), (5, 0x80000000, none), (5, 0, some sect5)] : List (Word × Word × Option Section)).map (fun x =>
      let s := rosS x.1 x.2.1 x.2.2
      meets (.rosecEnter (fs 196)) s (fun c => whole c && !closing s c.gid && !unchecked s c.gid && decide (regGet c.g 196 0 = x.1 ∧ regGet c.g 197 0 = x.2.1) &&
        decide (c.g.splits.length ≤ 1) && decide (rosecNext s c.g.lid (x.1.toNat % 65536) = 0) && decide (c.g.sect = x.2.2))) = [true, true, true, true, true] ∧
    ([none, some sect5] : List (Option Section)).all (fun x => meets (.rosecLeave (fs 0 0 1)) (rosS 0 0 x) (fun c => whole c && c.g.sect == x &&
      !accessPending (rosS 0 0 x) c.gid && !closing (rosS 0 0 x) c.gid)) = true ∧
    ([.running, .exiting 0x10000 1] : List GroupSt).all (fun y => [9, 10].all (fun t =>
      let s : State := { on (fun g => { g with st := y }) (rosS 0 0 (some sect5)) with clk := t }
      decide ((grpOf s).sect = some sect5 ∧ (grpOf s).sys = false ∧ (grpOf s).st = y ∧ (s.clk.toNat < sect5.expires.toNat ↔ t = 9)))) = true := by decide +kernel

/-- A child launch 7 of level 1, its packet of `n` units at 0x200000, where the window of its context's descriptor (at 0) lies. -/
def packetB (n : Byte) : List Byte := List.replicate 0x28 0 ++ [n] ++ List.replicate 0x13 0 ++ [1, 1] ++ List.replicate 0x42 0
def childS (n : Byte) (v : Level := { child := true, parent := some 1, va := 0x200000 }) : State := { base with
  mem := memWrite (memWrite (memWrite (memWrite base.mem 8 (bytesOf 8 (0x200000 : Double) ++ bytesOf 8 (0x200000 : Double) ++ bytesOf 8 (0x200000 : Double))) 0x58 [16])
    0x64 [1]) 0x200000 (packetB n),
  levels := base.levels ++ [(7, v)] }
/-- The packet of a queue's graph 8, not accepted yet, whose phase 9 is. -/
def graphS : State := let s := childS 1 { parent := some 8, raw := packetB 1 }
  { s with levels := s.levels ++ [(8, { kind := .graph, parent := some 9 }), (9, { kind := .phase, valid := true, count := 1 })] }
/-- Two packets of one queue, not accepted yet; a group with `n` launches of its own out. -/
def packetsS : State := { base with levels := base.levels ++ [(6, {}), (7, {})] }
def outS (n : Nat) : State := { memS with ops := (List.range n).map (fun k => (k + 10, { gid := 3, instr := .launchAcc (fm (minor := 0)), engine := true })) }
theorem wit_ChildLaunches :
    ([.launchAcc (fm 4 196 255 0 0 nv), .launchDone (fm 4 196 255 0 1 nv)] : List Instr).all (fun i => meets i (memS) (fun c => none_ c && !flagFull i c)) = true ∧
    ([.launchAcc (fm 4 196 255 0 0), .launchDone (fm 4 196 255 0 1)] : List Instr).all (fun i => [15, 16].all (fun n => meets i (outS n) (fun c => whole c &&
      !flagFull i c && (src2 c.g 196 0 + 0).toNat % 128 == 0 && translate (outS n) (whoOf c.g) .read (src2 c.g 196 0 + 0) == .ok 0x10000 false &&
      [0, 1].all (fun k => !watchMatch (ctxOf (outS n) c.g.ctx) k .read 128 (src2 c.g 196 0 + 0)) && launchesOut (outS n) c.gid == n &&
      !accessPending (outS n) c.gid))) = true ∧
    earlierPacket packetsS 7 (levelOf packetsS 7) = true ∧ earlierPacket packetsS 6 (levelOf packetsS 6) = false ∧
    ([.launchAcc (fm 4 196 255 64 0), .launchDone (fm 4 196 255 64 1)] : List Instr).all (fun i => meets i (memS) (fun c => whole c && !flagFull i c &&
      !closing (memS) c.gid && (src2 c.g 196 0 + 64).toNat % 128 != 0)) = true ∧
    (match validateLevel (childS 1) (levelOf (childS 1) 7) with | .ok p _ _ => p.nUnits == 1 | _ => false) = true ∧
    (match validateLevel (childS 0) (levelOf (childS 0) 7) with | .bad e _ => e == 0x15 | _ => false) = true ∧
    (tabFind (childS 1).levels 1).any (fun u => u.kind == .launch && u.valid) = true ∧
    (let s := graphS; let v := levelOf s 7
     !v.child && !v.valid && v.cause == 0 && !v.done && !earlierPacket s 7 v && (levelOf s 8).kind == .graph && !(levelOf s 8).valid &&
       (levelOf s 8).parent == some 9 && (levelOf s 9).valid && (match validateLevel s v with | .ok _ _ _ => true | _ => false)) = true ∧
    ([0, 1] : List Byte).all (fun n => decide ((tabFind (childS n).levels 7).isSome ∧ (levelOf (childS n) 7).valid = false ∧ (levelOf (childS n) 7).cause = 0 ∧
      (levelOf (childS n) 7).done = false ∧ (levelOf (childS n) 1).done = false ∧ (levelOf (childS n) 1).cancelled = false)) = true := by decide +kernel

/-- A child launch 7 of level 1, validated, complete or not. -/
def kidS (done : Bool) : State := { base with levels := base.levels ++ [(7, { child := true, parent := some 1, valid := true, done := done })] }
theorem wit_CountersAndCancel :
    ([.cntRd (fi 4 0 0 0 nv), .cntWait (fi 0 255 0x51 0 nv), .cntCancel (fi 0 0 2 0 nv)] : List Instr).all (fun i => meets i base none_) = true ∧
    meets (.cntRd (fi 4)) base whole = true ∧
    meets (.cntRd (fi 4 0 0x10)) base (fun c => whole c && namedLevel base c.g 1 == some 1) = true ∧
    ([(.cntRd (fi 4 255 0x50), fi 4 255 0x50), (.cntWait (fi 0 255 0x51), fi 0 255 0x51), (.cntCancel (fi 0 255 0x52), fi 0 255 0x52)] : List (Instr × FiWord)).all
      (fun x => meets x.1 base (fun c => whole c && !closing base c.gid && !unchecked base c.gid && x.2.level == 5 && childNamed base c.g.lid (childId c x.2) == none) &&
        [true, false].all (fun b => meets x.1 (kidS b) (fun c => whole c && !unchecked (kidS b) c.gid && childNamed (kidS b) c.g.lid (childId c x.2) == some 7 &&
          (levelOf (kidS b) 7).done == b))) = true ∧
    meets (.cntCancel (fi 0 0 2)) base (fun c => whole c && !unchecked base c.gid) = true ∧
    (kidS false).units.all (fun e => e.2.lid != 7) = true ∧ (kidS false).jobs.all (fun e => e.2.lid != 7) = true ∧
    (kidS false).levels.all (fun e => e.2.parent != some 7) = true ∧
    (let s := { kidS false with units := [], jobs := [] }
     [1, 7][0]? = some 1 ∧ [1, 7].Nodup ∧ (tabFind s.levels 7).any (fun u => u.parent == some 1 && !u.done) = true ∧
       (tabFind (mapLevel s 7 (fun v => { v with cancelled := true })).levels 7).any (·.cancelled) = true) ∧
    (let s := { kidS false with units := [], jobs := [] }; (tabFind s.levels 1).isSome ∧ (levelOf s 1).done = false ∧ (levelOf s 7).parent = some 1) := by decide +kernel

/-- Level 7 above `base`'s level 1, with an operation 9 and a job 4. -/
def doneS (v : Level) : State := { base with
  levels := base.levels ++ [(7, v), (8, { kind := .job, count := 1 })], ops := [(9, {})], jobs := [(4, { kind := .sort, heldR := true, heldW := true })] }
theorem wit_LevelsComplete :
    levelReady (doneS { count := 1 }) 7 { count := 1 } = false ∧
    ([{ valid := true, placed := 1, child := true, parent := some 1, waiter := some 9 },
      { kind := .phase, closed := true, parent := some 8, queue := some 0, last := true }] : List Level).all
      (fun v => tabFind (doneS v).levels 7 == some v && levelReady (doneS v) 7 v && v.cause == 0 && v.drawErr == 0 && v.kind != .job) = true ∧
    ([{ count := 1 }, {}] : List Level).all (fun v => (doneS v).units.all (fun u => decide ((unitOf (doneS v) u.1).left ≠ 0))) = true ∧
    (let s := onU (fun u => { u with left := 0 }); s.units.map (·.1) = [2] ∧ (unitOf s 2).lid = 1 ∧ s.jobs.all (fun k => !jobOfUnit 2 k.2) = true) ∧
    (let s : State := { onU (fun u => { u with left := 0 }) with jobs := [(4, { kind := .bte 0 0, uid := 2 })] }; s.jobs.any (fun k => jobOfUnit 2 k.2) = true) ∧
    (tabFind (doneS {}).jobs 4).isSome = true := by decide +kernel

/-- Two ready groups of a quarter, with their ages. -/
def pair2 (a b : Nat) : State := { base with cur := none, groups := [(3, { grpOf base with age := a }), (5, { grpOf base with age := b, slot := 4 })] }
theorem wit_IssueCycleChooses : ([(0, 0), (47, 48), (50, 49)] : List (Nat × Nat)).map (fun x => (chooseGroup (pair2 x.1 x.2) 0 0).map (·.1)) = [some 3, some 5, some 3] ∧
    (wordClk (pair2 0 0) (grpOf (pair2 0 0))).toNat ≤ (clockCap (pair2 0 0) (some 3)).toNat ∧
    (let s : State := { pair2 0 0 with clk := 5, groups := (pair2 0 0).groups ++ [(7, { bracket := some (0, 4), splits := [(0, {})] })] }
     (chooseGroup s 0 0).map (·.1) = some 3 ∧ (clockCap s (some 3)).toNat < (wordClk s (grpOf s)).toNat) ∧
    (tabFind (grpOf (held 1)).splits 0).any (fun y => y.st == .held) = true ∧
    (pair2 0 0).cur = none ∧ chooseSplit (grpOf (pair2 0 0)) = some 0 ∧ (grp (pair2 47 48) 5).map (·.age) = some 48 ∧
    (let s := { base with levels := [(1, {}), (2, { pkt := { prio := 3 } })] }
     (pktOf s { lid := 1 }).prio < (pktOf s { lid := 2 }).prio) := by decide

/-- A launch of one unit, with its PASS count, and what the budget allows. -/
def launchS (pass allow : Nat) : State := { base with allow := allow, levels := base.levels ++
  [(7, { valid := true, pass := pass, pkt := { nUnits := 1, groups := 1, regs := 1 } })] }
theorem wit_DispatchDecides : ([(0, 0), (15, 0), (16, 0), (0, 100)] : List (Nat × Nat)).map (fun x => let m := markReady (launchS x.1 x.2)
      ((decision m (candidates m 0)).map (·.1), (candidates m 0).map (·.1))) = [(none, [7]), (none, [7]), (some 7, [7]), (some 7, [7])] ∧
    (let m := markReady (launchS 16 0); (decision m (candidates m 0)).any (fun x => placesUnit m x.2) = true) := by decide +kernel

/-- A stage whose channel has no free slot and a sleeper; a hint held or not. -/
def hintS (hint : Bool) (res : Bool := true) : State :=
  let s := onL (fun v => { v with pkt := { v.pkt with stages := [{ used := true, chan := 5, roles := 2 }] } })
    (onU (fun u => { u with resident := res }) (on (fun g => { g with hintV := hint })))
  { s with groups := s.groups ++ [(4, { uid := 2, lid := 1, splits := [(0, { st := .asleep (.room 5) })] })] }
theorem wit_HintsAndBudget :
    ([(true, true), (false, true), (true, false)] : List (Bool × Bool)).map (fun x => decide ((hintS x.1 x.2).groups.map (·.1)).Nodup && (grp (hintS x.1 x.2) 3).isSome &&
      (match exec .roleHintEvaluation (hintS x.1 x.2) with | .next t => (grpOf t).hintV | _ => false)) = [true, true, true] ∧
    (16 * ((0 : Nat) : Int) < 1521 - 1520 ∧ 1536 - 1520 ≤ 16 * (((0 : Nat) + 1 : Int))) ∧
    ([1520, 1521, 1759, 1760] : List Int).all (fun t => let dies := List.replicate 4 (some (t - 1)) ++ List.replicate 16 (some t)
      let rest := List.replicate 12 (some (-640))
      let reading (k : Nat) : Int := (if k < 20 then dies.getD k none else rest.getD (k - 20) none).getD 1760
      reading 4 == t && lanes.all (fun k => decide (reading k ≤ t)) && [0, 1, 2, 3].all (fun k => decide (reading k < t))) = true ∧
    ([railOrder, [.vaux]] : List (List Rail)).map (fun r => powered { base with rails := r }) = [true, false] := by decide +kernel


/-! ### Witnesses: translation, contexts, engines -/

def e2 : TlbEntry := ⟨0, 0x20000, 16, 0x10000, true, false, false, false, false, false, false, 0⟩
theorem wit_TranslationsKept :
    (match walk (tables 0x10207 base) 0 0x20000 with | .leaf e => e == e2 | _ => false) = true ∧
    (match walk base 0 0x20000 with | .bad _ => true | _ => false) = true ∧
    ([none, some ⟨0, 0, 0x20000, 0, false⟩, some ⟨3, 0, 0, 0, true⟩] : List (Option Inval)).map (fun x => decide (({ base with inval := x }).inval = x)) = [true, true, true] ∧
    ([[], [e2]] : List (List TlbEntry)).map (fun l => let s : State := { base with jobs := [(4, { kind := .sort, leases := l })] }
      (leaseHolds s ⟨0, 0, 0x20000, 0, false⟩, accessHolds s ⟨0, 0, 0x20000, 0, false⟩)) = [(false, false), (true, false)] ∧
    accessHolds loading ⟨3, 0, 0, 0, true⟩ = true ∧ base.ready = true ∧ ({ base with ready := false } : State).ready = false ∧
    base.groups.all (fun x => x.2.waitPage != some 2) = true ∧
    (let s := on (fun g => { g with waitPage := some 2 }); s.groups.all (fun x => x.1 == 3) = true ∧ (grp s 3).any (fun g => g.ctx == 0 && g.waitPage == some 2) = true ∧
      (tabFind s.ctxs 0).isSome = true ∧ (match walk s 0 (65536 * 2) with | .absent => false | _ => true) = true) := by decide +kernel

/-- Context 0 in a state, its unit resident or not. -/
def ctxS (st : CtxSt) (x : Option Double := none) (res : Bool := true) : State :=
  { onU (fun u => { u with resident := res }) with ctxs := [(0, { valid := true, st := st, expires := x })] }
theorem wit_ContextsControlled :
    (let s := { ctxS .running with groups := [(3, { grpOf base with st := .exiting 0x10000 1 })] }
     (grp s 3).any (fun g => g.ctx == 0 && !g.sys && g.st == .exiting 0x10000 1) ∧ s.groups.all (fun e => e.1 == 3)) ∧
    (ctxS .running).groups.all (fun e => e.2.st == .running) ∧ (grp (ctxS .running) 3).any (fun g => g.ctx == 0) = true ∧ (tabFind (grpOf (held 1)).splits 0).any (fun t => t.st == .held) = true ∧
    ([.running, .draining, .off, .reset] : List CtxSt).all (fun x => (ctxOf (ctxS x) 0).st == x && (ctxS x).ready) = true ∧
    ({ base with ready := false } : State).ready = false ∧
    (ctxS .draining none false).units.all (fun u => !u.2.resident) = true ∧
    (ctxOf (ctxS .draining (some 0)) 0).expires = some 0 ∧ (ctxS .draining (some 0)).clk = 0 ∧ (ctxOf (ctxS .draining (some 1)) 0).expires = some 1 := by decide

/-- The swapped group of a frame at 0x20000 that holds its checkpoint block. -/
def swapS : State :=
  let s := onU (fun u => { u with granules := [24, 0, 0, 0] }) (on (fun g => { g with st := .swapped 0, swapCkpt := some (7, {}) }))
  { windowed { s with ctxs := [(0, { valid := true, sfbase := 0x20000, sframes := [0] })] } with mem := memWrite [] 0x20700 (ckptBytes 7) }
theorem wit_restore : (grp swapS 3).any (fun g => g.st == .swapped 0 && g.waitPage == none && decide (g.w ≤ 24) && g.swapCkpt == some (7, {})) = true ∧
    (unitOf swapS 2).resident = true ∧ (ctxOf swapS 0).st = .running ∧ restorePlace swapS (grpOf swapS) = some (0, 0) ∧
    spillAbsent swapS { grpOf swapS with quarter := 0, slot := 0, spills := savedSpills (grpOf swapS) } = none ∧ (∀ i, isEvicted (nameOf (grpOf swapS) i) = false) ∧
    ∃ bs s2, vaRead (reslot swapS 2 0 0) (frameWho (grpOf swapS)) 0x20000 0xB000 = .ok (bs, s2) ∧ ckptOk bs 7 = true ∧
      ∀ i, i < 64 → (frameName bs i).st ≠ .evicted := by
  refine ⟨by rfl, by rfl, by rfl, by rfl, by rfl, fun i => by rfl, physRead swapS 0x20000 0xB000, reslot swapS 2 0 0, ?_, ?_, ?_⟩
  · have h : translate (reslot swapS 2 0 0) (frameWho (grpOf swapS)) .read 131072#64 = .ok 0x20000 false :=
      translate_window _ _ _ _ ((tabFind swapS.ctxs 0).getD {}) rfl (by decide) (by decide) (by decide) (by decide) rfl
    have hm : memTouch (reslot swapS 2 0 0) 131072 45056 = reslot swapS 2 0 0 := by
      simp only [memTouch, countUnbacked]
      rw [if_pos (by decide)]; rfl
    have hw : walkFold (reslot swapS 2 0 0) (frameWho (grpOf swapS)) 131072#64 = reslot swapS 2 0 0 := by
      unfold walkFold; rw [if_pos (by decide)]
    have hp : isPoison (reslot swapS 2 0 0) .mem 0 131072 45056 = false := by decide
    unfold vaRead
    simp [h, hw, hp, memLoad, hm]
    rfl
  · have hl : (ckptBytes 7).length = 2304 := by simp [ckptBytes]
    have h := physRead_back swapS [] 0x20700 (ckptBytes 7) (by rw [hl]; decide)
    rw [hl] at h
    unfold ckptOk
    rw [decide_eq_true_eq]
    refine Eq.trans ?_ h
    refine List.ext_getElem (by simp [physRead]) fun i h1 h2 => ?_
    simp only [physRead, List.getElem_take, List.getElem_drop, List.getElem_map, List.getElem_range]
    exact congrArg (physByte swapS) (by omega)
  · intro i hi
    have h : ((physRead swapS 0x20000 0xB000).drop (0x100 + 16 * i)).take 1 = [0] := by
      refine List.ext_getElem (by simp [physRead]; omega) fun k h1 h2 => ?_
      have hk : k = 0 := by simp at h2; exact h2
      subst hk
      simp only [physRead, List.getElem_take, List.getElem_drop, List.getElem_map, List.getElem_range]
      have h3 : ¬ (0x20700 ≤ 0x20000 + (0x100 + 16 * i + 0) ∧ 0x20000 + (0x100 + 16 * i + 0) < 0x20700 + (ckptBytes 7).length) := by omega
      have h4 : physByte swapS (0x20000 + (0x100 + 16 * i + 0)) = memByte (memWrite [] 0x20700 (ckptBytes 7)) (0x20000 + (0x100 + 16 * i + 0)) ∨
          physByte swapS (0x20000 + (0x100 + 16 * i + 0)) = 0 := by
        unfold physByte; split
        · exact .inl rfl
        · exact .inr rfl
      rcases h4 with h4 | h4
      · rw [h4, Laws.memByte_write, if_neg h3]; rfl
      · rw [h4]; rfl
    simp [frameName, leNat, h, ofBytes]

/-- A launch whose unit needs operand slots that another unit of the core holds; a group swapped out with a parked name. -/
def pressedS : State :=
  let s := onU (fun u => { u with oslots := List.range 256, olimit := 128 }) (on (fun g => { g with st := .swapped 0, names := [(1, { st := .parked, cslot := some (4, 0) })] }))
  { windowedLow { s with ctxs := [(0, { valid := true, sfbase := 0x10000 })] } with
           levels := base.levels ++ [(7, { valid := true, pkt := { nUnits := 1, groups := 1, regs := 1, hcount := 1 } })] }
/-- A draining context's unit, with no group. -/
def leavingS : State := windowedLow { ctxS .draining with groups := [], ctxs := [(0, { valid := true, st := .draining, ufbase := 0x10000, ufcount := 1 })] }
/-- The unit of a core that fails, its launch with RESTART or without. -/
def failS (re : Bool) : State := onL (fun v => { v with pkt := { v.pkt with restart := re } })
theorem wit_coreFails : ([false, true] : List Bool).all (fun b => unitsOn (failS b) 0 == [(2, unitOf (failS b) 2)] && (tabFind (failS b).units 2).isSome &&
    (failS b).ops == [] && (failS b).keys == [] && (failS b).units.map (·.1) == [2] && (tabFind (failS b).levels 1).any (fun v => v.pkt.restart == b)) = true := by
  decide +kernel
theorem wit_GroupsAndUnitsSaved : slotsShort base 0 = false ∧
    slotsShort pressedS 0 = true ∧ (evictVictim pressedS 0).any (fun x => x.1 == 3 && x.2.st == .swapped 0) = true ∧
    (match evictNames 0x10000 3 allNames pressedS with | .ok _ => true | _ => false) = true ∧
    (unitOf leavingS 2).resident = true ∧ (ctxOf leavingS 0).st = .draining ∧ quiescent leavingS 2 = true ∧ framesCover leavingS 2 (ctxOf leavingS 0) = true ∧
    freeFrame (ctxOf leavingS 0).uframes (ctxOf leavingS 0).ufcount = some 0 ∧ (match saveUnit leavingS 2 0 with | .ok _ => true | _ => false) = true ∧
    (ctxOf base 0).st ≠ .draining ∧ (grp (on (fun g => { g with st := .swapped 0, waitPage := some 2 })) 3).any (fun g => g.waitPage != none) = true ∧
    ([0, 2] : List Nat).all (fun n => decide (unitsOn { base with units := [], spares := [(0, n)] } 0 = [] ∧
      tabGet 0 ({ base with units := [], spares := [(0, n)] }).spares (0 / 48) = n)) = true := by decide +kernel

/-- Flit 1 from column `xs`, at a place, for a destination; `n` flits of its class stand where it would go next. -/
def flitS (f : Flit) (n : Nat := 0) : State := { base with
  flits := (1, f) :: (List.range n).map (fun k => (k + 10, (allowedDirs f).foldl (fun _ d => moveFlit f d) f)) }
theorem wit_FlitsArrive :
    ([{ xs := 0, x := 3, y := 2, xd := 3, yd := 2 }, { xs := 0, x := 3, y := 2, xd := 5, yd := 0 }, { resp := true, xs := 5, x := 5, y := 1, xd := 0, yd := 4 },
      { resp := true, xs := 2, x := 1, y := 1, xd := 2, yd := 4 }] : List Flit).map (fun f => (allowedDirs f).length) = [0, 2, 1, 1] ∧
    ([true, false] : List Bool).all (fun r => tabFind (flitS { resp := r, xs := 0, x := 3, y := 2, xd := 3, yd := 2 }).flits 1 ==
      some { resp := r, xs := 0, x := 3, y := 2, xd := 3, yd := 2 }) = true ∧ (flitS { xs := 0, x := 0, y := 0, xd := 0, yd := 0 }).nextId ≠ 1 ∧
    allowedDirs { resp := true, xs := 5, x := 5, y := 1, xd := 0, yd := 4 } = [.west] ∧
    (let f : Flit := { resp := true, xs := 5, x := 5, y := 1, xd := 0, yd := 4 }
     0 < roomAhead (flitS f) f .west ∧ roomAhead (flitS f (Config.flitSlots + 1)) f .west = 0) := by
  refine ⟨by decide, by decide, by decide, by decide, ?_, ?_⟩
  · simp [roomAhead, flitS, moveFlit, allowedDirs]
  · simp [roomAhead, flitS, moveFlit, allowedDirs, List.countP_map, Function.comp_def]

/-- The record of job 4 of channel 1: a copy of one 4-byte row from 0x10000 to 0x10100, DONE at 0x10200, the regions covering both. -/
def reg (a : Double) : List Byte := (bytesOf 8 a).take 7 ++ bytesOf 4 (4 : Word) ++ [0]
def rec1 (dim : Word := 1) : List Byte := bytesOf 8 (0x10000 : Double) ++ bytesOf 8 (0x10100 : Double) ++ ([4, 1, 1, dim] : List Word).flatMap (bytesOf 4) ++
  List.replicate 48 0 ++ bytesOf 8 (0x10200 : Double) ++ bytesOf 4 (7 : Word) ++ bytesOf 4 (1 : Word) ++ reg 0x10000 ++
  List.replicate 36 0 ++ reg 0x10100 ++ List.replicate 36 0
def bteJ (running : Bool) (b : Option (List Byte)) (heldR heldW : Bool := false) (s : State := windowedLow base) : State := { s with
  bte := [(1, { queue := if running then [] else [4], running := if running then some 4 else none })],
  jobs := [(4, { kind := .bte 1 0, layout := b, heldR := heldR, heldW := heldW, reads := [⟨0x10000, 4, none⟩], writes := [⟨0x10100, 4, none⟩] })] }
/-- Job 4 runs, its record read; job 5 waits, its record not read. -/
def bteQ : State := let s := bteJ true (some rec1)
  { s with bte := [(1, { queue := [5], running := some 4 })], jobs := s.jobs ++ [(5, { kind := .bte 1 0 })] }
def job4 (s : State) : Job := (jobOf s 4).getD { kind := .sort }
def runsJ (s : State) (b : List Byte) : Bool := decide ((bteOf s 1).running = some 4 ∧ (jobOf s 4).isSome ∧ (job4 s).layout = some b ∧ (bteOf s 1).queue = [])
theorem wit_TransferJobs :
    ((bteOf (bteJ false (some rec1)) 1).running = none ∧ (bteOf (bteJ false (some rec1)) 1).queue = [4] ∧ (job4 (bteJ false (some rec1))).layout.isSome = true) ∧
    ([(true, false), (false, true), (false, false)] : List (Bool × Bool)).all (fun x => runsJ (bteJ true (some rec1) x.1 x.2) rec1) = true ∧
    runsJ (bteJ true (some (rec1 0))) (rec1 0) = true ∧ recordOk (rec1 0) = false ∧ rec1.length = 192 ∧
    (match engXlate (bteJ true (some (rec1 0))) 4 (bteWho (bteJ true (some (rec1 0))) (job4 (bteJ true none))) .write 0x10200 with
      | .ok pa _ => pa == 0x10200 | _ => false) = true ∧ backed base 0x10200 = true ∧
    recordOk rec1 = true ∧ absentRow (bteJ true (some rec1)) (bteWho (bteJ true (some rec1)) (job4 (bteJ true none))) 4 (bteRows rec1) = none ∧
    (let s := bteJ true (some rec1)
     match copyRows 4 (bteWho s (job4 s)) 4 rec1 (bteRows rec1) (bteRows rec1) s with
      | .ok t => (match engXlate t 4 (bteWho s (job4 s)) .write 0x10200 with | .ok pa _ => pa == 0x10200 | _ => false) && bteOf t 1 == bteOf s 1
      | _ => false) = true ∧
    (translate (bteJ true (some rec1)) (bteWho (bteJ true (some rec1)) (job4 (bteJ true none))) .write 0x10200 != .absent && inAperture 0x10200 == false) = true ∧
    (let s := bteJ true none; (job4 s).layout = none ∧ (job4 s).err = 0 ∧
      (match xlateAll s 4 (device 0 false false) .read (pieces ((ctxOf s 0).recbase + 0) 192) [] with | .bad _ _ => true | _ => false) = true) ∧
    (let s := mapCtx bteQ 0 (fun x => { x with recbase := 0x10000 })
     (bteOf s 1).running.toList ++ (bteOf s 1).queue = [4] ++ 5 :: [] ∧ (job4 s).layout.isSome = true ∧ (jobOf s 5).any (fun j => j.layout == none) = true ∧
      (match xlateAll s 5 (device 0 false false) .read (pieces ((ctxOf s 0).recbase + 0) 192) [] with
        | .ok ps t => okRes (peekAll t 5 ps [])
        | _ => false) = true) ∧
    (let s := mapCtx (bteJ true none) 0 (fun x => { x with recbase := 0x10000 });
      (match xlateAll s 4 (device 0 false false) .read (pieces ((ctxOf s 0).recbase + 0) 192) [] with
        | .ok ps t => okRes (peekAll t 4 ps [])
        | _ => false) = true) := by decide +kernel

/-- A draw of level 1: 16 × 16 pixels at 0x10000, triangles from channel 0, attribute tasks to channel 1. -/
def drawS (q : List (List Word × Tab Nat)) (tasks : List (List Word)) (rqClosed aqClosed : Bool) (slots : Nat) : State :=
  let s := onL (fun v => { v with chans := [(0, { slots := 4, closed := rqClosed, queue := q }), (1, { slots := slots, closed := aqClosed })] }) (windowedLow base)
  { s with draws := [(1, { job := 4, cluster := 0, base := 0x10000, wv := 16, hv := 16, ls := 0, rq := 0, aq := 1, x0 := 0, y0 := 0, x1 := 16, y1 := 16,
                           drawid := 5, tasks := tasks })], jobs := [(4, { kind := .draw 1 })] }
/-- (0, 0) (4, 0) (0, 4), depth 0.5, identifier 7, word 11 as given. -/
def tri (w11 : Word) : List Word := [0, 0, 0x3F000000, 0x40800000, 0, 0x3F000000, 0, 0x40800000, 0x3F000000, 7, 0, w11, 0, 0, 0, 0]
theorem wit_DrawsRun : triReserved (tri 8) = true ∧ triReserved (tri 2) = false ∧ (triEmpty (triOf (tri 2)) || triEmpty (triOf (tri 1))) = true ∧
    triReserved (tri 4) = false ∧ triEmpty (triOf (tri 4)) = false ∧ (triArea (triOf (List.replicate 16 0))).isZero = true ∧
    (0x7FC00000 : Word) ≠ 0 ∧ ((triOf (0x7FC00000 :: (tri 4).drop 1)).x.any (·.isNan)) = true ∧
    ((mapJob (drawS [] [] false false 2) 4 (fun j => { j with heldW := true })).jobs.any (fun e => e.1 == 4 && e.2.heldW)) = true ∧
    (let s := drawS [(tri 4, [])] [] false false 2; let d := (tabFind s.draws 1).getD { job := 0, cluster := 0, base := 0, wv := 0, hv := 0, ls := 0, rq := 0, aq := 0, x0 := 0, y0 := 0, x1 := 0, y1 := 0, drawid := 0 }
     (match walkPixels d 0 (triOf (tri 4)) (numSign (triArea (triOf (tri 4)))) (triPixels d (triOf (tri 4))) {} s with
      | .ok w t => !w.cover.isEmpty && t.levels == s.levels | _ => false) = true) ∧
    ([(drawS [] [tri 0] false true 2), (drawS [] [tri 0] false false 0), (drawS [] [tri 0] false false 2), (drawS [] [] true false 2),
      (drawS [] [] false false 2), (drawS [(tri 4, [])] [tri 0] true false 2)] : List State).all (fun s => (tabFind s.draws 1).isSome && (tabFind s.levels 1).isSome) = true := by
  decide +kernel


/-! ### Witnesses: host, links, platform -/

def hset (l : List (Nat × Nat)) (s : State := base) : State := l.foldl (fun s e => hregSet s e.1 (BitVec.ofNat 64 e.2)) s
/-- Queue 0 with registers and contents as given, levels 5 (job), 6 (phase), 7 (graph) and 9 as the next number. -/
def queueS (regs : List (Nat × Nat)) (x : Queue) (mem : List Byte := []) : State := { hset regs with
  nextId := 9, queues := [(0, x)], host := memWrite [] 0x1000 mem,
  levels := base.levels ++ [(5, { kind := .job, count := 1 }), (6, { kind := .phase, parent := some 5, done := true }), (7, { kind := .graph, parent := some 6 })] }
/-- The ring of queue 0 at 0x1000 of host memory, enabled. -/
def sqOn : List (Nat × Nat) := [(0x10000, 0x1000), (0x10008, 0x10000)]
theorem wit_QueuesAndEntries :
    ([sqOn, []] : List (List (Nat × Nat))).map (fun l => (sqBusy (queueS l {}) 0, sqEn (queueS l {}) 0)) = [(true, true), (false, false)] ∧
    (tabFind (queueS sqOn { job := some 5, phase := some 6, graph := some 7 }).levels 7).isSome = true ∧
    (base.levels.all (fun e => e.2.kind != .job)) = true ∧ ((1 : Word) - (queueOf base 0).next).toNat < 2 ^ 31 ∧ 2 ^ 31 ≤ ((0xFFFFFFFF : Word) - (queueOf base 0).next).toNat ∧
    ([{ tail := 1, job := some 5, phase := some 6, graph := some 7 }, { tail := 1 }] : List Queue).all (fun x => let s := queueS sqOn x
      s.ready && sqEn s 0 && sqGet s 0 0x14 != x.tail.toNat && (queueOf s 0).recs == [] && (queueOf s 0).skip == false && (queueOf s 0).marks == []) = true ∧
    (let s := queueS sqOn { tail := 1, job := some 5, phase := some 6, graph := some 7 }; let v := levelOf s 7
      7 < s.nextId ∧ (tabFind s.levels 7).isSome = true ∧ v.cancelled = false ∧ v.stop = false ∧ v.cause = 0 ∧
      ([0, 0x40] : List Byte).all (fun e => let p := packetOf (ringEntry (queueS sqOn { tail := 1, job := some 5, phase := some 6, graph := some 7 } (List.replicate 0x50 0 ++ [e])) 0).1
        p.depMask &&& v.failed == 0 && p.gend == (e == 0x40) && !p.pend && !p.jend) = true) ∧
    (let s := queueS [] {}; sqEn s 0 = false ∧ sqGet (queueS sqOn {}) 0 0x14 = (queueOf (queueS sqOn {}) 0).tail.toNat ∧ ({ s with ready := false }).ready = false) := by decide +kernel

/-- A record waiting at queue 0, an event, the rings' tails. -/
def postS (n : Nat) : State := { hset [(0x10028, n), (0x11010, n)] with
  queues := [(0, { recs := [List.replicate 16 0] })], events := [{ typ := 3 }], rgns := [(0, { base := 0x1000, limit := 0x2000, en := true })] }
theorem wit_RecordsAndRegisters :
    ([0, 15, 16] : List Nat).map (fun n => (cqFull (postS n) 0, (evGet (postS n) 0x10 + 65536 - evGet (postS n) 0xC) % 65536 == 2 ^ ringLog (evGet (postS n) 8 % 32) 15)) =
      [(false, false), (false, false), (true, true)] ∧
    ((queueOf (postS 0) 0).recs.all (fun r => r.length == 16) && (queueOf (postS 0) 0).recs.length == 1 && (postS 0).events.length == 1) = true ∧
    regAt 0 = none ∧ (hostReg 0x42000).isSome = true ∧ answers base 0x42000 = true ∧ (writeAct base 0x42000 5 0xFFFFFFFF).isNone = true ∧
    (hostReg 0x61008).any (fun r => bit r.w1c 1) = true ∧ (hostReg 0x11014).any (fun r => bit r.rc 0) = true ∧
    secureAddr (postS 0) 0 = false ∧ secureAddr (postS 0) 0x1000 = true ∧ backed (postS 0) 0 = true ∧ (hregGet (postS 0) 0x44000).toNat / 2 ^ 36 * 2 ^ 36 = 0 := by decide +kernel
/-- The vectors raised, pending while masked, cleared; a BAR2 read. -/
theorem wit_RecordsAndRegisters_vectors :
    ([0, 1] : List Nat).map (fun m => let s := hset [(0x10020, 256), (0x11008, 256), (msixEntry 0 + 12, m), (msixEntry 64 + 12, m), (msixEntry 0, 0x8000),
        (msixEntry 64, 0x8000), (msixPba 0, 1)] (postS 0)
      (ofBit (sqGet s 0 0x20) 8 && ofBit (evGet s 8) 8, msixMasked s 0, msixMasked s 64, bit (hregGet s (msixPba 0)) 0, msixAddr s 0, msixAddr s 64)) =
      [(true, false, false, true, 0x8000, 0x8000), (true, true, true, true, 0x8000, 0x8000)] ∧
    ofBit (sqGet (postS 0) 0 0x20) 8 = false ∧ ofBit (evGet (postS 0) 8) 8 = false ∧
    answers base (msixEntry 0 + 12) = true ∧ inAperture 0 = false ∧ (postS 0).trough.isEmpty = true ∧ (postS 0).ready = true := by decide +kernel

/-- Port 0 up, as given. -/
def portS (x : Port) (clk : Double := 0) : State := { hset [(0x51000, 0x80000000)] with ports := [(0, x)], clk := clk }
theorem wit_LinkFlits :
    ([{ txq := [(0, [1, 2])] }, { txq := [(0, [1, 2])], unacked := [(0, 0, [])], next := 512 }, { again := [0], unacked := [(0, 0, [1])], next := 1 },
      { unacked := [(0, 0, [1])], next := 1 }] : List Port).map (fun x => (portUp (portS x) 0, portOf (portS x) 0 == x, decide ((x.next - (x.unacked.head?.map (·.1)).getD x.next).toNat < 512),
        (x.unacked.find? (fun u => u.1 == 0)).isSome)) = [(true, true, true, false), (true, true, false, true), (true, true, true, true), (true, true, true, true)] ∧
    portUp base 0 = false ∧ ([4000, 3999] : List Double).map (fun t => decide (0 + 4000 ≤ (portS {} t).clk.toNat)) = [true, false] ∧ (portOf (portS {}) 0).held = [] ∧
    ([] : List Byte).length ≠ 256 := by decide

/-- A link command: its op, the port or rank, word 1, and its DONE at 0x10200 with value 7. -/
def lcmd (op p sh : Byte) (n : Word) (src dst aux route : Double) (grad : Double := 0) : List Byte :=
  [op, p, sh, 0] ++ bytesOf 4 n ++ bytesOf 8 src ++ bytesOf 8 dst ++ bytesOf 8 aux ++ bytesOf 8 route ++ bytesOf 8 grad ++ List.replicate 4 0 ++ bytesOf 4 (7 : Word) ++ bytesOf 8 (0x10200 : Double)
/-- Ring 0 with a command of 64 bytes at 0x10000, enabled, port 0 up. -/
def ringS (b : List Byte) (cmd : Option LinkCmd := none) (data : List Byte := []) : State := { windowedLow (hset [(0x50000, 0x10000), (0x50008, 0x10000), (0x51000, 0x80000000), (0x50F04, 1)]) with
  mem := memWrite (memWrite [] 0x10000 b) 0x10300 data, lrings := [(0, { tail := 1, cmd := cmd })], jobs := [(4, { kind := .link 0 })] }
def putB : List Byte := lcmd 1 0 0 4 0x10100 0x10180 0 0
/-- Two ranks, one tile of 4 × 4 records from 0x10400; ORDER at 0x10300, results to 0x10600, ROUTE at 0x10308. -/
def compB (op : Byte) : List Byte := lcmd op 0 2 1 0x10400 0x10300 0x10600 0x10308 0x10400
def runK (b : List Byte) : LinkCmd := { bytes := b, job := 4, at_ := 0 }
def compS (op : Byte) : State := mapJob (ringS (compB op) (some (runK (compB op))) ([0, 1, 0, 0, 0, 0, 0, 0, 255] ++ List.replicate 300 0)) 4
  (fun j => { j with leases := [{ e2 with va := 0x10000, w := true }] })
def other (op tiles : Nat) : Peer := { rank := 1, op := op, shards := 2, tiles := tiles, tile := 0, coll := 0, part := [], order := [0, 1], grad := [], route := [0, 255] }
theorem wit_LinkCommands_rings :
    ([base, ringS putB] : List State).map (fun s => lqEn s 0) = [false, true] ∧ (lringOf (ringS putB) 0).cmd = none ∧ putB.length = 64 ∧
    headCmd (ringS putB) 0 = some putB ∧ leNat putB 0 1 = 1 ∧ isPoison (ringS putB) .mem 0 (headAddr (ringS putB) 0) 64 = false ∧
    cmdCause (takeCmd (memTouch (ringS putB) (headAddr (ringS putB) 0) 64) 0 putB) putB = none ∧ (ringS putB).ready = true ∧
    ({ base with ready := false } : State).ready = false ∧
    (let s := ringS putB (some (runK putB)); (lringOf s 0).cmd = some (runK putB) ∧ (jobOf s 4).any (fun j => !j.readDone && !j.heldR && !j.heldW) = true ∧
      (match jobRead s 4 (cmdWho s (runK putB)) none (BitVec.ofNat 64 (leNat putB 8 8)) (leNat putB 4 4) with | .ok d _ => d.length == 4 | _ => false) = true) ∧
    (let s := ringS putB (some (runK putB)); (match engXlate s 4 (cmdWho s (runK putB)) .write (BitVec.ofNat 64 (leNat putB 56 8)) with | .ok pa _ => pa == 0x10200 | _ => false) = true ∧
      (lringOf (ringS putB (some { runK putB with ended := some 0 })) 0).cmd = some { runK putB with ended := some 0 } ∧ (runK putB).ended = none ∧
      (match engXlate (lqError s (runK putB) 0x3B) 4 (cmdWho s (runK putB)) .write (BitVec.ofNat 64 (leNat putB 56 8)) with | .ok pa _ => pa == 0x10200 | _ => false) = true) ∧
    ([0, 999, 1000] : List Double).map (fun t => decide (0 + 1000 * max (hregGet { compS 2 with clk := t } 0x50F04).toNat 1 ≤ t.toNat)) = [false, false, true] := by decide +kernel
/-- At or above a port's limit everything is refused. -/
theorem putRefusal_out (s : State) (p a : Nat) (h : (hregGet s (portReg p 0x18)).toNat ≤ a) : putRefusal s p a ≠ none := by
  unfold putRefusal
  simp [h]
/-- Inside the window, outside the secure regions, nothing is. -/
theorem putRefusal_in (s : State) (p a : Nat) (hb : (hregGet s (portReg p 0x10)).toNat ≤ a) (hl : a < (hregGet s (portReg p 0x18)).toNat)
    (hs : secureAddr s a = false) : putRefusal s p a = none := by
  unfold putRefusal
  have h : ¬ (a < (hregGet s (portReg p 0x10)).toNat ∨ (hregGet s (portReg p 0x18)).toNat ≤ a) := by omega
  simp [h, hs]
/-- Whatever a payload says, an answer to the command of its ring is met, and so is a request that the port's window refuses; one that asks for
bytes of package memory inside the window is met by the window that holds them. -/
theorem wit_LinkCommands_arrivals (pay : List Byte) :
    (∀ j, let s : State := { base with ports := [(0, { inbox := [(1, pay)] })], lrings := [((Config.ackOf pay).1 % 8, { cmd := some { runK [] with job := j } })] }
     (portOf s 0).inbox = [(1, pay)] ∧ (lringOf s ((Config.ackOf pay).1 % 8)).cmd = some { runK [] with job := j }) ∧
    (let s : State := { base with ports := [(0, { inbox := [(2, pay)] })] }
     (portOf s 0).inbox = [(2, pay)] ∧ ∀ j, (lringOf s j).route = none) ∧
    (∀ rank, let s : State := { hset [(0x51000, 0x80000000)] with ports := [(0, { inbox := [(2, pay)] })], lrings := [(0, { route := some ((Config.collOf pay).1, rank, []) })] }
     (portOf s 0).inbox = [(2, pay)] ∧ (lringOf s 0).route = some ((Config.collOf pay).1, rank, []) ∧ (∀ j, j ≠ 0 → (lringOf s j).route = none) ∧
       portUp s (leNat [] (Config.collOf pay).2.2 1) = true) ∧
    (let s : State := { base with ports := [(0, { inbox := [(0, pay)] })] }
     (portOf s 0).inbox = [(0, pay)] ∧ ∀ a, putRefusal s 0 a ≠ none) ∧
    (∀ a n, a + n ≤ hbmEnd → let s : State := hset [(0x51010, 0), (0x51018, hbmEnd)] { base with ports := [(0, { inbox := [(0, pay)] })] }
     (portOf s 0).inbox = [(0, pay)] ∧ s.trough = [] ∧ ∀ i, i < n → putRefusal s 0 (a + i) = none ∧ backed s (a + i) = true) := by
  refine ⟨fun j => ⟨rfl, ?_⟩, ⟨rfl, fun j => rfl⟩, fun rank => ⟨rfl, rfl, fun j hj => ?_, ?_⟩, ⟨rfl, fun a => ?_⟩, fun a n h => ⟨rfl, rfl, fun i hi => ⟨?_, ?_⟩⟩⟩
  · simp [lringOf, tabGet, tabFind]
  · simp [lringOf, tabGet, tabFind, Ne.symm hj]
  · have h : leNat [] (Config.collOf pay).2.2 1 = 0 := by simp [leNat]; rfl
    rw [h]
    show portUp (hset [(0x51000, 0x80000000)]) 0 = true
    decide
  · exact putRefusal_out _ _ _ (show 0 ≤ a from Nat.zero_le a)
  · exact putRefusal_in _ _ _ (Nat.zero_le _) (show a + i < hbmEnd by omega) rfl
  · have h4 : a + i < hbmEnd := by omega
    simp [backed, h4]
theorem wit_LinkCommands_collectives :
    ([2, 3] : List Byte).all (fun op => let s := compS op; let b := compB op
      decide ((lringOf s 0).cmd = some (runK b) ∧ leNat b 0 1 = op.toNat ∧ jobHeld s 4 = false) &&
      (match compInputs s (runK b) with
       | .ok me t =>
         decide (me.shards = 2 ∧ me.rank = 0) && portUp t (leNat me.route 1 1) && !portUp (hregSet t 0x51000 0) (leNat me.route 1 1) && t.collHeld == [] && !(sameHeader me (other op.toNat 2)) && sameHeader me (other op.toNat 1) && rowsOk me && rowsOk (other op.toNat 1) &&
         !(dupNat [me.rank, 1]) && decide (orderRow me 0 = [0, 1]) &&
         (match compWrite 0 (runK b) me [me, other op.toNat 1] t.free (compPixels b) { t with free := t.free + 4 * (compPixels b).length + 4 } with | .ok _ => true | _ => false)
       | _ => false)) = true := by decide +kernel
theorem wit_LinkCommands_lanes :
    ([0, 0x80000000] : List Nat).map (fun n => let s := hset [(0x50F08, n), (0x51000, n)]; (bit (hregGet s 0x50F08) 31, portUp s 0, (lringOf s 3).cmd == none)) =
      [(false, false, true), (true, true, true)] ∧ (∀ k, (lringOf base k).cmd = none) ∧
    (let s := hset [(0x50F00, 1)]; s.ready = true ∧ hregGet s 0x50F00 ≠ 0 ∧ portUp s 0 = false) ∧ hregGet base 0x50F00 = 0 := by
  refine ⟨by decide, fun k => rfl, by decide, by decide⟩
/-- A PUT through the port that goes down, and a COMP that has sent its data there. -/
theorem wit_LinkCommands_stops : (leNat putB 0 1 = 1 ∧ leNat putB 1 1 = 0 ∧ (runK putB).ended = none) ∧
    (let s := hset [(0x50F08, 0x80000000)] (ringS putB (some (runK putB)))
     bit (hregGet s 0x50F08) 31 = true ∧ portUp s 0 = true ∧ (lringOf s 0).cmd = some (runK putB) ∧ (lringOf s 1).cmd = none) ∧
    (let s : State := mapLring (compS 2) 0 (fun l => { l with route := some (0, 0, [255, 0]), cmd := some { runK (compB 2) with sent := true } })
     (lringOf s 0).route = some (0, 0, [255, 0]) ∧ leNat (compB 2) 0 1 ≠ 1 ∧ 1 < shards (compB 2) ∧ leNat [255, 0] 1 1 = 0) := by decide +kernel

theorem wit_StorageErrors : t2Extent (hset [(0x45004, 1)]) = 2 ^ 30 ∧ 0x10000000000 ≤ 0x1003FFFFFFF ∧ 0x1003FFFFFFF < 0x10000000000 + t2Extent (hset [(0x45004, 1)]) ∧
    0x10000000000 + t2Extent base ≤ 0x10000000000 ∧ tabFind base.spared 0 = none ∧ tabFind ({ base with spared := [(0, 3)] }).spared 0 ≠ none ∧
    ([7, 8] : List Nat).map (fun n => (({ base with softRows := List.replicate n (5, 1) }).softRows.filter (fun (e : Nat × Nat) => e.1 == 5)).length) = [7, 8] := by decide

/-- The staged bytes with and without a poisoned one among them. -/
theorem wit_stagedPoison : ([([], false), ([⟨.mem, 0, 0⟩], true)] : List (List Poison × Bool)).all (fun x => let s : State := { base with poison := x.1 }
    isPoison (memTouch s 0 (stagedLen s 3 0)) .mem 0 0 (stagedLen s 3 0) == x.2) = true ∧ (hregGet base 0x61010).toNat = 0 := by decide +kernel
/-- Each clause's hypotheses but the verification of images, which no state decides: of the two clauses on a set one always applies. -/
theorem wit_AttestationAndFirmware :
    ([1, 2] : List Nat).all (fun op => let b := bytesOf 4 (BitVec.ofNat 32 op) ++ List.replicate 60 0 ++ List.replicate 64 1
      let s := { base with att := some b }
      s.att == some b && leNat b 0 4 == op && leNat b 0 4 != 3 - op && backed s (leNat b 8 8) && backed s (leNat b 8 8 + 4096 * op - 1) && (b.drop 64).length == 64) = true ∧
    base.att = none ∧ base.ready = true ∧ base.firm.busy = 0 ∧ ([1, 2] : List Double).map (fun v => (bits v 0 2 : BitVec 2)) = [1, 2] ∧
    ([1, 2] : List Nat).map (fun n => ({ base with firm := { base.firm with busy := n } }).firm.busy) = [1, 2] ∧ (base.ready = false ∨ base.ready = true ∧ ({ base with ready := false }).firm.recovery = false) ∧
    ∀ r b, (∃ e, setError r 3 b = some e) ∨ setError r 3 b = none := by
  refine ⟨by decide, rfl, rfl, rfl, by decide, by decide, .inr ⟨rfl, rfl⟩, fun r b => ?_⟩
  cases h : setError r 3 b
  · exact .inr rfl
  · exact .inl ⟨_, rfl⟩

/-- The rails up or down, locked or not; of the two outcomes of the boot ROM one always applies. -/
theorem wit_ResetsAndRails :
    ([(railOrder, true), (railOrder, false), ([.vaux], false), ([], false)] : List (List Rail × Bool)).map (fun x =>
      let s : State := { base with rails := x.1, locked := x.2 }; (powered s, s.locked)) = [(true, true), (true, false), (false, false), (false, false)] ∧
    (⟨[], [(0, 2 ^ 33)], none⟩ : BringUp).bad = [] ∧ (⟨[], [], some 3⟩ : BringUp).miss = some 3 ∧ (haltFirm { base.firm with busy := 1 }).busy = 0 ∧ (bits (0x00005A5A : Word) 0 16 : BitVec 16) = 0x5A5A ∧
    (bits (0x00005A5B : Word) 0 16 : BitVec 16) ≠ 0x5A5A ∧ (∀ r, (lringOf base r).cmd = none) ∧ base.ready = true ∧ State.reset.ready = false ∧
    base.firm.active ∉ base.firm.broken ∧ base.firm.active ∉ (haltFirm base.firm).broken ∧
    ∀ r, setError r 3 (bankSet base.firm base.firm.active) = none ∨ setError r 3 (bankSet base.firm base.firm.active) ≠ none := by
  refine ⟨by decide, rfl, rfl, rfl, by decide, by decide, fun r => rfl, rfl, rfl, by decide, by decide, fun r => Classical.em _⟩


/-! ### Printed words and results of the manual's worked examples -/

/-- The word is read as the instruction, and the encoder gives the word back. -/
def bothWays (x : IWord) (i : Instr) : Bool := reads x i && encode i == some x && WellFormed i

/-- Words that spec/03 to spec/10 and spec/12 print beside their assembly. -/
theorem test_printedWords : ([
    (0x7F2000FF80000000, .clauseHeader ⟨2, 0, 15, 15, true, false, 0⟩), (0x7F20091F80000000, .clauseHeader ⟨2, 9, 1, 15, true, false, 0⟩),
    (0x01040A060E000440, .iadd ⟨⟨false, 2⟩, 5, 3, 7, 0, 8, 8, 0⟩), (0x477E000000000000, .exit (fs)),
    (0x83C200405786E200, .pairedWord ⟨1, 7, 8, 1, false, false, 0⟩ ⟨0x15, 7, 13, 196, false, false, 0⟩ 0),
    (0x0C7E140204065678, .lop3 (fr 15 0 10 1 2 3 0xAC)), (0x4202000000080010, .bra ⟨⟨false, 1⟩, 4, 8, 0⟩),
    (0x627E01819000400C, .cpy (fm 0 192 200 0x200 0x0C)), (0x637FA80000000000, .cpybatch (fi 212)),
    (0x6D7F00210301E180, .mmaSab (ft 32 1 2 6 0 3)), (0x6F7F10000011E000, .svr (ft 34 0 0 0 8)),
    (0x707E200191940078, .travStart (fr 15 0 16 0 200 202)), (0x437E002801BC0078, .brx (fr 15 0 0 20 0 222)),
    (0x5C7E000000280000, .fence (fs 0 0x14)), (0x527E05FC1800000C, .lds (fm 2 254 12 0 0x0C)), (0x597E11FC1600000A, .confBank (fm 8 254 11 0 10)),
    (0x7D7FD00000000070, .clkRd (fr 14 0 232 0))] : List (IWord × Instr)).all (fun x => bothWays x.1 x.2) = true := by decide

/-- Words that the programs of spec/12, 13, 17 and 18 print. -/
theorem test_printedWords_programs : ([
    (0x597E11FC0E000008, .confEq (fm 8 254 7 0 8)), (0x597E13FC0E000009, .confLt (fm 9 254 7 0 9)), (0x1C7E160D96000079, .lanexIdx (fr 15 1 11 6 203)),
    (0x52021BFC0E000008, .lds (fm 13 254 7 0 8 ⟨false, 1⟩)), (0x6A7E0800007FE000, .thand (ft 1 0 0 0 63)),
    (0x720239B1FE000000, .skey (fm 28 216 255 0 0 ⟨false, 1⟩)), (0x7B7FBD81FE002000, .launchAcc (fm 222 192 255 0x100 0)),
    (0x7C7E01BC000000A2, .cntWait (fi 0 222 0x51)), (0x737E01A9FE000000, .sort (fm 0 212 255 0 0)),
    (0x760255C80A000003, .vbufZmax (fm 42 228 5 0 3 ⟨false, 1⟩)), (0x747E4051B9BC0000, .blend (fr 0 0 32 40 220 222)),
    (0x247E0657FE020005, .fcmp (fr 0 5 3 43 255 1)), (0x7106205E18000000, .tres (fr 0 0 16 47 12 0 0 ⟨false, 3⟩)),
    (0x707E202000000079, .travResume (fr 15 1 16 16)), (0x7F5001FF00000000, .clauseHeader ⟨5, 1, 15, 15, false, false, 0⟩)] : List (IWord × Instr)).all
      (fun x => bothWays x.1 x.2) = true := by decide

/-- The lookup of R121's example: the bits of A under C, of B elsewhere. -/
theorem test_lop3 : after (.lop3 (fr 15 0 10 196 198 200 0xAC)) (on (fun g => regSet (regSet (regSet g 196 0 0xFFFF) 198 0 0xFF00FF) 200 0 0x0F000F00))
    (fun s => regGet (grpOf s) 10 31 == 0x00FF0FFF) = true := by decide +kernel

/-- R231's example: a procedural hit at 4.0 inside (0, 10) is taken, one at 10.5 is not. -/
theorem test_tres : ([(0x40800000, 0x00100032, 0x40800000), (0x41280000, 0x00100002, 0x41200000)] : List (Word × Word × Word)).all (fun x =>
    after (.tres (fr 0 0 208 196 198)) (on (fun g => regSet (regSet (regSet (regSet (regSet g 196 0 x.1) 208 0 0x00100002) 209 0 0x41200000) 218 0 7) 219 0 3))
      (fun s => regGet (grpOf s) 208 0 == x.2.1 && regGet (grpOf s) 209 0 == x.2.2 && regGet (grpOf s) 220 0 == (if x.1 = 0x40800000 then 7 else 0))) = true := by
  decide +kernel

/-- The block-scaled dot of R136: 2.25 exactly, no flag. -/
theorem test_dp4 : after (.dp4 (fr 3 0 208 196 198 200)) (on (fun g => regSet (regSet (regSet (regSet g 196 0 0x7EB04038) 198 0 0x01402830) 200 0 0x3F000000) 201 0 0x7E81))
    (fun s => regGet (grpOf s) 208 0 == 0x40100000 && tabGet 0 (grpOf s).ff 0 == 0) = true := by decide +kernel

end Sys2Proof.Tests
end

section
/-! PROOFS. The fields of a word read back from its encoding, and the decoder on encoded words (R74–R101). -/

namespace Sys2Proof.Encoding

open Sys2Proof Sys2Proof.Machine

/-! ### Bits of words put together -/

theorem bits_append_low (x : BitVec a) (y : BitVec b) (h : lo + n ≤ b) : bits (x ++ y) lo n = bits y lo n := by
  simpa [bits] using BitVec.extractLsb'_append_eq_of_add_le h

theorem bits_append_high (x : BitVec a) (y : BitVec b) (h : b ≤ lo) : bits (x ++ y) lo n = bits x (lo - b) n := by
  simpa [bits] using BitVec.extractLsb'_append_eq_of_le h

@[simp] theorem bits_whole (x : BitVec n) : bits x 0 n = x := by simp [bits]

theorem bit_append_low (x : BitVec a) (y : BitVec b) (h : i < b) : bit (x ++ y) i = bit y i := by
  simp [bit, BitVec.getLsbD_append, h]

theorem bit_append_high (x : BitVec a) (y : BitVec b) (h : b ≤ i) : bit (x ++ y) i = bit x (i - b) := by
  simp [bit, BitVec.getLsbD_append, Nat.not_lt.mpr h]

@[simp] theorem bit_ofBool (b : Bool) : bit (BitVec.ofBool b) 0 = b := by cases b <;> rfl

@[simp] theorem bit_zero (w i : Nat) : bit (0#w) i = false := by simp [bit]

/-! ### Each class of full word: bit 63, the major and the fields (R74, R75, R77, R80–R84) -/

section
variable (m : BitVec 7)

theorem full_append (y : BitVec 56) : bit (0#1 ++ (m ++ y) : IWord) 63 = false := by
  simp (disch := decide) only [bit_append_high]
  simp

theorem major_append (y : BitVec 56) : bits (0#1 ++ (m ++ y) : IWord) 56 7 = m := by
  simp (disch := decide) only [bits_append_low, bits_append_high]
  simp

theorem major_frWord (w : FrWord) : bits (frWord m w) 56 7 = m := major_append m _
theorem major_fiWord (w : FiWord) : bits (fiWord m w) 56 7 = m := major_append m _
theorem major_fmWord (w : FmWord) : bits (fmWord m w) 56 7 = m := major_append m _
theorem major_fbWord (w : FbWord) : bits (fbWord m w) 56 7 = m := major_append m _
theorem major_ftWord (w : FtWord) : bits (ftWord m w) 56 7 = m := major_append m _
theorem major_fsWord (w : FsWord) : bits (fsWord m w) 56 7 = m := major_append m _

theorem frOf_frWord (w : FrWord) : frOf (frWord m w) = w := by
  simp (disch := decide) only [frOf, guardOfWord, frWord, guardBits, bits_append_low, bits_append_high, bit_append_low, bit_append_high]
  simp
theorem fiOf_fiWord (w : FiWord) : fiOf (fiWord m w) = w := by
  simp (disch := decide) only [fiOf, guardOfWord, fiWord, guardBits, bits_append_low, bits_append_high, bit_append_low, bit_append_high]
  simp
theorem fmOf_fmWord (w : FmWord) : fmOf (fmWord m w) = w := by
  simp (disch := decide) only [fmOf, guardOfWord, fmWord, guardBits, bits_append_low, bits_append_high, bit_append_low, bit_append_high]
  simp
theorem fbOf_fbWord (w : FbWord) : fbOf (fbWord m w) = w := by
  simp (disch := decide) only [fbOf, guardOfWord, fbWord, guardBits, bits_append_low, bits_append_high, bit_append_low, bit_append_high]
  simp
theorem ftOf_ftWord (w : FtWord) : ftOf (ftWord m w) = w := by
  simp (disch := decide) only [ftOf, guardOfWord, ftWord, guardBits, bits_append_low, bits_append_high, bit_append_low, bit_append_high]
  simp
theorem fsOf_fsWord (w : FsWord) : fsOf (fsWord m w) = w := by
  simp (disch := decide) only [fsOf, guardOfWord, fsWord, guardBits, bits_append_low, bits_append_high, bit_append_low, bit_append_high]
  simp

end

/-! ### The header and the pair (R90, R96) -/

theorem major_headerWord (h : Header) : bits (headerWord h) 56 7 = 0x7F#7 := major_append _ _
theorem headerOf_headerWord (h : Header) : headerOf (headerWord h) = h := by
  simp (disch := decide) only [headerOf, headerWord, bits_append_low, bits_append_high, bit_append_low, bit_append_high]
  simp

theorem halfOf_halfWord (h : Half) : halfOf (halfWord h) = h := by
  simp (disch := decide) only [halfOf, halfWord, bits_append_low, bits_append_high, bit_append_low, bit_append_high]
  simp

/-- The word of a pair: bit 63 set, slot A, slot B, bit 0. -/
def pairWord (a b : Half) (low : BitVec 1) : IWord := 1#1 ++ (halfWord a ++ (halfWord b ++ low))

theorem encode_pairedWord (a b : Half) (low : BitVec 1) : encode (.pairedWord a b low) = some (pairWord a b low) := rfl

theorem decodeShape_pairWord (a b : Half) (low : BitVec 1) : decodeShape (pairWord a b low) = .ok (.pairedWord a b low) := by
  have hb : bit (pairWord a b low) 63 = true := by
    simp (disch := decide) only [pairWord, bit_append_high]
    rfl
  rw [decodeShape, if_pos hb]
  simp (disch := decide) only [pairWord, bits_append_low, bits_append_high]
  simp [halfOf_halfWord]

/-! ### What the form checks say of a word's selectors (R76, R78–R85) -/

theorem formFault_ill {i : Instr} {f : Form} (h : form i = some f) (hf : formFault i = none) : f.ill = false := by
  simp only [formFault, h] at hf
  cases hi : f.ill with
  | false => rfl
  | true => simp [hi] at hf

theorem formFault_res {i : Instr} {f : Form} (h : form i = some f) (hf : formFault i = none) : f.res = false := by
  have hill := formFault_ill h hf
  simp only [formFault, h] at hf
  cases hr : f.res with
  | false => rfl
  | true => simp [hill, hr] at hf

/-- One SEL value is assigned to the instruction (R78). -/
theorem sel_of_ill {a : Bool} {s k : Nat} (h : (!(a && [k].contains s)) = false) : s = k := by
  simp only [Bool.not_eq_eq_eq_not, Bool.not_false, Bool.and_eq_true] at h
  simpa using h.2

/-- A comparison among the reserved-field checks passes. -/
theorem eq_of_orL {n : Nat} {x y : BitVec n} {l : List Bool} (h : orL l = false) (hm : (x != y) ∈ l) : x = y := by
  have := List.any_eq_false.mp h _ hm
  simpa using this

theorem fMma_ill {w : FtWord} {sb sa team : Bool} (h : (fMma w sb sa team).ill = false) :
    w.minor = (if team then 1 else 0) ∧ w.sb = sb ∧ w.sa = sa := by
  simp only [fMma, Bool.or_eq_false_iff, bne_eq_false_iff_eq] at h
  obtain ⟨⟨hm, hb⟩, ha⟩ := h
  exact ⟨BitVec.eq_of_toNat_eq (by rw [hm]; cases team <;> rfl), hb, ha⟩

/-! ### The decoder's table on encoded words -/

section
variable (m : BitVec 7)

theorem decodeShape_full {x : IWord} (h : bit x 63 = false) : decodeShape x = decodeMajor x := by simp [decodeShape, h]

theorem decodeShape_frWord (w : FrWord) : decodeShape (frWord m w) = decodeMajor (frWord m w) := decodeShape_full (full_append m _)
theorem decodeShape_fiWord (w : FiWord) : decodeShape (fiWord m w) = decodeMajor (fiWord m w) := decodeShape_full (full_append m _)
theorem decodeShape_fmWord (w : FmWord) : decodeShape (fmWord m w) = decodeMajor (fmWord m w) := decodeShape_full (full_append m _)
theorem decodeShape_fbWord (w : FbWord) : decodeShape (fbWord m w) = decodeMajor (fbWord m w) := decodeShape_full (full_append m _)
theorem decodeShape_ftWord (w : FtWord) : decodeShape (ftWord m w) = decodeMajor (ftWord m w) := decodeShape_full (full_append m _)
theorem decodeShape_fsWord (w : FsWord) : decodeShape (fsWord m w) = decodeMajor (fsWord m w) := decodeShape_full (full_append m _)
theorem decodeShape_headerWord (h : Header) : decodeShape (headerWord h) = decodeMajor (headerWord h) := decodeShape_full (full_append _ _)

end

/-- The decoder's table names the instruction whose word it reads: the major names it alone, or with the selector that the form
checks fix. -/
theorem decodeShape_encode {i : Instr} (hi : (form i).isSome = true) (hf : formFault i = none) :
    ∃ x, encode i = some x ∧ decodeShape x = .ok i := by
  cases i with
  | clauseHeader h =>
    refine ⟨_, rfl, ?_⟩
    rw [decodeShape_headerWord, decodeMajor, major_headerWord]
    show Except.ok _ = _
    rw [headerOf_headerWord]
  | pairedWord a b low => exact ⟨_, encode_pairedWord a b low, decodeShape_pairWord a b low⟩
  | nop => exact ⟨_, rfl, rfl⟩
  -- FR: the major alone
  | iadd w | isub w | imul w | imulhi w | imad w | imadw w | isad w | andB w | orB w | xorB w | lop3 w | shl w | shr w | bfx w
  | bfi w | popc w | perm w | icmp w | sel w | mov w | lea w | cmp64 w | shfl w | fadd w | fmul w | ffma w | fminmax w | fcmp w
  | frnd w | frcp w | frsq w | fsqrt w | fex2 w | flg2 w | fsincos w | cvt w | qscale w | dp4 w | dp8 w | dp2 w | fdact w | fact w
  | fclass w | fscale w | vred w | vscan w | plop w | brx w | tres w | blend w | bgrad w =>
    refine ⟨_, rfl, ?_⟩
    rw [decodeShape_frWord, decodeMajor, major_frWord]
    show Except.ok _ = _
    rw [frOf_frWord]
  -- FR: the major and SEL
  | iminmaxMin w | iminmaxMax w | shfR w | shfL w | bitopClz w | bitopCtz w | bitopBrev w | add64 w | add64Sub w | lanexFirst w
  | lanexIdx w | voteBallot w | voteAll w | voteAny w | voteUni w | voteCount w | pmovPack w | pmovPackhi w | pmovUnpack w
  | pmovUnpackhi w | pmov w | travStart w | travResume w | travDrop w | clkRd w | clkUntil w =>
    have hill := formFault_ill rfl hf
    refine ⟨_, rfl, ?_⟩
    rw [decodeShape_frWord, decodeMajor, major_frWord]
    show pick _ _ = _
    rw [frOf_frWord, sel_of_ill hill]
    rfl
  -- FR: the major and DS
  | hop2Add w | hop2Mul w | hop2Fma w =>
    have hill := formFault_ill rfl hf
    refine ⟨_, rfl, ?_⟩
    rw [decodeShape_frWord, decodeMajor, major_frWord]
    show pick _ _ = _
    rw [frOf_frWord, bne_eq_false_iff_eq.mp (Bool.or_eq_false_iff.mp hill).2]
    rfl
  -- FI: the major alone
  | giveback w | cpybatch w | rflush w =>
    refine ⟨_, rfl, ?_⟩
    rw [decodeShape_fiWord, decodeMajor, major_fiWord]
    show Except.ok _ = _
    rw [fiOf_fiWord]
  -- FI: the major and V
  | movi w | mrd w | setfmt w | rolejmp w | rswitch w | claim w | fwait w =>
    have hres := formFault_res rfl hf
    have hv : w.v = 0 := eq_of_orL hres (by simp)
    refine ⟨_, rfl, ?_⟩
    rw [decodeShape_fiWord, decodeMajor, major_fiWord]
    show pick _ _ = _
    rw [fiOf_fiWord, hv]
    rfl
  | moviI64 w | mwr w | setfmtM w | rolejmpCur w | rswitchHint w | claimTry w | bwait w =>
    have hres := formFault_res rfl hf
    have hv : w.v = 1 := eq_of_orL hres (by simp)
    refine ⟨_, rfl, ?_⟩
    rw [decodeShape_fiWord, decodeMajor, major_fiWord]
    show pick _ _ = _
    rw [fiOf_fiWord, hv]
    rfl
  -- FI: the major and an operation field
  | barSync w | barArrive w | barWait w | barInit w | barRows w =>
    have hill := formFault_ill rfl hf
    refine ⟨_, rfl, ?_⟩
    rw [decodeShape_fiWord, decodeMajor, major_fiWord]
    show pick _ _ = _
    rw [fiOf_fiWord, bne_eq_false_iff_eq.mp hill]
    rfl
  | cntRd w | cntWait w | cntCancel w =>
    have hill := formFault_ill rfl hf
    refine ⟨_, rfl, ?_⟩
    rw [decodeShape_fiWord, decodeMajor, major_fiWord]
    show pick _ _ = _
    rw [fiOf_fiWord, bne_eq_false_iff_eq.mp (Bool.or_eq_false_iff.mp hill).1]
    rfl
  -- FM: the major alone
  | ld w | st w | lds w | sts w | ldv w | stv w | atom w | atoms w | red w | ldc w | cpy w | recv w | sort w =>
    refine ⟨_, rfl, ?_⟩
    rw [decodeShape_fmWord, decodeMajor, major_fmWord]
    show Except.ok _ = _
    rw [fmOf_fmWord]
  -- FM: the major and the minor, or a part of it
  | cachectlPf w | cachectlWb w | cachectlEvict w | mcastTeam w | mcastCluster w | skey w | skeyAt w | vbufZ w | vbufId w | vbufAll w
  | vbufZmax w | launchAcc w | launchDone w =>
    have hill := formFault_ill rfl hf
    refine ⟨_, rfl, ?_⟩
    rw [decodeShape_fmWord, decodeMajor, major_fmWord]
    show pick _ _ = _
    rw [fmOf_fmWord, bne_eq_false_iff_eq.mp hill]
    rfl
  | cachectlCinv w =>
    have hill := formFault_ill rfl hf
    refine ⟨_, rfl, ?_⟩
    rw [decodeShape_fmWord, decodeMajor, major_fmWord]
    show pick _ _ = _
    rw [fmOf_fmWord, bne_eq_false_iff_eq.mp hill]
    rfl
  | confEq w | confLt w | confBank w =>
    have hill := formFault_ill rfl hf
    refine ⟨_, rfl, ?_⟩
    rw [decodeShape_fmWord, decodeMajor, major_fmWord]
    show pick _ _ = _
    rw [fmOf_fmWord, bne_eq_false_iff_eq.mp (Bool.or_eq_false_iff.mp (Bool.or_eq_false_iff.mp hill).1).2]
    rfl
  | gather w | gatherBnd w =>
    have hill := formFault_ill rfl hf
    have hm := bne_eq_false_iff_eq.mp (Bool.or_eq_false_iff.mp hill).2
    refine ⟨_, rfl, ?_⟩
    rw [decodeShape_fmWord, decodeMajor, major_fmWord]
    show ite _ _ _ = _
    rw [fmOf_fmWord]
    simpa using hm
  | send w =>
    have hres := formFault_res rfl hf
    have ho : w.off = 0 := eq_of_orL hres (by simp [nz])
    refine ⟨_, rfl, ?_⟩
    rw [decodeShape_fmWord, decodeMajor, major_fmWord]
    show ite _ _ _ = _
    rw [fmOf_fmWord, ho]
    rfl
  | sendClose w =>
    have hres := formFault_res rfl hf
    have ho : w.off = 1 := eq_of_orL hres (by simp)
    refine ⟨_, rfl, ?_⟩
    rw [decodeShape_fmWord, decodeMajor, major_fmWord]
    show ite _ _ _ = _
    rw [fmOf_fmWord, ho]
    rfl
  -- FB
  | bra w | call w =>
    refine ⟨_, rfl, ?_⟩
    rw [decodeShape_fbWord, decodeMajor, major_fbWord]
    show Except.ok _ = _
    rw [fbOf_fbWord]
  -- FS
  | ret w | join w | exit w | yield w | fence w | rosecEnter w | rosecLeave w | softwareTrap w | brkSet w | brkClr w | sret w
  | sretPass w =>
    have hill := formFault_ill rfl hf
    refine ⟨_, rfl, ?_⟩
    rw [decodeShape_fsWord, decodeMajor, major_fsWord]
    show pick _ _ = _
    rw [fsOf_fsWord, bne_eq_false_iff_eq.mp hill]
    rfl
  -- FT: the major alone, the major and the minor, mma with its flags
  | talloc w | tfree w | thand w | svr w =>
    refine ⟨_, rfl, ?_⟩
    rw [decodeShape_ftWord, decodeMajor, major_ftWord]
    show Except.ok _ = _
    rw [ftOf_ftWord]
  | tload w | tloadT w | tloadSc w | tstore w | tstoreT w | tstoreQ w | mmbDa w | mmbDb w =>
    have hill := formFault_ill rfl hf
    refine ⟨_, rfl, ?_⟩
    rw [decodeShape_ftWord, decodeMajor, major_ftWord]
    show pick _ _ = _
    rw [ftOf_ftWord, bne_eq_false_iff_eq.mp hill]
    rfl
  | mma w | mmaSa w | mmaSb w | mmaSab w | mmaTeam w =>
    have hill := formFault_ill rfl hf
    obtain ⟨hm, hb, ha⟩ := fMma_ill hill
    refine ⟨_, rfl, ?_⟩
    rw [decodeShape_ftWord, decodeMajor, major_ftWord]
    show ite _ _ _ = _
    rw [ftOf_ftWord, hm, hb, ha]
    rfl
  -- a step of the device has no form
  | _ => cases hi

theorem decodeWord_of_shape {x : IWord} {i : Instr} (hs : decodeShape x = .ok i) (hf : formFault i = none) : decodeWord x = .ok i := by
  simp [decodeWord, hs, hf]

theorem wellFormed_form {i : Instr} (h : WellFormed i = true) : (form i).isSome = true ∧ formFault i = none := by
  simp only [WellFormed, Bool.and_eq_true, Option.isNone_iff_eq_none] at h
  exact h.1

/-- Settles O3: the fields come back from the word of each class, the table names the instruction by its major and selectors, and a
well-formed instruction passes the form checks. -/
theorem decodeEncode : Obligations.DecodeEncode := by
  intro i hw
  obtain ⟨hi, hf⟩ := wellFormed_form hw
  obtain ⟨x, hx, hs⟩ := decodeShape_encode hi hf
  exact ⟨x, hx, decodeWord_of_shape hs hf⟩

end Sys2Proof.Encoding
end

section
/-! PROOFS. The step that finds a word being issued: what stands before the word, its fetch, the traps of the decoder (R74, R76, R88,
R89, R97, R98). -/

namespace Sys2Proof.Encoding

open Sys2Proof Sys2Proof.Machine Sys2Proof.Safety Sys2Proof.Laws

/-! ### What the clock and the fetch leave unchanged -/

@[simp] theorem tick_cur (s : State) : (tick s).cur = s.cur := rfl

theorem issueTick_some {s : State} {gid : Nat} {g : Group} (hg : grp s gid = some g) :
    issueTick s gid = { s with clk := issueClk s g } := by simp [issueTick, hg]

theorem issueTick_cur (s : State) (gid : Nat) : (issueTick s gid).cur = s.cur := by
  unfold issueTick; split <;> rfl
theorem issueTick_grp (s : State) (gid k : Nat) : grp (issueTick s gid) k = grp s k := by
  unfold issueTick; split <;> rfl

/-- The groups and the word being issued are as before. -/
def SameIssue (s s' : State) : Prop := s'.groups = s.groups ∧ s'.cur = s.cur

namespace SameIssue

theorem refl (s : State) : SameIssue s s := ⟨rfl, rfl⟩
theorem trans {s s' s'' : State} (h : SameIssue s s') (h' : SameIssue s' s'') : SameIssue s s'' :=
  ⟨h'.1.trans h.1, h'.2.trans h.2⟩
theorem grp_eq {s s' : State} (h : SameIssue s s') (k : Nat) : grp s' k = grp s k := by simp [grp, h.1]

theorem foldl {β : Type} {f : State → β → State} (hf : ∀ s b, SameIssue s (f s b)) (l : List β) (s : State) :
    SameIssue s (l.foldl f s) := by
  induction l generalizing s with
  | nil => exact refl s
  | cons b l ih => exact (hf s b).trans (ih (f s b))

theorem countUp (s : State) (off : Nat) : SameIssue s (countUp s off) := by
  unfold Machine.countUp; split
  · exact refl s
  · exact ⟨rfl, rfl⟩

theorem countUnbacked (s : State) (pa n : Nat) : SameIssue s (countUnbacked s pa n) := by
  unfold Machine.countUnbacked; split
  · exact refl s
  · exact countUp s _

theorem apertureRun (s : State) (pa : Nat) (bs : List Byte) : SameIssue s (apertureRun s pa bs) := by
  unfold Machine.apertureRun; dsimp only; split <;> split <;> exact ⟨rfl, rfl⟩

theorem keepPast (s : State) (pa n : Nat) : SameIssue s (keepPast s pa n) := by
  unfold Machine.keepPast; split
  · exact foldl (fun s i => by unfold keepWord; dsimp only; split <;> exact ⟨rfl, rfl⟩) _ s
  · exact refl s

theorem physWrite (s : State) (pa : Nat) (bs : List Byte) : SameIssue s (physWrite s pa bs) := by
  unfold Machine.physWrite; split <;> exact ⟨rfl, rfl⟩

theorem dropRels (s : State) (st : Store) (o a n : Nat) : SameIssue s (dropRels s st o a n) := by
  unfold Machine.dropRels; split <;> exact ⟨rfl, rfl⟩

theorem clearPoison (s : State) (st : Store) (o a n : Nat) : SameIssue s (clearPoison s st o a n) := by
  unfold Machine.clearPoison; split <;> exact ⟨rfl, rfl⟩

theorem memPut (s : State) (pa : Nat) (bs : List Byte) : SameIssue s (memPut s pa bs) := by
  unfold Machine.memPut; split
  · exact apertureRun s pa bs
  · exact (((keepPast s _ _).trans (physWrite _ _ _)).trans (dropRels _ _ _ _ _)).trans (clearPoison _ _ _ _ _)

theorem foldLine (s : State) (line : Nat) : SameIssue s (foldLine s line) := by
  unfold Machine.foldLine; split
  · exact refl s
  · exact trans ⟨rfl, rfl⟩ (foldl (fun s w => memPut s _ _) _ _)

theorem walkFold (s : State) (w : Who) (va : Double) : SameIssue s (walkFold s w va) := by
  unfold Machine.walkFold; split
  · exact refl s
  · exact foldl (fun s a => foldLine s _) _ s

theorem memTouch (s : State) (pa n : Nat) : SameIssue s (memTouch s pa n) :=
  (countUnbacked s pa n).trans (foldl (fun s (e : Nat × TroughEntry) => foldLine s e.1) _ _)

theorem fetchTouch (s : State) (g : Group) (pc : Double) : SameIssue s (fetchTouch s g pc) := by
  unfold Machine.fetchTouch; split
  · exact (walkFold s _ _).trans (memTouch _ _ _)
  · exact walkFold s _ _

theorem wordFetched (s : State) (gid sp : Nat) : SameIssue s (wordFetched s gid sp) := by
  unfold Machine.wordFetched; split
  · dsimp only; split
    · exact (fetchTouch s _ _).trans (fetchTouch _ _ _)
    · exact fetchTouch s _ _
  · exact refl s

end SameIssue

/-! ### The boundary before a word -/

/-- The word at the split's PC has been fetched, and no trap that waits for a boundary is due (R249, R408, R411). -/
structure AtWord (s : State) (gid sp : Nat) (g : Group) (t : Split) (x : IWord) : Prop where
  group : grp s gid = some g
  split : tabFind g.splits sp = some t
  header : t.unread = false
  quiet : dueTrap s gid sp g t = none
  fetched : fetch s g t.pc = .word x

theorem AtWord.boundary_eq {s : State} {gid sp : Nat} {g : Group} {t : Split} {x : IWord} (h : AtWord s gid sp g t x) :
    boundary s gid sp = wordBoundary (fetchTouch s g t.pc) gid sp g t x := by
  have ht : splitAt g sp = t := by simp [splitAt, h.split]
  simp only [boundary, h.group, ht, h.quiet, h.header, h.fetched]
  rfl

theorem wordBoundary_word {s : State} {gid sp : Nat} {g : Group} {t : Split} {x : IWord} {i : Instr}
    (hb : brkHit s g t (brkSlots x) = none) (hj : joinCheck s g t x = none) (hd : decodeShape x = .ok i) :
    wordBoundary s gid sp g t x = .word i := by
  simp [wordBoundary, hb, hj, hd]

theorem wordBoundary_gone {s : State} {gid sp : Nat} {g : Group} {t : Split} {x : IWord} {e : BitVec 6}
    (hb : brkHit s g t (brkSlots x) = none) (hj : joinCheck s g t x = none) (hd : decodeShape x = .error e) :
    wordBoundary s gid sp g t x = .gone (trapWait s s gid sp (infoAt e t t.mask)) := by
  simp [wordBoundary, hb, hj, hd]

theorem step_word {s : State} {gid sp : Nat} {i : Instr} (hc : s.cur = some (gid, sp))
    (hb : boundary (issueTick (tick s) gid) gid sp = .word i) :
    step s = issued (wordFetched (issueTick (tick s) gid) gid sp) gid sp (exec i (wordFetched (issueTick (tick s) gid) gid sp)) := by
  simp only [step, tick_cur, hc, hb]

theorem step_gone {s t : State} {gid sp : Nat} (hc : s.cur = some (gid, sp))
    (hb : boundary (issueTick (tick s) gid) gid sp = .gone t) : step s = .next (endBrackets t (fun k _ => k == gid)) := by
  simp only [step, tick_cur, hc, hb]

theorem decodeShape_of_word {x : IWord} {i : Instr} (h : decodeWord x = .ok i) : decodeShape x = .ok i := by
  unfold decodeWord at h
  split at h
  · cases h
  · split at h
    · cases h
    · cases h; assumption

/-- A step runs the word at the split's PC. -/
theorem step_atWord {s : State} {gid sp : Nat} {g : Group} {t : Split} {x : IWord} {i : Instr} (hc : s.cur = some (gid, sp))
    (hw : AtWord (issueTick (tick s) gid) gid sp g t x)
    (hb : brkHit (fetchTouch (issueTick (tick s) gid) g t.pc) g t (brkSlots x) = none)
    (hj : joinCheck (fetchTouch (issueTick (tick s) gid) g t.pc) g t x = none) (hd : decodeShape x = .ok i) :
    step s = issued (wordFetched (issueTick (tick s) gid) gid sp) gid sp (exec i (wordFetched (issueTick (tick s) gid) gid sp)) :=
  step_word hc (hw.boundary_eq.trans (wordBoundary_word hb hj hd))

/-- Settles O1: nothing at the boundary stands before the word, so the step is `exec` of it. -/
theorem stepRunsDecodedWord : Obligations.StepRunsDecodedWord := by
  intro s gid sp g t x i s1 sf s2 hc hg ht hu hq hf hb hj hd
  exact step_atWord hc ⟨(issueTick_grp _ _ _).trans hg, ht, hu, hq, hf⟩ hb hj (decodeShape_of_word hd)

/-! ### Words that the decoder refuses (R76, R88, R89, R97) -/

/-- The unassigned majors of R88. -/
def unassignedMajors : List Nat := [0x39, 0x3A, 0x3B, 0x3C, 0x3D, 0x3E, 0x3F, 0x4D, 0x4E, 0x4F, 0x5E, 0x5F, 0x7E]

theorem decodeMajor_unassigned {x : IWord} (h : (bits x 56 7 : BitVec 7).toNat ∈ unassignedMajors) : decodeMajor x = .error 0x01#6 := by
  have key : ∀ n ∈ unassignedMajors, (bits x 56 7 : BitVec 7).toNat = n → decodeMajor x = .error 0x01#6 := by
    intro n hn hm
    rw [decodeMajor, hm]
    simp only [unassignedMajors, List.mem_cons, List.not_mem_nil, or_false] at hn
    rcases hn with rfl | rfl | rfl | rfl | rfl | rfl | rfl | rfl | rfl | rfl | rfl | rfl | rfl <;> rfl
  exact key _ h rfl

theorem decodeMajor_nop {x : IWord} (h : (bits x 56 7 : BitVec 7).toNat = 0) (hx : x ≠ 0) : decodeMajor x = .error 0x02#6 := by
  rw [decodeMajor, h]
  show ite _ _ _ = _
  rw [if_neg hx]

theorem decodeMajor_header {x : IWord} (h : (bits x 56 7 : BitVec 7).toNat = 0x7F) : decodeMajor x = .ok (.clauseHeader (headerOf x)) := by
  rw [decodeMajor, h]
  rfl

theorem formFault_clauseHeader (h : Header) :
    formFault (.clauseHeader h) = if headerRes h then some 0x02#6 else if h.n1 = 15 then some 0x04#6 else none := by
  simp [formFault, form, guardOf]

theorem headerRes_iff (h : Header) : headerRes h = true ↔ h.low ≠ 0 ∨ (12 ≤ h.set1.toNat ∧ h.set1.toNat ≤ 14) ∨
    (12 ≤ h.set2.toNat ∧ h.set2.toNat ≤ 14) ∨ (h.set1.toNat = 15 ∧ h.set2.toNat ≠ 15) ∨ (h.set1.toNat = h.set2.toNat ∧ h.set1.toNat ≠ 15) := by
  have h15 (v : BitVec 4) : v.toNat = 15 ↔ v = 15 := BitVec.toNat_inj (y := 15#4)
  simp [headerRes, orL, nz, h15, BitVec.toNat_inj]

/-- The decoder refuses the word with the cause, and the step that fetches it, with nothing due before it, takes that trap. -/
def Traps (x : IWord) (e : BitVec 6) : Prop :=
  decodeWord x = .error e ∧ ∀ (s : State) (gid sp : Nat) (g : Group) (t : Split),
    let s1 := issueTick (tick s) gid
    let sf := fetchTouch s1 g t.pc
    let s2 := wordFetched s1 gid sp
    s.cur = some (gid, sp) → grp s gid = some g → tabFind g.splits sp = some t → t.unread = false → dueTrap s1 gid sp g t = none →
    fetch s1 g t.pc = .word x → brkHit sf g t [0] = none → joinCheck sf g t x = none → closing sf gid = false → closing s2 gid = false →
    ∃ i : TrapInfo, i.cause = e ∧ i.pc = t.pc ∧ i.split = t.mask ∧ (step s = .next (endBrackets (takeTrap sf gid i) (fun k _ => k == gid)) ∨
      step s = .next (afterWord s2 gid sp (takeTrap s2 gid i)))

theorem trapWait_of_not_closing {s : State} {gid : Nat} (h : closing s gid = false) (s' : State) (sp : Nat) (t : TrapInfo) :
    trapWait s s' gid sp t = takeTrap s' gid t := by simp [trapWait, h]

/-- A word without an instruction traps at the boundary. -/
theorem traps_of_shape {x : IWord} {e : BitVec 6} (hx : bit x 63 = false) (h : decodeShape x = .error e) : Traps x e := by
  refine ⟨by simp [decodeWord, h], ?_⟩
  intro s gid sp g t s1 sf s2 hc hg ht hu hq hf hb hj hclose _
  have hs : brkSlots x = [0] := by simp [brkSlots, hx]
  have hw : AtWord s1 gid sp g t x := ⟨(issueTick_grp _ _ _).trans hg, ht, hu, hq, hf⟩
  refine ⟨infoAt e t t.mask, rfl, rfl, rfl, .inl ?_⟩
  rw [step_gone hc (hw.boundary_eq.trans (wordBoundary_gone (hs ▸ hb) hj h)), trapWait_of_not_closing hclose]

theorem pre_of_formFault {i : Instr} {s : State} {gid sp : Nat} {g : Group} {t : Split} {e : BitVec 6} (hc : s.cur = some (gid, sp))
    (hg : grp s gid = some g) (ht : tabFind g.splits sp = some t) (h : formFault i = some e) :
    pre i s = .out (.next (trapWait s s gid sp { infoAt e t (guardMask i g t) with slot := faultSlot i g e })) := by
  simp [pre, hc, hg, ht, decodeCause, h]

/-- A clause header that its own fields refuse traps in its execution. -/
theorem traps_of_header {x : IWord} {h : Header} {e : BitVec 6} (hx : bit x 63 = false) (hd : decodeShape x = .ok (.clauseHeader h))
    (he : formFault (.clauseHeader h) = some e) : Traps x e := by
  refine ⟨by simp [decodeWord, hd, he], ?_⟩
  intro s gid sp g t s1 sf s2 hc hg ht hu hq hf hb hj _ hclose
  have hs : brkSlots x = [0] := by simp [brkSlots, hx]
  have hg1 : grp s1 gid = some g := (issueTick_grp _ _ _).trans hg
  have hsame : SameIssue s1 s2 := SameIssue.wordFetched s1 gid sp
  have hc2 : s2.cur = some (gid, sp) := hsame.2.trans ((issueTick_cur _ _).trans hc)
  refine ⟨{ infoAt e t (guardMask (.clauseHeader h) g t) with slot := faultSlot (.clauseHeader h) g e }, rfl, rfl, rfl, .inr ?_⟩
  rw [step_atWord hc ⟨hg1, ht, hu, hq, hf⟩ (hs ▸ hb) hj hd]
  have hexec : exec (.clauseHeader h) s2 = execClauseHeader h s2 := rfl
  rw [hexec, execClauseHeader, pre_of_formFault hc2 ((hsame.grp_eq gid).trans hg1) ht he]
  show issued s2 gid sp (.next _) = _
  rw [trapWait_of_not_closing hclose]
  rfl

/-! ### nop (R89) -/

theorem runGroup_go {i : Instr} {s : State} {c : Go} (h : pre i s = .go c) (f : Go → Group) : runGroup i s f = .next (retire s c (f c)) := by
  simp [runGroup, h]

theorem nop_onlyAdvances {s : State} {c : Go} (h : pre .nop s = .go c) : OnlyAdvances .nop s c := by
  obtain ⟨_, hg, _⟩ := pre_go h
  refine onlyAdvances h ?_
  rw [retireSame_eq s c hg]
  exact runGroup_go h _

/-- Settles O5: the decoder's table has no arm for the unassigned majors and refuses a nonzero word of major 0, which traps at the
boundary; a header's own fields are refused when it is executed. -/
theorem decodeTraps : Obligations.DecodeTraps := by
  refine ⟨fun x hx => ?_, rfl, rfl, rfl, fun s c h => nop_onlyAdvances h⟩
  intro m set1 set2 reserved traps
  have hfull := decodeShape_full hx
  have hiff : headerRes (headerOf x) = true ↔ reserved := headerRes_iff (headerOf x)
  have hfault := formFault_clauseHeader (headerOf x)
  refine ⟨fun hm => ?_, fun hm h0 => ?_, fun hm hr => ?_, fun hm hr hn => ?_, fun hm hr hn => ?_⟩
  · exact traps_of_shape hx (hfull.trans (decodeMajor_unassigned hm))
  · exact traps_of_shape hx (hfull.trans (decodeMajor_nop hm h0))
  · exact traps_of_header hx (hfull.trans (decodeMajor_header hm)) (hfault.trans (if_pos (hiff.mpr hr)))
  · exact traps_of_header hx (hfull.trans (decodeMajor_header hm)) (hfault.trans ((if_neg (mt hiff.mp hr)).trans (if_pos hn)))
  · exact decodeWord_of_shape (hfull.trans (decodeMajor_header hm)) (hfault.trans ((if_neg (mt hiff.mp hr)).trans (if_neg hn)))

end Sys2Proof.Encoding
end

section
/-! PROOFS. The word that `State.withFetchWord` places is the one that the next step fetches and runs (R6, R74, R98). -/

namespace Sys2Proof.Encoding

open Sys2Proof Sys2Proof.Machine Sys2Proof.Laws

/-! ### A 64-bit value and its bytes (R6) -/

theorem ofBytes_map_range' (x : BitVec w) (k n : Nat) (h : w ≤ 8 * (k + n)) :
    ofBytes w ((List.range' k n).map (fun i => x.extractLsb' (8 * i) 8)) = x >>> (8 * k) := by
  induction n generalizing k with
  | zero =>
    refine BitVec.eq_of_getLsbD_eq fun i hi => ?_
    simp only [List.range'_zero, List.map_nil, ofBytes, List.foldr_nil, BitVec.getLsbD_zero, BitVec.getLsbD_ushiftRight]
    exact (BitVec.getLsbD_of_ge x _ (by omega)).symm
  | succ n ih =>
    have hih := ih (k + 1) (by omega)
    rw [List.range'_succ, List.map_cons, ofBytes, List.foldr_cons]
    rw [ofBytes] at hih
    rw [hih]
    refine BitVec.eq_of_getLsbD_eq fun i hi => ?_
    by_cases h8 : i < 8
    · simp [h8, hi]
    · have e : 8 * (k + 1) + (i - 8) = 8 * k + i := by omega
      simp [h8, hi, e]

theorem ofBytes_bytesOf (x : IWord) : ofBytes 64 (bytesOf 8 x) = x := by
  have h := ofBytes_map_range' x 0 8 (by omega)
  rw [← List.range_eq_range'] at h
  simpa [bytesOf] using h

/-! ### The placement, at any CLK -/

/-- The state that places the word `x` on reset, with the clock passed to `clk`. -/
def placedAt (x : IWord) (clk : Double) : State :=
  { placeProbe State.reset (wordIsHeader x) with mem := memWrite [] 0x10000 (bytesOf 8 x), clk := clk, free := 1 }

/-- The group and the split of the placement. -/
def placedSplit (x : IWord) : Split :=
  { pc := 0x10000, mask := 0xFFFFFFFF, left := if wordIsHeader x then 0 else 1, hdr := if wordIsHeader x then 0x10000 else 0xFFF8,
    first := !wordIsHeader x }
def placedGroup (x : IWord) : Group := { uid := 2, lid := 1, w := 24, splits := [(0, placedSplit x)] }

theorem tick_withFetchWord (x : IWord) : ∃ clk, tick (State.reset.withFetchWord 64 x.toNat) = placedAt x clk := by
  refine ⟨(tick (State.reset.withFetchWord 64 x.toNat)).clk, ?_⟩
  simp only [State.withFetchWord, BitVec.ofNat_toNat, BitVec.setWidth_eq]
  rfl

section
variable (x : IWord) (clk : Double)

theorem placedAt_grp : grp (placedAt x clk) 3 = some (placedGroup x) := rfl

theorem issueTick_placedAt : issueTick (placedAt x clk) 3 = placedAt x clk := by
  have h : issueClk (placedAt x clk) (placedGroup x) = clk := by
    unfold issueClk clkMax
    exact if_neg (Nat.not_lt_zero _)
  rw [issueTick_some (placedAt_grp x clk), h]
  rfl

theorem translate_placedAt : translate (placedAt x clk) (whoOf (placedGroup x)) .fetch 0x10000 = .ok 0x10000 false := rfl

theorem viewRead_placedAt : viewRead (placedAt x clk) 0x10000 8 = bytesOf 8 x := by
  have hb : ∀ i, i < 8 → physByte (placedAt x clk) (0x10000 + i) = x.extractLsb' (8 * i) 8 := by
    intro i hi
    have hback : backed (placedAt x clk) (0x10000 + i) = true := by
      have : 0x10000 + i < hbmEnd := by unfold hbmEnd; omega
      simp [backed, this]
    have hmem : memByte (placedAt x clk).mem (0x10000 + i) = x.extractLsb' (8 * i) 8 := by
      refine (memByte_write [] 0x10000 (0x10000 + i) (bytesOf 8 x)).trans ?_
      rw [if_pos ⟨by omega, by simp [bytesOf]; omega⟩]
      simp [bytesOf, hi]
    rw [physByte, if_pos hback, hmem]
  exact List.map_congr_left fun i hi => hb i (List.mem_range.mp hi)

theorem fetch_placedAt : fetch (placedAt x clk) (placedGroup x) 0x10000 = .word x := by
  have hp : isPoison (placedAt x clk) .mem 0 0x10000 8 = false := rfl
  simp only [fetch, translate_placedAt, hp, viewRead_placedAt, ofBytes_bytesOf]
  rfl

theorem fetchTouch_placedAt : fetchTouch (placedAt x clk) (placedGroup x) 0x10000 = placedAt x clk := rfl

theorem atWord_placedAt : AtWord (placedAt x clk) 3 0 (placedGroup x) (placedSplit x) x :=
  ⟨placedAt_grp x clk, rfl, rfl, rfl, fetch_placedAt x clk⟩

theorem wordFetched_placedAt : wordFetched (placedAt x clk) 3 0 = placedAt x clk := by
  have hj : joinsHere (placedGroup x) (splitAt (placedGroup x) 0) = false := rfl
  simp only [wordFetched, placedAt_grp, hj]
  exact (if_neg Bool.false_ne_true).trans (fetchTouch_placedAt x clk)

theorem brkHit_placedAt (slots : List Nat) :
    brkHit (fetchTouch (placedAt x clk) (placedGroup x) 0x10000) (placedGroup x) (placedSplit x) slots = none := by
  rw [fetchTouch_placedAt]
  rfl

end

/-- Settles O2: the clock of the placement waits for nothing, the fetch of the word touches nothing, and nothing at the boundary stands
before it. -/
theorem placedWordRuns : Obligations.PlacedWordRuns := by
  intro x i hd s
  obtain ⟨clk, hs⟩ := tick_withFetchWord x
  have ht : issueTick (tick (State.reset.withFetchWord 64 x.toNat)) 3 = placedAt x clk := by rw [hs, issueTick_placedAt]
  have hrun := step_atWord (s := State.reset.withFetchWord 64 x.toNat) (gid := 3) (sp := 0) (g := placedGroup x) (t := placedSplit x)
    (x := x) (i := i) rfl (by rw [ht]; exact atWord_placedAt x clk) (by rw [ht]; exact brkHit_placedAt x clk _) rfl (decodeShape_of_word hd)
  rw [hrun, ht, wordFetched_placedAt, show s = placedAt x clk from hs]

theorem decodeWord_of_encode {i : Instr} {x : IWord} (hw : WellFormed i = true) (hx : encode i = some x) : decodeWord x = .ok i := by
  obtain ⟨y, hy, hd⟩ := decodeEncode i hw
  cases hx.symm.trans hy
  exact hd

/-- Settles O4: each sample is the encoder's word of a well-formed instruction. -/
theorem sampleWordsDecode : Obligations.SampleWordsDecode :=
  ⟨decodeWord_of_encode rfl rfl, decodeWord_of_encode rfl rfl, decodeWord_of_encode rfl rfl⟩

end Sys2Proof.Encoding
end

section
/-! PROOFS. nop, yield and the paired word: what each writes and leaves unchanged (R89, R90–R95, R149). -/

namespace Sys2Proof.Encoding

open Sys2Proof Sys2Proof.Machine Sys2Proof.Safety Sys2Proof.Laws

/-! ### Words that change their group only -/

theorem regGet_retireGrp (g : Group) (c : Go) (f l : Nat) : regGet (retireGrp g c) f l = regGet g f l := by
  rw [retireGrp_same]
  exact regGet_congr rfl rfl f l

theorem predGet_retireGrp (g : Group) (c : Go) (p l : Nat) : predGet (retireGrp g c) p l = predGet g p l := by
  rw [retireGrp_same]
  exact predGet_congr rfl p l

/-- A word whose own effect is a change of its group retires with it. -/
theorem runGroup_retired {i : Instr} {s : State} {c : Go} (h : pre i s = .go c) {f : Go → Group} (hsp : (f c).splits = c.g.splits)
    (hsu : (f c).suppress = c.g.suppress) :
    runGroup i s f = .next (retire s c (f c)) ∧ Retired s (retire s c (f c)) c (retireGrp (f c) c) := by
  obtain ⟨_, _, ht, _⟩ := pre_go h
  exact ⟨runGroup_go h f, retire_retired s c (f c) ht hsp hsu⟩

theorem yield_retired {w : FsWord} {s : State} {c : Go} (h : pre (.yield w) s = .go c) :
    ∃ s' g', exec (.yield w) s = .next s' ∧ Retired s s' c g' ∧
      g' = { c.g with age := 0, due := false, splits := g'.splits, suppress := g'.suppress, written := g'.written } := by
  obtain ⟨he, hr⟩ := runGroup_retired h (f := fun c => { c.g with age := 0, due := false }) rfl rfl
  exact ⟨_, _, he, hr, retireGrp_same _ _⟩

/-! ### One slot of a paired word (R90–R93) -/

/-- Writes by a destination field in the lanes of a mask. -/
theorem regGet_lanesSet_mask (g : Group) (r : Nat) (m : Mask) (val : Nat → Word) (f l : Nat) (hl : l < 32) :
    regGet (lanesSet g r (lanesOf m) val) f l =
      if f ≠ r ∨ r = 255 then regGet g f l
      else if r < 192 then (if m.getLsbD l then val l else regGet g f l)
      else match lowBit m with
        | some k => val k
        | none => regGet g f l :=
  regGet_lanesSet ⟨0, 0, g, {}, m, [], false⟩ r val f l hl

section
variable (g0 : Group) (t : Split) (h : Half)

/-- What field `f` of lane `l` reads after a slot that read the group `g0`, where it read `old` before. -/
def halfReg (f l : Nat) (old : Word) : Word :=
  if h.hop = 0 ∨ halfCmp h.hop.toNat = true ∨ f ≠ h.d.toNat ∨ f = 255 then old
  else if f < 192 then (if (halfMask g0 t h).getLsbD l then bits (halfLane g0 h l).v 0 32 else old)
  else match lowBit (halfMask g0 t h) with
    | some k => bits (halfLane g0 h k).v 0 32
    | none => old

/-- What predicate `p` of lane `l` reads after a slot, where it read `old` before. -/
def halfPrd (p l : Nat) (old : Bool) : Bool :=
  if h.hop ≠ 0 ∧ halfCmp h.hop.toNat = true ∧ p = h.imm.toNat ∧ (halfMask g0 t h).getLsbD l = true then bit (halfLane g0 h l).v 0 else old

/-- The flags a slot raises in lane `l`. -/
def halfFl (l : Nat) : FFlags := if (halfMask g0 t h).getLsbD l then (halfLane g0 h l).fl else 0

/-- No lane of the slot raises a flag that FPEN enables (R36). -/
def halfQuiet : Prop := ∀ l, l < 32 → (halfMask g0 t h).getLsbD l = true → (halfLane g0 h l).fl.setWidth 5 &&& g0.fpen = 0

theorem halfTraps_of_quiet (hq : halfQuiet g0 t h) : halfTraps g0 t h = false :=
  (noFpTrap_iff ⟨0, 0, g0, t, halfMask g0 t h, [], false⟩ _).mpr hq

variable (g : Group)

theorem halfSet_nop (h0 : h.hop = 0) : halfSet g0 g t h = g := if_pos h0
theorem halfSet_cmp (h0 : h.hop ≠ 0) (hc : halfCmp h.hop.toNat = true) : halfSet g0 g t h =
    predSet g h.imm.toNat (halfMask g0 t h) (maskOf (fun l => bit (halfLane g0 h l).v 0)) := by
  unfold halfSet
  rw [if_neg h0, if_pos hc]
theorem halfSet_reg (h0 : h.hop ≠ 0) (hc : halfCmp h.hop.toNat = false) : halfSet g0 g t h =
    lanesSet g h.d.toNat (lanesOf (halfMask g0 t h)) (fun l => bits (halfLane g0 h l).v 0 32) := by
  unfold halfSet
  rw [if_neg h0, if_neg (Bool.eq_false_iff.mp hc)]

theorem predSet_same (i : Nat) (act val : Mask) : predSet g i act val = { g with p := (predSet g i act val).p } := by
  unfold predSet; split <;> rfl

theorem halfSet_same : halfSet g0 g t h =
    { g with v := (halfSet g0 g t h).v, s := (halfSet g0 g t h).s, p := (halfSet g0 g t h).p } := by
  by_cases h0 : h.hop = 0
  · rw [halfSet_nop g0 t h g h0]
  · cases hc : halfCmp h.hop.toNat with
    | true => rw [halfSet_cmp g0 t h g h0 hc, predSet_same]
    | false => rw [halfSet_reg g0 t h g h0 hc, lanesSet_same]

theorem regGet_halfSet (f l : Nat) (hl : l < 32) : regGet (halfSet g0 g t h) f l = halfReg g0 t h f l (regGet g f l) := by
  by_cases h0 : h.hop = 0
  · simp [halfSet_nop g0 t h g h0, halfReg, h0]
  cases hc : halfCmp h.hop.toNat with
  | true =>
    rw [halfSet_cmp g0 t h g h0 hc, predSet_same]
    simp only [halfReg, hc, true_or, or_true, if_true]
    exact regGet_congr rfl rfl f l
  | false =>
    rw [halfSet_reg g0 t h g h0 hc, regGet_lanesSet_mask _ _ _ _ _ _ hl]
    by_cases hf : f = h.d.toNat
    · simp only [halfReg, h0, hc, hf]
      simp
    · simp [halfReg, hf]

theorem predGet_halfSet (p l : Nat) (hl : l < 32) : predGet (halfSet g0 g t h) p l = halfPrd g0 t h p l (predGet g p l) := by
  by_cases h0 : h.hop = 0
  · simp [halfSet_nop g0 t h g h0, halfPrd, h0]
  cases hc : halfCmp h.hop.toNat with
  | true =>
    have himm : h.imm.toNat < 47 := by have := h.imm.isLt; omega
    rw [halfSet_cmp g0 t h g h0 hc, predGet_predSet _ _ _ _ _ _ hl, maskOf_getLsbD _ _ hl]
    simp only [halfPrd, ne_eq, h0, not_false_eq_true, hc, himm, true_and]
  | false =>
    rw [halfSet_reg g0 t h g h0 hc, lanesSet_same]
    rw [halfPrd, if_neg (by simp [hc])]
    exact predGet_congr rfl p l

theorem halfFlags_same : halfFlags g0 g t h = { g with ff := (halfFlags g0 g t h).ff } := flagLanes_same _ _ _

theorem ff_halfFlags (l : Nat) (hl : l < 32) : tabGet 0 (halfFlags g0 g t h).ff l = tabGet 0 g.ff l ||| halfFl g0 t h l := by
  rw [halfFlags, ff_fold _ _ _ _ (lanesOf_nodup _)]
  simp [halfFl, mem_lanesOf, hl]

/-- The group after a slot that read `g0`: its flags, then its destination. -/
def halfDone : Group := halfSet g0 (halfFlags g0 g t h) t h

theorem halfDone_same : halfDone g0 t h g = { g with
    v := (halfDone g0 t h g).v, s := (halfDone g0 t h g).s, p := (halfDone g0 t h g).p, ff := (halfDone g0 t h g).ff } := by
  unfold halfDone
  rw [halfSet_same, halfFlags_same]

theorem regGet_halfDone (f l : Nat) (hl : l < 32) : regGet (halfDone g0 t h g) f l = halfReg g0 t h f l (regGet g f l) := by
  rw [halfDone, regGet_halfSet g0 t h _ f l hl, halfFlags_same]
  rfl

theorem predGet_halfDone (p l : Nat) (hl : l < 32) : predGet (halfDone g0 t h g) p l = halfPrd g0 t h p l (predGet g p l) := by
  rw [halfDone, predGet_halfSet g0 t h _ p l hl, halfFlags_same]
  rfl

theorem ff_halfDone (l : Nat) (hl : l < 32) : tabGet 0 (halfDone g0 t h g).ff l = tabGet 0 g.ff l ||| halfFl g0 t h l := by
  rw [halfDone, halfSet_same, ← ff_halfFlags g0 t h g l hl]

end

/-! ### The paired word (R93, R95) -/

/-- The group after both slots: slot B, like slot A, read the values before the word. -/
def pairDone (c : Go) (a b : Half) : Group := halfDone c.g c.t b (halfDone c.g c.t a c.g)

theorem exec_pairedWord {a b : Half} {low : BitVec 1} {s : State} {c : Go} (h : pre (.pairedWord a b low) s = .go c)
    (hb : brkHit s c.g c.t [2] = none) (ha : halfQuiet c.g c.t a) (hq : halfQuiet c.g c.t b) :
    exec (.pairedWord a b low) s = .next (retire s c (pairDone c a b)) := by
  have hexec : exec (.pairedWord a b low) s = execPairedWord a b low s := rfl
  simp only [hexec, execPairedWord, h, halfTraps_of_quiet _ _ _ ha, halfTraps_of_quiet _ _ _ hq, hb]
  rfl

theorem pairDone_same (c : Go) (a b : Half) : pairDone c a b = { c.g with
    v := (pairDone c a b).v, s := (pairDone c a b).s, p := (pairDone c a b).p, ff := (pairDone c a b).ff } := by
  unfold pairDone
  rw [halfDone_same c.g c.t b, halfDone_same c.g c.t a]

/-- Settles O18: yield and nop retire with their group; the paired word retires with the group after both slots, each of which read the
group before the word. -/
theorem pairedWordsAndYield : Obligations.PairedWordsAndYield := by
  refine ⟨fun w s c => ⟨nop_onlyAdvances, yield_retired⟩, ?_⟩
  intro a b low s c h hbrk m quiet reg prd ha hb
  obtain ⟨_, _, ht, _⟩ := pre_go h
  have hsame := pairDone_same c a b
  have hret := retireGrp_same (pairDone c a b) c
  refine ⟨_, retireGrp (pairDone c a b) c, exec_pairedWord h hbrk ha hb,
    retire_retired s c _ ht (by rw [hsame]) (by rw [hsame]), fun f l _ hl => ?_, fun p l _ hl => ?_, fun l hl => ?_, ?_⟩
  · have hr := regGet_halfDone c.g c.t b (halfDone c.g c.t a c.g) f l hl
    rw [regGet_halfDone c.g c.t a c.g f l hl] at hr
    exact (regGet_retireGrp _ c f l).trans hr
  · have hp := predGet_halfDone c.g c.t b (halfDone c.g c.t a c.g) p l hl
    rw [predGet_halfDone c.g c.t a c.g p l hl] at hp
    exact (predGet_retireGrp _ c p l).trans hp
  · have hff := ff_halfDone c.g c.t b (halfDone c.g c.t a c.g) l hl
    rw [ff_halfDone c.g c.t a c.g l hl] at hff
    rw [hret]
    exact hff
  · rw [hret, hsame]

end Sys2Proof.Encoding
end
